-- ==== Sys2Proof/Word.lean ====
section
/-! DEFINITION. The words of the LJPEG-RAW core: bytes of stream memory, samples of image memory, and the groups
of four that a pixel's lanes, the per-channel registers and the Huffman tables come in (00_scope R12, 10_state R45). -/

namespace Sys2Proof

/-- One byte of stream memory (20_memory R60), or one command word (30_encoding R80). -/
abbrev Byte := BitVec 8

/-- One unsigned 16-bit sample of image memory (20_memory R64). -/
abbrev Sample := BitVec 16

/-- A channel index, which is also the lane of a pixel that holds the channel (00_scope R12). -/
abbrev Lane := Fin 4

/-- Four like things, one for each channel: the lanes of a pixel, `CAM_MUL[0..3]`, `HT[0..3]`, ... -/
structure Quad (α : Type) where
  c0 : α
  c1 : α
  c2 : α
  c3 : α
deriving DecidableEq, Repr

/-- The element of channel `k`. -/
def Quad.get {α : Type} (q : Quad α) (k : Lane) : α :=
  match k with
  | 0 => q.c0
  | 1 => q.c1
  | 2 => q.c2
  | 3 => q.c3

/-- `q` with the element of channel `k` replaced. -/
def Quad.set {α : Type} (q : Quad α) (k : Lane) (v : α) : Quad α :=
  match k with
  | 0 => { q with c0 := v }
  | 1 => { q with c1 := v }
  | 2 => { q with c2 := v }
  | 3 => { q with c3 := v }

/-- The four values of a function of the channel. -/
def Quad.ofFn {α : Type} (f : Lane → α) : Quad α := ⟨f 0, f 1, f 2, f 3⟩

/-- The same value in all four channels. -/
def Quad.all {α : Type} (v : α) : Quad α := ⟨v, v, v, v⟩

end Sys2Proof
end

