-- ==== Sys2Proof/Config.lean ====
section
/-! DEFINITION. What an implementation of the core fixes: the parameters that 00_scope section 4 fixes by number, the
open parameters the spec hands to the model (00_scope R7), and the free values, which nothing in Lean can evaluate. -/

namespace Sys2Proof

/-- `DIAG_STEP`: `sqrt(0.5)` in Q16 (00_scope section 4, 43_geometry R183). -/
def Config.diagStep : Nat := 46341

/-- `HUFF_MAXLEN`: the longest Huffman code (00_scope section 4). -/
def Config.huffMaxLen : Nat := 16

/-- The largest symbol of `HUFF_ALPHABET` (00_scope section 4). -/
def Config.maxSymbol : Nat := 16

/-- The gray-world headroom below the clip level (42_exposure R164). -/
def Config.headroom : Nat := 25

/-- The value the scaled ceiling must reach (42_exposure R166). -/
def Config.shiftTarget : Nat := 0x8000

/-- `CLIP_MAX` when clipping is disabled (42_exposure R168). -/
def Config.noClipCeiling : Sample := 0xFFFF

/-- One gradient term `(y1, x1, y2, x2, w, D)` of `VNG_TERMS` (41_demosaic R146). An offset is held with 2 added to it,
so that exactly the legal offsets -2..+2 can be written down (00_scope R7; 93_implementation_defined U15). -/
structure VngTerm where
  y1 : Fin 5
  x1 : Fin 5
  y2 : Fin 5
  x2 : Fin 5
  w : Fin 2
  dirs : BitVec 8
deriving DecidableEq, Repr

/-- A term written with the spec's own offsets. -/
def vngTerm (y1 x1 y2 x2 : Int) (w : Nat) (dirs : BitVec 8) : VngTerm :=
  { y1 := Fin.ofNat 5 (y1 + 2).toNat, x1 := Fin.ofNat 5 (x1 + 2).toNat,
    y2 := Fin.ofNat 5 (y2 + 2).toNat, x2 := Fin.ofNat 5 (x2 + 2).toNat,
    w := Fin.ofNat 2 w, dirs := dirs }

/-- The open parameters of 00_scope R7: `IMG_CAP` pixels in a bank, `STR_CAP` bytes of stream memory, and `VNG_TERMS`. -/
structure Params where
  imgCap : Nat
  strCap : Nat
  vngTerms : List VngTerm
  /-- MODEL's own parameter, DESIGN CHOICE (notes/assumptions/22.md): the host can write SBIT by its number 0x17. It cannot in the machine of
  `State.reset` (10_state R45, R46); a core in which it can is what 70_reset R239 may also be read to say. -/
  sbitWritable : Bool
deriving DecidableEq, Repr

/-- The domains of the capacities: 1 ≤ IMG_CAP ≤ 2^32 - 1 and STR_CAP ≤ 2^32 - 2 (92_eei_decisions D5, D6). -/
def Params.wf (p : Params) : Bool :=
  decide (1 ≤ p.imgCap) && decide (p.imgCap ≤ 2 ^ 32 - 1) && decide (p.strCap ≤ 2 ^ 32 - 2)

/-- The candidate value of `VNG_TERMS` that 93_implementation_defined G7 records and 95_test_vectors V41 and V43 use. -/
def Config.vngCandidate : List VngTerm :=
  [vngTerm (-2) (-2) 0 (-1) 0 0x80, vngTerm (-2) (-2) 0 0 1 0x80,
   vngTerm (-2) (-1) (-1) 0 0 0x80, vngTerm (-2) (-1) 0 (-1) 0 0x01,
   vngTerm (-2) (-1) 0 0 0 0x81, vngTerm (-2) (-1) 0 1 1 0x80,
   vngTerm (-2) 0 0 (-1) 0 0x03, vngTerm (-2) 0 0 0 1 0x01] ++
  [vngTerm (-2) 0 0 1 0 0x81, vngTerm (-2) 1 (-1) 0 0 0x02,
   vngTerm (-2) 1 0 (-1) 1 0x02, vngTerm (-2) 1 0 0 0 0x03,
   vngTerm (-2) 1 0 1 0 0x01, vngTerm (-2) 2 0 0 1 0x02,
   vngTerm (-2) 2 0 1 0 0x02, vngTerm (-1) (-2) (-1) 0 0 0x40] ++
  [vngTerm (-1) (-2) 0 (-1) 0 0x80, vngTerm (-1) (-2) 1 (-1) 0 0x80,
   vngTerm (-1) (-2) 1 0 1 0x80, vngTerm (-1) (-1) (-1) 1 0 0x44,
   vngTerm (-1) (-1) 1 (-2) 0 0x20, vngTerm (-1) (-1) 1 (-1) 0 0x11,
   vngTerm (-1) (-1) 1 0 0 0x99, vngTerm (-1) (-1) 1 1 1 0x88] ++
  [vngTerm (-1) 0 (-1) 2 0 0x04, vngTerm (-1) 0 0 (-1) 0 0x22,
   vngTerm (-1) 0 0 1 0 0x88, vngTerm (-1) 0 1 (-2) 1 0x20,
   vngTerm (-1) 0 1 (-1) 0 0x33, vngTerm (-1) 0 1 0 1 0x11,
   vngTerm (-1) 0 1 1 0 0x99, vngTerm (-1) 0 1 2 1 0x08] ++
  [vngTerm (-1) 1 1 (-1) 1 0x22, vngTerm (-1) 1 1 0 0 0x33,
   vngTerm (-1) 1 1 1 0 0x11, vngTerm (-1) 1 1 2 0 0x08,
   vngTerm (-1) 2 0 1 0 0x02, vngTerm (-1) 2 1 0 1 0x02,
   vngTerm (-1) 2 1 1 0 0x02, vngTerm 0 (-2) 0 0 1 0x40] ++
  [vngTerm 0 (-1) 0 1 1 0x44, vngTerm 0 (-1) 1 (-2) 0 0x20,
   vngTerm 0 (-1) 1 0 0 0x88, vngTerm 0 (-1) 2 (-2) 0 0x20,
   vngTerm 0 (-1) 2 (-1) 0 0x10, vngTerm 0 (-1) 2 0 0 0x18,
   vngTerm 0 (-1) 2 1 1 0x08, vngTerm 0 0 0 2 1 0x04] ++
  [vngTerm 0 0 2 (-2) 1 0x20, vngTerm 0 0 2 (-1) 0 0x30,
   vngTerm 0 0 2 0 1 0x10, vngTerm 0 0 2 1 0 0x18,
   vngTerm 0 0 2 2 1 0x08, vngTerm 0 1 1 0 0 0x22,
   vngTerm 0 1 1 2 0 0x08, vngTerm 0 1 2 (-1) 1 0x20] ++
  [vngTerm 0 1 2 0 0 0x30, vngTerm 0 1 2 1 0 0x10,
   vngTerm 0 1 2 2 0 0x08, vngTerm 1 (-2) 1 0 0 0x40,
   vngTerm 1 (-1) 1 1 0 0x44, vngTerm 1 0 1 2 0 0x04,
   vngTerm 1 0 2 (-1) 0 0x20, vngTerm 1 0 2 1 0 0x08]

/-- DESIGN CHOICE (notes/assumptions/2.md and 22.md): the parameters of the machine that `State.reset` describes. -/
def Config.params : Params :=
  { imgCap := 16777216, strCap := 16777216, vngTerms := Config.vngCandidate, sbitWritable := false }

/-- Free value (93_implementation_defined U1): the byte that stream memory holds at an address nothing has written since
the hardware reset numbered `epoch`. -/
opaque Config.unwrittenByte (epoch addr : Nat) : Byte

/-- Free value (93_implementation_defined U1): the sample that image bank `bank` holds at an address nothing has written
since the hardware reset numbered `epoch`. -/
opaque Config.unwrittenSample (epoch bank addr : Nat) : Sample

/-- Free value (93_implementation_defined U2): what the host's `draw`-th read of something else than STATUS returns when it is made
while BUSY = 1. -/
opaque Config.busyRead (draw : Nat) : BitVec 48

end Sys2Proof
end

