-- ==== Sys2Proof/Syntax.lean ====
section
/-! DEFINITION. The sixteen operations of spec/opcode_table.json: ten commands and six bitstream elements (00_scope R2),
and the Huffman table, which is the code book that gives DIFF its encoding (10_state R41). -/

namespace Sys2Proof

/-- One row of spec/opcode_table.json each. A command has no operands (30_encoding R80). A segment carries its
length field and its payload as they stand in the stream (30_encoding R87); a DIFF carries its code bits and its
extra bits, first bit first (30_encoding R95). -/
inductive Instr where
  /-- LJSTART, 0x01 (40_ljpeg R112). -/
  | ljstart
  /-- LJROW, 0x02 (40_ljpeg R118). -/
  | ljrow
  /-- BILIN, 0x10 (41_demosaic R141). -/
  | bilin
  /-- VNGREF, 0x11 (41_demosaic R144). -/
  | vngref
  /-- EXPSETUP, 0x20 (42_exposure R161). -/
  | expsetup
  /-- EXPAPPLY, 0x21 (42_exposure R170). -/
  | expapply
  /-- CMATRIX, 0x22 (42_exposure R172). -/
  | cmatrix
  /-- DIAGRS, 0x30 (43_geometry R181). -/
  | diagrs
  /-- PERMUTE, 0x31 (43_geometry R188). -/
  | permute
  /-- INIT, 0xFF (60_exceptions R208). -/
  | init
  /-- SOI, FF D8 (30_encoding R88). -/
  | soi
  /-- SOF3, FF C3 L payload (30_encoding R90). -/
  | sof3 (len : BitVec 16) (payload : List Byte)
  /-- DHT, FF C4 L payload (30_encoding R91). -/
  | dht (len : BitVec 16) (payload : List Byte)
  /-- SOS, FF DA L payload (30_encoding R93). -/
  | sos (len : BitVec 16) (payload : List Byte)
  /-- STUFF, FF 00 in entropy-coded data (30_encoding R94). -/
  | stuff
  /-- DIFF, code bits and extra bits (30_encoding R95, R96). -/
  | diff (code extra : List Bool)
deriving DecidableEq, Repr

/-- One triple (len, code, value) of a Huffman table (10_state R41). -/
structure HuffEntry where
  len : Nat
  code : Nat
  value : Nat
deriving DecidableEq, Repr

/-- A defined Huffman table, its triples in the order 30_encoding R92 assigns them. -/
abbrev HuffTable := List HuffEntry

/-- The triple's code, as bits, starts the other triple's code. -/
def HuffEntry.isPrefixOf (e f : HuffEntry) : Bool :=
  decide (e.len ≤ f.len) && f.code >>> (f.len - e.len) == e.code

/-- A triple within the bounds of 10_state R41: 1 ≤ len ≤ 16, code < 2^len, value ≤ 16. -/
def HuffEntry.wf (e : HuffEntry) : Bool :=
  decide (1 ≤ e.len) && decide (e.len ≤ Config.huffMaxLen) && decide (e.code < 2 ^ e.len) && decide (e.value ≤ Config.maxSymbol)

/-- The table is what 10_state R41 says a table is: every triple in bounds, and no code the prefix of another. -/
def HuffTable.wf : HuffTable → Bool
  | [] => true
  | e :: t => e.wf && t.all (fun f => !(e.isPrefixOf f) && !(f.isPrefixOf e)) && HuffTable.wf t

end Sys2Proof
end

