-- ==== Sys2Proof/WellFormed.lean ====
section
/-! DEFINITION. Which terms of `Instr` an encoding of 30_encoding can express. An operand value that the spec makes a
fault (a bad SOF3 precision, a bad table) is well formed: executing it raises that fault. -/

namespace Sys2Proof

/-- A segment's length field counts itself and the payload (30_encoding R87): at least 2, and exactly the
payload's length and 2 more. -/
def segmentWellFormed (len : BitVec 16) (payload : List Byte) : Bool :=
  decide (2 ≤ len.toNat) && decide (payload.length + 2 = len.toNat)

/-- A DIFF has 1 to 16 code bits and 0 to 16 extra bits (30_encoding R86, R95). -/
def diffWellFormed (code extra : List Bool) : Bool :=
  decide (1 ≤ code.length) && decide (code.length ≤ Config.huffMaxLen) && decide (extra.length ≤ Config.maxSymbol)

/-- The instruction is one that the encodings of 30_encoding can spell. -/
def Instr.wellFormed : Instr → Bool
  | .ljstart => true
  | .ljrow => true
  | .bilin => true
  | .vngref => true
  | .expsetup => true
  | .expapply => true
  | .cmatrix => true
  | .diagrs => true
  | .permute => true
  | .init => true
  | .soi => true
  | .sof3 len payload => segmentWellFormed len payload
  | .dht len payload => segmentWellFormed len payload
  | .sos len payload => segmentWellFormed len payload
  | .stuff => true
  | .diff code extra => diffWellFormed code extra

end Sys2Proof
end

