-- ==== Sys2Proof/Decode.lean ====
section
/-! DEFINITION. From bits to instructions and back: command words (30_encoding R80), the byte-aligned elements of the
stream (R87 to R94) and DIFF (R95). Every decoder is total and rejects by name. -/

namespace Sys2Proof

/-- Why bits are no instruction. -/
inductive DecodeError where
  /-- None of the ten command words of 30_encoding R80. -/
  | unknownCommand (word : Byte)
  /-- The byte at this offset from the element's first is needed and is not there. -/
  | truncated (offset : Nat)
  /-- Two bytes that are no marker the place accepts (30_encoding R88, R97), first × 256 + second. -/
  | badMarker (marker : Nat)
  /-- The bits do not hold a whole DIFF. -/
  | shortDiff (bits : Nat)
deriving DecidableEq, Repr

/-- The command a word written to CMD names (30_encoding R80). -/
def decodeCommand (w : Byte) : Except DecodeError Instr :=
  match w.toNat with
  | 0x01 => .ok .ljstart
  | 0x02 => .ok .ljrow
  | 0x10 => .ok .bilin
  | 0x11 => .ok .vngref
  | 0x20 => .ok .expsetup
  | 0x21 => .ok .expapply
  | 0x22 => .ok .cmatrix
  | 0x30 => .ok .diagrs
  | 0x31 => .ok .permute
  | 0xFF => .ok .init
  | _ => .error (.unknownCommand w)

/-- A big-endian 16-bit field (20_memory R63). -/
def bigEndian (hi lo : Byte) : BitVec 16 := hi ++ lo

/-- The SOI that must open the stream (30_encoding R88): both bytes are read before they are compared. -/
def decodeStart (bytes : List Byte) : Except DecodeError (Instr × List Byte) :=
  match bytes with
  | m0 :: m1 :: rest =>
    if m0 = 0xFF ∧ m1 = 0xD8 then .ok (.soi, rest) else .error (.badMarker (bigEndian m0 m1).toNat)
  | short => .error (.truncated short.length)

/-- The length field of the segment whose marker stands at the head of `bytes`, 0 where it is not there. -/
def segmentLength (bytes : List Byte) : Nat :=
  match bytes with
  | _ :: _ :: l0 :: l1 :: _ => (bigEndian l0 l1).toNat
  | _ => 0

/-- The segment with a given second marker byte, where the header accepts it (30_encoding R97). -/
def segmentOf (m1 : Byte) (len : BitVec 16) (payload : List Byte) : Option Instr :=
  match m1.toNat with
  | 0xC3 => some (.sof3 len payload)
  | 0xC4 => some (.dht len payload)
  | 0xDA => some (.sos len payload)
  | _ => none

/-- The payload of a segment of length `len`, taken from the bytes after its length field. The whole segment must be
there: the byte looked for is its last one (40_ljpeg R112, "touch"). A length below 2 has no payload; executing
it raises E_MARKER. -/
def takePayload (len : BitVec 16) (rest : List Byte) : Except DecodeError (List Byte × List Byte) :=
  if rest.length + 4 < len.toNat + 2 then .error (.truncated (len.toNat + 1))
  else .ok (rest.take (len.toNat - 2), rest.drop (len.toNat - 2))

/-- A header segment: the marker, then its length, then its payload, read in that order (40_ljpeg R112; 30_encoding R87, R97). -/
def decodeSegment (bytes : List Byte) : Except DecodeError (Instr × List Byte) :=
  match bytes with
  | m0 :: m1 :: afterMarker =>
    if m0 = 0xFF ∧ (segmentOf m1 0 []).isSome then
      match afterMarker with
      | l0 :: l1 :: rest =>
        match takePayload (bigEndian l0 l1) rest with
        | .ok (payload, tail) =>
          match segmentOf m1 (bigEndian l0 l1) payload with
          | some i => .ok (i, tail)
          | none => .error (.badMarker (bigEndian m0 m1).toNat)
        | .error e => .error e
      | short => .error (.truncated (short.length + 2))
    else .error (.badMarker (bigEndian m0 m1).toNat)
  | short => .error (.truncated short.length)

/-- The stuffed pair of entropy-coded data (30_encoding R94). -/
def decodeStuff (bytes : List Byte) : Except DecodeError (Instr × List Byte) :=
  match bytes with
  | m0 :: m1 :: rest =>
    if m0 = 0xFF ∧ m1 = 0x00 then .ok (.stuff, rest) else .error (.badMarker (bigEndian m0 m1).toNat)
  | short => .error (.truncated short.length)

/-- Any byte-aligned element, whatever the place: the second byte tells which (30_encoding R86). -/
def decodeElement (bytes : List Byte) : Except DecodeError (Instr × List Byte) :=
  match decodeStart bytes with
  | .ok r => .ok r
  | .error _ =>
    match decodeStuff bytes with
    | .ok r => .ok r
    | .error _ => decodeSegment bytes

/-- The number that bits spell, most significant first (20_memory R62). -/
def bitsValue (bits : List Bool) : Nat := bits.foldl (fun v b => 2 * v + b.toNat) 0

/-- The value of the leaf that a code reaches in a table (30_encoding R95). -/
def HuffTable.lookup (t : HuffTable) (code : List Bool) : Option Nat :=
  (t.find? (fun e => e.len == code.length && e.code == bitsValue code)).map (·.value)

/-- The walk of 30_encoding R95, bit by bit from the root until a leaf: the code, the leaf's value and the bits after the
code. `k` bits are already known to reach no leaf, and `fuel` more may be tried. -/
def splitCodeFrom (t : HuffTable) (bits : List Bool) : (fuel k : Nat) → Option (List Bool × Nat × List Bool)
  | 0, _ => none
  | fuel + 1, k =>
    if bits.length ≤ k then none
    else
      match t.lookup (bits.take (k + 1)) with
      | some n => some (bits.take (k + 1), n, bits.drop (k + 1))
      | none => splitCodeFrom t bits fuel (k + 1)

/-- The first code of 1 to 16 bits at the head of `bits`. -/
def splitCode (t : HuffTable) (bits : List Bool) : Option (List Bool × Nat × List Bool) :=
  splitCodeFrom t bits Config.huffMaxLen 0

/-- What the bits read so far say of the DIFF they belong to. -/
inductive DiffScan where
  /-- More bits are needed. -/
  | more
  /-- The DIFF is known. -/
  | found (code extra : List Bool)
deriving DecidableEq, Repr

/-- Recognise a DIFF for a channel with table `t` and bit depth `maxBits` (40_ljpeg R118). The extra bits are not asked for when
the code's value exceeds the depth (E_BITLEN precedes them, 40_ljpeg R119), nor when sixteen bits reach no leaf
(E_HUFFCODE, 30_encoding R95): executing such a DIFF raises the fault. -/
def scanDiff (t : HuffTable) (maxBits : Nat) (bits : List Bool) : DiffScan :=
  match splitCode t bits with
  | some (code, n, rest) =>
    if maxBits < n then .found code []
    else if rest.length < n then .more
    else .found code (rest.take n)
  | none => if bits.length < Config.huffMaxLen then .more else .found (bits.take Config.huffMaxLen) []

/-- The DIFF at the head of a bit string, and the bits after it. -/
def decodeDiff (t : HuffTable) (maxBits : Nat) (bits : List Bool) : Except DecodeError (Instr × List Bool) :=
  match scanDiff t maxBits bits with
  | .more => .error (.shortDiff bits.length)
  | .found code extra => .ok (.diff code extra, bits.drop (code.length + extra.length))

/-- The words of an instruction, in the unit its format is written in. -/
inductive Code where
  /-- A command word. -/
  | word (w : Byte)
  /-- The bytes of a byte-aligned element, the first at the lowest address. -/
  | bytes (l : List Byte)
  /-- The bits of a DIFF, first bit first. -/
  | bits (l : List Bool)
deriving DecidableEq, Repr

/-- The bytes of a segment (30_encoding R87). -/
def encodeSegment (m1 : Byte) (len : BitVec 16) (payload : List Byte) : List Byte :=
  0xFF :: m1 :: len.extractLsb' 8 8 :: len.extractLsb' 0 8 :: payload

/-- The encoding of an instruction (30_encoding R80, R86 to R95). -/
def encode : Instr → Code
  | .ljstart => .word 0x01
  | .ljrow => .word 0x02
  | .bilin => .word 0x10
  | .vngref => .word 0x11
  | .expsetup => .word 0x20
  | .expapply => .word 0x21
  | .cmatrix => .word 0x22
  | .diagrs => .word 0x30
  | .permute => .word 0x31
  | .init => .word 0xFF
  | .soi => .bytes [0xFF, 0xD8]
  | .sof3 len payload => .bytes (encodeSegment 0xC3 len payload)
  | .dht len payload => .bytes (encodeSegment 0xC4 len payload)
  | .sos len payload => .bytes (encodeSegment 0xDA len payload)
  | .stuff => .bytes [0xFF, 0x00]
  | .diff code extra => .bits (code ++ extra)

/-- Decode a whole encoding; `t` and `maxBits` are the table and the bit depth of the channel a DIFF belongs to. -/
def decode (t : HuffTable) (maxBits : Nat) : Code → Except DecodeError Instr
  | .word w => decodeCommand w
  | .bytes l => (decodeElement l).map (·.1)
  | .bits l => (decodeDiff t maxBits l).map (·.1)

/-- The bytes of a table word of `nbits` bits: 16-bit words, the first the least significant, each stored most significant byte
first (20_memory R63). -/
def tableBytes (nbits w : Nat) : List Byte :=
  (List.range (nbits / 8)).map (fun k => BitVec.ofNat 8 (w >>> (16 * (k / 2) + 8 * (1 - k % 2))))

/-- The bytes of a table word with the zero bytes its own length field still asks for. -/
def tableElement (nbits w : Nat) : List Byte :=
  let given := tableBytes nbits w
  let head := given ++ List.replicate (4 - given.length) 0
  head ++ List.replicate (segmentLength head + 2 - head.length) 0

/-- The instruction the decoder reads from the bits `w` of a row of spec/opcode_table.json: a command word for a row of up to
8 bits, a byte-aligned element for a wider one. -/
def decodeTableWord (nbits w : Nat) : Option Instr :=
  if nbits ≤ 8 then (decodeCommand (BitVec.ofNat 8 w)).toOption
  else ((decodeElement (tableElement nbits w)).toOption).map (·.1)

end Sys2Proof
end

