-- ==== Sys2Proof/Machine/State.lean ====
section
/-! DEFINITION. The whole state of the LJPEG-RAW core as plain data: the register file of 10_state R45, the Huffman tables
(R41), stream memory and the two image banks (20_memory R60, R64), and, marked as the model's own, what the model needs
to hold the host's actions, the inside of a running command, the open parameters and the free values. -/

namespace Sys2Proof.Machine

/-- A memory as the cells that have been written since the last hardware reset, addresses strictly rising. An
unlisted address holds no written value (notes/assumptions/1.md). -/
abbrev Memory (α : Type) := List (Nat × α)

/-- The canonical form of a memory: addresses strictly rising, so none twice. -/
def Memory.wf {α : Type} : Memory α → Bool
  | [] => true
  | [_] => true
  | c :: d :: m => decide (c.1 < d.1) && Memory.wf (d :: m)

/-- The two image banks (20_memory R64). -/
inductive Bank where
  | bank0
  | bank1
deriving DecidableEq, Repr

/-- The number IMG_SEL gives a bank (10_state R43). -/
def Bank.index : Bank → Nat
  | .bank0 => 0
  | .bank1 => 1

/-- The bank that is not this one. -/
def Bank.other : Bank → Bank
  | .bank0 => .bank1
  | .bank1 => .bank0

/-- The colour matrix CMAT[k][j], row k producing output channel k (10_state R38). -/
structure Cmat where
  row0 : Quad (BitVec 32)
  row1 : Quad (BitVec 32)
  row2 : Quad (BitVec 32)
deriving DecidableEq, Repr

/-- A value of the stream cursor (SPOS, SBIT) (10_state R24). -/
structure Cursor where
  spos : BitVec 32
  sbit : BitVec 3
deriving DecidableEq, Repr

/-- Where the core is inside an LJ command (the MODEL's own field, notes/assumptions/5.md). Between commands it is `idle`; the
other values are the local variables of the pseudocode of 40_ljpeg R112 and R118. -/
inductive Phase where
  /-- No LJ command is in progress. -/
  | idle
  /-- LJSTART wants SOI at the stream cursor; `loaded` is the cursor the command started with (R112). -/
  | start (loaded : Cursor)
  /-- LJSTART wants a segment at the stream cursor; `sof`: the SOF3 has been executed (R112). -/
  | header (loaded : Cursor) (sof : Bool)
  /-- LJROW: the samples of `rowbuf` decoded so far, newest first, and the bits of the present DIFF read so far, oldest first
  (R118; 10_state R49). -/
  | scan (row : List Sample) (bits : List Bool)
deriving DecidableEq, Repr

/-- What the host can do to the core while it is idle (20_memory R70, 10_state R46, 70_reset R230). -/
inductive HostOp where
  /-- Write a register by its number; number 0 is CMD (10_state R44, R45). -/
  | writeReg (number : Nat) (value : BitVec 32)
  /-- Read a register by its number. -/
  | readReg (number : Nat)
  /-- Write a byte of stream memory. -/
  | writeByte (addr : Nat) (value : Byte)
  /-- Read a byte of stream memory. -/
  | readByte (addr : Nat)
  /-- Write a sample of the active image bank. -/
  | writeSample (addr : Nat) (value : Sample)
  /-- Read a sample of the active image bank. -/
  | readSample (addr : Nat)
  /-- Pull the hardware reset (70_reset R230). -/
  | hardwareReset
deriving DecidableEq, Repr

/-- Reasons for the machine to stop. The twelve faults of 60_exceptions R201 are not among them: taking one is a next state
(60_exceptions R204). -/
inductive Fault where
  /-- Raised by a host read or write of stream memory at or beyond STR_CAP, an address 20_memory R60 says does not exist
  (notes/assumptions/9.md). Safe: the spec gives such an access no effect. -/
  | noSuchByte (addr : Nat)
  /-- Raised by a host read or write of image memory at or beyond 4 × IMG_CAP, an address 20_memory R64 says does not exist
  (notes/assumptions/9.md). Safe: the spec gives such an access no effect. -/
  | noSuchSample (addr : Nat)
deriving DecidableEq, Repr

/-- Reasons to give an instruction or a step no meaning. -/
inductive Refusal where
  /-- Raised by an arm of `exec` whose instruction has no meaning yet. Safe. -/
  | notModelled (mnemonic : String)
  /-- Raised by `exec` of a bitstream element in a state where no LJ command could meet it (notes/assumptions/7.md); no step from a
  fetched element ends here. Safe: the spec gives an element no effect outside its place. -/
  | elementOutOfPlace
  /-- Raised by `step` when IMG_CAP or STR_CAP is outside its domain (93_implementation_defined U16, notes/assumptions/10.md). Safe: the spec
  itself says refuse. -/
  | parameterOutOfDomain
deriving DecidableEq, Repr

/-- The state of the core. The fields down to `gwCnt` are the registers of 10_state R45 in the order of its table. -/
structure State where
  /-- CMD: the opcode of the command last accepted; the host reads it as 0 (R44; notes/assumptions/12.md). -/
  cmd : BitVec 8
  /-- STATUS: bit 0 BUSY, 1 DONE, 2 FAULT, 3 WARN, 4 LJ_READY (R26). -/
  status : BitVec 5
  /-- ERR_CODE (R27). -/
  errCode : BitVec 8
  /-- ERR_STAGE (R27). -/
  errStage : BitVec 8
  /-- ERR_INFO (R27). -/
  errInfo : BitVec 32
  /-- ERR_POS (R27). -/
  errPos : BitVec 32
  /-- WARN_FLAGS (R28). -/
  warnFlags : BitVec 4
  /-- WARN_COUNT (R28). -/
  warnCount : BitVec 32
  /-- CTRL: bit 0 QUICK, 1 NOCLIP, 2 STUFF, 3 WB_MODE, 4 DIAG_EN (R29). -/
  ctrl : BitVec 5
  /-- WIDTH (R30). -/
  width : BitVec 16
  /-- HEIGHT (R31). -/
  height : BitVec 16
  /-- COLORS (R32). -/
  colors : BitVec 3
  /-- CFA (R33). -/
  cfa : BitVec 32
  /-- BLACK (R34). -/
  black : BitVec 16
  /-- MAXIMUM (R34). -/
  maximum : BitVec 16
  /-- CLIP_MAX (R35). -/
  clipMax : BitVec 16
  /-- SHIFT (R35). -/
  shift : BitVec 4
  /-- ORIENT: bit 2 transpose, 1 row-flip, 0 column-flip (R39; 30_encoding R84). -/
  orient : BitVec 3
  /-- DIAG_MAG (R39). -/
  diagMag : BitVec 16
  /-- XMAG (R39). -/
  xmag : BitVec 16
  /-- YMAG (R39). -/
  ymag : BitVec 16
  /-- STREAM_LEN (R40). -/
  streamLen : BitVec 32
  /-- SPOS, the byte address of the stream cursor (R24). -/
  spos : BitVec 32
  /-- SBIT, the bits of that byte already consumed (R24). -/
  sbit : BitVec 3
  /-- LJ_BITS (R40). -/
  ljBits : BitVec 5
  /-- LJ_WIDE (R40). -/
  ljWide : BitVec 16
  /-- LJ_HIGH (R40). -/
  ljHigh : BitVec 16
  /-- LJ_CLRS (R40). -/
  ljClrs : BitVec 3
  /-- LJ_ROW (R25). -/
  ljRow : BitVec 16
  /-- IMG_SEL (R43). -/
  imgSel : BitVec 1
  /-- CAM_MUL[0..3] (R36). -/
  camMul : Quad (BitVec 32)
  /-- PREMUL[0..3] (R37). -/
  premul : Quad (BitVec 32)
  /-- CMAT[0..2][0..3] (R38). -/
  cmat : Cmat
  /-- VPRED[0..3] (R40). -/
  vpred : Quad (BitVec 16)
  /-- GW_SUM[0..3] (R42). -/
  gwSum : Quad (BitVec 48)
  /-- GW_CNT[0..3] (R42). -/
  gwCnt : Quad (BitVec 32)
  /-- HT[0..3], `none` where undefined (R41). -/
  ht : Quad (Option HuffTable)
  /-- Stream memory STR (20_memory R60). -/
  str : List Host.Cell
  /-- Image bank IMG0 (20_memory R64). -/
  img0 : Memory Sample
  /-- Image bank IMG1 (20_memory R64). -/
  img1 : Memory Sample
  /-- MODEL's own: the inside of a running LJ command (notes/assumptions/5.md). -/
  phase : Phase
  /-- MODEL's own: the host's actions still to come, oldest first (notes/assumptions/3.md). -/
  inputs : List HostOp
  /-- MODEL's own: what the host's last read returned (notes/assumptions/4.md). -/
  hostData : BitVec 48
  /-- MODEL's own: how many hardware resets there have been; selects the free values of unwritten memory
  (notes/assumptions/1.md). -/
  epoch : Nat
  /-- MODEL's own: how many free values host reads have drawn (notes/assumptions/11.md). -/
  draws : Nat
  /-- The open parameters, which no step changes (00_scope R7, 10_state R54; notes/assumptions/2.md). -/
  params : Params
deriving DecidableEq, Repr

/-- The machine right after hardware reset (10_state R53, 70_reset R231): every register 0, the tables undefined, nothing in
memory written; no host action waiting. -/
def State.reset : State where
  cmd := 0
  status := 0
  errCode := 0
  errStage := 0
  errInfo := 0
  errPos := 0
  warnFlags := 0
  warnCount := 0
  ctrl := 0
  width := 0
  height := 0
  colors := 0
  cfa := 0
  black := 0
  maximum := 0
  clipMax := 0
  shift := 0
  orient := 0
  diagMag := 0
  xmag := 0
  ymag := 0
  streamLen := 0
  spos := 0
  sbit := 0
  ljBits := 0
  ljWide := 0
  ljHigh := 0
  ljClrs := 0
  ljRow := 0
  imgSel := 0
  camMul := Quad.all 0
  premul := Quad.all 0
  cmat := ⟨Quad.all 0, Quad.all 0, Quad.all 0⟩
  vpred := Quad.all 0
  gwSum := Quad.all 0
  gwCnt := Quad.all 0
  ht := Quad.all none
  str := []
  img0 := []
  img1 := []
  phase := .idle
  inputs := []
  hostData := 0
  epoch := 0
  draws := 0
  params := Config.params

end Sys2Proof.Machine
end

