-- ==== Sys2Proof/Machine/Flags.lean ====
section
/-! DEFINITION. The flags: the five bits of STATUS (10_state R26), the five fields of CTRL (R29), the three bits of ORIENT
(30_encoding R84), and their updates. -/

namespace Sys2Proof.Machine

/-- `v` with bit `i` made `b`. -/
def setBit {n : Nat} (v : BitVec n) (i : Nat) (b : Bool) : BitVec n :=
  if b then v ||| BitVec.twoPow n i else v &&& ~~~(BitVec.twoPow n i)

/-- STATUS.BUSY (10_state R26). -/
def State.busy (s : State) : Bool := s.status.getLsbD 0

/-- STATUS.DONE (10_state R26). -/
def State.done (s : State) : Bool := s.status.getLsbD 1

/-- STATUS.FAULT (10_state R26). -/
def State.faulted (s : State) : Bool := s.status.getLsbD 2

/-- STATUS.WARN (10_state R26). -/
def State.warned (s : State) : Bool := s.status.getLsbD 3

/-- STATUS.LJ_READY (10_state R26). -/
def State.ljReady (s : State) : Bool := s.status.getLsbD 4

/-- Write STATUS.BUSY. -/
def State.setBusy (b : Bool) (s : State) : State := { s with status := setBit s.status 0 b }

/-- Write STATUS.DONE. -/
def State.setDone (b : Bool) (s : State) : State := { s with status := setBit s.status 1 b }

/-- Write STATUS.FAULT. -/
def State.setFaulted (b : Bool) (s : State) : State := { s with status := setBit s.status 2 b }

/-- Write STATUS.WARN. -/
def State.setWarned (b : Bool) (s : State) : State := { s with status := setBit s.status 3 b }

/-- Write STATUS.LJ_READY. -/
def State.setLjReady (b : Bool) (s : State) : State := { s with status := setBit s.status 4 b }

/-- CTRL.QUICK: VNGREF does nothing (10_state R29). -/
def State.quick (s : State) : Bool := s.ctrl.getLsbD 0

/-- CTRL.NOCLIP: EXPSETUP sets CLIP_MAX to 0xFFFF (10_state R29). -/
def State.noClip (s : State) : Bool := s.ctrl.getLsbD 1

/-- CTRL.STUFF: the bit reader is in stuffed mode (10_state R29). -/
def State.stuffed (s : State) : Bool := s.ctrl.getLsbD 2

/-- CTRL.WB_MODE: EXPSETUP uses gray-world statistics (10_state R29). -/
def State.grayWorld (s : State) : Bool := s.ctrl.getLsbD 3

/-- CTRL.DIAG_EN: DIAGRS resamples (10_state R29). -/
def State.diagEnabled (s : State) : Bool := s.ctrl.getLsbD 4

/-- ORIENT bit 2, transpose (30_encoding R84). -/
def State.transposes (s : State) : Bool := s.orient.getLsbD 2

/-- ORIENT bit 1, row-flip (30_encoding R84). -/
def State.flipsRows (s : State) : Bool := s.orient.getLsbD 1

/-- ORIENT bit 0, column-flip (30_encoding R84). -/
def State.flipsColumns (s : State) : Bool := s.orient.getLsbD 0

end Sys2Proof.Machine
end

