-- ==== Sys2Proof/Machine/Ops.lean ====
section
/-! DEFINITION. The named operations every meaning is made of: reading and writing memory cells, stream bytes and samples;
taking a fault (60_exceptions R204) and INIT, which alone leaves it (R208); warnings (R210); the checks commands begin
with (R202, R203, R207; 40_ljpeg R113); and the life of a command word (30_encoding R81). -/

namespace Sys2Proof.Machine

/-! ## Memory -/

/-- The value written at address `a`, if any. -/
def Memory.read {α : Type} : Memory α → Nat → Option α
  | [], _ => none
  | (b, v) :: m, a => if a = b then some v else Memory.read m a

/-- Write one cell, keeping the addresses rising. -/
def Memory.write {α : Type} : Memory α → Nat → α → Memory α
  | [], a, v => [(a, v)]
  | (b, w) :: m, a, v =>
    if a = b then (a, v) :: m
    else if a < b then (a, v) :: (b, w) :: m
    else (b, w) :: Memory.write m a v

/-- Write the cells `base + k`, `k < n`, for which `f k` gives a value. The values come from `f` alone, so every read that `f`
stands for was made before the first write (20_memory R73). -/
def Memory.rewrite {α : Type} (base : Nat) (f : Nat → Option α) : Nat → Memory α → Memory α
  | 0, m => m
  | n + 1, m =>
    Memory.rewrite base f n
      (match f n with
       | some v => m.write (base + n) v
       | none => m)

/-- The byte of stream memory at `a`, a free value where nothing has written it (20_memory R60, R68). -/
def State.strByte (s : State) (a : Nat) : Byte :=
  (Memory.read s.str a).getD (Config.unwrittenByte s.epoch a)

/-- `STR[a]` as the core reads it: no byte at or beyond STREAM_LEN (20_memory R60). -/
def State.streamByte (s : State) (a : Nat) : Option Byte :=
  if a < s.streamLen.toNat then some (s.strByte a) else none

/-- The valid stream bytes from `a` on, at most `n` of them. -/
def State.streamWindow (s : State) : (a n : Nat) → List Byte
  | _, 0 => []
  | a, n + 1 =>
    match s.streamByte a with
    | some b => b :: s.streamWindow (a + 1) n
    | none => []

/-- The bank IMG_SEL selects (10_state R43). -/
def State.activeBank (s : State) : Bank := if s.imgSel = 0 then .bank0 else .bank1

/-- The written cells of a bank. -/
def State.bank (s : State) : Bank → Memory Sample
  | .bank0 => s.img0
  | .bank1 => s.img1

/-- Replace the cells of a bank. -/
def State.setBank (s : State) (b : Bank) (m : Memory Sample) : State :=
  match b with
  | .bank0 => { s with img0 := m }
  | .bank1 => { s with img1 := m }

/-- The sample at address `a` of a bank, a free value where nothing has written it (20_memory R64, R68). -/
def State.sampleIn (s : State) (b : Bank) (a : Nat) : Sample :=
  (Memory.read (s.bank b) a).getD (Config.unwrittenSample s.epoch b.index a)

/-- `IMG[a]`, the sample at address `a` of the active bank (20_memory R64). -/
def State.sample (s : State) (a : Nat) : Sample := s.sampleIn s.activeBank a

/-- Write the samples `base + k`, `k < n`, of a bank for which `f k` gives a value. -/
def State.rewriteBank (s : State) (b : Bank) (base n : Nat) (f : Nat → Option Sample) : State :=
  s.setBank b ((s.bank b).rewrite base f n)

/-! ## Faults and warnings -/

/-- The causes of 60_exceptions R201. -/
inductive Cause where
  | eMarker
  | eHufftab
  | eHuffcode
  | eBitlen
  | eEos
  | eSof
  | eSample
  | eResource
  | eCfa
  | eMeta
  | eIllcmd
  | eSeq
deriving DecidableEq, Repr

/-- The code ERR_CODE holds (60_exceptions R201). -/
def Cause.code : Cause → BitVec 8
  | .eMarker => 1
  | .eHufftab => 2
  | .eHuffcode => 3
  | .eBitlen => 4
  | .eEos => 5
  | .eSof => 6
  | .eSample => 7
  | .eResource => 8
  | .eCfa => 9
  | .eMeta => 10
  | .eIllcmd => 11
  | .eSeq => 12

/-- `Fault(code, info)` of the pseudocode (60_exceptions R204). -/
structure Raised where
  cause : Cause
  info : Int
deriving DecidableEq, Repr

/-- The cursor as a fault finds it: inside LJSTART, whose pseudocode writes SPOS only at SOS, the one the command was started with (40_ljpeg R112;
95_test_vectors V20; notes/assumptions/6.md); elsewhere where the reading stands (60_exceptions R205). -/
def State.faultCursor (s : State) : Cursor :=
  match s.phase with
  | .start loaded => loaded
  | .header loaded _ => loaded
  | .idle => ⟨s.spos, s.sbit⟩
  | .scan _ _ => ⟨s.spos, s.sbit⟩

/-- The cursor moved to a value. -/
def State.setCursor (s : State) (c : Cursor) : State := { s with spos := c.spos, sbit := c.sbit }

/-- Taking a fault (60_exceptions R204): ERR_* are latched, ERR_STAGE from the opcode of the running command and ERR_POS from
SPOS; FAULT is set, LJ_READY and BUSY are cleared; the command ends. Nothing else changes (R205). -/
def raise (f : Raised) (s : State) : State :=
  { ((((s.setCursor s.faultCursor).setFaulted true).setLjReady false).setBusy false) with
    errCode := f.cause.code
    errStage := s.cmd
    errInfo := BitVec.ofInt 32 f.info
    errPos := s.faultCursor.spos
    phase := .idle }

/-- `warn(c)` (60_exceptions R210). -/
def warn (c : Lane) (s : State) : State :=
  { s.setWarned true with
    warnFlags := setBit s.warnFlags c.val true
    warnCount := BitVec.ofNat 32 (min (s.warnCount.toNat + 1) (2 ^ 32 - 1)) }

/-- INIT's effect (60_exceptions R208): every register 0, the tables undefined; memories (and what is the model's own) as they
were. -/
def State.initialise (s : State) : State :=
  { State.reset with
    str := s.str
    img0 := s.img0
    img1 := s.img1
    inputs := s.inputs
    hostData := s.hostData
    epoch := s.epoch
    draws := s.draws
    params := s.params }

/-- Hardware reset (70_reset R230, R231): as INIT, and the memories hold unspecified values again. -/
def State.hardwareReset (s : State) : State :=
  { State.reset with
    inputs := s.inputs
    hostData := s.hostData
    epoch := s.epoch + 1
    draws := s.draws
    params := s.params }

/-! ## The checks commands begin with -/

/-- The legal values of COLORS (10_state R32). -/
def legalColors (n : Nat) : Bool := n == 1 || n == 3 || n == 4

/-- The number of pixels of the declared image. -/
def State.pixels (s : State) : Nat := s.width.toNat * s.height.toNat

/-- `CheckImageRegs` (60_exceptions R202). -/
def imageRegsFault (s : State) : Option Raised :=
  if s.width = 0 ∨ s.height = 0 then some ⟨.eMeta, 0⟩
  else if legalColors s.colors.toNat = false then some ⟨.eMeta, s.colors.toNat⟩
  else if s.params.imgCap < s.pixels then some ⟨.eResource, s.pixels⟩
  else none

/-- Field `i` of the CFA word, bits 2i+1 down to 2i (10_state R33). -/
def cfaField (cfa : BitVec 32) (i : Nat) : Lane := (cfa.extractLsb' (2 * i) 2).toFin

/-- `CheckCfa` (60_exceptions R203): the lowest field that is no channel. -/
def cfaFault (s : State) : Option Raised :=
  ((List.range 16).find? (fun i => decide (s.colors.toNat ≤ (cfaField s.cfa i).val))).map (fun (i : Nat) => ⟨.eCfa, i⟩)

/-- `CheckStream` (60_exceptions R207). -/
def streamFault (s : State) : Option Raised :=
  if s.params.strCap < s.streamLen.toNat then some ⟨.eResource, s.streamLen.toNat⟩ else none

/-- `CheckFrameMatchesImage` (40_ljpeg R113). -/
def frameFault (s : State) : Option Raised :=
  if s.ljWide.toNat * s.ljClrs.toNat ≠ s.width.toNat ∨ s.ljHigh ≠ s.height then
    some ⟨.eMeta, (s.ljWide.toNat * s.ljClrs.toNat : Nat)⟩
  else none

/-- The check that CLIP_MAX has been loaded (41_demosaic R152; 42_exposure R170, R172). -/
def clipFault (s : State) : Option Raised :=
  if s.clipMax = 0 then some ⟨.eMeta, 0⟩ else none

/-! ## The life of a command -/

/-- What a command's own rule does: the state it reaches, and the fault it raises there, if any. -/
abbrev Body := State → State × Option Raised

/-- A body that makes its checks before it writes anything. -/
def checked (check : State → Option Raised) (effect : State → State) : Body := fun s =>
  match check s with
  | some f => (s, some f)
  | none => (effect s, none)

/-- The start of a command (30_encoding R81): DONE cleared, BUSY set, the word noted. -/
def State.begin (w : BitVec 8) (s : State) : State :=
  { (s.setDone false).setBusy true with cmd := w, phase := .idle }

/-- The completion of a command (30_encoding R81): DONE set, BUSY cleared. -/
def State.complete (s : State) : State := (s.setDone true).setBusy false

/-- What follows a body: a raised fault is taken; a command that has reached its end completes; one that is between two
elements of its stream stays where it is. -/
def settle (r : State × Option Raised) : State :=
  match r with
  | (s, some f) => raise f s
  | (s, none) => if s.phase = .idle then s.complete else s

/-- A write of the word `w` to CMD that names a command with this body (30_encoding R81): ignored while BUSY (10_state R46) and while
a fault is latched (60_exceptions R206). -/
def command (w : BitVec 8) (body : Body) (s : State) : State :=
  if s.busy then s
  else if s.faulted then s
  else settle (body (s.begin w))

/-- A write of a word that names no command (30_encoding R81, R82). -/
def illegalCommand (w : BitVec 8) (s : State) : State :=
  command w (fun t => (t, some ⟨.eIllcmd, w.toNat⟩)) s

end Sys2Proof.Machine
end

