-- ==== Sys2Proof/Machine/Operands.lean ====
section
/-! DEFINITION. The operand forms: the effective addresses of 20_memory R76, the CFA lookup (10_state R33), the fixed-point and
signed readings of 00_scope sections 5 and 6, and the bit reader of the entropy-coded data (40_ljpeg R116). -/

namespace Sys2Proof.Machine

/-! ## Pixels -/

/-- The channel of an index, taken modulo 4 where a state no run reaches gives a larger one (notes/assumptions/17.md). -/
def laneOf (n : Nat) : Lane := Fin.ofNat 4 n

/-- `FC(r, c)`, the native channel of the pixel at row `r`, column `c` (10_state R33). -/
def State.fc (s : State) (r c : Nat) : Lane := cfaField s.cfa (4 * (r % 4) + c % 4)

/-- The sample address of `PIX(r,c)[k]` (20_memory R65). -/
def State.pixAddr (s : State) (r c : Nat) (k : Lane) : Nat := 4 * (r * s.width.toNat + c) + k.val

/-- `PIX(r,c)[k]` (20_memory R65). -/
def State.pix (s : State) (r c : Nat) (k : Lane) : Nat := (s.sample (s.pixAddr r c k)).toNat

/-- The image with lane `k` of pixel `p` replaced wherever `rule p k` gives a value. The rule is a function of the image before the
command (20_memory R73). -/
def State.rewriteImage (s : State) (rule : Nat → Lane → Option Sample) : State :=
  s.rewriteBank s.activeBank 0 (4 * s.pixels) (fun a => rule (a / 4) (laneOf (a % 4)))

/-- The rule given by rows and columns instead of linear indices (20_memory R65). -/
def State.byCoordinates (s : State) (rule : Nat → Nat → Lane → Option Sample) : Nat → Lane → Option Sample :=
  fun p k => rule (p / s.width.toNat) (p % s.width.toNat) k

/-! ## Numbers -/

/-- `v >> 16`: the floor of v / 2^16, toward minus infinity (00_scope section 5). -/
def floorQ16 (v : Int) : Int := v / 65536

/-- `clamp(v, lo, hi)` for a lower bound 0 (00_scope section 5). -/
def clampTo (hi : Nat) (v : Int) : Nat := (min (max v 0) hi).toNat

/-- `clamp(v, 0, x[CLIP_MAX])` as a sample. -/
def State.clip (s : State) (v : Int) : Sample := BitVec.ofNat 16 (clampTo s.clipMax.toNat v)

/-- A coefficient of the colour matrix, SQ15.16, read with `sext_32` (10_state R38). -/
def Cmat.coeff (m : Cmat) (k : Fin 3) (j : Lane) : Int :=
  match k with
  | 0 => (m.row0.get j).toInt
  | 1 => (m.row1.get j).toInt
  | 2 => (m.row2.get j).toInt

/-- `DiffValue(n, raw)` (30_encoding R96). -/
def diffValue (n raw : Nat) : Int :=
  if n = 0 then 0
  else if raw.testBit (n - 1) then raw
  else (raw : Int) - (2 ^ n - 1)

/-! ## The stream cursor and the bit reader -/

/-- A header element of `n` bytes has been executed: the cursor stands after it (10_state R24, 30_encoding R98). -/
def State.skip (n : Nat) (s : State) : State := { s with spos := s.spos + BitVec.ofNat 32 n }

/-- Step the cursor over one bit; `pair`: the byte it stands in is a stuffed FF, which is passed together with its 00
(40_ljpeg R116, 30_encoding R94). -/
def State.advance (s : State) (pair : Bool) : State :=
  if s.sbit.toNat < 7 then { s with sbit := s.sbit + 1 }
  else { s with sbit := 0, spos := s.spos + (if pair then 2 else 1) }

/-- `NextBit()` (40_ljpeg R116): the next bit and the state with the cursor past it, or the fault it raises. -/
def nextBit (s : State) : Except Raised (Bool × State) :=
  match s.streamByte s.spos.toNat with
  | none => .error ⟨.eEos, s.spos.toNat⟩
  | some b =>
    let pair := s.stuffed && b == 0xFF
    let found := .ok (b.getLsbD (7 - s.sbit.toNat), s.advance pair)
    if pair && s.sbit == 0 then
      match s.streamByte (s.spos.toNat + 1) with
      | none => .error ⟨.eEos, (s.spos.toNat + 1 : Nat)⟩
      | some follow => if follow = 0 then found else .error ⟨.eMarker, (0xFF00 + follow.toNat : Nat)⟩
    else found

/-- Read `n` bits, first bit first (`GetBits(n)` is `bitsValue` of them, 40_ljpeg R116). -/
def takeBits : Nat → State → State × Except Raised (List Bool)
  | 0, s => (s, .ok [])
  | n + 1, s =>
    match nextBit s with
    | .error f => (s, .error f)
    | .ok (b, s1) =>
      match takeBits n s1 with
      | (s2, .ok bits) => (s2, .ok (b :: bits))
      | (s2, .error f) => (s2, .error f)

/-- The channel of the DIFF that comes after `done` samples of a row (40_ljpeg R118). -/
def State.diffChannel (s : State) (done : Nat) : Lane := laneOf (done % s.ljClrs.toNat)

/-- The table HT[c]; an undefined one, which LJROW never meets (40_ljpeg R112), has no leaf. -/
def State.table (s : State) (c : Lane) : HuffTable := (s.ht.get c).getD []

/-- What `bits` say of the DIFF after `done` samples of the row. -/
def State.scanDiff (s : State) (done : Nat) (bits : List Bool) : DiffScan :=
  Sys2Proof.scanDiff (s.table (s.diffChannel done)) s.ljBits.toNat bits

/-- Read bits until they say which DIFF it is (30_encoding R95, 40_ljpeg R118), leaving the cursor after the last bit taken. A DIFF
has at most 16 code bits and as many extra bits as LJ_BITS holds, so `fuel` of 48 bits is never used up. -/
def readDiff (done : Nat) : (fuel : Nat) → List Bool → State → State × Except Raised (List Bool × List Bool)
  | 0, bits, s => (s, .ok (bits, []))
  | fuel + 1, bits, s =>
    match s.scanDiff done bits with
    | .found code extra => (s, .ok (code, extra))
    | .more =>
      match nextBit s with
      | .error f => (s, .error f)
      | .ok (b, s1) => readDiff done fuel (bits ++ [b]) s1

/-- The fuel that always suffices for `readDiff`. -/
def diffFuel : Nat := 64

end Sys2Proof.Machine
end

