-- ==== Sys2Proof/Machine/Demosaic.lean ====
section
/-! DEFINITION. The DM unit: BILIN (41_demosaic R141 to R143) and VNGREF (R144 to R154). -/

namespace Sys2Proof.Machine

/-- The checks of the commands that evaluate FC on the image registers alone (60_exceptions R202, R203). -/
def mosaicFault (s : State) : Option Raised := (imageRegsFault s).or (cfaFault s)

/-! ## BILIN -/

/-- The eight offsets of the 3×3 window, each coordinate with 1 added to it (41_demosaic R141). -/
def windowOffsets : List (Nat × Nat) := [(0, 0), (0, 1), (0, 2), (1, 0), (1, 2), (2, 0), (2, 1), (2, 2)]

/-- The shift of a neighbour: 1 where it is orthogonal, 0 where it is diagonal (41_demosaic R141). -/
def windowShift (o : Nat × Nat) : Nat := if o.1 = 1 ∨ o.2 = 1 then 1 else 0

/-- The neighbours of pixel (row, col) whose native channel is `c`: each one's row, column and shift. -/
def windowOf (s : State) (row col : Nat) (c : Lane) : List (Nat × Nat × Nat) :=
  (windowOffsets.filter (fun o => s.fc (row + o.1 - 1) (col + o.2 - 1) == c)).map
    (fun o => (row + o.1 - 1, col + o.2 - 1, windowShift o))

/-- `sum[c]` (41_demosaic R141). -/
def windowSum (s : State) (row col : Nat) (c : Lane) : Nat :=
  ((windowOf s row col c).map (fun n => s.pix n.1 n.2.1 c <<< n.2.2)).sum

/-- `wsum[c]` (41_demosaic R141). -/
def windowWeight (s : State) (row col : Nat) (c : Lane) : Nat :=
  ((windowOf s row col c).map (fun n => 1 <<< n.2.2)).sum

/-- What BILIN writes into lane `c` of pixel (row, col): nothing on the 1-pixel border, in the native lane, in a lane that is no channel,
and where the window has no sample of the channel (41_demosaic R141 to R143). -/
def bilinLane (s : State) (row col : Nat) (c : Lane) : Option Sample :=
  if 1 ≤ row ∧ row + 2 ≤ s.height.toNat ∧ 1 ≤ col ∧ col + 2 ≤ s.width.toNat
      ∧ c.val < s.colors.toNat ∧ c ≠ s.fc row col ∧ windowWeight s row col c ≠ 0 then
    some (BitVec.ofNat 16 (windowSum s row col c / windowWeight s row col c))
  else none

/-- BILIN (41_demosaic R141). It reads native lanes and writes missing ones, so the order of the pixels does not matter (R143). -/
def bilinBody : Body := checked mosaicFault (fun s => s.rewriteImage (s.byCoordinates (bilinLane s)))

/-- The command BILIN (41_demosaic R141, 30_encoding R81). -/
def execBilin (s : State) : Host.Outcome State Fault Refusal := .next (command 0x10 bilinBody s)

/-! ## VNGREF -/

/-- The eight directions, clockwise from N, each coordinate of the unit offset with 1 added to it (41_demosaic R145). -/
def directions : List (Nat × Nat) := [(0, 1), (0, 2), (1, 2), (2, 2), (2, 1), (2, 0), (1, 0), (0, 0)]

/-- A coordinate moved by an offset that is held with 2 added to it; at distance 2 or more from the edge it is never negative
(41_demosaic R154). -/
def moved (x : Nat) (o : Fin 5) : Nat := x + o.val - 2

/-- |a - b| of two naturals. -/
def gap (a b : Nat) : Nat := max a b - min a b

/-- What a term adds to the gradients of its directions at pixel (row, col), or nothing where the term is skipped (41_demosaic R146). -/
def termDelta (s : State) (row col : Nat) (t : VngTerm) : Option Nat :=
  let k := s.fc (moved row t.y1) (moved col t.x1)
  let diag := if s.fc row (col + 1) = k ∧ s.fc (row + 1) col = k then 2 else 1
  if s.fc (moved row t.y2) (moved col t.x2) ≠ k then none
  else if gap t.y1.val t.y2.val = diag ∧ gap t.x1.val t.x2.val = diag then none
  else some (gap (s.pix (moved row t.y1) (moved col t.x1) k) (s.pix (moved row t.y2) (moved col t.x2) k) <<< t.w.val)

/-- The terms used at pixel (row, col), each with its directions and what it adds. -/
def usedTerms (s : State) (row col : Nat) : List (BitVec 8 × Nat) :=
  s.params.vngTerms.filterMap (fun t => (termDelta s row col t).map (fun d => (t.dirs, d)))

/-- `g[i]` from the used terms (41_demosaic R146). -/
def gradientOf (used : List (BitVec 8 × Nat)) (i : Nat) : Nat :=
  ((used.filter (fun u => u.1.getLsbD i)).map (·.2)).sum

/-- `g[0..7]` (41_demosaic R146). -/
def gradients (s : State) (row col : Nat) : List Nat :=
  let used := usedTerms s row col
  (List.range 8).map (gradientOf used)

/-- The least of the gradients. -/
def leastOf (g : List Nat) : Nat := g.foldl min (g.headD 0)

/-- The greatest of the gradients. -/
def greatestOf (g : List Nat) : Nat := g.foldl max 0

/-- `th` (41_demosaic R147). -/
def threshold (g : List Nat) : Nat := leastOf g + (greatestOf g - leastOf g) / 2

/-- The directions whose gradient is not above the threshold (41_demosaic R144). -/
def selected (g : List Nat) : List Nat := (List.range 8).filter (fun i => decide (g.getD i 0 ≤ threshold g))

/-- `Contribution(row, col, i, c)` (41_demosaic R148). -/
def contribution (s : State) (row col i : Nat) (c : Lane) : Nat :=
  let o := directions.getD i (1, 1)
  let adjRow := row + o.1 - 1
  let adjCol := col + o.2 - 1
  let farRow := row + 2 * o.1 - 2
  let farCol := col + 2 * o.2 - 2
  let f := s.fc row col
  if c = f ∧ s.fc adjRow adjCol ≠ f ∧ s.fc farRow farCol = f then
    (s.pix row col f + s.pix farRow farCol f) >>> 1
  else s.pix adjRow adjCol c

/-- `S[c]` over the selected directions (41_demosaic R144). -/
def contributionSum (s : State) (row col : Nat) (dirs : List Nat) (c : Lane) : Nat :=
  (dirs.map (fun i => contribution s row col i c)).sum

/-- The refined value of lane `c` from the selected directions (41_demosaic R150). -/
def refinedLane (s : State) (row col : Nat) (dirs : List Nat) (c : Lane) : Sample :=
  let f := s.fc row col
  let native := contributionSum s row col dirs f
  if c = f then BitVec.ofNat 16 (native / dirs.length)
  else s.clip (s.pix row col f + ((contributionSum s row col dirs c : Int) - native).tdiv dirs.length)

/-- What VNGREF writes into lane `c` of pixel (row, col): nothing on the 2-pixel border, in a lane that is no channel, and where all
gradients are 0 (41_demosaic R144, R147, R153). -/
def vngLane (s : State) (row col : Nat) (c : Lane) : Option Sample :=
  if 2 ≤ row ∧ row + 3 ≤ s.height.toNat ∧ 2 ≤ col ∧ col + 3 ≤ s.width.toNat ∧ c.val < s.colors.toNat then
    let g := gradients s row col
    if greatestOf g = 0 then none else some (refinedLane s row col (selected g) c)
  else none

/-- The checks of VNGREF; CLIP_MAX is not examined in quick mode (41_demosaic R144, R151, R152). -/
def vngFault (s : State) : Option Raised :=
  (mosaicFault s).or (if s.quick then none else clipFault s)

/-- VNGREF (41_demosaic R144): every read is from the image before the command. -/
def vngrefBody : Body :=
  checked vngFault (fun s => if s.quick then s else s.rewriteImage (s.byCoordinates (vngLane s)))

/-- The command VNGREF (41_demosaic R144, 30_encoding R81). -/
def execVngref (s : State) : Host.Outcome State Fault Refusal := .next (command 0x11 vngrefBody s)

end Sys2Proof.Machine
end

