-- ==== Sys2Proof/Machine/Exposure.lean ====
section
/-! DEFINITION. The EX unit: EXPSETUP (42_exposure R161 to R169), EXPAPPLY (R170) and CMATRIX (R172). -/

namespace Sys2Proof.Machine

/-! ## EXPSETUP -/

/-- `ceil0`, the unscaled ceiling (42_exposure R161). -/
def State.ceiling (s : State) : Nat := s.maximum.toNat - s.black.toNat

/-- The lowest channel with a zero camera multiplier (42_exposure R163). -/
def zeroMultiplier (s : State) : Option Nat :=
  (List.range s.colors.toNat).find? (fun c => decide (s.camMul.get (laneOf c) = 0))

/-- The checks of EXPSETUP (42_exposure R161 to R163). -/
def expsetupFault (s : State) : Option Raised :=
  (imageRegsFault s).or
    (if s.maximum.toNat ≤ s.black.toNat then some ⟨.eMeta, s.maximum.toNat⟩
     else if s.grayWorld then none
     else (zeroMultiplier s).map (fun (c : Nat) => ⟨.eMeta, c⟩))

/-- What a sample of the gray-world scan counts as; nothing for a zero lane and for one in the headroom (42_exposure R164). -/
def grayValue (ceil0 black v : Nat) : Option Nat :=
  if v = 0 then none
  else if (ceil0 : Int) - Config.headroom < (v : Int) - black then none
  else some (v - black)

/-- Sum and count of channel `c` over the first `n` pixels (42_exposure R164). -/
def grayScan (s : State) (c : Lane) : (n : Nat) → Nat × Nat
  | 0 => (0, 0)
  | n + 1 =>
    let r := grayScan s c n
    match grayValue s.ceiling s.black.toNat (s.sample (4 * n + c.val)).toNat with
    | some v => (r.1 + v, r.2 + 1)
    | none => r

/-- Sum and count of a channel over the image, 0 for a lane that is no channel (42_exposure R164). -/
def grayTotals (s : State) (c : Lane) : Nat × Nat :=
  if c.val < s.colors.toNat then grayScan s c s.pixels else (0, 0)

/-- `warn(c)` for every channel of the list that has a zero sum, in order (42_exposure R165). -/
def warnZeroSums (s : State) : List Lane → State
  | [] => s
  | c :: cs => warnZeroSums (if c.val < s.colors.toNat ∧ s.gwSum.get c = 0 then warn c s else s) cs

/-- `GrayWorldScan` and its warnings (42_exposure R164, R165). -/
def grayWorldScan (s : State) : State :=
  let totals := Quad.ofFn (grayTotals s)
  warnZeroSums
    { s with
      gwSum := Quad.ofFn (fun c => BitVec.ofNat 48 (totals.get c).1)
      gwCnt := Quad.ofFn (fun c => BitVec.ofNat 32 (totals.get c).2) }
    [0, 1, 2, 3]

/-- `m[c]` as a fraction, or none (42_exposure R161, R163, R165); `s` is the state after the scan. -/
def multiplier (s : State) (c : Lane) : Option (Nat × Nat) :=
  if s.colors.toNat ≤ c.val then none
  else if s.grayWorld then
    if s.gwSum.get c = 0 then none else some ((s.gwCnt.get c).toNat, (s.gwSum.get c).toNat)
  else some ((s.camMul.get c).toNat, 65536)

/-- The smaller of two fractions, the first where they are equal. -/
def smallerFraction (x y : Nat × Nat) : Nat × Nat := if y.1 * x.2 < x.1 * y.2 then y else x

/-- `mmin` (42_exposure R161). -/
def leastMultiplier (s : State) : Option (Nat × Nat) :=
  match ([0, 1, 2, 3] : List Lane).filterMap (multiplier s) with
  | [] => none
  | x :: xs => some (xs.foldl smallerFraction x)

/-- `s`, the smallest shift that brings the ceiling to 0x8000 or above (42_exposure R166). -/
def shiftFor (ceil0 : Nat) : Nat :=
  ((List.range 16).find? (fun k => decide (Config.shiftTarget ≤ ceil0 <<< k))).getD 15

/-- PREMUL[c] (42_exposure R165, R167). -/
def premulFor (s : State) (shift : Nat) (c : Lane) : BitVec 32 :=
  if s.colors.toNat ≤ c.val then 0
  else
    match multiplier s c, leastMultiplier s with
    | some m, some least => BitVec.ofNat 32 (min (((m.1 * least.2) <<< (16 + shift)) / (m.2 * least.1)) (2 ^ 32 - 1))
    | _, _ => BitVec.ofNat 32 (1 <<< (16 + shift))

/-- The registers EXPSETUP computes from the multipliers (42_exposure R161, R166 to R168). -/
def setupRegisters (s : State) : State :=
  let k := shiftFor s.ceiling
  { s with
    shift := BitVec.ofNat 4 k
    premul := Quad.ofFn (premulFor s k)
    clipMax := if s.noClip then Config.noClipCeiling else BitVec.ofNat 16 (s.ceiling <<< k) }

/-- EXPSETUP (42_exposure R161). -/
def expsetupBody : Body :=
  checked expsetupFault (fun s => setupRegisters (if s.grayWorld then grayWorldScan s else s))

/-- The command EXPSETUP (42_exposure R161, 30_encoding R81). -/
def execExpsetup (s : State) : Host.Outcome State Fault Refusal := .next (command 0x20 expsetupBody s)

/-! ## EXPAPPLY -/

/-- The checks of EXPAPPLY and CMATRIX (42_exposure R170, R172). -/
def correctFault (s : State) : Option Raised := (imageRegsFault s).or (clipFault s)

/-- What EXPAPPLY writes into lane `c` of pixel `p`: multiply, floor, clamp (42_exposure R170). -/
def expapplyLane (s : State) (p : Nat) (c : Lane) : Option Sample :=
  if c.val < s.colors.toNat then
    some (s.clip (floorQ16 (((s.sample (4 * p + c.val)).toNat - s.black.toNat : Int) * (s.premul.get c).toNat)))
  else none

/-- EXPAPPLY (42_exposure R170). -/
def expapplyBody : Body := checked correctFault (fun s => s.rewriteImage (expapplyLane s))

/-- The command EXPAPPLY (42_exposure R170, 30_encoding R81). -/
def execExpapply (s : State) : Host.Outcome State Fault Refusal := .next (command 0x21 expapplyBody s)

/-! ## CMATRIX -/

/-- The exact dot product of row `k` with the first COLORS lanes of pixel `p` (42_exposure R172). -/
def matrixProduct (s : State) (p : Nat) (k : Fin 3) : Int :=
  ((List.range s.colors.toNat).map
    (fun j => s.cmat.coeff k (laneOf j) * ((s.sample (4 * p + j)).toNat : Int))).sum

/-- What CMATRIX writes into lane `k` of pixel `p`; lane 3 is left alone (42_exposure R172). -/
def cmatrixLane (s : State) (p : Nat) (k : Lane) : Option Sample :=
  match k with
  | 0 => some (s.clip (floorQ16 (matrixProduct s p 0)))
  | 1 => some (s.clip (floorQ16 (matrixProduct s p 1)))
  | 2 => some (s.clip (floorQ16 (matrixProduct s p 2)))
  | 3 => none

/-- CMATRIX (42_exposure R172): all lanes of a pixel are read before any is written. -/
def cmatrixBody : Body := checked correctFault (fun s => s.rewriteImage (cmatrixLane s))

/-- The command CMATRIX (42_exposure R172, 30_encoding R81). -/
def execCmatrix (s : State) : Host.Outcome State Fault Refusal := .next (command 0x22 cmatrixBody s)

end Sys2Proof.Machine
end

