-- ==== Sys2Proof/Machine/Geometry.lean ====
section
/-! DEFINITION. The GN unit: DIAGRS (43_geometry R181 to R186) and PERMUTE (R187 to R190). -/

namespace Sys2Proof.Machine

/-! ## DIAGRS -/

/-- `wide` (43_geometry R183). -/
def State.diagWide (s : State) : Nat := (s.diagMag.toNat <<< 16) / Config.diagStep

/-- `high` (43_geometry R183). -/
def State.diagHigh (s : State) : Nat := ((s.height.toNat - s.diagMag.toNat) <<< 16) / Config.diagStep

/-- The checks of a resampling DIAGRS on its magnitude and output size (43_geometry R181, R182). -/
def diagSizeFault (s : State) : Option Raised :=
  if s.diagMag = 0 ∨ s.height ≤ s.diagMag then some ⟨.eMeta, s.diagMag.toNat⟩
  else if s.diagWide = 0 ∨ s.diagHigh = 0 ∨ 65535 < s.diagWide ∨ 65535 < s.diagHigh then some ⟨.eMeta, s.diagMag.toNat⟩
  else if s.params.imgCap < s.diagWide * s.diagHigh then some ⟨.eResource, (s.diagWide * s.diagHigh : Nat)⟩
  else none

/-- The checks of DIAGRS (43_geometry R181). -/
def diagrsFault (s : State) : Option Raised :=
  (imageRegsFault s).or (if s.diagEnabled then diagSizeFault s else none)

/-- The source row of output pixel (row, col) in Q16; inside the output it is never negative (43_geometry R181, R184). -/
def State.sourceRow (s : State) (row col : Nat) : Nat :=
  (s.diagMag.toNat <<< 16) + row * Config.diagStep - col * Config.diagStep

/-- The source column of output pixel (row, col) in Q16 (43_geometry R181). -/
def sourceCol (row col : Nat) : Nat := (row + col) * Config.diagStep

/-- `Bilerp(i, ur, uc, fr, fc)` (43_geometry R184). -/
def bilerp (s : State) (i : Lane) (ur uc fr fc : Nat) : Nat :=
  let top := s.pix ur uc i * (65536 - fc) + s.pix ur (uc + 1) i * fc
  let bot := s.pix (ur + 1) uc i * (65536 - fc) + s.pix (ur + 1) (uc + 1) i * fc
  (top * (65536 - fr) + bot * fr) >>> 32

/-- Lane `i` of output pixel (row, col): background 0 outside the valid source rectangle and in a lane that is no channel
(43_geometry R181, R184, R185). -/
def diagSample (s : State) (row col : Nat) (i : Lane) : Sample :=
  let r := s.sourceRow row col
  let c := sourceCol row col
  if s.height.toNat < (r >>> 16) + 2 ∨ s.width.toNat < (c >>> 16) + 2 ∨ s.colors.toNat ≤ i.val then 0
  else BitVec.ofNat 16 (bilerp s i (r >>> 16) (c >>> 16) (r % 65536) (c % 65536))

/-- A resampling DIAGRS: fill the other bank, then make it the image and consume the controls (43_geometry R181, R186). -/
def resample (s : State) : State :=
  let wide := s.diagWide
  let high := s.diagHigh
  let filled :=
    s.rewriteBank s.activeBank.other 0 (4 * (wide * high))
      (fun a => some (diagSample s (a / 4 / wide) (a / 4 % wide) (laneOf (a % 4))))
  { filled with
    imgSel := s.imgSel + 1
    width := BitVec.ofNat 16 wide
    height := BitVec.ofNat 16 high
    ctrl := setBit s.ctrl 4 false
    diagMag := 0 }

/-- DIAGRS (43_geometry R181). -/
def diagrsBody : Body := checked diagrsFault (fun s => if s.diagEnabled then resample s else s)

/-- The command DIAGRS (43_geometry R181, 30_encoding R81). -/
def execDiagrs (s : State) : Host.Outcome State Fault Refusal := .next (command 0x30 diagrsBody s)

/-! ## PERMUTE -/

/-- `src(d)` (43_geometry R187) for the three orientation bits and the old width and height. -/
def permuteSource (transpose rowFlip colFlip : Bool) (w h d : Nat) : Nat :=
  let row := if transpose then d % h else d / w
  let col := if transpose then d / h else d % w
  let row := if rowFlip then h - 1 - row else row
  let col := if colFlip then w - 1 - col else col
  row * w + col

/-- `src(d)` of the present registers (43_geometry R187). -/
def State.source (s : State) (d : Nat) : Nat :=
  permuteSource s.transposes s.flipsRows s.flipsColumns s.width.toNat s.height.toNat d

/-- `Finalise()` (43_geometry R190). -/
def finalise (s : State) : State :=
  if s.transposes then
    { s with width := s.height, height := s.width, xmag := s.ymag, ymag := s.xmag, orient := 0 }
  else { s with orient := 0 }

/-- What PERMUTE writes into lane `k` of pixel `d`: the whole source pixel moves (43_geometry R188). -/
def permuteLane (s : State) (d : Nat) (k : Lane) : Option Sample := some (s.sample (4 * s.source d + k.val))

/-- PERMUTE (43_geometry R188): every read is from the image before the command. -/
def permuteBody : Body := checked imageRegsFault (fun s => finalise (s.rewriteImage (permuteLane s)))

/-- The command PERMUTE (43_geometry R188, 30_encoding R81). -/
def execPermute (s : State) : Host.Outcome State Fault Refusal := .next (command 0x31 permuteBody s)

end Sys2Proof.Machine
end

