-- ==== Sys2Proof/Machine/Ljpeg.lean ====
section
/-! DEFINITION. The LJ unit: the header elements SOI, SOF3, DHT, SOS and LJSTART that executes them (30_encoding R88 to R93, 40_ljpeg
R112 to R115); the entropy-coded elements STUFF and DIFF and LJROW that executes them (30_encoding R94 to R96, 40_ljpeg R116 to R125). -/

namespace Sys2Proof.Machine

/-! ## Elements out of place -/

/-- An element executed where the running command does not accept it. In the header, and in stuffed entropy-coded data, its
marker is the unexpected marker of 30_encoding R97; elsewhere the spec gives it no effect (notes/assumptions/7.md). -/
def misplaced (marker : Nat) (s : State) : Host.Outcome State Fault Refusal :=
  match s.phase with
  | .idle => .refused .elementOutOfPlace
  | .start _ => .next (raise ⟨.eMarker, marker⟩ s)
  | .header _ _ => .next (raise ⟨.eMarker, marker⟩ s)
  | .scan _ _ => if s.stuffed then .next (raise ⟨.eMarker, marker⟩ s) else .refused .elementOutOfPlace

/-! ## Huffman tables -/

/-- The codes of one length (30_encoding R92): `count` codes from `code` on, their values from `vals`; `t` holds the triples assigned so far,
newest first. Answers the next code, the values left and the triples, or the length at which the vector is over-subscribed. -/
def assignLength (len : Nat) : (count code : Nat) → (vals : List Byte) → HuffTable → Except Nat (Nat × List Byte × HuffTable)
  | 0, code, vals, t => .ok (code, vals, t)
  | count + 1, code, vals, t =>
    if 2 ^ len ≤ code then .error len
    else assignLength len count (code + 1) vals.tail ({ len := len, code := code, value := (vals.headD 0).toNat } :: t)

/-- Canonical code assignment (30_encoding R92) over the counts of the lengths from `len` on. -/
def assignCodes : (counts : List Byte) → (len code : Nat) → (vals : List Byte) → HuffTable → Except Nat HuffTable
  | [], _, _, _, t => .ok t.reverse
  | n :: counts, len, code, vals, t =>
    match assignLength len n.toNat code vals t with
    | .ok (code', vals', t') => assignCodes counts (len + 1) (code' <<< 1) vals' t'
    | .error e => .error e

/-- The table of a length vector and a value vector, or the length at which it is over-subscribed (30_encoding R92). -/
def buildTable (counts vals : List Byte) : Except Nat HuffTable := assignCodes counts 1 0 vals []

/-- One table definition at the head of a DHT payload (30_encoding R91): its table id, its table and the bytes after it, or the fault;
`len` is the segment's length, which a definition that does not fit reports. -/
def parseDefinition (len : BitVec 16) (payload : List Byte) : Except Raised (Lane × HuffTable × List Byte) :=
  match payload with
  | [] => .error ⟨.eHufftab, len.toNat⟩
  | tcTh :: rest =>
    if 3 < tcTh.toNat then .error ⟨.eHufftab, tcTh.toNat⟩
    else
      let counts := rest.take 16
      let total := (counts.map (·.toNat)).sum
      let vals := (rest.drop 16).take total
      if rest.length < 16 + total then .error ⟨.eHufftab, len.toNat⟩
      else
        match vals.find? (fun v => decide (Config.maxSymbol < v.toNat)) with
        | some v => .error ⟨.eHufftab, v.toNat⟩
        | none =>
          match buildTable counts vals with
          | .error l => .error ⟨.eHufftab, l⟩
          | .ok t => .ok (laneOf tcTh.toNat, t, rest.drop (16 + total))

/-- The definitions of a DHT payload, each stored as HT[id] in the place of an earlier one (30_encoding R91); those before a fault stay stored
(60_exceptions R205). A definition is at least 17 bytes, so the payload's length and 1 more are fuel enough. -/
def storeDefinitions (len : BitVec 16) :
    (fuel : Nat) → (payload : List Byte) → Quad (Option HuffTable) → Quad (Option HuffTable) × Option Raised
  | 0, _, ht => (ht, none)
  | fuel + 1, payload, ht =>
    match parseDefinition len payload with
    | .error f => (ht, some f)
    | .ok (id, t, rest) =>
      if rest.isEmpty then (ht.set id (some t), none)
      else storeDefinitions len fuel rest (ht.set id (some t))

/-! ## Header elements -/

/-- The payload byte at an offset; a payload of the declared length holds every byte that is asked for. -/
def payloadByte (payload : List Byte) (k : Nat) : Byte := payload.getD k 0

/-- SOI has been accepted: the header starts two bytes on (30_encoding R88, R98). -/
def soiBody : Body := fun s =>
  match s.phase with
  | .start loaded => ({ s.skip 2 with phase := .header loaded false }, none)
  | _ => (s, none)

/-- SOF3 (30_encoding R90), its checks in the order given there; a length below 2 and a second SOF3 come first (40_ljpeg R112). -/
def sof3Body (len : BitVec 16) (payload : List Byte) : Body := fun s =>
  let depth := payloadByte payload 0
  let rows := bigEndian (payloadByte payload 1) (payloadByte payload 2)
  let columns := bigEndian (payloadByte payload 3) (payloadByte payload 4)
  let channels := payloadByte payload 5
  match s.phase with
  | .header loaded sof =>
    if len.toNat < 2 then (s, some ⟨.eMarker, len.toNat⟩)
    else if sof then (s, some ⟨.eMarker, 0xFFC3⟩)
    else if len.toNat < 8 then (s, some ⟨.eSof, len.toNat⟩)
    else if len.toNat ≠ 8 + 3 * channels.toNat then (s, some ⟨.eSof, len.toNat⟩)
    else if depth.toNat < 2 ∨ 16 < depth.toNat then (s, some ⟨.eSof, depth.toNat⟩)
    else if channels.toNat < 1 ∨ 4 < channels.toNat then (s, some ⟨.eSof, channels.toNat⟩)
    else if rows = 0 ∨ columns = 0 then (s, some ⟨.eSof, 0⟩)
    else
      ({ s.skip (2 + len.toNat) with
          ljBits := depth.setWidth 5
          ljHigh := rows
          ljWide := columns
          ljClrs := channels.setWidth 3
          phase := .header loaded true }, none)
  | _ => (s, none)

/-- DHT (30_encoding R91, R92). -/
def dhtBody (len : BitVec 16) (payload : List Byte) : Body := fun s =>
  match s.phase with
  | .header _ _ =>
    if len.toNat < 2 then (s, some ⟨.eMarker, len.toNat⟩)
    else
      match storeDefinitions len (payload.length + 1) payload s.ht with
      | (ht, some f) => ({ s with ht := ht }, some f)
      | (ht, none) => ({ s.skip (2 + len.toNat) with ht := ht }, none)
  | _ => (s, none)

/-- The lowest channel of the frame whose table is undefined (30_encoding R93, 40_ljpeg R112). -/
def missingTable (s : State) : Option Nat :=
  (List.range s.ljClrs.toNat).find? (fun c => (s.ht.get (laneOf c)).isNone)

/-- What LJSTART does after its header loop (40_ljpeg R112, R115): predictors at half the range, row counter 0, LJ_READY. -/
def finishStart (s : State) : State :=
  { s.setLjReady true with
    vpred := Quad.all (BitVec.ofNat 16 (1 <<< (s.ljBits.toNat - 1)))
    ljRow := 0
    phase := .idle }

/-- SOS (30_encoding R93): ends the header, and with it LJSTART. -/
def sosBody (len : BitVec 16) : Body := fun s =>
  match s.phase with
  | .header _ sof =>
    if len.toNat < 2 then (s, some ⟨.eMarker, len.toNat⟩)
    else if sof = false then (s, some ⟨.eMarker, 0xFFDA⟩)
    else
      match missingTable s with
      | some c => (s, some ⟨.eHufftab, c⟩)
      | none =>
        match frameFault s with
        | some f => (s, some f)
        | none => (finishStart { s.skip (2 + len.toNat) with sbit := 0 }, none)
  | _ => (s, none)

/-- SOI as an instruction (30_encoding R88): accepted where LJSTART wants it, an unexpected marker elsewhere (R97). -/
def execSoi (s : State) : Host.Outcome State Fault Refusal :=
  match s.phase with
  | .start _ => .next (settle (soiBody s))
  | .idle => misplaced 0xFFD8 s
  | .header _ _ => misplaced 0xFFD8 s
  | .scan _ _ => misplaced 0xFFD8 s

/-- SOF3 as an instruction (30_encoding R90). -/
def execSof3 (len : BitVec 16) (payload : List Byte) (s : State) : Host.Outcome State Fault Refusal :=
  match s.phase with
  | .header _ _ => .next (settle (sof3Body len payload s))
  | .idle => misplaced 0xFFC3 s
  | .start _ => misplaced 0xFFC3 s
  | .scan _ _ => misplaced 0xFFC3 s

/-- DHT as an instruction (30_encoding R91). -/
def execDht (len : BitVec 16) (payload : List Byte) (s : State) : Host.Outcome State Fault Refusal :=
  match s.phase with
  | .header _ _ => .next (settle (dhtBody len payload s))
  | .idle => misplaced 0xFFC4 s
  | .start _ => misplaced 0xFFC4 s
  | .scan _ _ => misplaced 0xFFC4 s

/-- SOS as an instruction (30_encoding R93); its payload is not interpreted. -/
def execSos (len : BitVec 16) (_payload : List Byte) (s : State) : Host.Outcome State Fault Refusal :=
  match s.phase with
  | .header _ _ => .next (settle (sosBody len s))
  | .idle => misplaced 0xFFDA s
  | .start _ => misplaced 0xFFDA s
  | .scan _ _ => misplaced 0xFFDA s

/-! ## LJSTART -/

/-- The fault of a header element at stream address `a` that does not decode: a missing byte is E_EOS at its address (20_memory R60), a wrong marker
E_MARKER (30_encoding R88, R97). The last two errors are not those of a header element. -/
def headerFault (a : Nat) : DecodeError → Raised
  | .truncated offset => ⟨.eEos, (a + offset : Nat)⟩
  | .badMarker marker => ⟨.eMarker, marker⟩
  | .unknownCommand w => ⟨.eMarker, w.toNat⟩
  | .shortDiff n => ⟨.eMarker, n⟩

/-- Fetch the header element at the cursor, which LJSTART wants next (40_ljpeg R112, 10_state R24): first its marker and length, then the whole segment. -/
def fetchHeader (s : State) : Except Raised Instr :=
  match s.phase with
  | .start _ =>
    match decodeStart (s.streamWindow s.spos.toNat 2) with
    | .ok (i, _) => .ok i
    | .error e => .error (headerFault s.spos.toNat e)
  | .header _ _ =>
    match decodeSegment (s.streamWindow s.spos.toNat (max 4 (segmentLength (s.streamWindow s.spos.toNat 4) + 2))) with
    | .ok (i, _) => .ok i
    | .error e => .error (headerFault s.spos.toNat e)
  | .idle => .error ⟨.eMarker, 0⟩
  | .scan _ _ => .error ⟨.eMarker, 0⟩

/-- The body of a fetched header element. `fetchHeader` answers only the first four instructions. -/
def headerBody : Instr → Body
  | .soi => soiBody
  | .sof3 len payload => sof3Body len payload
  | .dht len payload => dhtBody len payload
  | .sos len _ => sosBody len
  | .ljstart => fun s => (s, none)
  | .ljrow => fun s => (s, none)
  | .bilin => fun s => (s, none)
  | .vngref => fun s => (s, none)
  | .expsetup => fun s => (s, none)
  | .expapply => fun s => (s, none)
  | .cmatrix => fun s => (s, none)
  | .diagrs => fun s => (s, none)
  | .permute => fun s => (s, none)
  | .init => fun s => (s, none)
  | .stuff => fun s => (s, none)
  | .diff _ _ => fun s => (s, none)

/-- LJSTART's loop over the header elements, until SOS ends it or a fault (40_ljpeg R112). -/
def headerLoop : (fuel : Nat) → Body
  | 0, s => (s, none)
  | fuel + 1, s =>
    if s.phase = .idle then (s, none)
    else
      match fetchHeader s with
      | .error f => (s, some f)
      | .ok i =>
        match headerBody i s with
        | (s1, some f) => (s1, some f)
        | (s1, none) => headerLoop fuel s1

/-- The checks of LJSTART (40_ljpeg R112). -/
def startFault (s : State) : Option Raised :=
  (imageRegsFault s).or ((cfaFault s).or (streamFault s))

/-- LJSTART before its header loop (40_ljpeg R112): the first element stands at SPOS, at a byte boundary (10_state R24, 30_encoding R100). -/
def openHeader (s : State) : State :=
  { s.setLjReady false with ht := Quad.all none, sbit := 0, phase := .start ⟨s.spos, s.sbit⟩ }

/-- LJSTART (40_ljpeg R112). Every element takes at least two bytes below STREAM_LEN, so STREAM_LEN and 2 more are fuel enough. -/
def ljstartBody : Body := fun s =>
  match startFault s with
  | some f => (s, some f)
  | none => headerLoop (s.streamLen.toNat + 2) (openHeader s)

/-- The command LJSTART (40_ljpeg R112, 30_encoding R81). -/
def execLjstart (s : State) : Host.Outcome State Fault Refusal := .next (command 0x01 ljstartBody s)

/-! ## Entropy-coded elements -/

/-- The sample of the decoded row that mosaic pixel `j` gets; `row` is newest first (40_ljpeg R118, R123). -/
def rowSample (row : List Sample) (j : Nat) : Sample := row.reverse.getD j 0

/-- The end of LJROW (40_ljpeg R118, R123, R124): write the row, count it, and end the scan after the last one. -/
def finishRow (row : List Sample) (s : State) : State :=
  let r := s.ljRow.toNat
  let written :=
    s.rewriteBank s.activeBank (4 * (r * s.width.toNat)) (4 * s.width.toNat)
      (fun a => some (if s.fc r (a / 4) = laneOf (a % 4) then rowSample row (a / 4) else 0))
  { written.setLjReady (s.ljReady && decide (r + 1 ≠ s.ljHigh.toNat)) with ljRow := s.ljRow + 1, phase := .idle }

/-- The predictor of the DIFF that comes after the samples `row` of this row (40_ljpeg R121): VPRED[c] at column 0, else the sample to the
left in the same channel. -/
def predictor (s : State) (row : List Sample) : Nat :=
  if row.length < s.ljClrs.toNat then (s.vpred.get (s.diffChannel row.length)).toNat
  else (row.getD (s.ljClrs.toNat - 1) 0).toNat

/-- What a DIFF does once its bits have been taken (40_ljpeg R118 to R122): no leaf, E_HUFFCODE; a length above the depth, E_BITLEN; else the sample,
which is range-checked, kept as the new VPRED at column 0, and put into the row. The last sample of the row ends LJROW. -/
def applyDiff (code extra : List Bool) : Body := fun s =>
  match s.phase with
  | .scan row _ =>
    let c := s.diffChannel row.length
    match (s.table c).lookup code with
    | none => (s, some ⟨.eHuffcode, bitsValue code⟩)
    | some n =>
      if s.ljBits.toNat < n then (s, some ⟨.eBitlen, n⟩)
      else
        let v : Int := predictor s row + diffValue n (bitsValue extra)
        if v < 0 ∨ (2 ^ s.ljBits.toNat : Int) ≤ v then (s, some ⟨.eSample, v⟩)
        else
          let sample := BitVec.ofInt 16 v
          let kept :=
            { s with
              vpred := if row.length < s.ljClrs.toNat then s.vpred.set c sample else s.vpred
              phase := .scan (sample :: row) [] }
          if row.length + 1 = s.ljWide.toNat * s.ljClrs.toNat then (finishRow (sample :: row) kept, none)
          else (kept, none)
  | _ => (s, none)

/-- Give the scan one bit: it completes a DIFF or is kept. -/
def acceptBit (b : Bool) : Body := fun s =>
  match s.phase with
  | .scan row bits =>
    match s.scanDiff row.length (bits ++ [b]) with
    | .more => ({ s with phase := .scan row (bits ++ [b]) }, none)
    | .found code extra => applyDiff code extra s
  | _ => (s, none)

/-- The one-bits of a stuffed FF, `n` of them, each moving the cursor within the pair FF 00 (30_encoding R94). A row that ends inside the
byte leaves the rest of it to the next LJROW (30_encoding R100). -/
def stuffLoop : (n : Nat) → Body
  | 0, s => (s, none)
  | n + 1, s =>
    match s.phase with
    | .scan _ _ =>
      match acceptBit true (s.advance true) with
      | (s1, some f) => (s1, some f)
      | (s1, none) => stuffLoop n s1
    | _ => (s, none)

/-- STUFF as an instruction (30_encoding R94): with CTRL.STUFF = 1, at the start of a data byte, the pair FF 00 gives eight one-bits and
moves the cursor two bytes on. -/
def execStuff (s : State) : Host.Outcome State Fault Refusal :=
  match s.phase with
  | .scan _ _ =>
    if s.stuffed = true ∧ s.sbit = 0 then .next (settle (stuffLoop 8 s)) else .refused .elementOutOfPlace
  | .idle => misplaced 0xFF00 s
  | .start _ => misplaced 0xFF00 s
  | .header _ _ => misplaced 0xFF00 s

/-- The operands are the whole DIFF that `bits`, read already, begin. -/
def isNextDiff (s : State) (done : Nat) (bits code extra : List Bool) : Bool :=
  decide (s.scanDiff done (code ++ extra) = .found code extra) && bits.isPrefixOf (code ++ extra)

/-- Take the bits of a DIFF that have not been read yet from the stream, then do what it does. -/
def diffBody (pending : Nat) (code extra : List Bool) : Body := fun s =>
  match takeBits pending s with
  | (s1, .error f) => (s1, some f)
  | (s1, .ok _) => applyDiff code extra s1

/-- DIFF as an instruction (30_encoding R95, R96; 40_ljpeg R118 to R122). In a header, or where the operands are no DIFF of the present
channel's table, the bits are no DIFF (notes/assumptions/7.md). -/
def execDiff (code extra : List Bool) (s : State) : Host.Outcome State Fault Refusal :=
  match s.phase with
  | .scan row bits =>
    if isNextDiff s row.length bits code extra then
      .next (settle (diffBody (code.length + extra.length - bits.length) code extra s))
    else .refused .elementOutOfPlace
  | .idle => .refused .elementOutOfPlace
  | .start _ => .refused .elementOutOfPlace
  | .header _ _ => .refused .elementOutOfPlace

/-! ## LJROW -/

/-- The DIFFs of a row, one after the other (40_ljpeg R118). -/
def rowLoop : (n : Nat) → Body
  | 0, s => (s, none)
  | n + 1, s =>
    match s.phase with
    | .scan row bits =>
      match readDiff row.length diffFuel bits s with
      | (s1, .error f) => (s1, some f)
      | (s1, .ok (code, extra)) =>
        match applyDiff code extra s1 with
        | (s2, some f) => (s2, some f)
        | (s2, none) => rowLoop n s2
    | _ => (s, none)

/-- The checks of LJROW (40_ljpeg R118). -/
def rowFault (s : State) : Option Raised :=
  if s.ljReady = false then some ⟨.eSeq, s.ljRow.toNat⟩
  else (imageRegsFault s).or ((cfaFault s).or ((streamFault s).or (frameFault s)))

/-- LJROW (40_ljpeg R118). -/
def ljrowBody : Body := fun s =>
  match rowFault s with
  | some f => (s, some f)
  | none => rowLoop (s.ljWide.toNat * s.ljClrs.toNat) { s with phase := .scan [] [] }

/-- The command LJROW (40_ljpeg R118, 30_encoding R81). -/
def execLjrow (s : State) : Host.Outcome State Fault Refusal := .next (command 0x02 ljrowBody s)

end Sys2Proof.Machine
end

