-- ==== Sys2Proof/Machine/System.lean ====
section
/-! DEFINITION. The system command INIT, which alone leaves a latched fault (60_exceptions R208, R213). -/

namespace Sys2Proof.Machine

/-- The command INIT (60_exceptions R208, 30_encoding R81): accepted with or without a latched fault, ignored only while BUSY
(10_state R46). It does not set DONE. -/
def execInit (s : State) : Host.Outcome State Fault Refusal := .next (if s.busy then s else s.initialise)

end Sys2Proof.Machine
end

