-- ==== Sys2Proof/Machine/Dispatch.lean ====
section
/-! DEFINITION. One arm for each instruction. -/

namespace Sys2Proof.Machine

-- The meaning of every row of spec/opcode_table.json.
def exec (i : Instr) (s : State) : Host.Outcome State Fault Refusal :=
  match i with
  | .ljstart => Sys2Proof.Machine.execLjstart s
  | .ljrow => Sys2Proof.Machine.execLjrow s
  | .bilin => Sys2Proof.Machine.execBilin s
  | .vngref => Sys2Proof.Machine.execVngref s
  | .expsetup => Sys2Proof.Machine.execExpsetup s
  | .expapply => Sys2Proof.Machine.execExpapply s
  | .cmatrix => Sys2Proof.Machine.execCmatrix s
  | .diagrs => Sys2Proof.Machine.execDiagrs s
  | .permute => Sys2Proof.Machine.execPermute s
  | .init => Sys2Proof.Machine.execInit s
  | .soi => Sys2Proof.Machine.execSoi s
  | .sof3 len payload => Sys2Proof.Machine.execSof3 len payload s
  | .dht len payload => Sys2Proof.Machine.execDht len payload s
  | .sos len payload => Sys2Proof.Machine.execSos len payload s
  | .stuff => Sys2Proof.Machine.execStuff s
  | .diff code extra => Sys2Proof.Machine.execDiff code extra s

end Sys2Proof.Machine
end

