-- ==== Sys2Proof/Machine/Host.lean ====
section
/-! DEFINITION. What the host does between commands: register reads and writes by number (10_state R45, R46), stream and image memory
access (20_memory R60, R64, R70), and hardware reset (70_reset R230). The CMD write is Machine/Fetch.lean's. -/

namespace Sys2Proof.Machine

/-- Element `n - base` of a group of registers that starts at number `base`. -/
def groupElement {n : Nat} (q : Quad (BitVec n)) (base number : Nat) : BitVec 48 :=
  (q.get (laneOf (number - base))).setWidth 48

/-- What a register reads as (10_state R45, R46): CMD, which is write-only, and the reserved numbers read 0. -/
def readRegister (s : State) (number : Nat) : BitVec 48 :=
  match number with
  | 0x00 => 0
  | 0x01 => s.status.setWidth 48
  | 0x02 => s.errCode.setWidth 48
  | 0x03 => s.errStage.setWidth 48
  | 0x04 => s.errInfo.setWidth 48
  | 0x05 => s.errPos.setWidth 48
  | 0x06 => s.warnFlags.setWidth 48
  | 0x07 => s.warnCount.setWidth 48
  | 0x08 => s.ctrl.setWidth 48
  | 0x09 => s.width.setWidth 48
  | 0x0A => s.height.setWidth 48
  | 0x0B => s.colors.setWidth 48
  | 0x0C => s.cfa.setWidth 48
  | 0x0D => s.black.setWidth 48
  | 0x0E => s.maximum.setWidth 48
  | 0x0F => s.clipMax.setWidth 48
  | 0x10 => s.shift.setWidth 48
  | 0x11 => s.orient.setWidth 48
  | 0x12 => s.diagMag.setWidth 48
  | 0x13 => s.xmag.setWidth 48
  | 0x14 => s.ymag.setWidth 48
  | 0x15 => s.streamLen.setWidth 48
  | 0x16 => s.spos.setWidth 48
  | 0x17 => s.sbit.setWidth 48
  | 0x18 => s.ljBits.setWidth 48
  | 0x19 => s.ljWide.setWidth 48
  | 0x1A => s.ljHigh.setWidth 48
  | 0x1B => s.ljClrs.setWidth 48
  | 0x1C => s.ljRow.setWidth 48
  | 0x1D => s.imgSel.setWidth 48
  | _ =>
    if number < 0x20 then 0
    else if number < 0x24 then groupElement s.camMul 0x20 number
    else if number < 0x28 then groupElement s.premul 0x24 number
    else if number < 0x2C then groupElement s.cmat.row0 0x28 number
    else if number < 0x30 then groupElement s.cmat.row1 0x2C number
    else if number < 0x34 then groupElement s.cmat.row2 0x30 number
    else if number < 0x38 then groupElement s.vpred 0x34 number
    else if number < 0x3C then groupElement s.gwSum 0x38 number
    else if number < 0x40 then groupElement s.gwCnt 0x3C number
    else 0

/-- A write of a register other than CMD while idle (10_state R45, R46): truncated to the register's width; ignored by a read-only or reserved
number. A write of SPOS writes the whole cursor, clearing SBIT (R24); nothing prevents it while LJ_READY = 1, and it takes effect at the next bit read (70_reset R239).
By its own number SBIT is read-only, unless the parameter has it otherwise (notes/assumptions/22.md). -/
def writeRegister (s : State) (number : Nat) (v : BitVec 32) : State :=
  match number with
  | 0x08 => { s with ctrl := v.setWidth 5 }
  | 0x09 => { s with width := v.setWidth 16 }
  | 0x0A => { s with height := v.setWidth 16 }
  | 0x0B => { s with colors := v.setWidth 3 }
  | 0x0C => { s with cfa := v }
  | 0x0D => { s with black := v.setWidth 16 }
  | 0x0E => { s with maximum := v.setWidth 16 }
  | 0x0F => { s with clipMax := v.setWidth 16 }
  | 0x11 => { s with orient := v.setWidth 3 }
  | 0x12 => { s with diagMag := v.setWidth 16 }
  | 0x13 => { s with xmag := v.setWidth 16 }
  | 0x14 => { s with ymag := v.setWidth 16 }
  | 0x15 => { s with streamLen := v }
  | 0x16 => { s with spos := v, sbit := 0 }
  | 0x17 => if s.params.sbitWritable then { s with sbit := v.setWidth 3 } else s
  | _ =>
    if number < 0x20 then s
    else if number < 0x24 then { s with camMul := s.camMul.set (laneOf (number - 0x20)) v }
    else if number < 0x28 then { s with premul := s.premul.set (laneOf (number - 0x24)) v }
    else if number < 0x2C then { s with cmat := { s.cmat with row0 := s.cmat.row0.set (laneOf (number - 0x28)) v } }
    else if number < 0x30 then { s with cmat := { s.cmat with row1 := s.cmat.row1.set (laneOf (number - 0x2C)) v } }
    else if number < 0x34 then { s with cmat := { s.cmat with row2 := s.cmat.row2.set (laneOf (number - 0x30)) v } }
    else s

/-- The host is given `v`; while BUSY, where only STATUS is valid, it is given a free value instead (20_memory R70;
93_implementation_defined U2, notes/assumptions/11.md). -/
def State.answer (s : State) (v : BitVec 48) : State :=
  if s.busy then { s with hostData := Config.busyRead s.draws, draws := s.draws + 1 }
  else { s with hostData := v }

/-- One host action other than a write of CMD; writes are ignored while BUSY (10_state R46, 20_memory R70). -/
def hostAct (op : HostOp) (s : State) : Host.Outcome State Fault Refusal :=
  match op with
  | .writeReg number v => .next (if s.busy then s else writeRegister s number v)
  | .readReg number =>
    .next (if number = 0x01 then { s with hostData := readRegister s number } else s.answer (readRegister s number))
  | .writeByte a v =>
    if s.params.strCap ≤ a then .fault (.noSuchByte a)
    else .next (if s.busy then s else { s with str := Memory.write s.str a v })
  | .readByte a =>
    if s.params.strCap ≤ a then .fault (.noSuchByte a) else .next (s.answer ((s.strByte a).setWidth 48))
  | .writeSample a v =>
    if 4 * s.params.imgCap ≤ a then .fault (.noSuchSample a)
    else .next (if s.busy then s else s.setBank s.activeBank ((s.bank s.activeBank).write a v))
  | .readSample a =>
    if 4 * s.params.imgCap ≤ a then .fault (.noSuchSample a) else .next (s.answer ((s.sample a).setWidth 48))
  | .hardwareReset => .next s.hardwareReset

end Sys2Proof.Machine
end

