-- ==== Sys2Proof/Machine/Fetch.lean ====
section
/-! DEFINITION. What the next step is: inside an LJ command the element at the stream cursor (00_scope R2, 40_ljpeg R112, R118); between commands the
host's next action, of which a write of CMD is a command word (30_encoding R81). -/

namespace Sys2Proof.Machine

/-- What a step finds to do. -/
inductive Fetched where
  /-- Run this instruction in this state. -/
  | run (i : Instr) (s : State)
  /-- No instruction: the step is this already. -/
  | other (o : Host.Outcome State Fault Refusal)

/-- The stuffed pair stands at the cursor, at the start of a data byte (30_encoding R94). -/
def atStuff (s : State) : Bool :=
  s.stuffed && s.sbit == 0 && s.streamByte s.spos.toNat == some 0xFF && s.streamByte (s.spos.toNat + 1) == some 0x00

/-- The next element of a scan: STUFF where the pair stands at the cursor, else the DIFF whose bits follow. A fault met while its bits are
read is taken with the cursor where it stopped (60_exceptions R205). -/
def fetchScan (row : List Sample) (bits : List Bool) (s : State) : Fetched :=
  if atStuff s then .run .stuff s
  else
    match readDiff row.length diffFuel bits s with
    | (s1, .error f) => .other (.next (raise f s1))
    | (_, .ok (code, extra)) => .run (.diff code extra) s

/-- A write of the word `w` to CMD (30_encoding R81). -/
def fetchCommand (w : Byte) (s : State) : Fetched :=
  match decodeCommand w with
  | .ok i => .run i s
  | .error _ => .other (.next (illegalCommand w s))

/-- The host's next action; with none the core stays idle (60_exceptions R218). -/
def fetchHost (s : State) : Fetched :=
  match s.inputs with
  | [] => .other (.next s)
  | .writeReg number v :: rest =>
    if number = 0 then fetchCommand (v.setWidth 8) { s with inputs := rest }
    else .other (hostAct (.writeReg number v) { s with inputs := rest })
  | op :: rest => .other (hostAct op { s with inputs := rest })

/-- What the next step finds to do. -/
def fetch (s : State) : Fetched :=
  match s.phase with
  | .idle => fetchHost s
  | .start _ =>
    match fetchHeader s with
    | .ok i => .run i s
    | .error f => .other (.next (raise f s))
  | .header _ _ =>
    match fetchHeader s with
    | .ok i => .run i s
    | .error f => .other (.next (raise f s))
  | .scan row bits => fetchScan row bits s

/-- Put bytes into stream memory from address `a` on. -/
def storeBytes (m : Memory Byte) (a : Nat) : List Byte → Memory Byte
  | [] => m
  | b :: bs => storeBytes (m.write a b) (a + 1) bs

/-- The place of an LJ command at which an element is the next one; LJSTART was started with the cursor `loaded`. -/
def elementPhase (loaded : Cursor) : Instr → Phase
  | .soi => .start loaded
  | .sof3 _ _ => .header loaded false
  | .dht _ _ => .header loaded false
  | .sos _ _ => .header loaded true
  | .stuff => .scan [] []
  | .diff _ _ => .scan [] []
  | .ljstart => .idle
  | .ljrow => .idle
  | .bilin => .idle
  | .vngref => .idle
  | .expsetup => .idle
  | .expapply => .idle
  | .cmatrix => .idle
  | .diagrs => .idle
  | .permute => .idle
  | .init => .idle

/-- `s` with the bytes of an element at SPOS, inside the LJ command that meets it there: LJSTART for a header element, LJROW in stuffed mode for
the stuffed pair. -/
def placeElement (s : State) (bytes : List Byte) (phase : Phase) : State :=
  let inScan : Bool := match phase with
    | .scan _ _ => true
    | _ => false
  { s.setBusy true with
    cmd := if inScan then 0x02 else 0x01
    str := storeBytes s.str s.spos.toNat bytes
    streamLen := BitVec.ofNat 32 (s.spos.toNat + bytes.length)
    sbit := 0
    ctrl := if inScan then setBit s.ctrl 2 true else s.ctrl
    phase := phase }

/-- `s` with a command word as the host's next action and the core idle, or with a stream element at the cursor of the LJ command that meets it. -/
def placeWord (s : State) (nbits w : Nat) : State :=
  if nbits ≤ 8 then
    { s.setBusy false with phase := .idle, inputs := .writeReg 0 (BitVec.ofNat 32 (w % 256)) :: s.inputs }
  else
    match decodeElement (tableElement nbits w) with
    | .ok (i, _) => placeElement s (tableElement nbits w) (elementPhase ⟨s.spos, s.sbit⟩ i)
    | .error _ => placeElement s (tableElement nbits w) (.header ⟨s.spos, s.sbit⟩ false)

end Sys2Proof.Machine
end

