-- ==== Sys2Proof/Machine/Step.lean ====
section
/-! DEFINITION. One step of the machine. -/

namespace Sys2Proof.Machine

/-- One step: refuse parameters outside their domains (93_implementation_defined U16); else do what is found, running a fetched instruction. -/
def step (s : State) : Host.Outcome State Fault Refusal :=
  if s.params.wf then
    match fetch s with
    | .run i t => exec i t
    | .other o => o
  else .refused .parameterOutOfDomain

/-- `s` with the instruction of `nbits` bits `w` stored where `step` fetches its next instruction (notes/assumptions/3.md). -/
def State.withFetchWord (s : State) (nbits w : Nat) : State := placeWord s nbits w

end Sys2Proof.Machine
end

