-- ==== Sys2Proof/Safety.lean ====
section
/-! DEFINITION. What the claims are stated in terms of: healthy states, legal operands, how a command ends, what the stream holds, and
the spec's own formulas where the machine computes them another way. No definition here is used by the machine. -/

namespace Sys2Proof.Machine

/-! ## How an instruction ends -/

/-- The step gives a next state. -/
def Answers (o : Host.Outcome State Fault Refusal) : Prop := ∃ t, o = .next t

/-- A command word is accepted in this state: BUSY = 0 and FAULT = 0 (30_encoding R81). -/
def State.accepting (s : State) : Prop := s.busy = false ∧ s.faulted = false

/-- The command `w` has completed: DONE set, BUSY clear, no fault, no command in progress (30_encoding R81). -/
def Completed (w : BitVec 8) (t : State) : Prop :=
  t.cmd = w ∧ t.phase = .idle ∧ t.busy = false ∧ t.done = true ∧ t.faulted = false

/-- `t` is `s` with a fault taken by the command `stage` (60_exceptions R204): what the fault writes, and nothing else (R205 a).
DONE is said where this is used. -/
def FaultTaken (stage : BitVec 8) (cause : Nat) (info : Int) (s t : State) : Prop :=
  t = { s with
        cmd := stage
        status := t.status
        errCode := BitVec.ofNat 8 cause
        errStage := stage
        errInfo := BitVec.ofInt 32 info
        errPos := s.spos
        phase := .idle } ∧
    t.busy = false ∧ t.faulted = true ∧ t.ljReady = false ∧ t.warned = s.warned

/-- The instruction ends in the fault of a command it starts: the fault is taken with DONE = 0 (60_exceptions R204). -/
def CommandFaults (i : Instr) (w : BitVec 8) (cause : Nat) (info : Int) (s : State) : Prop :=
  ∃ t, exec i s = .next t ∧ FaultTaken w cause info s t ∧ t.done = false

/-- The element ends in a fault of the LJ command it belongs to, whose cursor and other writes up to the raise are those of `s`. -/
def ElementFaults (o : Host.Outcome State Fault Refusal) (cause : Nat) (info : Int) (s : State) : Prop :=
  ∃ t, o = .next t ∧ FaultTaken s.cmd cause info s t ∧ t.done = s.done

/-- `t` is `s` but for the two image banks and what every command writes (CMD, STATUS, the phase). -/
def OnlyImagesChange (s t : State) : Prop :=
  t = { s with cmd := t.cmd, status := t.status, phase := t.phase, img0 := t.img0, img1 := t.img1 }

/-- The bank that is not selected reads as before. -/
def OtherBankKept (s t : State) : Prop :=
  ∀ a, t.sampleIn s.activeBank.other a = s.sampleIn s.activeBank.other a

/-- The selected bank reads as before at and above the end of the declared image. -/
def BeyondImageKept (s t : State) : Prop := ∀ a, 4 * s.pixels ≤ a → t.sample a = s.sample a

/-- A command on the image has completed, and nothing but the selected bank's samples below the end of the declared image may have changed. -/
def ImageCommandDone (w : BitVec 8) (s t : State) : Prop :=
  Completed w t ∧ t.warned = s.warned ∧ t.ljReady = s.ljReady ∧
    OnlyImagesChange s t ∧ OtherBankKept s t ∧ BeyondImageKept s t

/-! ## Legal operands -/

/-- The image registers are legal (10_state R30 to R32, 60_exceptions R202). -/
def State.legalImage (s : State) : Prop :=
  1 ≤ s.width.toNat ∧ 1 ≤ s.height.toNat ∧
    (s.colors.toNat = 1 ∨ s.colors.toNat = 3 ∨ s.colors.toNat = 4) ∧
    s.width.toNat * s.height.toNat ≤ s.params.imgCap

/-- Field `i` of the CFA word as a number (10_state R33). -/
def State.cfaNumber (s : State) (i : Nat) : Nat := s.cfa.toNat / 4 ^ i % 4

/-- Every CFA position names a channel (10_state R33). -/
def State.legalCfa (s : State) : Prop := ∀ i, i < 16 → s.cfaNumber i < s.colors.toNat

/-- The declared stream fits stream memory (60_exceptions R207). -/
def State.legalStream (s : State) : Prop := s.streamLen.toNat ≤ s.params.strCap

/-- The frame of the stream is the declared image (40_ljpeg R113). -/
def State.frameMatches (s : State) : Prop :=
  s.ljWide.toNat * s.ljClrs.toNat = s.width.toNat ∧ s.ljHigh = s.height

/-- A pixel not on the 1-pixel border (41_demosaic R141). -/
def State.inside (s : State) (margin row col : Nat) : Prop :=
  margin ≤ row ∧ row + margin < s.height.toNat ∧ margin ≤ col ∧ col + margin < s.width.toNat

/-! ## Invariants -/

/-- All three memories are in canonical form. -/
def State.memoryWf (s : State) : Prop :=
  Memory.wf s.str = true ∧ Memory.wf s.img0 = true ∧ Memory.wf s.img1 = true

/-- Every defined Huffman table is what 10_state R41 says a table is. -/
def State.tablesWf (s : State) : Prop :=
  ∀ c t, s.ht.get c = some t → HuffTable.wf t = true

/-- The status flags tell the truth about the rest of the state: BUSY exactly inside an LJ command, and DONE never there; a latched
fault leaves no command, no readiness and no DONE, and has a cause; without one ERR_* are 0 (10_state R26, R27; 60_exceptions
R204, R206). -/
def State.statusWf (s : State) : Prop :=
  (s.busy = true ↔ s.phase ≠ .idle) ∧
  (s.busy = true → s.done = false) ∧
  (s.faulted = true → s.busy = false ∧ s.done = false ∧ s.ljReady = false ∧ 1 ≤ s.errCode.toNat ∧ s.errCode.toNat ≤ 12) ∧
  (s.faulted = false → s.errCode = 0 ∧ s.errStage = 0 ∧ s.errInfo = 0 ∧ s.errPos = 0)

/-- The frame registers hold what SOF3 may write (30_encoding R90; 10_state R40). -/
def State.frameLegal (s : State) : Prop :=
  2 ≤ s.ljBits.toNat ∧ s.ljBits.toNat ≤ 16 ∧ 1 ≤ s.ljClrs.toNat ∧ s.ljClrs.toNat ≤ 4 ∧
    1 ≤ s.ljWide.toNat ∧ 1 ≤ s.ljHigh.toNat

/-- Every predictor is a sample of the frame's depth (40_ljpeg R115, R120, R122). -/
def State.predictorsLegal (s : State) : Prop := ∀ c : Lane, (s.vpred.get c).toNat < 2 ^ s.ljBits.toNat

/-- What LJ_READY and the places of LJSTART promise (10_state R24 to R26, R40; 40_ljpeg R112, R115, R122, R124): while LJ_READY = 1 the frame is
legal, a row is left, every channel has a table and every predictor is in range; inside LJSTART it is 0, the cursor stands at the start of a byte
(R24), and after SOF3 the frame is legal. -/
def State.scanWf (s : State) : Prop :=
  (s.ljReady = true → s.frameLegal ∧ s.ljRow.toNat < s.ljHigh.toNat ∧ s.predictorsLegal ∧
    ∀ c : Lane, c.val < s.ljClrs.toNat → (s.ht.get c).isSome = true) ∧
  (∀ loaded, s.phase = .start loaded → s.ljReady = false ∧ s.sbit = 0) ∧
  (∀ loaded sof, s.phase = .header loaded sof → s.ljReady = false ∧ s.sbit = 0 ∧ (sof = true → s.frameLegal))

/-! ## The stream -/

/-- The stream holds these bytes from address `a` on, all of them valid (20_memory R60). -/
def State.holdsAt (s : State) (a : Nat) (l : List Byte) : Prop :=
  ∀ k b, l[k]? = some b → s.streamByte (a + k) = some b

/-- The eight bits of each byte, most significant first (20_memory R62). -/
def bitsOfBytes (l : List Byte) : List Bool :=
  l.flatMap (fun b => (List.range 8).map (fun k => b.getLsbD (7 - k)))

/-- Data bytes with a 00 after every FF, as they stand in a stuffed stream (30_encoding R94). -/
def stuffBytes (l : List Byte) : List Byte := l.flatMap (fun b => if b = 0xFF then [b, 0x00] else [b])

/-- One table definition of a DHT segment (30_encoding R91) with the table it defines. -/
structure TableDefinition where
  id : Lane
  counts : List Byte
  vals : List Byte
  table : HuffTable

/-- The definition is one that 30_encoding R91 and R92 accept. -/
def TableDefinition.legal (d : TableDefinition) : Prop :=
  d.counts.length = 16 ∧ d.vals.length = (d.counts.map (·.toNat)).sum ∧
    (∀ v ∈ d.vals, v.toNat ≤ 16) ∧ buildTable d.counts d.vals = .ok d.table

/-- The bytes of a definition (30_encoding R91). -/
def TableDefinition.bytes (d : TableDefinition) : List Byte := BitVec.ofNat 8 d.id.val :: (d.counts ++ d.vals)

/-- The payload of a DHT segment with these definitions. -/
def definitionsBytes (ds : List TableDefinition) : List Byte := ds.flatMap TableDefinition.bytes

/-- The tables after these definitions: a later one replaces an earlier one of the same id (30_encoding R91). -/
def storeAll (ds : List TableDefinition) (ht : Quad (Option HuffTable)) : Quad (Option HuffTable) :=
  ds.foldl (fun h d => h.set d.id (some d.table)) ht

/-- The fields of a SOF3 payload (30_encoding R90); the component bytes are not interpreted. -/
structure FrameHeader where
  bits : Nat
  rows : Nat
  columns : Nat
  channels : Nat
  components : List Byte

/-- The fields are in the legal column of 30_encoding R90. -/
def FrameHeader.legal (f : FrameHeader) : Prop :=
  2 ≤ f.bits ∧ f.bits ≤ 16 ∧ 1 ≤ f.rows ∧ f.rows ≤ 65535 ∧ 1 ≤ f.columns ∧ f.columns ≤ 65535 ∧
    1 ≤ f.channels ∧ f.channels ≤ 4 ∧ f.components.length = 3 * f.channels

/-- The bytes of a SOF3 payload (30_encoding R90). -/
def FrameHeader.payload (f : FrameHeader) : List Byte :=
  [BitVec.ofNat 8 f.bits, BitVec.ofNat 8 (f.rows / 256), BitVec.ofNat 8 (f.rows % 256),
    BitVec.ofNat 8 (f.columns / 256), BitVec.ofNat 8 (f.columns % 256), BitVec.ofNat 8 f.channels] ++ f.components

/-- A segment with a given payload; its length field counts itself and the payload (30_encoding R87). -/
def segmentBytes (m1 : Byte) (payload : List Byte) : List Byte :=
  encodeSegment m1 (BitVec.ofNat 16 (payload.length + 2)) payload

/-- The payload fits a segment (30_encoding R87). -/
def fitsSegment (payload : List Byte) : Prop := payload.length + 2 < 65536

/-- A whole header: SOI, DHT segments, the SOF3, more DHT segments, SOS (30_encoding R86). -/
def headerBytes (before : List (List TableDefinition)) (frame : FrameHeader) (after : List (List TableDefinition))
    (scan : List Byte) : List Byte :=
  [0xFF, 0xD8] ++ before.flatMap (fun ds => segmentBytes 0xC4 (definitionsBytes ds)) ++ segmentBytes 0xC3 frame.payload ++
    after.flatMap (fun ds => segmentBytes 0xC4 (definitionsBytes ds)) ++ segmentBytes 0xDA scan

/-! ## Coded differences -/

/-- `code` reaches a leaf of `t` with value `n`, and no shorter code does (30_encoding R95). -/
def leafAt (t : HuffTable) (code : List Bool) (n : Nat) : Prop :=
  1 ≤ code.length ∧ code.length ≤ 16 ∧ t.lookup code = some n ∧
    ∀ j, 1 ≤ j → j < code.length → t.lookup (code.take j) = none

/-- The bit length of |d|: 0 for 0, else the n with 2^(n-1) ≤ |d| < 2^n (40_ljpeg R126). -/
def bitLength (d : Int) : Nat := if d = 0 then 0 else Nat.log2 d.natAbs + 1

/-- The extra bits' value that spells a difference (40_ljpeg R126). -/
def rawOf (d : Int) : Nat := if 0 < d then d.toNat else (d + (2 ^ bitLength d - 1)).toNat

/-- The `n` bits of a number, most significant first. -/
def bitsOf (n v : Nat) : List Bool := (List.range n).map (fun k => v.testBit (n - 1 - k))

/-- The predictor of sample `j` of a row with these samples: VPRED[c] at column 0, else the sample to the left in the same channel
(40_ljpeg R121). -/
def State.predictorOf (s : State) (samples : List Sample) (j : Nat) : Nat :=
  if j < s.ljClrs.toNat then (s.vpred.get (laneOf j)).toNat else (samples.getD (j - s.ljClrs.toNat) 0).toNat

/-- The difference that codes sample `j` of a row with these samples (40_ljpeg R120, R126). -/
def State.differenceOf (s : State) (samples : List Sample) (j : Nat) : Int :=
  ((samples.getD j 0).toNat : Int) - s.predictorOf samples j

/-- The bits of a row of samples: for each, the code of the difference's bit length and the extra bits (40_ljpeg R126). `codes c n` is
the code of value `n` in the table of channel `c`. -/
def State.rowBits (s : State) (codes : Nat → Nat → List Bool) (samples : List Sample) : List Bool :=
  (List.range samples.length).flatMap (fun j =>
    let d := s.differenceOf samples j
    codes (j % s.ljClrs.toNat) (bitLength d) ++ bitsOf (bitLength d) (rawOf d))

/-- The VPRED of a state after a DIFF that gave the sample `v` after `row` (40_ljpeg R122). -/
def State.vpredAfter (s : State) (row : List Sample) (v : Sample) : Quad (BitVec 16) :=
  if row.length < s.ljClrs.toNat then s.vpred.set (laneOf row.length) v else s.vpred

/-- What LJROW has done with a decoded row when it ends (40_ljpeg R123, R124): the mosaic row written, the rest of the bank as before, the row
counted, and LJ_READY cleared after the last row. -/
def RowWritten (s : State) (samples : List Sample) (t : State) : Prop :=
  (∀ j, j < s.width.toNat → ∀ k : Lane, t.sample (s.pixAddr s.ljRow.toNat j k) =
      if k = s.fc s.ljRow.toNat j then samples.getD j 0 else 0) ∧
  (∀ a, a < s.pixAddr s.ljRow.toNat 0 0 ∨ s.pixAddr s.ljRow.toNat s.width.toNat 0 ≤ a → t.sample a = s.sample a) ∧
  OtherBankKept s t ∧ t.ljRow = s.ljRow + 1 ∧
  t.ljReady = (s.ljReady && decide (s.ljRow.toNat + 1 ≠ s.ljHigh.toNat))

/-! ## The spec's own formulas -/

/-- The eight neighbours' weighted sum of channel `c` around a pixel, offsets with 1 added (41_demosaic R141). -/
def neighbourSum (s : State) (row col : Nat) (c : Lane) (value : Nat → Nat → Nat) : Nat :=
  ((List.range 3).map (fun dy => ((List.range 3).map (fun dx =>
    if (dy = 1 ∧ dx = 1) ∨ s.fc (row + dy - 1) (col + dx - 1) ≠ c then 0
    else value (row + dy - 1) (col + dx - 1) * (if dy = 1 ∨ dx = 1 then 2 else 1))).sum)).sum

/-- The unit offsets (dy, dx) of the eight directions, clockwise from N (41_demosaic R145). -/
def compass : List (Int × Int) := [(-1, 0), (-1, 1), (0, 1), (1, 1), (1, 0), (1, -1), (0, -1), (-1, -1)]

/-- `FC` at integer coordinates. -/
def fcAt (s : State) (r c : Int) : Lane := s.fc r.toNat c.toNat

/-- `SEED(r, c)[k]` at integer coordinates. -/
def seedAt (s : State) (r c : Int) (k : Lane) : Int := s.pix r.toNat c.toNat k

/-- What a term adds to gradient `i` at a pixel, by the pseudocode of 41_demosaic R146. -/
def termGradient (s : State) (row col : Int) (t : VngTerm) (i : Nat) : Int :=
  let y1 : Int := t.y1.val - 2
  let x1 : Int := t.x1.val - 2
  let y2 : Int := t.y2.val - 2
  let x2 : Int := t.x2.val - 2
  let k := fcAt s (row + y1) (col + x1)
  let diag : Int := if fcAt s row (col + 1) = k ∧ fcAt s (row + 1) col = k then 2 else 1
  if fcAt s (row + y2) (col + x2) ≠ k then 0
  else if |y1 - y2| = diag ∧ |x1 - x2| = diag then 0
  else if t.dirs.getLsbD i then |seedAt s (row + y1) (col + x1) k - seedAt s (row + y2) (col + x2) k| * 2 ^ t.w.val
  else 0

/-- `g[i]` at a pixel (41_demosaic R146). -/
def gradientAt (s : State) (row col : Int) (i : Nat) : Int :=
  (s.params.vngTerms.map (fun t => termGradient s row col t i)).sum

/-- `Contribution(row, col, i, c)` (41_demosaic R148). -/
def contributionAt (s : State) (row col : Int) (i : Nat) (c : Lane) : Int :=
  let o := compass.getD i (0, 0)
  let f := fcAt s row col
  if c = f ∧ fcAt s (row + o.1) (col + o.2) ≠ f ∧ fcAt s (row + 2 * o.1) (col + 2 * o.2) = f then
    (seedAt s row col f + seedAt s (row + 2 * o.1) (col + 2 * o.2) f) / 2
  else seedAt s (row + o.1) (col + o.2) c

/-- Lane `c` of a refined pixel when the directions `dirs` are selected (41_demosaic R150). -/
def refinedAt (s : State) (row col : Int) (dirs : List Nat) (c : Lane) : Int :=
  let f := fcAt s row col
  let total := fun k => (dirs.map (fun i => contributionAt s row col i k)).sum
  if c = f then total f / dirs.length
  else max 0 (min (seedAt s row col f + (total c - total f).tdiv dirs.length) s.clipMax.toNat)

/-- A sample of the image counts in the gray-world scan (42_exposure R164). -/
abbrev State.grayCounted (s : State) (p : Nat) (c : Lane) : Prop :=
  (s.sample (4 * p + c.val)).toNat ≠ 0 ∧
    ((s.sample (4 * p + c.val)).toNat : Int) - s.black.toNat ≤ ((s.maximum.toNat : Int) - s.black.toNat) - 25

/-- The gray-world count of a channel (42_exposure R164). -/
def State.grayCount (s : State) (c : Lane) : Nat :=
  ((List.range s.pixels).map (fun p => if s.grayCounted p c then 1 else 0)).sum

/-- The gray-world sum of a channel (42_exposure R164). -/
def State.graySum (s : State) (c : Lane) : Nat :=
  ((List.range s.pixels).map (fun p =>
    if s.grayCounted p c then ((s.sample (4 * p + c.val)).toNat - s.black.toNat) else 0)).sum

/-- The exact dot product of a row of the colour matrix with a pixel (42_exposure R172). -/
def State.dotProduct (s : State) (row : Quad (BitVec 32)) (p : Nat) : Int :=
  ∑ j : Lane, if j.val < s.colors.toNat then (row.get j).toInt * ((s.sample (4 * p + j.val)).toNat : Int) else 0

/-- Row `k` of CMAT. -/
def Cmat.row (m : Cmat) (k : Fin 3) : Quad (BitVec 32) :=
  match k with
  | 0 => m.row0
  | 1 => m.row1
  | 2 => m.row2

/-- The source position of DIAGRS's output pixel (row, col) in Q16 (43_geometry R181). -/
def State.diagSource (s : State) (row col : Nat) : Int × Int :=
  ((s.diagMag.toNat : Int) * 65536 + ((row : Int) - col) * 46341, ((row : Int) + col) * 46341)

/-- `Bilerp` at a source position in Q16 (43_geometry R184). -/
def State.bilinearAt (s : State) (i : Lane) (r c : Nat) : Nat :=
  let u := r / 65536
  let v := c / 65536
  let fr := r % 65536
  let fc := c % 65536
  ((s.pix u v i * (65536 - fc) + s.pix u (v + 1) i * fc) * (65536 - fr) +
    (s.pix (u + 1) v i * (65536 - fc) + s.pix (u + 1) (v + 1) i * fc) * fr) / 2 ^ 32

/-- The old row and column of the pixel that PERMUTE puts at new row `r`, new column `c`, for the eight orientation codes (the table of
30_encoding R84); `h` and `w` are the old height and width. -/
def orientSource (code h w r c : Nat) : Nat × Nat :=
  match code with
  | 0 => (r, c)
  | 1 => (r, w - 1 - c)
  | 2 => (h - 1 - r, c)
  | 3 => (h - 1 - r, w - 1 - c)
  | 4 => (c, r)
  | 5 => (c, w - 1 - r)
  | 6 => (h - 1 - c, r)
  | _ => (h - 1 - c, w - 1 - r)

/-! ## The host's view -/

/-- The registers that the host can read, by number, with what they hold (the table of 10_state R45 without CMD, which is write-only). -/
def State.registerTable (s : State) : List (Nat × Nat) :=
  [(0x01, s.status.toNat), (0x02, s.errCode.toNat), (0x03, s.errStage.toNat), (0x04, s.errInfo.toNat), (0x05, s.errPos.toNat)] ++
  [(0x06, s.warnFlags.toNat), (0x07, s.warnCount.toNat), (0x08, s.ctrl.toNat), (0x09, s.width.toNat), (0x0A, s.height.toNat)] ++
  [(0x0B, s.colors.toNat), (0x0C, s.cfa.toNat), (0x0D, s.black.toNat), (0x0E, s.maximum.toNat), (0x0F, s.clipMax.toNat)] ++
  [(0x10, s.shift.toNat), (0x11, s.orient.toNat), (0x12, s.diagMag.toNat), (0x13, s.xmag.toNat), (0x14, s.ymag.toNat)] ++
  [(0x15, s.streamLen.toNat), (0x16, s.spos.toNat), (0x17, s.sbit.toNat), (0x18, s.ljBits.toNat), (0x19, s.ljWide.toNat)] ++
  [(0x1A, s.ljHigh.toNat), (0x1B, s.ljClrs.toNat), (0x1C, s.ljRow.toNat), (0x1D, s.imgSel.toNat)] ++
  ([0, 1, 2, 3] : List Lane).flatMap (fun c =>
    [(0x20 + c.val, (s.camMul.get c).toNat), (0x24 + c.val, (s.premul.get c).toNat), (0x28 + c.val, (s.cmat.row0.get c).toNat),
      (0x2C + c.val, (s.cmat.row1.get c).toNat), (0x30 + c.val, (s.cmat.row2.get c).toNat), (0x34 + c.val, (s.vpred.get c).toNat),
      (0x38 + c.val, (s.gwSum.get c).toNat), (0x3C + c.val, (s.gwCnt.get c).toNat)])

/-- The width of a register the host may write, by number; nothing for CMD, a read-only register and a reserved number (10_state R45). SBIT is read-only
unless the parameter has it otherwise (notes/assumptions/22.md). -/
def writableWidth (p : Params) (number : Nat) : Option Nat :=
  if number = 0x08 then some 5
  else if number = 0x0B ∨ number = 0x11 then some 3
  else if number = 0x17 then (if p.sbitWritable then some 3 else none)
  else if number = 0x0C ∨ number = 0x15 ∨ number = 0x16 then some 32
  else if (0x09 ≤ number ∧ number ≤ 0x0F) ∨ (0x12 ≤ number ∧ number ≤ 0x14) then some 16
  else if 0x20 ≤ number ∧ number ≤ 0x33 then some 32
  else none

/-- The ten defined command words with their instructions (30_encoding R80). -/
def commandWords : List (BitVec 8 × Instr) :=
  [(0x01, .ljstart), (0x02, .ljrow), (0x10, .bilin), (0x11, .vngref), (0x20, .expsetup), (0x21, .expapply),
    (0x22, .cmatrix), (0x30, .diagrs), (0x31, .permute), (0xFF, .init)]

/-- The instruction is one of the LJ unit: its two commands and the six elements. -/
def isLjInstr : Instr → Bool
  | .ljstart => true
  | .ljrow => true
  | .soi => true
  | .sof3 _ _ => true
  | .dht _ _ => true
  | .sos _ _ => true
  | .stuff => true
  | .diff _ _ => true
  | .bilin => false
  | .vngref => false
  | .expsetup => false
  | .expapply => false
  | .cmatrix => false
  | .diagrs => false
  | .permute => false
  | .init => false

end Sys2Proof.Machine
end

