-- ==== Sys2Proof/Certificates/Slice0/Obligations.lean ====
section
/-! DEFINITION. The statements for the provers, in the order of OBLIGATIONS.json: encoding; the step and the host; the checks and
faults; the LJ, DM, EX and GN units; the invariants. -/

open Sys2Proof Sys2Proof.Machine

/-! ## Encoding -/

/-- Decoding the encoding of any well-formed instruction gives it back (30_encoding R80, R87 to R95). A DIFF is read with the table of its channel, in
which its code must be a leaf for as many extra bits as it has. -/
def Obligations.DecodeInvertsEncode : Prop :=
  ∀ (t : HuffTable) (maxBits : Nat) (i : Instr), i.wellFormed = true →
    (∀ code extra, i = .diff code extra → leafAt t code extra.length ∧ extra.length ≤ maxBits) →
    decode t maxBits (encode i) = .ok i

/-- A decoded byte-aligned element is spelled by exactly the bytes it was decoded from (30_encoding R87, R98). -/
def Obligations.DecodedElementReencodes : Prop :=
  ∀ (bytes : List Byte) (i : Instr) (rest : List Byte), decodeElement bytes = .ok (i, rest) →
    ∃ l, encode i = .bytes l ∧ bytes = l ++ rest

/-- Words written out from the tables of 30_encoding decode to the instructions they stand for (R80, R88, R90 to R95). -/
def Obligations.KnownWordsDecode : Prop :=
  decodeCommand 0x01 = .ok .ljstart ∧ decodeCommand 0x22 = .ok .cmatrix ∧ decodeCommand 0xFF = .ok .init ∧
  decodeCommand 0x12 = .error (.unknownCommand 0x12) ∧
  decodeElement [0xFF, 0xD8] = .ok (.soi, []) ∧
  decodeElement [0xFF, 0xC3, 0x00, 0x0B, 0x0C, 0x00, 0x02, 0x00, 0x03, 0x01, 0x01, 0x11, 0x00] =
    .ok (.sof3 0x000B [0x0C, 0x00, 0x02, 0x00, 0x03, 0x01, 0x01, 0x11, 0x00], []) ∧
  decodeElement [0xFF, 0xDA, 0x00, 0x08, 0x01, 0x01, 0x00, 0x01, 0x00, 0x00, 0xA5] =
    .ok (.sos 0x0008 [0x01, 0x01, 0x00, 0x01, 0x00, 0x00], [0xA5]) ∧
  decodeElement [0xFF, 0x00] = .ok (.stuff, []) ∧
  decodeDiff [⟨2, 0, 0⟩, ⟨2, 1, 1⟩, ⟨2, 2, 2⟩] 12 [true, false, false, true] =
    .ok (.diff [true, false] [false, true], [])

/-- `DiffValue` and the ranges of its three cases (30_encoding R96). -/
def Obligations.DifferenceValueRanges : Prop :=
  (∀ raw, diffValue 0 raw = 0) ∧
  ∀ n raw : Nat, 1 ≤ n → n ≤ 16 → raw < 2 ^ n →
    (2 ^ (n - 1) ≤ raw → diffValue n raw = raw ∧ (2 ^ (n - 1) : Int) ≤ diffValue n raw ∧ diffValue n raw ≤ 2 ^ n - 1) ∧
    (raw < 2 ^ (n - 1) → diffValue n raw = (raw : Int) - (2 ^ n - 1) ∧
      -(2 ^ n - 1 : Int) ≤ diffValue n raw ∧ diffValue n raw ≤ -(2 ^ (n - 1) : Int))

/-! ## Huffman tables -/

/-- A table that 30_encoding R92 builds from sixteen counts and values of the alphabet is one of 10_state R41: every triple in bounds, no code the
prefix of another. -/
def Obligations.BuiltTablesArePrefixFree : Prop :=
  ∀ (counts vals : List Byte) (t : HuffTable), counts.length = 16 → (∀ v ∈ vals, v.toNat ≤ 16) →
    buildTable counts vals = .ok t → HuffTable.wf t = true

/-- Canonical code assignment (30_encoding R92): lengths as counted, values in stream order, the first code 0, each next code one more than the one
before, shifted to its length; and the fault exactly at the first length at which the counts ask for more codes than there are. -/
def Obligations.CanonicalCodeAssignment : Prop :=
  ∀ counts vals : List Byte, counts.length = 16 → vals.length = (counts.map (·.toNat)).sum →
    (∀ t, buildTable counts vals = .ok t →
      t.map (·.value) = vals.map (·.toNat) ∧
      t.map (·.len) = (counts.zipIdx).flatMap (fun n => List.replicate n.1.toNat (n.2 + 1)) ∧
      (∀ e, t[0]? = some e → e.code = 0) ∧
      (∀ k e f, t[k]? = some e → t[k + 1]? = some f → f.code = (e.code + 1) * 2 ^ (f.len - e.len))) ∧
    (∀ l, buildTable counts vals = .error l ↔
      (1 ≤ l ∧ l ≤ 16 ∧
        2 ^ l < (((counts.take l).zipIdx).map (fun n => n.1.toNat * 2 ^ (l - (n.2 + 1)))).sum ∧
        ∀ m, 1 ≤ m → m < l →
          (((counts.take m).zipIdx).map (fun n => n.1.toNat * 2 ^ (m - (n.2 + 1)))).sum ≤ 2 ^ m))

/-! ## The step and the host -/

/-- Between commands a step with a host write of a defined word to CMD runs that command on the state without the write; with nothing to do
it leaves the state alone (30_encoding R81, 60_exceptions R218). -/
def Obligations.StepRunsCommandWord : Prop :=
  (∀ s v rest i, s.params.wf = true → s.phase = .idle → s.inputs = .writeReg 0 v :: rest →
    (v.setWidth 8, i) ∈ commandWords → step s = exec i { s with inputs := rest }) ∧
  (∀ s, s.params.wf = true → s.phase = .idle → s.inputs = [] → step s = .next s)

/-- Inside an LJ command a step runs the element whose encoding stands at the cursor: SOI or a segment in the header, the stuffed pair or the bits of a
DIFF in the scan (10_state R24; 30_encoding R86; 40_ljpeg R112, R118). That one step runs one element, where the spec gives a whole command as one, is the
model's choice (notes/assumptions/5.md); that the stuffed pair is an element of its own before the DIFFs it feeds is its reading (notes/assumptions/8.md). -/
def Obligations.StepRunsStreamElement : Prop :=
  (∀ s loaded, s.params.wf = true → s.phase = .start loaded → s.holdsAt s.spos.toNat [0xFF, 0xD8] → step s = exec .soi s) ∧
  (∀ s loaded sof i l, s.params.wf = true → s.phase = .header loaded sof → i.wellFormed = true → encode i = .bytes l → i ≠ .soi → i ≠ .stuff →
    s.holdsAt s.spos.toNat l → step s = exec i s) ∧
  (∀ s row bits, s.params.wf = true → s.phase = .scan row bits → s.stuffed = true → s.sbit = 0 →
    s.holdsAt s.spos.toNat [0xFF, 0x00] → step s = exec .stuff s) ∧
  (∀ (s : State) row bits code extra (n k : Nat) s1 more, s.params.wf = true → s.phase = .scan row bits →
    ¬(s.stuffed = true ∧ s.sbit = 0 ∧ s.holdsAt s.spos.toNat [0xFF, 0x00]) →
    takeBits k s = (s1, .ok more) → bits ++ more = code ++ extra →
    leafAt (s.table (s.diffChannel row.length)) code n → n ≤ s.ljBits.toNat → extra.length = n →
    step s = exec (.diff code extra) s)

/-- A host write of an undefined word to CMD takes E_ILLCMD with the word as its information (30_encoding R81, R82; 60_exceptions R204). -/
def Obligations.IllegalWordFaults : Prop :=
  ∀ s v rest, s.params.wf = true → s.phase = .idle → s.accepting → s.inputs = .writeReg 0 v :: rest →
    (∀ i, (v.setWidth 8, i) ∉ commandWords) →
    ∃ t, step s = .next t ∧ t.done = false ∧
      FaultTaken (v.setWidth 8) 11 ((v.setWidth 8 : BitVec 8).toNat) { s with inputs := rest } t

/-- While a fault is latched every word written to CMD but INIT's is ignored: nothing changes but that the host's write is done. INIT's word runs INIT, and
every other access of the host does what it does without the fault (60_exceptions R206). -/
def Obligations.RefusedWhileFaulted : Prop :=
  (∀ s w i, (w, i) ∈ commandWords → i ≠ .init → s.busy = false → s.faulted = true → exec i s = .next s) ∧
  (∀ s v rest, s.params.wf = true → s.phase = .idle → s.busy = false → s.faulted = true →
    s.inputs = .writeReg 0 v :: rest →
    ((v.setWidth 8 : BitVec 8) ≠ 0xFF → step s = .next { s with inputs := rest }) ∧
    ((v.setWidth 8 : BitVec 8) = 0xFF → step s = exec .init { s with inputs := rest })) ∧
  (∀ s op rest, s.params.wf = true → s.phase = .idle → s.busy = false → s.faulted = true → s.inputs = op :: rest →
    (∀ v, op ≠ .writeReg 0 v) → step s = hostAct op { s with inputs := rest })

/-- While BUSY = 1 every host write is ignored: of CMD, of any other register, of stream memory and of the image (10_state R46, 20_memory R70).
No run shows the host BUSY = 1 (20_memory R70). -/
def Obligations.WritesIgnoredWhileBusy : Prop :=
  ∀ s op rest, s.params.wf = true → s.phase = .idle → s.busy = true → s.inputs = op :: rest →
    ((∃ n v, op = .writeReg n v) ∨ (∃ a v, op = .writeByte a v ∧ a < s.params.strCap) ∨
      (∃ a v, op = .writeSample a v ∧ a < 4 * s.params.imgCap)) →
    step s = .next { s with inputs := rest }

/-- INIT (60_exceptions R208): with or without a latched fault, every register 0 and every table undefined; the memories, and what is not the
machine's, as they were. -/
def Obligations.InitRestoresResetValues : Prop :=
  ∀ s, s.busy = false → ∃ t, exec .init s = .next t ∧
    (∀ n, readRegister t n = 0) ∧ t.cmd = 0 ∧ (∀ c, t.ht.get c = none) ∧ t.phase = .idle ∧
    (∀ a, t.strByte a = s.strByte a) ∧ (∀ b a, t.sampleIn b a = s.sampleIn b a) ∧
    t.inputs = s.inputs ∧ t.hostData = s.hostData ∧ t.epoch = s.epoch ∧ t.draws = s.draws ∧ t.params = s.params

/-- After hardware reset every register reads 0, the tables are undefined and no memory location has been written (10_state R53; 70_reset R231); a
hardware reset that the host pulls leads there, and unwritten memory then holds other free values (notes/assumptions/1.md). -/
def Obligations.ResetReadsZero : Prop :=
  (∀ n, readRegister State.reset n = 0) ∧ (∀ c, State.reset.ht.get c = none) ∧
  State.reset.str = [] ∧ State.reset.img0 = [] ∧ State.reset.img1 = [] ∧
  ∀ s rest, s.params.wf = true → s.phase = .idle → s.inputs = .hardwareReset :: rest →
    step s = .next { State.reset with
      inputs := rest, hostData := s.hostData, epoch := s.epoch + 1, draws := s.draws, params := s.params }

/-- A host write of a register while idle: the value truncated to the register's width where the host may write it, nothing elsewhere; a write of
SPOS also clears SBIT; no other register, and no memory, changes (10_state R24, R45, R46), also while LJ_READY = 1 (70_reset R239). By its own number SBIT is read-only, or
writable where the model's parameter has it so (R45 against R239, notes/assumptions/22.md); the statement holds for both. -/
def Obligations.HostWritesRegister : Prop :=
  ∀ s n v rest, s.params.wf = true → s.phase = .idle → s.busy = false → n ≠ 0 → s.inputs = .writeReg n v :: rest →
    ∃ t, step s = .next t ∧
      (∀ m, readRegister t m =
        match writableWidth s.params n with
        | some w => if m = n then BitVec.ofNat 48 (v.toNat % 2 ^ w) else if n = 0x16 ∧ m = 0x17 then 0 else readRegister s m
        | none => readRegister s m) ∧
      t.inputs = rest ∧ t.cmd = s.cmd ∧ t.ht = s.ht ∧ t.str = s.str ∧ t.img0 = s.img0 ∧ t.img1 = s.img1 ∧ t.phase = s.phase ∧
      t.hostData = s.hostData ∧ t.epoch = s.epoch ∧ t.draws = s.draws ∧ t.params = s.params

/-- What the host reads while idle is what is held, and reading changes nothing: a register by its number in the table of 10_state R45, and 0 for every other
number, CMD's among them (R44, R46); a byte or a sample read after a write is the one written last (20_memory R68). -/
def Obligations.HostReadsWhatIsHeld : Prop :=
  ∀ s rest, s.params.wf = true → s.phase = .idle → s.busy = false →
    (∀ n v, (n, v) ∈ s.registerTable → s.inputs = .readReg n :: rest →
      step s = .next { s with inputs := rest, hostData := BitVec.ofNat 48 v }) ∧
    (∀ n, (∀ v, (n, v) ∉ s.registerTable) → s.inputs = .readReg n :: rest →
      step s = .next { s with inputs := rest, hostData := 0 }) ∧
    (∀ a v b, a < s.params.strCap → b < s.params.strCap → s.inputs = .writeByte a v :: .readByte b :: rest →
      ∃ t u, step s = .next t ∧ step t = .next u ∧ u.hostData = (if b = a then v else s.strByte b).setWidth 48 ∧
        u = { s with inputs := rest, hostData := u.hostData, str := u.str } ∧
        ∀ d, d ≠ a → u.strByte d = s.strByte d) ∧
    (∀ a v b, a < 4 * s.params.imgCap → b < 4 * s.params.imgCap → s.inputs = .writeSample a v :: .readSample b :: rest →
      ∃ t u, step s = .next t ∧ step t = .next u ∧ u.hostData = (if b = a then v else s.sample b).setWidth 48 ∧
        u = { s with inputs := rest, hostData := u.hostData, img0 := u.img0, img1 := u.img1 } ∧
        OtherBankKept s u ∧ ∀ d, d ≠ a → u.sample d = s.sample d)

/-! ## The checks of the commands -/

/-- `CheckImageRegs` (60_exceptions R202), the first check of every command but INIT, for LJROW the first after E_SEQ: the first line that fails is
the fault, and nothing else changes. -/
def Obligations.ImageRegisterChecks : Prop :=
  ∀ s w i, (w, i) ∈ commandWords → i ≠ .init → s.accepting → (i = .ljrow → s.ljReady = true) →
    ((s.width = 0 ∨ s.height = 0) → CommandFaults i w 10 0 s) ∧
    (s.width ≠ 0 → s.height ≠ 0 → s.colors ≠ 1 → s.colors ≠ 3 → s.colors ≠ 4 → CommandFaults i w 10 s.colors.toNat s) ∧
    (s.width ≠ 0 → s.height ≠ 0 → (s.colors = 1 ∨ s.colors = 3 ∨ s.colors = 4) →
      s.params.imgCap < s.width.toNat * s.height.toNat →
      CommandFaults i w 8 (s.width.toNat * s.height.toNat : Nat) s)

/-- `CheckCfa` (60_exceptions R203), the second check of the four commands that evaluate FC: the lowest field that names no channel is the fault. -/
def Obligations.CfaFieldCheck : Prop :=
  ∀ s w i (k : Nat), (w, i) ∈ commandWords → (i = .ljstart ∨ i = .ljrow ∨ i = .bilin ∨ i = .vngref) → s.accepting →
    (i = .ljrow → s.ljReady = true) → s.legalImage → k < 16 → s.colors.toNat ≤ s.cfaNumber k →
    (∀ j, j < k → s.cfaNumber j < s.colors.toNat) → CommandFaults i w 9 k s

/-- The checks of the LJ commands, in their order (40_ljpeg R113, R118; 60_exceptions R207): LJROW without LJ_READY is E_SEQ whatever else is wrong; a
stream longer than stream memory; for LJROW a frame that is not the image. -/
def Obligations.LjCommandChecks : Prop :=
  (∀ s, s.accepting → s.ljReady = false → CommandFaults .ljrow 0x02 12 s.ljRow.toNat s) ∧
  (∀ s w i, (w, i) ∈ commandWords → (i = .ljstart ∨ i = .ljrow) → s.accepting → (i = .ljrow → s.ljReady = true) →
    s.legalImage → s.legalCfa → s.params.strCap < s.streamLen.toNat → CommandFaults i w 8 s.streamLen.toNat s) ∧
  (∀ s, s.accepting → s.ljReady = true → s.legalImage → s.legalCfa → s.legalStream → ¬s.frameMatches →
    CommandFaults .ljrow 0x02 10 (s.ljWide.toNat * s.ljClrs.toNat : Nat) s)

/-- The checks of the EX commands and of VNGREF after the image registers (41_demosaic R151, R152; 42_exposure R162, R163, R170, R172): CLIP_MAX must be
loaded, MAXIMUM must exceed BLACK, and no used camera multiplier may be 0, the lowest being reported. -/
def Obligations.ExposureChecks : Prop :=
  (∀ s, s.accepting → s.legalImage → s.clipMax = 0 →
    CommandFaults .expapply 0x21 10 0 s ∧ CommandFaults .cmatrix 0x22 10 0 s ∧
    (s.legalCfa → s.quick = false → CommandFaults .vngref 0x11 10 0 s)) ∧
  (∀ s, s.accepting → s.legalImage → s.maximum.toNat ≤ s.black.toNat → CommandFaults .expsetup 0x20 10 s.maximum.toNat s) ∧
  (∀ s (c : Lane), s.accepting → s.legalImage → s.black.toNat < s.maximum.toNat → s.grayWorld = false →
    c.val < s.colors.toNat → s.camMul.get c = 0 → (∀ d : Lane, d.val < c.val → s.camMul.get d ≠ 0) →
    CommandFaults .expsetup 0x20 10 c.val s)

/-- The checks of a resampling DIAGRS after the image registers (43_geometry R181 to R183). -/
def Obligations.DiagrsChecks : Prop :=
  ∀ s (wide high : Nat), s.accepting → s.legalImage → s.diagEnabled = true →
    wide = s.diagMag.toNat * 65536 / 46341 → high = (s.height.toNat - s.diagMag.toNat) * 65536 / 46341 →
    ((s.diagMag = 0 ∨ s.height.toNat ≤ s.diagMag.toNat ∨ wide = 0 ∨ high = 0 ∨ 65535 < wide ∨ 65535 < high) →
      CommandFaults .diagrs 0x30 10 s.diagMag.toNat s) ∧
    (s.diagMag ≠ 0 → s.diagMag.toNat < s.height.toNat → 1 ≤ wide → wide ≤ 65535 → 1 ≤ high → high ≤ 65535 →
      s.params.imgCap < wide * high → CommandFaults .diagrs 0x30 8 (wide * high : Nat) s)

/-! ## The LJ unit: the commands -/

/-- LJSTART on a whole header (40_ljpeg R112, R113, R115; 30_encoding R90 to R93): any DHT segments before and after the one SOF3, then SOS. The frame, the
tables (later definitions replace earlier ones), the predictors at half the range, the row counter, the cursor after SOS, LJ_READY; all else as before. -/
def Obligations.LjstartParsesHeader : Prop :=
  ∀ (s : State) (before after : List (List TableDefinition)) (frame : FrameHeader) (scan : List Byte),
    s.accepting → s.legalImage → s.legalCfa → s.legalStream →
    (∀ ds ∈ before ++ after, ds ≠ [] ∧ (∀ d ∈ ds, d.legal) ∧ fitsSegment (definitionsBytes ds)) →
    frame.legal → fitsSegment scan →
    (∀ c : Lane, c.val < frame.channels → ((storeAll (before ++ after).flatten (Quad.all none)).get c).isSome = true) →
    frame.columns * frame.channels = s.width.toNat → frame.rows = s.height.toNat →
    s.holdsAt s.spos.toNat (headerBytes before frame after scan) →
    ∃ t, exec .ljstart s = .next t ∧ Completed 0x01 t ∧ t.ljReady = true ∧ t.warned = s.warned ∧
      t = { s with
            cmd := t.cmd
            status := t.status
            phase := t.phase
            ht := storeAll (before ++ after).flatten (Quad.all none)
            ljBits := BitVec.ofNat 5 frame.bits
            ljHigh := BitVec.ofNat 16 frame.rows
            ljWide := BitVec.ofNat 16 frame.columns
            ljClrs := BitVec.ofNat 3 frame.channels
            vpred := Quad.all (BitVec.ofNat 16 (2 ^ (frame.bits - 1)))
            ljRow := 0
            spos := BitVec.ofNat 32 (s.spos.toNat + (headerBytes before frame after scan).length)
            sbit := 0 }

/-- Whatever the stream holds (40_ljpeg R112, R114, R115; 60_exceptions R205): an accepted LJSTART writes only the LJ registers, the tables, STATUS and, on a
fault, ERR_*. Unfaulted it leaves a legal frame that is the image, a table for every channel, VPRED = 1 << (LJ_BITS - 1) in all four channels, LJ_ROW = 0 and
the cursor on a byte after the header. Faulted, VPRED and LJ_ROW are as before; so are the cursor and ERR_POS, the SPOS that was loaded, by 95_test_vectors V20 and
the reading of notes/assumptions/6.md. -/
def Obligations.LjstartOutcome : Prop :=
  ∀ s t, s.accepting → exec .ljstart s = .next t →
    t = { s with
          cmd := 0x01, status := t.status, phase := .idle, errCode := t.errCode, errStage := t.errStage, errInfo := t.errInfo,
          errPos := t.errPos, ht := t.ht, ljBits := t.ljBits, ljHigh := t.ljHigh, ljWide := t.ljWide, ljClrs := t.ljClrs,
          vpred := t.vpred, ljRow := t.ljRow, spos := t.spos, sbit := t.sbit } ∧
    t.busy = false ∧ t.warned = s.warned ∧
    (t.faulted = false → t.done = true ∧ t.ljReady = true ∧ t.frameLegal ∧ t.frameMatches ∧
      (∀ c : Lane, c.val < t.ljClrs.toNat → (t.ht.get c).isSome = true) ∧
      t.vpred = Quad.all (BitVec.ofNat 16 (2 ^ (t.ljBits.toNat - 1))) ∧ t.ljRow = 0 ∧ t.sbit = 0 ∧
      s.spos.toNat < t.spos.toNat ∧ t.spos.toNat ≤ s.streamLen.toNat) ∧
    (t.faulted = true → t.done = false ∧ t.ljReady = false ∧ t.spos = s.spos ∧ t.sbit = s.sbit ∧ t.vpred = s.vpred ∧
      t.ljRow = s.ljRow ∧ t.errPos = s.spos ∧ t.errStage = 0x01)

/-- LJSTART is what its elements do one after the other (00_scope R2, 40_ljpeg R112): stepping through the header from its opening leads to the state LJSTART
reaches at once. One step for one element is the model's choice (notes/assumptions/5.md). -/
def Obligations.LjstartIsItsElements : Prop :=
  ∀ s, s.params.wf = true → s.accepting → s.legalImage → s.legalCfa → s.legalStream →
    ∃ k, Host.Core.run core k (openHeader (s.begin 0x01)) = exec .ljstart s

/-- LJROW reproduces a row of samples from its coded differences (40_ljpeg R118, R120 to R124, R126), in either STUFF mode and from any bit of the stream: the
bits at the cursor are the row's, the tables have a code for each bit length that occurs in the row, and the samples come out in the mosaic, VPRED holds the
column-0 samples, and the cursor stands after the last bit. -/
def Obligations.LjrowDecodesRow : Prop :=
  ∀ (s : State) (samples : List Sample) (codes : Nat → Nat → List Bool) (s1 : State),
    s.accepting → s.ljReady = true → s.legalImage → s.legalCfa → s.legalStream → s.frameMatches → s.frameLegal →
    s.predictorsLegal → samples.length = s.width.toNat → (∀ v ∈ samples, v.toNat < 2 ^ s.ljBits.toNat) →
    (∀ j n, j < samples.length → n = bitLength (s.differenceOf samples j) →
      leafAt (s.table (s.diffChannel j)) (codes (j % s.ljClrs.toNat) n) n) →
    takeBits (s.rowBits codes samples).length s = (s1, .ok (s.rowBits codes samples)) →
    ∃ t, exec .ljrow s = .next t ∧ Completed 0x02 t ∧ t.warned = s.warned ∧ RowWritten s samples t ∧
      t = { s with
            cmd := t.cmd, status := t.status, phase := t.phase, img0 := t.img0, img1 := t.img1, ljRow := t.ljRow,
            spos := s1.spos
            sbit := s1.sbit
            vpred := Quad.ofFn (fun c => if c.val < s.ljClrs.toNat then samples.getD c.val 0 else s.vpred.get c) }

/-- A faulted LJROW has written no sample and not counted the row; only the cursor and VPRED may have moved (40_ljpeg R123, R125;
60_exceptions R205). -/
def Obligations.LjrowFaultLeavesImage : Prop :=
  ∀ s t, s.accepting → exec .ljrow s = .next t → t.faulted = true →
    t = { s with
          cmd := 0x02, status := t.status, phase := .idle, errCode := t.errCode, errStage := 0x02, errInfo := t.errInfo,
          errPos := t.spos, vpred := t.vpred, spos := t.spos, sbit := t.sbit } ∧
    t.busy = false ∧ t.done = false ∧ t.ljReady = false ∧ t.warned = s.warned

/-- LJROW is what its elements do one after the other (00_scope R2, 40_ljpeg R118). One step for one element is the model's choice (notes/assumptions/5.md), and
the stuffed pair as an element of its own its reading (notes/assumptions/8.md). -/
def Obligations.LjrowIsItsElements : Prop :=
  ∀ s, s.params.wf = true → s.accepting → s.ljReady = true → s.legalImage → s.legalCfa → s.legalStream → s.frameMatches →
    ∃ k, Host.Core.run core k { s.begin 0x02 with phase := .scan [] [] } = exec .ljrow s

/-! ## The LJ unit: the bit reader and the elements -/

/-- The bit reader (40_ljpeg R116; 20_memory R62; 30_encoding R94): from a byte boundary it delivers the bits of the data bytes, most significant first; in
stuffed mode the stream holds a 00 after every FF, which delivers nothing; the cursor ends after the last byte. -/
def Obligations.BitReaderDeliversBytes : Prop :=
  ∀ (s : State) (data : List Byte), s.sbit = 0 →
    s.holdsAt s.spos.toNat (if s.stuffed then stuffBytes data else data) →
    takeBits (8 * data.length) s =
      ({ s with spos := BitVec.ofNat 32 (s.spos.toNat + (if s.stuffed then stuffBytes data else data).length) },
        .ok (bitsOfBytes data))

/-- What ends a scan when a bit is needed, at once or after any number `k` of bits of the same DIFF (30_encoding R94, R97; 40_ljpeg R116, R117; 60_exceptions R205): no
byte at the cursor, E_EOS; in stuffed mode at the start of an FF, no byte after it, E_EOS, or one that is not 00, E_MARKER. The cursor stands after the bits taken. -/
def Obligations.EntropyDataStops : Prop :=
  ∀ (s : State) row bits (k : Nat) s1 more, s.params.wf = true → s.phase = .scan row bits →
    ¬(s.stuffed = true ∧ s.sbit = 0 ∧ s.holdsAt s.spos.toNat [0xFF, 0x00]) →
    takeBits k s = (s1, .ok more) → (∀ j, j ≤ k → s.scanDiff row.length (bits ++ more.take j) = .more) →
    let moved := { s with spos := s1.spos, sbit := s1.sbit }
    (s.streamByte s1.spos.toNat = none → ElementFaults (step s) 5 s1.spos.toNat moved) ∧
    (s.stuffed = true → s1.sbit = 0 → s.streamByte s1.spos.toNat = some 0xFF →
      (s.streamByte (s1.spos.toNat + 1) = none → ElementFaults (step s) 5 (s1.spos.toNat + 1 : Nat) moved) ∧
      (∀ b, s.streamByte (s1.spos.toNat + 1) = some b → b ≠ 0 → ElementFaults (step s) 1 (0xFF00 + b.toNat : Nat) moved))

/-- What ends a header between its elements (20_memory R60; 30_encoding R87, R88, R97; 40_ljpeg R112): a missing byte, E_EOS at its address, in the order the bytes
are read; two bytes that are no marker accepted there, E_MARKER; a length below 2, E_MARKER. The fault leaves the cursor as LJSTART was started with (95_test_vectors
V20, notes/assumptions/6.md). -/
def Obligations.HeaderStops : Prop :=
  (∀ (s : State) (loaded : Cursor) (a : Nat), s.params.wf = true → s.phase = .start loaded → a = s.spos.toNat →
    let back := s.setCursor loaded
    (s.streamByte a = none → ElementFaults (step s) 5 a back) ∧
    (s.streamByte a ≠ none → s.streamByte (a + 1) = none → ElementFaults (step s) 5 (a + 1 : Nat) back) ∧
    (∀ m0 m1, s.holdsAt a [m0, m1] → ¬(m0 = 0xFF ∧ m1 = 0xD8) → ElementFaults (step s) 1 (m0.toNat * 256 + m1.toNat : Nat) back)) ∧
  (∀ (s : State) (loaded : Cursor) (sof : Bool) (a : Nat), s.params.wf = true → s.phase = .header loaded sof → a = s.spos.toNat →
    let back := s.setCursor loaded
    (s.streamByte a = none → ElementFaults (step s) 5 a back) ∧
    (s.streamByte a ≠ none → s.streamByte (a + 1) = none → ElementFaults (step s) 5 (a + 1 : Nat) back) ∧
    (∀ m0 m1, s.holdsAt a [m0, m1] → ¬(m0 = 0xFF ∧ (m1 = 0xC3 ∨ m1 = 0xC4 ∨ m1 = 0xDA)) →
      ElementFaults (step s) 1 (m0.toNat * 256 + m1.toNat : Nat) back) ∧
    (∀ m1, s.holdsAt a [0xFF, m1] → (m1 = 0xC3 ∨ m1 = 0xC4 ∨ m1 = 0xDA) →
      (s.streamByte (a + 2) = none → ElementFaults (step s) 5 (a + 2 : Nat) back) ∧
      (s.streamByte (a + 2) ≠ none → s.streamByte (a + 3) = none → ElementFaults (step s) 5 (a + 3 : Nat) back) ∧
      (∀ l0 l1 : Byte, s.holdsAt a [0xFF, m1, l0, l1] →
        (l0.toNat * 256 + l1.toNat < 2 → ElementFaults (step s) 1 (l0.toNat * 256 + l1.toNat : Nat) back) ∧
        (2 ≤ l0.toNat * 256 + l1.toNat → s.streamByte (a + 2 + (l0.toNat * 256 + l1.toNat) - 1) = none →
          ElementFaults (step s) 5 (a + 2 + (l0.toNat * 256 + l1.toNat) - 1 : Nat) back))))

/-- SOI (30_encoding R88, R98; 10_state R24; 40_ljpeg R112): where LJSTART wants it, it only moves the cursor two bytes on. An element as a step of its own is the
model's choice (notes/assumptions/5.md); that LJSTART keeps the cursor it was started with for a fault, its reading (notes/assumptions/6.md). -/
def Obligations.SoiOpensHeader : Prop :=
  ∀ s loaded, s.phase = .start loaded → exec .soi s = .next { s with spos := s.spos + 2, phase := .header loaded false }

/-- SOF3 (30_encoding R90, R98; 10_state R24; 40_ljpeg R112): a legal frame is written to LJ_BITS, LJ_HIGH, LJ_WIDE, LJ_CLRS, and the cursor moves past the
segment; nothing else changes. The cursor LJSTART was started with is kept for a fault (notes/assumptions/6.md). -/
def Obligations.Sof3WritesFrame : Prop :=
  ∀ s loaded (frame : FrameHeader), s.phase = .header loaded false → frame.legal →
    exec (.sof3 (BitVec.ofNat 16 (frame.payload.length + 2)) frame.payload) s =
      .next { s with
        spos := s.spos + BitVec.ofNat 32 (2 + (frame.payload.length + 2))
        ljBits := BitVec.ofNat 5 frame.bits
        ljHigh := BitVec.ofNat 16 frame.rows
        ljWide := BitVec.ofNat 16 frame.columns
        ljClrs := BitVec.ofNat 3 frame.channels
        phase := .header loaded true }

/-- The faults of SOF3, the first in the order of 30_encoding R90: a second SOF3; a length below 8; a length that is not 8 + 3 Nf; the precision; the
channel count; a zero dimension. The fault leaves the cursor as LJSTART was started with (95_test_vectors V20, notes/assumptions/6.md). -/
def Obligations.Sof3Faults : Prop :=
  ∀ (s : State) (loaded : Cursor) (len : BitVec 16) payload, segmentWellFormed len payload = true →
    let back := s.setCursor loaded
    (s.phase = .header loaded true → ElementFaults (exec (.sof3 len payload) s) 1 0xFFC3 back) ∧
    (s.phase = .header loaded false →
      (len.toNat < 8 → ElementFaults (exec (.sof3 len payload) s) 6 len.toNat back) ∧
      (∀ p y1 y0 x1 x0 nf comps, payload = p :: y1 :: y0 :: x1 :: x0 :: nf :: comps →
        (len.toNat ≠ 8 + 3 * nf.toNat → ElementFaults (exec (.sof3 len payload) s) 6 len.toNat back) ∧
        (len.toNat = 8 + 3 * nf.toNat →
          (p.toNat < 2 ∨ 16 < p.toNat → ElementFaults (exec (.sof3 len payload) s) 6 p.toNat back) ∧
          (2 ≤ p.toNat → p.toNat ≤ 16 →
            (nf = 0 ∨ 4 < nf.toNat → ElementFaults (exec (.sof3 len payload) s) 6 nf.toNat back) ∧
            (nf ≠ 0 → nf.toNat ≤ 4 → (y1 = 0 ∧ y0 = 0) ∨ (x1 = 0 ∧ x0 = 0) →
              ElementFaults (exec (.sof3 len payload) s) 6 0 back)))))

/-- DHT (30_encoding R91, R92, R98; 10_state R24; 40_ljpeg R112): the definitions are stored in turn, and the cursor moves past the segment; nothing else changes. The
cursor LJSTART was started with is kept for a fault (notes/assumptions/6.md). -/
def Obligations.DhtStoresTables : Prop :=
  ∀ s loaded sof (ds : List TableDefinition), s.phase = .header loaded sof → ds ≠ [] → (∀ d ∈ ds, d.legal) →
    fitsSegment (definitionsBytes ds) →
    exec (.dht (BitVec.ofNat 16 ((definitionsBytes ds).length + 2)) (definitionsBytes ds)) s =
      .next { s with
        spos := s.spos + BitVec.ofNat 32 (2 + ((definitionsBytes ds).length + 2))
        ht := storeAll ds s.ht }

/-- The faults of DHT (30_encoding R91, R92; 60_exceptions R205), all E_HUFFTAB, in a definition that follows any number of legal ones, whose tables stay stored: the id byte; an
empty payload or a definition that runs past its end; a value above 16, the first one; an over-subscribed length vector. The fault leaves the cursor as LJSTART was
started with (95_test_vectors V20, notes/assumptions/6.md). -/
def Obligations.DhtFaults : Prop :=
  ∀ s loaded sof (ds : List TableDefinition) (tail : List Byte), s.phase = .header loaded sof → (∀ d ∈ ds, d.legal) →
    fitsSegment (definitionsBytes ds ++ tail) →
    let payload := definitionsBytes ds ++ tail
    let len := BitVec.ofNat 16 (payload.length + 2)
    let stored := { s.setCursor loaded with ht := storeAll ds s.ht }
    (payload = [] → ElementFaults (exec (.dht len payload) s) 2 (payload.length + 2 : Nat) stored) ∧
    (∀ b rest, tail = b :: rest →
      (3 < b.toNat → ElementFaults (exec (.dht len payload) s) 2 b.toNat stored) ∧
      (b.toNat ≤ 3 → rest.length < 16 + ((rest.take 16).map (·.toNat)).sum →
        ElementFaults (exec (.dht len payload) s) 2 (payload.length + 2 : Nat) stored) ∧
      (∀ counts vals more, rest = counts ++ vals ++ more → b.toNat ≤ 3 → counts.length = 16 →
        vals.length = (counts.map (·.toNat)).sum →
        (∀ (k : Nat) (v : Byte), vals[k]? = some v → 16 < v.toNat → (∀ (j : Nat) (w : Byte), j < k → vals[j]? = some w → w.toNat ≤ 16) →
          ElementFaults (exec (.dht len payload) s) 2 v.toNat stored) ∧
        (∀ l, (∀ v ∈ vals, v.toNat ≤ 16) → buildTable counts vals = .error l →
          ElementFaults (exec (.dht len payload) s) 2 l stored)))

/-- SOS (30_encoding R93, R98; 40_ljpeg R112, R113, R115): after SOF3, with every channel's table defined and the frame that of the image, it ends LJSTART: the
cursor after the segment, the predictors at half the range, LJ_ROW = 0, LJ_READY and DONE set; nothing else changes. -/
def Obligations.SosOpensScan : Prop :=
  ∀ s loaded (len : BitVec 16) payload, s.phase = .header loaded true → segmentWellFormed len payload = true →
    (∀ c : Lane, c.val < s.ljClrs.toNat → (s.ht.get c).isSome = true) → s.frameLegal → s.frameMatches →
    ∃ t, exec (.sos len payload) s = .next t ∧ t.busy = false ∧ t.done = true ∧ t.ljReady = true ∧
      t.faulted = s.faulted ∧ t.warned = s.warned ∧
      t = { s with
            status := t.status
            phase := .idle
            spos := s.spos + BitVec.ofNat 32 (2 + len.toNat)
            sbit := 0
            vpred := Quad.all (BitVec.ofNat 16 (2 ^ (s.ljBits.toNat - 1)))
            ljRow := 0 }

/-- The faults of SOS in their order (30_encoding R93; 40_ljpeg R112, R113): before SOF3; the lowest channel without a table; a frame that is not
the image. The fault leaves the cursor as LJSTART was started with (95_test_vectors V20, notes/assumptions/6.md). -/
def Obligations.SosFaults : Prop :=
  ∀ (s : State) (loaded : Cursor) (len : BitVec 16) payload, segmentWellFormed len payload = true →
    let back := s.setCursor loaded
    (s.phase = .header loaded false → ElementFaults (exec (.sos len payload) s) 1 0xFFDA back) ∧
    (s.phase = .header loaded true → s.frameLegal →
      (∀ c : Lane, c.val < s.ljClrs.toNat → s.ht.get c = none →
        (∀ d : Lane, d.val < c.val → (s.ht.get d).isSome = true) →
        ElementFaults (exec (.sos len payload) s) 2 c.val back) ∧
      ((∀ c : Lane, c.val < s.ljClrs.toNat → (s.ht.get c).isSome = true) → ¬s.frameMatches →
        ElementFaults (exec (.sos len payload) s) 10 (s.ljWide.toNat * s.ljClrs.toNat : Nat) back))

/-- STUFF (30_encoding R94): eight one-bits of data and the cursor two bytes on. First, where they complete no DIFF; second, where the k-th of them completes
one that is not the row's last, the rest beginning the next. -/
def Obligations.StuffDeliversOnes : Prop :=
  ∀ s row bits, s.phase = .scan row bits → s.stuffed = true → s.sbit = 0 →
    ((∀ j, j ≤ 8 → s.scanDiff row.length (bits ++ List.replicate j true) = .more) →
      exec .stuff s = .next { s with spos := s.spos + 2, phase := .scan row (bits ++ List.replicate 8 true) }) ∧
    (∀ k code extra n, 1 ≤ k → k ≤ 8 → bits ++ List.replicate k true = code ++ extra →
      leafAt (s.table (s.diffChannel row.length)) code n → extra.length = n → n ≤ s.ljBits.toNat →
      ∀ v : Int, v = predictor s row + diffValue n (bitsValue extra) → 0 ≤ v → v < 2 ^ s.ljBits.toNat →
      row.length + 1 ≠ s.ljWide.toNat * s.ljClrs.toNat →
      (∀ j, j ≤ 8 - k → s.scanDiff (row.length + 1) (List.replicate j true) = .more) →
      exec .stuff s = .next { s with
        spos := s.spos + 2
        vpred := s.vpredAfter row (BitVec.ofInt 16 v)
        phase := .scan (BitVec.ofInt 16 v :: row) (List.replicate (8 - k) true) })

/-- DIFF (30_encoding R95, R96; 40_ljpeg R118, R120 to R124): its bits are taken from the cursor on, the sample is the predictor plus the difference and is put into the
row, and at column 0 into VPRED; after the row's last DIFF the row is written and counted and LJROW completes. Nothing else changes. -/
def Obligations.DiffReconstructsSample : Prop :=
  ∀ (s : State) row bits code extra (n k : Nat) s1 more, s.phase = .scan row bits →
    takeBits k s = (s1, .ok more) → bits ++ more = code ++ extra →
    leafAt (s.table (s.diffChannel row.length)) code n → extra.length = n → n ≤ s.ljBits.toNat →
    ∀ v : Int, v = predictor s row + diffValue n (bitsValue extra) → 0 ≤ v → v < 2 ^ s.ljBits.toNat →
    (row.length + 1 ≠ s.ljWide.toNat * s.ljClrs.toNat →
      exec (.diff code extra) s = .next { s with
        spos := s1.spos
        sbit := s1.sbit
        vpred := s.vpredAfter row (BitVec.ofInt 16 v)
        phase := .scan (BitVec.ofInt 16 v :: row) [] }) ∧
    (row.length + 1 = s.ljWide.toNat * s.ljClrs.toNat →
      ∃ t, exec (.diff code extra) s = .next t ∧ t.busy = false ∧ t.done = true ∧
        t.faulted = s.faulted ∧ t.warned = s.warned ∧
        RowWritten s (row.reverse ++ [BitVec.ofInt 16 v]) t ∧
        t = { s with
              status := t.status, phase := .idle, img0 := t.img0, img1 := t.img1, ljRow := t.ljRow
              spos := s1.spos
              sbit := s1.sbit
              vpred := s.vpredAfter row (BitVec.ofInt 16 v) })

/-- The faults of DIFF once its bits are taken (30_encoding R95; 40_ljpeg R119, R120): sixteen bits and no leaf, E_HUFFCODE; a length above the depth, E_BITLEN before any
extra bit; a sum outside the depth, E_SAMPLE. The cursor stands after the bits taken. -/
def Obligations.DiffFaults : Prop :=
  ∀ (s : State) row bits code extra (k : Nat) s1 more, s.phase = .scan row bits →
    takeBits k s = (s1, .ok more) → bits ++ more = code ++ extra →
    let moved := { s with spos := s1.spos, sbit := s1.sbit }
    (code.length = 16 → extra = [] →
      (∀ j, 1 ≤ j → j ≤ 16 → (s.table (s.diffChannel row.length)).lookup (code.take j) = none) →
      ElementFaults (exec (.diff code extra) s) 3 (bitsValue code) moved) ∧
    (∀ n, leafAt (s.table (s.diffChannel row.length)) code n →
      (s.ljBits.toNat < n → extra = [] → ElementFaults (exec (.diff code extra) s) 4 n moved) ∧
      (n ≤ s.ljBits.toNat → extra.length = n →
        ∀ v : Int, v = predictor s row + diffValue n (bitsValue extra) → (v < 0 ∨ 2 ^ s.ljBits.toNat ≤ v) →
        ElementFaults (exec (.diff code extra) s) 7 v moved))

/-- The model's choice for elements executed where the running command does not accept them (notes/assumptions/7.md): in a header an element of another kind is the
unexpected marker of 30_encoding R97; outside an LJ command, and unstuffed data, the spec gives an element no effect and the model refuses. -/
def Obligations.MisplacedElements : Prop :=
  (∀ s i, s.phase = .idle → isLjInstr i = true → i ≠ .ljstart → i ≠ .ljrow → exec i s = .refused .elementOutOfPlace) ∧
  (∀ (s : State) (loaded : Cursor) (sof : Bool), s.phase = .header loaded sof →
    ElementFaults (exec .soi s) 1 0xFFD8 (s.setCursor loaded) ∧ ElementFaults (exec .stuff s) 1 0xFF00 (s.setCursor loaded)) ∧
  (∀ (s : State) (loaded : Cursor) len payload, s.phase = .start loaded →
    ElementFaults (exec (.sof3 len payload) s) 1 0xFFC3 (s.setCursor loaded) ∧
    ElementFaults (exec (.dht len payload) s) 1 0xFFC4 (s.setCursor loaded) ∧
    ElementFaults (exec (.sos len payload) s) 1 0xFFDA (s.setCursor loaded)) ∧
  (∀ s row bits len payload, s.phase = .scan row bits → s.stuffed = false →
    exec .soi s = .refused .elementOutOfPlace ∧ exec (.sof3 len payload) s = .refused .elementOutOfPlace ∧
    exec (.dht len payload) s = .refused .elementOutOfPlace ∧ exec (.sos len payload) s = .refused .elementOutOfPlace ∧
    exec .stuff s = .refused .elementOutOfPlace)

/-! ## The DM unit -/

/-- BILIN (41_demosaic R141 to R143): each missing channel of a pixel off the 1-pixel border becomes the floor of the weighted mean of its neighbours of that
channel, where there is one; nothing else changes. -/
def Obligations.BilinAveragesNeighbours : Prop :=
  ∀ s, s.accepting → s.legalImage → s.legalCfa →
    ∃ t, exec .bilin s = .next t ∧ ImageCommandDone 0x10 s t ∧
      ∀ row col (c : Lane), row < s.height.toNat → col < s.width.toNat →
        let weight := neighbourSum s row col c (fun _ _ => 1)
        (s.inside 1 row col ∧ c.val < s.colors.toNat ∧ c ≠ s.fc row col ∧ weight ≠ 0 →
          (t.sample (s.pixAddr row col c)).toNat = neighbourSum s row col c (fun y x => s.pix y x c) / weight) ∧
        (¬(s.inside 1 row col ∧ c.val < s.colors.toNat ∧ c ≠ s.fc row col ∧ weight ≠ 0) →
          t.sample (s.pixAddr row col c) = s.sample (s.pixAddr row col c))

/-- VNGREF (41_demosaic R144 to R150, R153), every read from the image before the command: a pixel off the 2-pixel border is left as it was where all eight gradients are 0,
else it gets the native average and the clipped cross-channel values over the directions not above the threshold. -/
def Obligations.VngrefRefinesPixels : Prop :=
  ∀ s, s.accepting → s.legalImage → s.legalCfa → s.quick = false → s.clipMax ≠ 0 →
    ∃ t, exec .vngref s = .next t ∧ ImageCommandDone 0x11 s t ∧
      ∀ row col (c : Lane), row < s.height.toNat → col < s.width.toNat →
        (¬(s.inside 2 row col ∧ c.val < s.colors.toNat) →
          t.sample (s.pixAddr row col c) = s.sample (s.pixAddr row col c)) ∧
        (s.inside 2 row col → c.val < s.colors.toNat → ∀ lo hi : Int,
          (∃ i, i < 8 ∧ gradientAt s row col i = lo) → (∀ i, i < 8 → lo ≤ gradientAt s row col i) →
          (∃ i, i < 8 ∧ gradientAt s row col i = hi) → (∀ i, i < 8 → gradientAt s row col i ≤ hi) →
          (hi = 0 → t.sample (s.pixAddr row col c) = s.sample (s.pixAddr row col c)) ∧
          (hi ≠ 0 → ((t.sample (s.pixAddr row col c)).toNat : Int) =
            refinedAt s row col
              ((List.range 8).filter (fun i => decide (gradientAt s row col i ≤ lo + (hi - lo) / 2))) c))

/-- VNGREF in quick mode and DIAGRS without DIAG_EN make their checks and complete with nothing changed (41_demosaic R151; 43_geometry R181). -/
def Obligations.DisabledCommandsChangeNothing : Prop :=
  (∀ s, s.accepting → s.legalImage → s.legalCfa → s.quick = true →
    ∃ t, exec .vngref s = .next t ∧ Completed 0x11 t ∧ t.warned = s.warned ∧ t.ljReady = s.ljReady ∧
      t = { s with cmd := t.cmd, status := t.status, phase := t.phase }) ∧
  (∀ s, s.accepting → s.legalImage → s.diagEnabled = false →
    ∃ t, exec .diagrs s = .next t ∧ Completed 0x30 t ∧ t.warned = s.warned ∧ t.ljReady = s.ljReady ∧
      t = { s with cmd := t.cmd, status := t.status, phase := t.phase })

/-- Flat field (41_demosaic R155, with the limit of 90_conflicts C9): where every native sample is `v`, BILIN and then VNGREF leave `v` in every native lane, and in
every lane of a pixel off the border whose channel occurs in its window. -/
def Obligations.FlatFieldStaysFlat : Prop :=
  ∀ s (v : Nat), s.accepting → s.legalImage → s.legalCfa → s.clipMax ≠ 0 →
    (∀ row col, row < s.height.toNat → col < s.width.toNat → s.pix row col (s.fc row col) = v) →
    ∃ t u, exec .bilin s = .next t ∧ exec .vngref t = .next u ∧ u.faulted = false ∧
      (∀ row col, row < s.height.toNat → col < s.width.toNat → u.pix row col (s.fc row col) = v) ∧
      (∀ row col (c : Lane), s.inside 1 row col → c.val < s.colors.toNat →
        neighbourSum s row col c (fun _ _ => 1) ≠ 0 → u.pix row col c = v)

/-! ## The EX unit -/

/-- EXPSETUP with camera multipliers (42_exposure R161, R163, R166 to R168): SHIFT is the smallest shift that brings the ceiling to 0x8000 or above and keeps it in 16 bits; PREMUL is the
multiplier over the smallest one, shifted, floored and saturated; CLIP_MAX the scaled ceiling or 0xFFFF; nothing else changes. -/
def Obligations.ExpsetupCameraMultipliers : Prop :=
  ∀ s (least : Nat), s.accepting → s.legalImage → s.black.toNat < s.maximum.toNat → s.grayWorld = false →
    (∀ c : Lane, c.val < s.colors.toNat → s.camMul.get c ≠ 0) →
    (∃ c : Lane, c.val < s.colors.toNat ∧ (s.camMul.get c).toNat = least) →
    (∀ c : Lane, c.val < s.colors.toNat → least ≤ (s.camMul.get c).toNat) →
    ∃ t k, exec .expsetup s = .next t ∧ Completed 0x20 t ∧ t.warned = s.warned ∧ t.ljReady = s.ljReady ∧
      k ≤ 15 ∧ 0x8000 ≤ (s.maximum.toNat - s.black.toNat) * 2 ^ k ∧ (s.maximum.toNat - s.black.toNat) * 2 ^ k ≤ 0xFFFF ∧
      (∀ j, j < k → (s.maximum.toNat - s.black.toNat) * 2 ^ j < 0x8000) ∧
      t = { s with
            cmd := t.cmd, status := t.status, phase := t.phase
            shift := BitVec.ofNat 4 k
            premul := Quad.ofFn (fun c =>
              if c.val < s.colors.toNat then
                BitVec.ofNat 32 (min ((s.camMul.get c).toNat * 2 ^ (16 + k) / least) (2 ^ 32 - 1))
              else 0)
            clipMax := if s.noClip then 0xFFFF else BitVec.ofNat 16 ((s.maximum.toNat - s.black.toNat) * 2 ^ k) }

/-- EXPSETUP with gray-world statistics (42_exposure R161, R164 to R168; 60_exceptions R210): the sums and counts over the image; a warning and the neutral
value for a channel with a zero sum; for the others the ratio of count over sum to the least such ratio. -/
def Obligations.ExpsetupGrayWorld : Prop :=
  ∀ s, s.accepting → s.legalImage → s.black.toNat < s.maximum.toNat → s.grayWorld = true →
    ∃ t k, exec .expsetup s = .next t ∧ Completed 0x20 t ∧ t.ljReady = s.ljReady ∧
      t = { s with
            cmd := t.cmd, status := t.status, phase := t.phase, warnFlags := t.warnFlags, warnCount := t.warnCount, shift := t.shift,
            premul := t.premul, clipMax := t.clipMax, gwSum := t.gwSum, gwCnt := t.gwCnt } ∧
      (∀ c : Lane, (t.gwSum.get c).toNat = (if c.val < s.colors.toNat then s.graySum c else 0) ∧
        (t.gwCnt.get c).toNat = (if c.val < s.colors.toNat then s.grayCount c else 0)) ∧
      (∀ c : Lane, t.warnFlags.getLsbD c.val =
        (s.warnFlags.getLsbD c.val || decide (c.val < s.colors.toNat ∧ s.graySum c = 0))) ∧
      t.warnCount.toNat = min (s.warnCount.toNat +
        (([0, 1, 2, 3] : List Lane).filter (fun c => decide (c.val < s.colors.toNat ∧ s.graySum c = 0))).length) (2 ^ 32 - 1) ∧
      (t.warned = true ↔ s.warned = true ∨ ∃ c : Lane, c.val < s.colors.toNat ∧ s.graySum c = 0) ∧
      k ≤ 15 ∧ t.shift = BitVec.ofNat 4 k ∧ 0x8000 ≤ (s.maximum.toNat - s.black.toNat) * 2 ^ k ∧
      (∀ j, j < k → (s.maximum.toNat - s.black.toNat) * 2 ^ j < 0x8000) ∧
      t.clipMax = (if s.noClip then 0xFFFF else BitVec.ofNat 16 ((s.maximum.toNat - s.black.toNat) * 2 ^ k)) ∧
      (∀ c : Lane, s.colors.toNat ≤ c.val → t.premul.get c = 0) ∧
      (∀ c : Lane, c.val < s.colors.toNat → s.graySum c = 0 → (t.premul.get c).toNat = 2 ^ (16 + k)) ∧
      (∀ c m : Lane, c.val < s.colors.toNat → s.graySum c ≠ 0 → m.val < s.colors.toNat → s.graySum m ≠ 0 →
        (∀ j : Lane, j.val < s.colors.toNat → s.graySum j ≠ 0 →
          s.grayCount m * s.graySum j ≤ s.grayCount j * s.graySum m) →
        (t.premul.get c).toNat =
          min (s.grayCount c * s.graySum m * 2 ^ (16 + k) / (s.graySum c * s.grayCount m)) (2 ^ 32 - 1))

/-- EXPAPPLY (42_exposure R170, R171): every channel of every pixel becomes (sample - black) × PREMUL, floored and clamped to 0 .. CLIP_MAX; other lanes, and all else,
are as before. -/
def Obligations.ExpapplyScalesAndClamps : Prop :=
  ∀ s, s.accepting → s.legalImage → s.clipMax ≠ 0 →
    ∃ t, exec .expapply s = .next t ∧ ImageCommandDone 0x21 s t ∧
      ∀ row col (c : Lane), row < s.height.toNat → col < s.width.toNat →
        (c.val < s.colors.toNat → ((t.sample (s.pixAddr row col c)).toNat : Int) =
          max 0 (min (((s.pix row col c : Int) - s.black.toNat) * (s.premul.get c).toNat / 65536) s.clipMax.toNat)) ∧
        (s.colors.toNat ≤ c.val → t.sample (s.pixAddr row col c) = s.sample (s.pixAddr row col c))

/-- CMATRIX (42_exposure R172): lanes 0 to 2 of every pixel become the floored and clamped dot products of the matrix rows with the pixel's channels, all read
before any is written; lane 3, and all else, is as before. -/
def Obligations.CmatrixAppliesMatrix : Prop :=
  ∀ s, s.accepting → s.legalImage → s.clipMax ≠ 0 →
    ∃ t, exec .cmatrix s = .next t ∧ ImageCommandDone 0x22 s t ∧
      ∀ p, p < s.pixels →
        (∀ k : Fin 3, ((t.sample (4 * p + k.val)).toNat : Int) =
          max 0 (min (s.dotProduct (s.cmat.row k) p / 65536) s.clipMax.toNat)) ∧
        t.sample (4 * p + 3) = s.sample (4 * p + 3)

/-! ## The GN unit -/

/-- A resampling DIAGRS (43_geometry R181, R183 to R186): every output pixel is the bilinear value at its source position, which is never negative, or background; the other bank becomes the
image with the new size and the controls are consumed; the old bank, and all else, is as before. -/
def Obligations.DiagrsResamples : Prop :=
  ∀ s (wide high : Nat), s.accepting → s.legalImage → s.diagEnabled = true →
    wide = s.diagMag.toNat * 65536 / 46341 → high = (s.height.toNat - s.diagMag.toNat) * 65536 / 46341 →
    s.diagMag ≠ 0 → s.diagMag.toNat < s.height.toNat → 1 ≤ wide → wide ≤ 65535 → 1 ≤ high → high ≤ 65535 →
    wide * high ≤ s.params.imgCap →
    ∃ t, exec .diagrs s = .next t ∧ Completed 0x30 t ∧ t.warned = s.warned ∧ t.ljReady = s.ljReady ∧
      t = { s with
            cmd := t.cmd, status := t.status, phase := t.phase, img0 := t.img0, img1 := t.img1, imgSel := t.imgSel, ctrl := t.ctrl
            width := BitVec.ofNat 16 wide
            height := BitVec.ofNat 16 high
            diagMag := 0 } ∧
      t.activeBank = s.activeBank.other ∧
      t.diagEnabled = false ∧ t.quick = s.quick ∧ t.noClip = s.noClip ∧ t.stuffed = s.stuffed ∧ t.grayWorld = s.grayWorld ∧
      (∀ a, t.sampleIn s.activeBank a = s.sampleIn s.activeBank a) ∧
      (∀ a, 4 * (wide * high) ≤ a → t.sample a = s.sampleIn s.activeBank.other a) ∧
      (∀ row col (k : Lane), row < high → col < wide →
        46341 ≤ (s.diagSource row col).1 ∧
        (let r := (s.diagSource row col).1.toNat
         let c := (s.diagSource row col).2.toNat
         (s.height.toNat < r / 65536 + 2 ∨ s.width.toNat < c / 65536 + 2 ∨ s.colors.toNat ≤ k.val →
           t.pix row col k = 0) ∧
         (r / 65536 + 2 ≤ s.height.toNat → c / 65536 + 2 ≤ s.width.toNat → k.val < s.colors.toNat →
           t.pix row col k = s.bilinearAt k r c)))

/-- PERMUTE (43_geometry R187, R188, R190; 30_encoding R84): each pixel moves whole to the place its orientation code gives it; a transpose swaps WIDTH with HEIGHT and XMAG with
YMAG; ORIENT is consumed; all else is as before. -/
def Obligations.PermuteMovesPixels : Prop :=
  ∀ s, s.accepting → s.legalImage →
    ∃ t, exec .permute s = .next t ∧ Completed 0x31 t ∧ t.warned = s.warned ∧ t.ljReady = s.ljReady ∧
      t = { s with
            cmd := t.cmd, status := t.status, phase := t.phase, img0 := t.img0, img1 := t.img1
            width := if 4 ≤ s.orient.toNat then s.height else s.width
            height := if 4 ≤ s.orient.toNat then s.width else s.height
            xmag := if 4 ≤ s.orient.toNat then s.ymag else s.xmag
            ymag := if 4 ≤ s.orient.toNat then s.xmag else s.ymag
            orient := 0 } ∧
      OtherBankKept s t ∧ BeyondImageKept s t ∧
      ∀ row col (k : Lane), row < t.height.toNat → col < t.width.toNat →
        let old := orientSource s.orient.toNat s.height.toNat s.width.toNat row col
        old.1 < s.height.toNat ∧ old.2 < s.width.toNat ∧
        t.sample (t.pixAddr row col k) = s.sample (s.pixAddr old.1 old.2 k)

/-- The source index function is a bijection of 0 .. W×H-1 onto itself for each of the eight codes and every size (43_geometry R187, R191). -/
def Obligations.PermuteSourceIsBijection : Prop :=
  ∀ (transpose rowFlip colFlip : Bool) (w h : Nat),
    (∀ d, d < w * h → permuteSource transpose rowFlip colFlip w h d < w * h) ∧
    (∀ d e, d < w * h → e < w * h →
      permuteSource transpose rowFlip colFlip w h d = permuteSource transpose rowFlip colFlip w h e → d = e) ∧
    (∀ p, p < w * h → ∃ d, d < w * h ∧ permuteSource transpose rowFlip colFlip w h d = p)

/-! ## Invariants and whole-machine rules -/

/-- Every step keeps the memories in canonical form. -/
def Obligations.StepKeepsMemoryCanonical : Prop :=
  ∀ s t, s.memoryWf → step s = .next t → t.memoryWf

/-- Every step keeps every defined Huffman table in bounds and prefix-free (10_state R41; 30_encoding R92). -/
def Obligations.StepKeepsTablesPrefixFree : Prop :=
  ∀ s t, s.tablesWf → step s = .next t → t.tablesWf

/-- Every step keeps the promises of STATUS and ERR_* (10_state R26, R27; 60_exceptions R204, R206, R209). -/
def Obligations.StepKeepsStatusTruthful : Prop :=
  ∀ s t, s.statusWf → step s = .next t → t.statusWf

/-- Every step keeps what LJ_READY promises, a legal frame, a row still to come, predictors in range and a table for every channel, and that a header element
starts at a byte boundary (10_state R24, R25, R26, R40; 40_ljpeg R112, R115, R122, R124). -/
def Obligations.StepKeepsScanReady : Prop :=
  ∀ s t, s.scanWf → step s = .next t → t.scanWf

/-- The four invariants hold after reset. -/
def Obligations.ResetMeetsInvariants : Prop :=
  State.reset.memoryWf ∧ State.reset.tablesWf ∧ State.reset.statusWf ∧ State.reset.scanWf ∧ State.reset.params.wf = true

/-- Which instructions write which registers (10_state R45, last column; R43; 60_exceptions R210, R219): the host's own registers only INIT; warnings and the exposure registers only
EXPSETUP; CTRL, DIAG_MAG and IMG_SEL only DIAGRS; ORIENT, XMAG and YMAG only PERMUTE; WIDTH and HEIGHT only these two; the LJ registers and tables only the LJ unit. -/
def Obligations.WritersOfRegisters : Prop :=
  ∀ i s t, i ≠ .init → exec i s = .next t →
    (t.colors = s.colors ∧ t.cfa = s.cfa ∧ t.black = s.black ∧ t.maximum = s.maximum ∧ t.streamLen = s.streamLen ∧
      t.camMul = s.camMul ∧ t.cmat = s.cmat) ∧
    (i ≠ .expsetup → t.warned = s.warned ∧ t.warnFlags = s.warnFlags ∧ t.warnCount = s.warnCount ∧ t.clipMax = s.clipMax ∧
      t.shift = s.shift ∧ t.premul = s.premul ∧ t.gwSum = s.gwSum ∧ t.gwCnt = s.gwCnt) ∧
    (i ≠ .diagrs → t.ctrl = s.ctrl ∧ t.diagMag = s.diagMag ∧ t.imgSel = s.imgSel) ∧
    (i ≠ .permute → t.orient = s.orient ∧ t.xmag = s.xmag ∧ t.ymag = s.ymag) ∧
    (i ≠ .diagrs → i ≠ .permute → t.width = s.width ∧ t.height = s.height) ∧
    (isLjInstr i = false → t.spos = s.spos ∧ t.sbit = s.sbit ∧ t.ljBits = s.ljBits ∧ t.ljWide = s.ljWide ∧ t.ljHigh = s.ljHigh ∧
      t.ljClrs = s.ljClrs ∧ t.ljRow = s.ljRow ∧ t.vpred = s.vpred ∧ t.ht = s.ht)

/-- Which instructions write which memory (20_memory R60, R66; 43_geometry R186; 40_ljpeg R112; 42_exposure R169): none writes stream memory; only DIAGRS writes outside the selected bank; the header
elements, LJSTART, EXPSETUP and INIT write no sample; and none but DIAGRS writes at or above the end of the declared image, LJROW, STUFF and DIFF while the row LJROW is at lies in it. No instruction changes
a parameter or clears a latched fault but INIT (10_state R26, R54). -/
def Obligations.WritersOfMemory : Prop :=
  ∀ i s t, exec i s = .next t →
    (∀ a, t.strByte a = s.strByte a) ∧ t.params = s.params ∧ (i ≠ .init → s.faulted = true → t.faulted = true) ∧
    (i ≠ .diagrs → OtherBankKept s t) ∧
    (i = .ljstart ∨ i = .expsetup ∨ i = .init ∨ i = .soi ∨ (∃ len payload, i = .sof3 len payload) ∨
        (∃ len payload, i = .dht len payload) ∨ (∃ len payload, i = .sos len payload) →
      ∀ b a, t.sampleIn b a = s.sampleIn b a) ∧
    (i ≠ .diagrs → (i = .ljrow ∨ i = .stuff ∨ (∃ code extra, i = .diff code extra) → s.ljRow.toNat < s.height.toNat) →
      ∀ a, 4 * s.pixels ≤ a → t.sampleIn s.activeBank a = s.sampleIn s.activeBank a)
end

