-- ==== Sys2Proof/Laws/Decode.lean ====
section
/-! SUPPORT. What the decoders' shared pieces do: big-endian fields, segments of a well-formed length, and the walk to a leaf. -/

namespace Sys2Proof.Machine

/-! ## Byte-aligned elements -/

theorem bigEndian_toNat (hi lo : Byte) : (bigEndian hi lo).toNat = hi.toNat * 256 + lo.toNat := by
  unfold bigEndian
  rw [BitVec.toNat_append, ← Nat.shiftLeft_add_eq_or_of_lt lo.isLt, Nat.shiftLeft_eq]

theorem bigEndian_extract (v : BitVec 16) : bigEndian (v.extractLsb' 8 8) (v.extractLsb' 0 8) = v := by
  apply BitVec.eq_of_toNat_eq
  rw [bigEndian_toNat]
  simp only [BitVec.extractLsb'_toNat, Nat.shiftRight_eq_div_pow]
  have := v.isLt
  omega

theorem extract_bigEndian_hi (hi lo : Byte) : (bigEndian hi lo).extractLsb' 8 8 = hi := by
  apply BitVec.eq_of_toNat_eq
  simp only [BitVec.extractLsb'_toNat, Nat.shiftRight_eq_div_pow, bigEndian_toNat]
  have := hi.isLt
  have := lo.isLt
  omega

theorem extract_bigEndian_lo (hi lo : Byte) : (bigEndian hi lo).extractLsb' 0 8 = lo := by
  apply BitVec.eq_of_toNat_eq
  simp only [BitVec.extractLsb'_toNat, Nat.shiftRight_eq_div_pow, bigEndian_toNat]
  have := hi.isLt
  have := lo.isLt
  omega

/-- The payload of a well-formed segment is all that stands after its length field. -/
theorem takePayload_of_wellFormed {len : BitVec 16} {payload : List Byte} (h : segmentWellFormed len payload = true) :
    takePayload len payload = .ok (payload, []) := by
  simp only [segmentWellFormed, Bool.and_eq_true, decide_eq_true_eq] at h
  unfold takePayload
  rw [if_neg (by omega)]
  simp [show len.toNat - 2 = payload.length by omega]

/-! ## Differences -/

theorem splitCodeFrom_of_leafAt {t : HuffTable} {code extra : List Bool} {n : Nat} (h : leafAt t code n) :
    ∀ fuel k : Nat, k < code.length → code.length ≤ k + fuel →
      splitCodeFrom t (code ++ extra) fuel k = some (code, n, extra) := by
  intro fuel
  induction fuel with
  | zero => intro k h1 h2; omega
  | succ f ih =>
    intro k h1 h2
    unfold splitCodeFrom
    rw [if_neg (by simp; omega)]
    by_cases hk : k + 1 = code.length
    · rw [hk]
      simp [h.2.2.1]
    · rw [List.take_append_of_le_length (by omega), h.2.2.2 (k + 1) (by omega) (by omega)]
      exact ih (k + 1) (by omega) (by omega)

/-- The walk stops at the leaf. -/
theorem splitCode_of_leafAt {t : HuffTable} {code : List Bool} {n : Nat} (h : leafAt t code n) (extra : List Bool) :
    splitCode t (code ++ extra) = some (code, n, extra) :=
  splitCodeFrom_of_leafAt h _ 0 h.1 (by have := h.2.1; simp [Config.huffMaxLen]; omega)

theorem splitCodeFrom_of_no_leaf {t : HuffTable} {bits : List Bool} :
    ∀ fuel k : Nat, (∀ j, k < j → j ≤ k + fuel → j ≤ bits.length → t.lookup (bits.take j) = none) →
      splitCodeFrom t bits fuel k = none := by
  intro fuel
  induction fuel with
  | zero => intro k _; rfl
  | succ f ih =>
    intro k h
    unfold splitCodeFrom
    split
    · rfl
    · rename_i hk
      rw [h (k + 1) (by omega) (by omega) (by omega)]
      exact ih (k + 1) (fun j h1 h2 h3 => h j (by omega) (by omega) h3)

/-- The walk reaches no leaf where no beginning of the bits is a code. -/
theorem splitCode_of_no_leaf {t : HuffTable} {bits : List Bool}
    (h : ∀ j, 1 ≤ j → j ≤ 16 → j ≤ bits.length → t.lookup (bits.take j) = none) : splitCode t bits = none :=
  splitCodeFrom_of_no_leaf _ 0 (fun j h1 h2 h3 => h j h1 (by simpa [Config.huffMaxLen] using h2) h3)

/-- A whole DIFF is recognised. -/
theorem scanDiff_of_leafAt {t : HuffTable} {maxBits : Nat} {code extra : List Bool} {n : Nat} (h : leafAt t code n)
    (hm : n ≤ maxBits) (he : extra.length = n) : scanDiff t maxBits (code ++ extra) = .found code extra := by
  unfold scanDiff
  rw [splitCode_of_leafAt h]
  subst he
  simp [Nat.not_lt.2 hm]

/-- A code whose length of difference exceeds the depth is recognised without extra bits. -/
theorem scanDiff_of_leafAt_above {t : HuffTable} {maxBits : Nat} {code : List Bool} {n : Nat} (h : leafAt t code n)
    (hm : maxBits < n) : scanDiff t maxBits code = .found code [] := by
  unfold scanDiff
  rw [show code = code ++ [] by simp, splitCode_of_leafAt h]
  simp [hm]

/-- Sixteen bits that reach no leaf are recognised as such. -/
theorem scanDiff_of_no_leaf {t : HuffTable} {maxBits : Nat} {code : List Bool} (hl : code.length = 16)
    (h : ∀ j, 1 ≤ j → j ≤ 16 → t.lookup (code.take j) = none) : scanDiff t maxBits code = .found code [] := by
  unfold scanDiff
  rw [splitCode_of_no_leaf (fun j h1 h2 _ => h j h1 h2)]
  simp [hl, Config.huffMaxLen]

/-- A proper beginning of a DIFF asks for more bits. -/
theorem scanDiff_of_proper_prefix {t : HuffTable} {maxBits : Nat} {code extra bits more : List Bool} {n : Nat} (h : leafAt t code n)
    (hm : n ≤ maxBits) (he : extra.length = n) (hb : bits ++ more = code ++ extra) (hne : more ≠ []) :
    scanDiff t maxBits bits = .more := by
  have hlen : bits.length + more.length = code.length + extra.length := by
    rw [← List.length_append, hb, List.length_append]
  have hpos : 0 < more.length := List.length_pos_of_ne_nil hne
  unfold scanDiff
  by_cases hc : code.length ≤ bits.length
  · obtain ⟨tail, rfl⟩ : ∃ tail, bits = code ++ tail := by
      refine ⟨bits.drop code.length, ?_⟩
      have : bits.take code.length = code := by
        have := congrArg (List.take code.length) hb
        rwa [List.take_append_of_le_length hc, List.take_left'] at this
        rfl
      rw [← List.take_append_drop code.length bits, this]
      simp
    rw [splitCode_of_leafAt h]
    simp only [List.length_append] at hlen
    simp [Nat.not_lt.2 hm, show tail.length < n by omega]
  · rw [splitCode_of_no_leaf]
    · have := h.2.1
      simp [Config.huffMaxLen, show bits.length < 16 by omega]
    · intro j h1 _ h3
      have : bits.take j = code.take j := by
        have := congrArg (List.take j) hb
        rwa [List.take_append_of_le_length h3, List.take_append_of_le_length (by omega)] at this
      rw [this]
      exact h.2.2.2 j h1 (by omega)

end Sys2Proof.Machine
end

