-- ==== Sys2Proof/Laws/Memory.lean ====
section
/-! SUPPORT. What reading a memory gives after each operation on it, and that every operation keeps the canonical form. -/

namespace Sys2Proof.Machine

variable {α : Type}

/-! ## Reading after writing -/

theorem Memory.read_write_same (m : Memory α) (a : Nat) (v : α) : (m.write a v).read a = some v := by
  induction m with
  | nil => simp [Memory.write, Memory.read]
  | cons c m ih =>
    obtain ⟨b, w⟩ := c
    unfold Memory.write
    split
    · simp [Memory.read]
    · split
      · simp [Memory.read]
      · simp only [Memory.read]
        rw [if_neg (by assumption)]
        exact ih

theorem Memory.read_write_other (m : Memory α) (a b : Nat) (v : α) (h : b ≠ a) :
    (m.write a v).read b = m.read b := by
  induction m with
  | nil => simp [Memory.write, Memory.read, h]
  | cons c m ih =>
    obtain ⟨d, w⟩ := c
    unfold Memory.write
    split
    · rename_i had
      subst had
      simp [Memory.read, h]
    · split
      · simp [Memory.read, h]
      · simp only [Memory.read, ih]

/-- A read after a write of one cell. -/
theorem Memory.read_write (m : Memory α) (a b : Nat) (v : α) :
    (m.write a v).read b = if b = a then some v else m.read b := by
  by_cases h : b = a
  · subst h
    rw [if_pos rfl, Memory.read_write_same]
  · rw [if_neg h, Memory.read_write_other m a b v h]

/-- A read after a block write: the new value where the block has one, else the old one. -/
theorem Memory.read_rewrite (base n : Nat) (f : Nat → Option α) (m : Memory α) (a : Nat) :
    (Memory.rewrite base f n m).read a =
      if base ≤ a ∧ a < base + n then (f (a - base)).or (m.read a) else m.read a := by
  induction n generalizing m with
  | zero =>
    rw [if_neg (by omega)]
    rfl
  | succ n ih =>
    simp only [Memory.rewrite, ih]
    by_cases ha : a = base + n
    · subst ha
      rw [if_neg (by omega), if_pos (by omega), Nat.add_sub_cancel_left]
      cases f n with
      | none => rfl
      | some v => simp [Memory.read_write_same]
    · have key : ∀ m' : Memory α, m'.read a = m.read a →
          (if base ≤ a ∧ a < base + n then (f (a - base)).or (m'.read a) else m'.read a) =
            if base ≤ a ∧ a < base + (n + 1) then (f (a - base)).or (m.read a) else m.read a := by
        intro m' hm
        rw [hm]
        by_cases hb : base ≤ a ∧ a < base + n
        · rw [if_pos hb, if_pos (by omega)]
        · rw [if_neg hb, if_neg (by omega)]
      apply key
      cases f n with
      | none => rfl
      | some v => exact Memory.read_write_other m _ a v ha

/-- A read after storing bytes one after the other. -/
theorem read_storeBytes (m : Memory Byte) (a : Nat) (l : List Byte) (b : Nat) :
    (storeBytes m a l).read b = if a ≤ b ∧ b < a + l.length then l[b - a]? else m.read b := by
  induction l generalizing m a with
  | nil => simp [storeBytes, show ¬ (a ≤ b ∧ b < a) by omega]
  | cons x l ih =>
    simp only [storeBytes, ih, Memory.read_write, List.length_cons]
    by_cases h1 : b = a
    · subst h1
      simp
    · by_cases h2 : a + 1 ≤ b ∧ b < a + 1 + l.length
      · have h3 : b - a = b - (a + 1) + 1 := by omega
        rw [if_pos h2, if_pos (by omega), h3, List.getElem?_cons_succ]
      · rw [if_neg h2, if_neg h1, if_neg (by omega)]

/-! ## The canonical form -/

/-- A memory in canonical form with another cell in front of it that has a lower address. -/
theorem Memory.wf_cons_iff (c : Nat × α) (m : Memory α) :
    Memory.wf (c :: m) = true ↔ (∀ d ∈ m.head?, c.1 < d.1) ∧ Memory.wf m = true := by
  cases m with
  | nil => simp [Memory.wf]
  | cons d m => simp [Memory.wf, Bool.and_eq_true]

theorem Memory.wf_write (m : Memory α) (a : Nat) (v : α) (h : Memory.wf m = true) :
    Memory.wf (m.write a v) = true := by
  induction m with
  | nil => rfl
  | cons c m ih =>
    obtain ⟨b, w⟩ := c
    rw [Memory.wf_cons_iff] at h
    unfold Memory.write
    split
    · rename_i hab
      subst hab
      exact (Memory.wf_cons_iff _ _).2 h
    · split
      · rename_i _ hlt
        refine (Memory.wf_cons_iff _ _).2 ⟨?_, (Memory.wf_cons_iff _ _).2 h⟩
        simpa using hlt
      · rename_i hne hge
        refine (Memory.wf_cons_iff _ _).2 ⟨?_, ih h.2⟩
        intro d hd
        cases m with
        | nil =>
          simp only [Memory.write, List.head?_cons, Option.mem_def, Option.some.injEq] at hd
          subst hd
          simp only
          omega
        | cons e m =>
          obtain ⟨eb, ew⟩ := e
          have he := h.1 (eb, ew) (by simp)
          simp only [Memory.write] at hd
          split at hd
          · simp only [List.head?_cons, Option.mem_def, Option.some.injEq] at hd
            subst hd
            simp only at he ⊢
            omega
          · split at hd
            · simp only [List.head?_cons, Option.mem_def, Option.some.injEq] at hd
              subst hd
              simp only
              omega
            · simp only [List.head?_cons, Option.mem_def, Option.some.injEq] at hd
              subst hd
              exact he

theorem Memory.wf_rewrite (base n : Nat) (f : Nat → Option α) (m : Memory α) (h : Memory.wf m = true) :
    Memory.wf (Memory.rewrite base f n m) = true := by
  induction n generalizing m with
  | zero => exact h
  | succ n ih =>
    simp only [Memory.rewrite]
    apply ih
    cases f n with
    | none => exact h
    | some v => exact Memory.wf_write m _ v h

theorem wf_storeBytes (m : Memory Byte) (a : Nat) (l : List Byte) (h : Memory.wf m = true) :
    Memory.wf (storeBytes m a l) = true := by
  induction l generalizing m a with
  | nil => exact h
  | cons x l ih => exact ih _ _ (Memory.wf_write m a x h)

end Sys2Proof.Machine
end

