-- ==== Sys2Proof/Laws/State.lean ====
section
/-! SUPPORT. One lemma for each field of the state and each named update: what the field reads after it. All are tagged for simp, so that no
later proof unfolds a record update. -/

namespace Sys2Proof.Machine

variable (s : State)

/-! ## Reading back one bit -/

theorem getLsbD_setBit {n : Nat} (v : BitVec n) (i j : Nat) (b : Bool) :
    (setBit v i b).getLsbD j = if i = j ∧ i < n then b else v.getLsbD j := by
  unfold setBit
  by_cases hij : i = j
  · subst hij
    by_cases hn : i < n <;> cases b <;> simp [BitVec.getLsbD_twoPow, hn]
    exact BitVec.getLsbD_of_ge v i (by omega)
  · cases b <;> simp [BitVec.getLsbD_twoPow, hij]
    exact fun h => BitVec.lt_of_getLsbD h


/-! ## State.setBusy -/

@[simp] theorem State.setBusy_cmd (b : Bool) : (s.setBusy b).cmd = s.cmd := rfl
@[simp] theorem State.setBusy_errCode (b : Bool) : (s.setBusy b).errCode = s.errCode := rfl
@[simp] theorem State.setBusy_errStage (b : Bool) : (s.setBusy b).errStage = s.errStage := rfl
@[simp] theorem State.setBusy_errInfo (b : Bool) : (s.setBusy b).errInfo = s.errInfo := rfl
@[simp] theorem State.setBusy_errPos (b : Bool) : (s.setBusy b).errPos = s.errPos := rfl
@[simp] theorem State.setBusy_warnFlags (b : Bool) : (s.setBusy b).warnFlags = s.warnFlags := rfl
@[simp] theorem State.setBusy_warnCount (b : Bool) : (s.setBusy b).warnCount = s.warnCount := rfl
@[simp] theorem State.setBusy_ctrl (b : Bool) : (s.setBusy b).ctrl = s.ctrl := rfl
@[simp] theorem State.setBusy_width (b : Bool) : (s.setBusy b).width = s.width := rfl
@[simp] theorem State.setBusy_height (b : Bool) : (s.setBusy b).height = s.height := rfl
@[simp] theorem State.setBusy_colors (b : Bool) : (s.setBusy b).colors = s.colors := rfl
@[simp] theorem State.setBusy_cfa (b : Bool) : (s.setBusy b).cfa = s.cfa := rfl
@[simp] theorem State.setBusy_black (b : Bool) : (s.setBusy b).black = s.black := rfl
@[simp] theorem State.setBusy_maximum (b : Bool) : (s.setBusy b).maximum = s.maximum := rfl
@[simp] theorem State.setBusy_clipMax (b : Bool) : (s.setBusy b).clipMax = s.clipMax := rfl
@[simp] theorem State.setBusy_shift (b : Bool) : (s.setBusy b).shift = s.shift := rfl
@[simp] theorem State.setBusy_orient (b : Bool) : (s.setBusy b).orient = s.orient := rfl
@[simp] theorem State.setBusy_diagMag (b : Bool) : (s.setBusy b).diagMag = s.diagMag := rfl
@[simp] theorem State.setBusy_xmag (b : Bool) : (s.setBusy b).xmag = s.xmag := rfl
@[simp] theorem State.setBusy_ymag (b : Bool) : (s.setBusy b).ymag = s.ymag := rfl
@[simp] theorem State.setBusy_streamLen (b : Bool) : (s.setBusy b).streamLen = s.streamLen := rfl
@[simp] theorem State.setBusy_spos (b : Bool) : (s.setBusy b).spos = s.spos := rfl
@[simp] theorem State.setBusy_sbit (b : Bool) : (s.setBusy b).sbit = s.sbit := rfl
@[simp] theorem State.setBusy_ljBits (b : Bool) : (s.setBusy b).ljBits = s.ljBits := rfl
@[simp] theorem State.setBusy_ljWide (b : Bool) : (s.setBusy b).ljWide = s.ljWide := rfl
@[simp] theorem State.setBusy_ljHigh (b : Bool) : (s.setBusy b).ljHigh = s.ljHigh := rfl
@[simp] theorem State.setBusy_ljClrs (b : Bool) : (s.setBusy b).ljClrs = s.ljClrs := rfl
@[simp] theorem State.setBusy_ljRow (b : Bool) : (s.setBusy b).ljRow = s.ljRow := rfl
@[simp] theorem State.setBusy_imgSel (b : Bool) : (s.setBusy b).imgSel = s.imgSel := rfl
@[simp] theorem State.setBusy_camMul (b : Bool) : (s.setBusy b).camMul = s.camMul := rfl
@[simp] theorem State.setBusy_premul (b : Bool) : (s.setBusy b).premul = s.premul := rfl
@[simp] theorem State.setBusy_cmat (b : Bool) : (s.setBusy b).cmat = s.cmat := rfl
@[simp] theorem State.setBusy_vpred (b : Bool) : (s.setBusy b).vpred = s.vpred := rfl
@[simp] theorem State.setBusy_gwSum (b : Bool) : (s.setBusy b).gwSum = s.gwSum := rfl
@[simp] theorem State.setBusy_gwCnt (b : Bool) : (s.setBusy b).gwCnt = s.gwCnt := rfl
@[simp] theorem State.setBusy_ht (b : Bool) : (s.setBusy b).ht = s.ht := rfl
@[simp] theorem State.setBusy_str (b : Bool) : (s.setBusy b).str = s.str := rfl
@[simp] theorem State.setBusy_img0 (b : Bool) : (s.setBusy b).img0 = s.img0 := rfl
@[simp] theorem State.setBusy_img1 (b : Bool) : (s.setBusy b).img1 = s.img1 := rfl
@[simp] theorem State.setBusy_phase (b : Bool) : (s.setBusy b).phase = s.phase := rfl
@[simp] theorem State.setBusy_inputs (b : Bool) : (s.setBusy b).inputs = s.inputs := rfl
@[simp] theorem State.setBusy_hostData (b : Bool) : (s.setBusy b).hostData = s.hostData := rfl
@[simp] theorem State.setBusy_epoch (b : Bool) : (s.setBusy b).epoch = s.epoch := rfl
@[simp] theorem State.setBusy_draws (b : Bool) : (s.setBusy b).draws = s.draws := rfl
@[simp] theorem State.setBusy_params (b : Bool) : (s.setBusy b).params = s.params := rfl
@[simp] theorem State.setBusy_busy (b : Bool) : (s.setBusy b).busy = b :=
  (getLsbD_setBit s.status 0 0 b).trans (if_pos (by decide))
@[simp] theorem State.setBusy_done (b : Bool) : (s.setBusy b).done = s.done :=
  (getLsbD_setBit s.status 0 1 b).trans (if_neg (by decide))
@[simp] theorem State.setBusy_faulted (b : Bool) : (s.setBusy b).faulted = s.faulted :=
  (getLsbD_setBit s.status 0 2 b).trans (if_neg (by decide))
@[simp] theorem State.setBusy_warned (b : Bool) : (s.setBusy b).warned = s.warned :=
  (getLsbD_setBit s.status 0 3 b).trans (if_neg (by decide))
@[simp] theorem State.setBusy_ljReady (b : Bool) : (s.setBusy b).ljReady = s.ljReady :=
  (getLsbD_setBit s.status 0 4 b).trans (if_neg (by decide))

/-! ## State.setDone -/

@[simp] theorem State.setDone_cmd (b : Bool) : (s.setDone b).cmd = s.cmd := rfl
@[simp] theorem State.setDone_errCode (b : Bool) : (s.setDone b).errCode = s.errCode := rfl
@[simp] theorem State.setDone_errStage (b : Bool) : (s.setDone b).errStage = s.errStage := rfl
@[simp] theorem State.setDone_errInfo (b : Bool) : (s.setDone b).errInfo = s.errInfo := rfl
@[simp] theorem State.setDone_errPos (b : Bool) : (s.setDone b).errPos = s.errPos := rfl
@[simp] theorem State.setDone_warnFlags (b : Bool) : (s.setDone b).warnFlags = s.warnFlags := rfl
@[simp] theorem State.setDone_warnCount (b : Bool) : (s.setDone b).warnCount = s.warnCount := rfl
@[simp] theorem State.setDone_ctrl (b : Bool) : (s.setDone b).ctrl = s.ctrl := rfl
@[simp] theorem State.setDone_width (b : Bool) : (s.setDone b).width = s.width := rfl
@[simp] theorem State.setDone_height (b : Bool) : (s.setDone b).height = s.height := rfl
@[simp] theorem State.setDone_colors (b : Bool) : (s.setDone b).colors = s.colors := rfl
@[simp] theorem State.setDone_cfa (b : Bool) : (s.setDone b).cfa = s.cfa := rfl
@[simp] theorem State.setDone_black (b : Bool) : (s.setDone b).black = s.black := rfl
@[simp] theorem State.setDone_maximum (b : Bool) : (s.setDone b).maximum = s.maximum := rfl
@[simp] theorem State.setDone_clipMax (b : Bool) : (s.setDone b).clipMax = s.clipMax := rfl
@[simp] theorem State.setDone_shift (b : Bool) : (s.setDone b).shift = s.shift := rfl
@[simp] theorem State.setDone_orient (b : Bool) : (s.setDone b).orient = s.orient := rfl
@[simp] theorem State.setDone_diagMag (b : Bool) : (s.setDone b).diagMag = s.diagMag := rfl
@[simp] theorem State.setDone_xmag (b : Bool) : (s.setDone b).xmag = s.xmag := rfl
@[simp] theorem State.setDone_ymag (b : Bool) : (s.setDone b).ymag = s.ymag := rfl
@[simp] theorem State.setDone_streamLen (b : Bool) : (s.setDone b).streamLen = s.streamLen := rfl
@[simp] theorem State.setDone_spos (b : Bool) : (s.setDone b).spos = s.spos := rfl
@[simp] theorem State.setDone_sbit (b : Bool) : (s.setDone b).sbit = s.sbit := rfl
@[simp] theorem State.setDone_ljBits (b : Bool) : (s.setDone b).ljBits = s.ljBits := rfl
@[simp] theorem State.setDone_ljWide (b : Bool) : (s.setDone b).ljWide = s.ljWide := rfl
@[simp] theorem State.setDone_ljHigh (b : Bool) : (s.setDone b).ljHigh = s.ljHigh := rfl
@[simp] theorem State.setDone_ljClrs (b : Bool) : (s.setDone b).ljClrs = s.ljClrs := rfl
@[simp] theorem State.setDone_ljRow (b : Bool) : (s.setDone b).ljRow = s.ljRow := rfl
@[simp] theorem State.setDone_imgSel (b : Bool) : (s.setDone b).imgSel = s.imgSel := rfl
@[simp] theorem State.setDone_camMul (b : Bool) : (s.setDone b).camMul = s.camMul := rfl
@[simp] theorem State.setDone_premul (b : Bool) : (s.setDone b).premul = s.premul := rfl
@[simp] theorem State.setDone_cmat (b : Bool) : (s.setDone b).cmat = s.cmat := rfl
@[simp] theorem State.setDone_vpred (b : Bool) : (s.setDone b).vpred = s.vpred := rfl
@[simp] theorem State.setDone_gwSum (b : Bool) : (s.setDone b).gwSum = s.gwSum := rfl
@[simp] theorem State.setDone_gwCnt (b : Bool) : (s.setDone b).gwCnt = s.gwCnt := rfl
@[simp] theorem State.setDone_ht (b : Bool) : (s.setDone b).ht = s.ht := rfl
@[simp] theorem State.setDone_str (b : Bool) : (s.setDone b).str = s.str := rfl
@[simp] theorem State.setDone_img0 (b : Bool) : (s.setDone b).img0 = s.img0 := rfl
@[simp] theorem State.setDone_img1 (b : Bool) : (s.setDone b).img1 = s.img1 := rfl
@[simp] theorem State.setDone_phase (b : Bool) : (s.setDone b).phase = s.phase := rfl
@[simp] theorem State.setDone_inputs (b : Bool) : (s.setDone b).inputs = s.inputs := rfl
@[simp] theorem State.setDone_hostData (b : Bool) : (s.setDone b).hostData = s.hostData := rfl
@[simp] theorem State.setDone_epoch (b : Bool) : (s.setDone b).epoch = s.epoch := rfl
@[simp] theorem State.setDone_draws (b : Bool) : (s.setDone b).draws = s.draws := rfl
@[simp] theorem State.setDone_params (b : Bool) : (s.setDone b).params = s.params := rfl
@[simp] theorem State.setDone_busy (b : Bool) : (s.setDone b).busy = s.busy :=
  (getLsbD_setBit s.status 1 0 b).trans (if_neg (by decide))
@[simp] theorem State.setDone_done (b : Bool) : (s.setDone b).done = b :=
  (getLsbD_setBit s.status 1 1 b).trans (if_pos (by decide))
@[simp] theorem State.setDone_faulted (b : Bool) : (s.setDone b).faulted = s.faulted :=
  (getLsbD_setBit s.status 1 2 b).trans (if_neg (by decide))
@[simp] theorem State.setDone_warned (b : Bool) : (s.setDone b).warned = s.warned :=
  (getLsbD_setBit s.status 1 3 b).trans (if_neg (by decide))
@[simp] theorem State.setDone_ljReady (b : Bool) : (s.setDone b).ljReady = s.ljReady :=
  (getLsbD_setBit s.status 1 4 b).trans (if_neg (by decide))

/-! ## State.setFaulted -/

@[simp] theorem State.setFaulted_cmd (b : Bool) : (s.setFaulted b).cmd = s.cmd := rfl
@[simp] theorem State.setFaulted_errCode (b : Bool) : (s.setFaulted b).errCode = s.errCode := rfl
@[simp] theorem State.setFaulted_errStage (b : Bool) : (s.setFaulted b).errStage = s.errStage := rfl
@[simp] theorem State.setFaulted_errInfo (b : Bool) : (s.setFaulted b).errInfo = s.errInfo := rfl
@[simp] theorem State.setFaulted_errPos (b : Bool) : (s.setFaulted b).errPos = s.errPos := rfl
@[simp] theorem State.setFaulted_warnFlags (b : Bool) : (s.setFaulted b).warnFlags = s.warnFlags := rfl
@[simp] theorem State.setFaulted_warnCount (b : Bool) : (s.setFaulted b).warnCount = s.warnCount := rfl
@[simp] theorem State.setFaulted_ctrl (b : Bool) : (s.setFaulted b).ctrl = s.ctrl := rfl
@[simp] theorem State.setFaulted_width (b : Bool) : (s.setFaulted b).width = s.width := rfl
@[simp] theorem State.setFaulted_height (b : Bool) : (s.setFaulted b).height = s.height := rfl
@[simp] theorem State.setFaulted_colors (b : Bool) : (s.setFaulted b).colors = s.colors := rfl
@[simp] theorem State.setFaulted_cfa (b : Bool) : (s.setFaulted b).cfa = s.cfa := rfl
@[simp] theorem State.setFaulted_black (b : Bool) : (s.setFaulted b).black = s.black := rfl
@[simp] theorem State.setFaulted_maximum (b : Bool) : (s.setFaulted b).maximum = s.maximum := rfl
@[simp] theorem State.setFaulted_clipMax (b : Bool) : (s.setFaulted b).clipMax = s.clipMax := rfl
@[simp] theorem State.setFaulted_shift (b : Bool) : (s.setFaulted b).shift = s.shift := rfl
@[simp] theorem State.setFaulted_orient (b : Bool) : (s.setFaulted b).orient = s.orient := rfl
@[simp] theorem State.setFaulted_diagMag (b : Bool) : (s.setFaulted b).diagMag = s.diagMag := rfl
@[simp] theorem State.setFaulted_xmag (b : Bool) : (s.setFaulted b).xmag = s.xmag := rfl
@[simp] theorem State.setFaulted_ymag (b : Bool) : (s.setFaulted b).ymag = s.ymag := rfl
@[simp] theorem State.setFaulted_streamLen (b : Bool) : (s.setFaulted b).streamLen = s.streamLen := rfl
@[simp] theorem State.setFaulted_spos (b : Bool) : (s.setFaulted b).spos = s.spos := rfl
@[simp] theorem State.setFaulted_sbit (b : Bool) : (s.setFaulted b).sbit = s.sbit := rfl
@[simp] theorem State.setFaulted_ljBits (b : Bool) : (s.setFaulted b).ljBits = s.ljBits := rfl
@[simp] theorem State.setFaulted_ljWide (b : Bool) : (s.setFaulted b).ljWide = s.ljWide := rfl
@[simp] theorem State.setFaulted_ljHigh (b : Bool) : (s.setFaulted b).ljHigh = s.ljHigh := rfl
@[simp] theorem State.setFaulted_ljClrs (b : Bool) : (s.setFaulted b).ljClrs = s.ljClrs := rfl
@[simp] theorem State.setFaulted_ljRow (b : Bool) : (s.setFaulted b).ljRow = s.ljRow := rfl
@[simp] theorem State.setFaulted_imgSel (b : Bool) : (s.setFaulted b).imgSel = s.imgSel := rfl
@[simp] theorem State.setFaulted_camMul (b : Bool) : (s.setFaulted b).camMul = s.camMul := rfl
@[simp] theorem State.setFaulted_premul (b : Bool) : (s.setFaulted b).premul = s.premul := rfl
@[simp] theorem State.setFaulted_cmat (b : Bool) : (s.setFaulted b).cmat = s.cmat := rfl
@[simp] theorem State.setFaulted_vpred (b : Bool) : (s.setFaulted b).vpred = s.vpred := rfl
@[simp] theorem State.setFaulted_gwSum (b : Bool) : (s.setFaulted b).gwSum = s.gwSum := rfl
@[simp] theorem State.setFaulted_gwCnt (b : Bool) : (s.setFaulted b).gwCnt = s.gwCnt := rfl
@[simp] theorem State.setFaulted_ht (b : Bool) : (s.setFaulted b).ht = s.ht := rfl
@[simp] theorem State.setFaulted_str (b : Bool) : (s.setFaulted b).str = s.str := rfl
@[simp] theorem State.setFaulted_img0 (b : Bool) : (s.setFaulted b).img0 = s.img0 := rfl
@[simp] theorem State.setFaulted_img1 (b : Bool) : (s.setFaulted b).img1 = s.img1 := rfl
@[simp] theorem State.setFaulted_phase (b : Bool) : (s.setFaulted b).phase = s.phase := rfl
@[simp] theorem State.setFaulted_inputs (b : Bool) : (s.setFaulted b).inputs = s.inputs := rfl
@[simp] theorem State.setFaulted_hostData (b : Bool) : (s.setFaulted b).hostData = s.hostData := rfl
@[simp] theorem State.setFaulted_epoch (b : Bool) : (s.setFaulted b).epoch = s.epoch := rfl
@[simp] theorem State.setFaulted_draws (b : Bool) : (s.setFaulted b).draws = s.draws := rfl
@[simp] theorem State.setFaulted_params (b : Bool) : (s.setFaulted b).params = s.params := rfl
@[simp] theorem State.setFaulted_busy (b : Bool) : (s.setFaulted b).busy = s.busy :=
  (getLsbD_setBit s.status 2 0 b).trans (if_neg (by decide))
@[simp] theorem State.setFaulted_done (b : Bool) : (s.setFaulted b).done = s.done :=
  (getLsbD_setBit s.status 2 1 b).trans (if_neg (by decide))
@[simp] theorem State.setFaulted_faulted (b : Bool) : (s.setFaulted b).faulted = b :=
  (getLsbD_setBit s.status 2 2 b).trans (if_pos (by decide))
@[simp] theorem State.setFaulted_warned (b : Bool) : (s.setFaulted b).warned = s.warned :=
  (getLsbD_setBit s.status 2 3 b).trans (if_neg (by decide))
@[simp] theorem State.setFaulted_ljReady (b : Bool) : (s.setFaulted b).ljReady = s.ljReady :=
  (getLsbD_setBit s.status 2 4 b).trans (if_neg (by decide))

/-! ## State.setWarned -/

@[simp] theorem State.setWarned_cmd (b : Bool) : (s.setWarned b).cmd = s.cmd := rfl
@[simp] theorem State.setWarned_errCode (b : Bool) : (s.setWarned b).errCode = s.errCode := rfl
@[simp] theorem State.setWarned_errStage (b : Bool) : (s.setWarned b).errStage = s.errStage := rfl
@[simp] theorem State.setWarned_errInfo (b : Bool) : (s.setWarned b).errInfo = s.errInfo := rfl
@[simp] theorem State.setWarned_errPos (b : Bool) : (s.setWarned b).errPos = s.errPos := rfl
@[simp] theorem State.setWarned_warnFlags (b : Bool) : (s.setWarned b).warnFlags = s.warnFlags := rfl
@[simp] theorem State.setWarned_warnCount (b : Bool) : (s.setWarned b).warnCount = s.warnCount := rfl
@[simp] theorem State.setWarned_ctrl (b : Bool) : (s.setWarned b).ctrl = s.ctrl := rfl
@[simp] theorem State.setWarned_width (b : Bool) : (s.setWarned b).width = s.width := rfl
@[simp] theorem State.setWarned_height (b : Bool) : (s.setWarned b).height = s.height := rfl
@[simp] theorem State.setWarned_colors (b : Bool) : (s.setWarned b).colors = s.colors := rfl
@[simp] theorem State.setWarned_cfa (b : Bool) : (s.setWarned b).cfa = s.cfa := rfl
@[simp] theorem State.setWarned_black (b : Bool) : (s.setWarned b).black = s.black := rfl
@[simp] theorem State.setWarned_maximum (b : Bool) : (s.setWarned b).maximum = s.maximum := rfl
@[simp] theorem State.setWarned_clipMax (b : Bool) : (s.setWarned b).clipMax = s.clipMax := rfl
@[simp] theorem State.setWarned_shift (b : Bool) : (s.setWarned b).shift = s.shift := rfl
@[simp] theorem State.setWarned_orient (b : Bool) : (s.setWarned b).orient = s.orient := rfl
@[simp] theorem State.setWarned_diagMag (b : Bool) : (s.setWarned b).diagMag = s.diagMag := rfl
@[simp] theorem State.setWarned_xmag (b : Bool) : (s.setWarned b).xmag = s.xmag := rfl
@[simp] theorem State.setWarned_ymag (b : Bool) : (s.setWarned b).ymag = s.ymag := rfl
@[simp] theorem State.setWarned_streamLen (b : Bool) : (s.setWarned b).streamLen = s.streamLen := rfl
@[simp] theorem State.setWarned_spos (b : Bool) : (s.setWarned b).spos = s.spos := rfl
@[simp] theorem State.setWarned_sbit (b : Bool) : (s.setWarned b).sbit = s.sbit := rfl
@[simp] theorem State.setWarned_ljBits (b : Bool) : (s.setWarned b).ljBits = s.ljBits := rfl
@[simp] theorem State.setWarned_ljWide (b : Bool) : (s.setWarned b).ljWide = s.ljWide := rfl
@[simp] theorem State.setWarned_ljHigh (b : Bool) : (s.setWarned b).ljHigh = s.ljHigh := rfl
@[simp] theorem State.setWarned_ljClrs (b : Bool) : (s.setWarned b).ljClrs = s.ljClrs := rfl
@[simp] theorem State.setWarned_ljRow (b : Bool) : (s.setWarned b).ljRow = s.ljRow := rfl
@[simp] theorem State.setWarned_imgSel (b : Bool) : (s.setWarned b).imgSel = s.imgSel := rfl
@[simp] theorem State.setWarned_camMul (b : Bool) : (s.setWarned b).camMul = s.camMul := rfl
@[simp] theorem State.setWarned_premul (b : Bool) : (s.setWarned b).premul = s.premul := rfl
@[simp] theorem State.setWarned_cmat (b : Bool) : (s.setWarned b).cmat = s.cmat := rfl
@[simp] theorem State.setWarned_vpred (b : Bool) : (s.setWarned b).vpred = s.vpred := rfl
@[simp] theorem State.setWarned_gwSum (b : Bool) : (s.setWarned b).gwSum = s.gwSum := rfl
@[simp] theorem State.setWarned_gwCnt (b : Bool) : (s.setWarned b).gwCnt = s.gwCnt := rfl
@[simp] theorem State.setWarned_ht (b : Bool) : (s.setWarned b).ht = s.ht := rfl
@[simp] theorem State.setWarned_str (b : Bool) : (s.setWarned b).str = s.str := rfl
@[simp] theorem State.setWarned_img0 (b : Bool) : (s.setWarned b).img0 = s.img0 := rfl
@[simp] theorem State.setWarned_img1 (b : Bool) : (s.setWarned b).img1 = s.img1 := rfl
@[simp] theorem State.setWarned_phase (b : Bool) : (s.setWarned b).phase = s.phase := rfl
@[simp] theorem State.setWarned_inputs (b : Bool) : (s.setWarned b).inputs = s.inputs := rfl
@[simp] theorem State.setWarned_hostData (b : Bool) : (s.setWarned b).hostData = s.hostData := rfl
@[simp] theorem State.setWarned_epoch (b : Bool) : (s.setWarned b).epoch = s.epoch := rfl
@[simp] theorem State.setWarned_draws (b : Bool) : (s.setWarned b).draws = s.draws := rfl
@[simp] theorem State.setWarned_params (b : Bool) : (s.setWarned b).params = s.params := rfl
@[simp] theorem State.setWarned_busy (b : Bool) : (s.setWarned b).busy = s.busy :=
  (getLsbD_setBit s.status 3 0 b).trans (if_neg (by decide))
@[simp] theorem State.setWarned_done (b : Bool) : (s.setWarned b).done = s.done :=
  (getLsbD_setBit s.status 3 1 b).trans (if_neg (by decide))
@[simp] theorem State.setWarned_faulted (b : Bool) : (s.setWarned b).faulted = s.faulted :=
  (getLsbD_setBit s.status 3 2 b).trans (if_neg (by decide))
@[simp] theorem State.setWarned_warned (b : Bool) : (s.setWarned b).warned = b :=
  (getLsbD_setBit s.status 3 3 b).trans (if_pos (by decide))
@[simp] theorem State.setWarned_ljReady (b : Bool) : (s.setWarned b).ljReady = s.ljReady :=
  (getLsbD_setBit s.status 3 4 b).trans (if_neg (by decide))

/-! ## State.setLjReady -/

@[simp] theorem State.setLjReady_cmd (b : Bool) : (s.setLjReady b).cmd = s.cmd := rfl
@[simp] theorem State.setLjReady_errCode (b : Bool) : (s.setLjReady b).errCode = s.errCode := rfl
@[simp] theorem State.setLjReady_errStage (b : Bool) : (s.setLjReady b).errStage = s.errStage := rfl
@[simp] theorem State.setLjReady_errInfo (b : Bool) : (s.setLjReady b).errInfo = s.errInfo := rfl
@[simp] theorem State.setLjReady_errPos (b : Bool) : (s.setLjReady b).errPos = s.errPos := rfl
@[simp] theorem State.setLjReady_warnFlags (b : Bool) : (s.setLjReady b).warnFlags = s.warnFlags := rfl
@[simp] theorem State.setLjReady_warnCount (b : Bool) : (s.setLjReady b).warnCount = s.warnCount := rfl
@[simp] theorem State.setLjReady_ctrl (b : Bool) : (s.setLjReady b).ctrl = s.ctrl := rfl
@[simp] theorem State.setLjReady_width (b : Bool) : (s.setLjReady b).width = s.width := rfl
@[simp] theorem State.setLjReady_height (b : Bool) : (s.setLjReady b).height = s.height := rfl
@[simp] theorem State.setLjReady_colors (b : Bool) : (s.setLjReady b).colors = s.colors := rfl
@[simp] theorem State.setLjReady_cfa (b : Bool) : (s.setLjReady b).cfa = s.cfa := rfl
@[simp] theorem State.setLjReady_black (b : Bool) : (s.setLjReady b).black = s.black := rfl
@[simp] theorem State.setLjReady_maximum (b : Bool) : (s.setLjReady b).maximum = s.maximum := rfl
@[simp] theorem State.setLjReady_clipMax (b : Bool) : (s.setLjReady b).clipMax = s.clipMax := rfl
@[simp] theorem State.setLjReady_shift (b : Bool) : (s.setLjReady b).shift = s.shift := rfl
@[simp] theorem State.setLjReady_orient (b : Bool) : (s.setLjReady b).orient = s.orient := rfl
@[simp] theorem State.setLjReady_diagMag (b : Bool) : (s.setLjReady b).diagMag = s.diagMag := rfl
@[simp] theorem State.setLjReady_xmag (b : Bool) : (s.setLjReady b).xmag = s.xmag := rfl
@[simp] theorem State.setLjReady_ymag (b : Bool) : (s.setLjReady b).ymag = s.ymag := rfl
@[simp] theorem State.setLjReady_streamLen (b : Bool) : (s.setLjReady b).streamLen = s.streamLen := rfl
@[simp] theorem State.setLjReady_spos (b : Bool) : (s.setLjReady b).spos = s.spos := rfl
@[simp] theorem State.setLjReady_sbit (b : Bool) : (s.setLjReady b).sbit = s.sbit := rfl
@[simp] theorem State.setLjReady_ljBits (b : Bool) : (s.setLjReady b).ljBits = s.ljBits := rfl
@[simp] theorem State.setLjReady_ljWide (b : Bool) : (s.setLjReady b).ljWide = s.ljWide := rfl
@[simp] theorem State.setLjReady_ljHigh (b : Bool) : (s.setLjReady b).ljHigh = s.ljHigh := rfl
@[simp] theorem State.setLjReady_ljClrs (b : Bool) : (s.setLjReady b).ljClrs = s.ljClrs := rfl
@[simp] theorem State.setLjReady_ljRow (b : Bool) : (s.setLjReady b).ljRow = s.ljRow := rfl
@[simp] theorem State.setLjReady_imgSel (b : Bool) : (s.setLjReady b).imgSel = s.imgSel := rfl
@[simp] theorem State.setLjReady_camMul (b : Bool) : (s.setLjReady b).camMul = s.camMul := rfl
@[simp] theorem State.setLjReady_premul (b : Bool) : (s.setLjReady b).premul = s.premul := rfl
@[simp] theorem State.setLjReady_cmat (b : Bool) : (s.setLjReady b).cmat = s.cmat := rfl
@[simp] theorem State.setLjReady_vpred (b : Bool) : (s.setLjReady b).vpred = s.vpred := rfl
@[simp] theorem State.setLjReady_gwSum (b : Bool) : (s.setLjReady b).gwSum = s.gwSum := rfl
@[simp] theorem State.setLjReady_gwCnt (b : Bool) : (s.setLjReady b).gwCnt = s.gwCnt := rfl
@[simp] theorem State.setLjReady_ht (b : Bool) : (s.setLjReady b).ht = s.ht := rfl
@[simp] theorem State.setLjReady_str (b : Bool) : (s.setLjReady b).str = s.str := rfl
@[simp] theorem State.setLjReady_img0 (b : Bool) : (s.setLjReady b).img0 = s.img0 := rfl
@[simp] theorem State.setLjReady_img1 (b : Bool) : (s.setLjReady b).img1 = s.img1 := rfl
@[simp] theorem State.setLjReady_phase (b : Bool) : (s.setLjReady b).phase = s.phase := rfl
@[simp] theorem State.setLjReady_inputs (b : Bool) : (s.setLjReady b).inputs = s.inputs := rfl
@[simp] theorem State.setLjReady_hostData (b : Bool) : (s.setLjReady b).hostData = s.hostData := rfl
@[simp] theorem State.setLjReady_epoch (b : Bool) : (s.setLjReady b).epoch = s.epoch := rfl
@[simp] theorem State.setLjReady_draws (b : Bool) : (s.setLjReady b).draws = s.draws := rfl
@[simp] theorem State.setLjReady_params (b : Bool) : (s.setLjReady b).params = s.params := rfl
@[simp] theorem State.setLjReady_busy (b : Bool) : (s.setLjReady b).busy = s.busy :=
  (getLsbD_setBit s.status 4 0 b).trans (if_neg (by decide))
@[simp] theorem State.setLjReady_done (b : Bool) : (s.setLjReady b).done = s.done :=
  (getLsbD_setBit s.status 4 1 b).trans (if_neg (by decide))
@[simp] theorem State.setLjReady_faulted (b : Bool) : (s.setLjReady b).faulted = s.faulted :=
  (getLsbD_setBit s.status 4 2 b).trans (if_neg (by decide))
@[simp] theorem State.setLjReady_warned (b : Bool) : (s.setLjReady b).warned = s.warned :=
  (getLsbD_setBit s.status 4 3 b).trans (if_neg (by decide))
@[simp] theorem State.setLjReady_ljReady (b : Bool) : (s.setLjReady b).ljReady = b :=
  (getLsbD_setBit s.status 4 4 b).trans (if_pos (by decide))

/-! ## State.begin -/

@[simp] theorem State.begin_errCode (w : BitVec 8) : (s.begin w).errCode = s.errCode := rfl
@[simp] theorem State.begin_errStage (w : BitVec 8) : (s.begin w).errStage = s.errStage := rfl
@[simp] theorem State.begin_errInfo (w : BitVec 8) : (s.begin w).errInfo = s.errInfo := rfl
@[simp] theorem State.begin_errPos (w : BitVec 8) : (s.begin w).errPos = s.errPos := rfl
@[simp] theorem State.begin_warnFlags (w : BitVec 8) : (s.begin w).warnFlags = s.warnFlags := rfl
@[simp] theorem State.begin_warnCount (w : BitVec 8) : (s.begin w).warnCount = s.warnCount := rfl
@[simp] theorem State.begin_ctrl (w : BitVec 8) : (s.begin w).ctrl = s.ctrl := rfl
@[simp] theorem State.begin_width (w : BitVec 8) : (s.begin w).width = s.width := rfl
@[simp] theorem State.begin_height (w : BitVec 8) : (s.begin w).height = s.height := rfl
@[simp] theorem State.begin_colors (w : BitVec 8) : (s.begin w).colors = s.colors := rfl
@[simp] theorem State.begin_cfa (w : BitVec 8) : (s.begin w).cfa = s.cfa := rfl
@[simp] theorem State.begin_black (w : BitVec 8) : (s.begin w).black = s.black := rfl
@[simp] theorem State.begin_maximum (w : BitVec 8) : (s.begin w).maximum = s.maximum := rfl
@[simp] theorem State.begin_clipMax (w : BitVec 8) : (s.begin w).clipMax = s.clipMax := rfl
@[simp] theorem State.begin_shift (w : BitVec 8) : (s.begin w).shift = s.shift := rfl
@[simp] theorem State.begin_orient (w : BitVec 8) : (s.begin w).orient = s.orient := rfl
@[simp] theorem State.begin_diagMag (w : BitVec 8) : (s.begin w).diagMag = s.diagMag := rfl
@[simp] theorem State.begin_xmag (w : BitVec 8) : (s.begin w).xmag = s.xmag := rfl
@[simp] theorem State.begin_ymag (w : BitVec 8) : (s.begin w).ymag = s.ymag := rfl
@[simp] theorem State.begin_streamLen (w : BitVec 8) : (s.begin w).streamLen = s.streamLen := rfl
@[simp] theorem State.begin_spos (w : BitVec 8) : (s.begin w).spos = s.spos := rfl
@[simp] theorem State.begin_sbit (w : BitVec 8) : (s.begin w).sbit = s.sbit := rfl
@[simp] theorem State.begin_ljBits (w : BitVec 8) : (s.begin w).ljBits = s.ljBits := rfl
@[simp] theorem State.begin_ljWide (w : BitVec 8) : (s.begin w).ljWide = s.ljWide := rfl
@[simp] theorem State.begin_ljHigh (w : BitVec 8) : (s.begin w).ljHigh = s.ljHigh := rfl
@[simp] theorem State.begin_ljClrs (w : BitVec 8) : (s.begin w).ljClrs = s.ljClrs := rfl
@[simp] theorem State.begin_ljRow (w : BitVec 8) : (s.begin w).ljRow = s.ljRow := rfl
@[simp] theorem State.begin_imgSel (w : BitVec 8) : (s.begin w).imgSel = s.imgSel := rfl
@[simp] theorem State.begin_camMul (w : BitVec 8) : (s.begin w).camMul = s.camMul := rfl
@[simp] theorem State.begin_premul (w : BitVec 8) : (s.begin w).premul = s.premul := rfl
@[simp] theorem State.begin_cmat (w : BitVec 8) : (s.begin w).cmat = s.cmat := rfl
@[simp] theorem State.begin_vpred (w : BitVec 8) : (s.begin w).vpred = s.vpred := rfl
@[simp] theorem State.begin_gwSum (w : BitVec 8) : (s.begin w).gwSum = s.gwSum := rfl
@[simp] theorem State.begin_gwCnt (w : BitVec 8) : (s.begin w).gwCnt = s.gwCnt := rfl
@[simp] theorem State.begin_ht (w : BitVec 8) : (s.begin w).ht = s.ht := rfl
@[simp] theorem State.begin_str (w : BitVec 8) : (s.begin w).str = s.str := rfl
@[simp] theorem State.begin_img0 (w : BitVec 8) : (s.begin w).img0 = s.img0 := rfl
@[simp] theorem State.begin_img1 (w : BitVec 8) : (s.begin w).img1 = s.img1 := rfl
@[simp] theorem State.begin_inputs (w : BitVec 8) : (s.begin w).inputs = s.inputs := rfl
@[simp] theorem State.begin_hostData (w : BitVec 8) : (s.begin w).hostData = s.hostData := rfl
@[simp] theorem State.begin_epoch (w : BitVec 8) : (s.begin w).epoch = s.epoch := rfl
@[simp] theorem State.begin_draws (w : BitVec 8) : (s.begin w).draws = s.draws := rfl
@[simp] theorem State.begin_params (w : BitVec 8) : (s.begin w).params = s.params := rfl
@[simp] theorem State.begin_cmd (w : BitVec 8) : (s.begin w).cmd = w := rfl
@[simp] theorem State.begin_phase (w : BitVec 8) : (s.begin w).phase = .idle := rfl
theorem State.begin_status (w : BitVec 8) : (s.begin w).status = setBit (setBit s.status 1 false) 0 true := rfl
@[simp] theorem State.begin_busy (w : BitVec 8) : (s.begin w).busy = true := State.setBusy_busy _ _
@[simp] theorem State.begin_done (w : BitVec 8) : (s.begin w).done = false :=
  (State.setBusy_done _ _).trans (State.setDone_done _ _)
@[simp] theorem State.begin_faulted (w : BitVec 8) : (s.begin w).faulted = s.faulted :=
  (State.setBusy_faulted _ _).trans (State.setDone_faulted _ _)
@[simp] theorem State.begin_warned (w : BitVec 8) : (s.begin w).warned = s.warned :=
  (State.setBusy_warned _ _).trans (State.setDone_warned _ _)
@[simp] theorem State.begin_ljReady (w : BitVec 8) : (s.begin w).ljReady = s.ljReady :=
  (State.setBusy_ljReady _ _).trans (State.setDone_ljReady _ _)
@[simp] theorem State.begin_pixels (w : BitVec 8) : (s.begin w).pixels = s.pixels := rfl
@[simp] theorem State.begin_activeBank (w : BitVec 8) : (s.begin w).activeBank = s.activeBank := rfl
@[simp] theorem State.begin_quick (w : BitVec 8) : (s.begin w).quick = s.quick := rfl
@[simp] theorem State.begin_noClip (w : BitVec 8) : (s.begin w).noClip = s.noClip := rfl
@[simp] theorem State.begin_stuffed (w : BitVec 8) : (s.begin w).stuffed = s.stuffed := rfl
@[simp] theorem State.begin_grayWorld (w : BitVec 8) : (s.begin w).grayWorld = s.grayWorld := rfl
@[simp] theorem State.begin_diagEnabled (w : BitVec 8) : (s.begin w).diagEnabled = s.diagEnabled := rfl
@[simp] theorem State.begin_transposes (w : BitVec 8) : (s.begin w).transposes = s.transposes := rfl
@[simp] theorem State.begin_flipsRows (w : BitVec 8) : (s.begin w).flipsRows = s.flipsRows := rfl
@[simp] theorem State.begin_flipsColumns (w : BitVec 8) : (s.begin w).flipsColumns = s.flipsColumns := rfl
@[simp] theorem State.begin_bank (w : BitVec 8) (b : Bank) : (s.begin w).bank b = s.bank b := by cases b <;> rfl
@[simp] theorem State.begin_sampleIn (w : BitVec 8) (b : Bank) (a : Nat) : (s.begin w).sampleIn b a = s.sampleIn b a := by
  cases b <;> rfl
@[simp] theorem State.begin_sample (w : BitVec 8) (a : Nat) : (s.begin w).sample a = s.sample a :=
  State.begin_sampleIn s w _ a
@[simp] theorem State.begin_strByte (w : BitVec 8) (a : Nat) : (s.begin w).strByte a = s.strByte a := rfl
@[simp] theorem State.begin_streamByte (w : BitVec 8) (a : Nat) : (s.begin w).streamByte a = s.streamByte a := rfl
@[simp] theorem State.begin_fc (w : BitVec 8) (r c : Nat) : (s.begin w).fc r c = s.fc r c := rfl
@[simp] theorem State.begin_pixAddr (w : BitVec 8) (r c : Nat) (k : Lane) : (s.begin w).pixAddr r c k = s.pixAddr r c k := rfl
@[simp] theorem State.begin_pix (w : BitVec 8) (r c : Nat) (k : Lane) : (s.begin w).pix r c k = s.pix r c k :=
  congrArg BitVec.toNat (State.begin_sample s w _)
@[simp] theorem State.begin_clip (w : BitVec 8) (v : Int) : (s.begin w).clip v = s.clip v := rfl
@[simp] theorem imageRegsFault_begin (w : BitVec 8) : imageRegsFault (s.begin w) = imageRegsFault s := rfl
@[simp] theorem cfaFault_begin (w : BitVec 8) : cfaFault (s.begin w) = cfaFault s := rfl
@[simp] theorem streamFault_begin (w : BitVec 8) : streamFault (s.begin w) = streamFault s := rfl
@[simp] theorem frameFault_begin (w : BitVec 8) : frameFault (s.begin w) = frameFault s := rfl
@[simp] theorem clipFault_begin (w : BitVec 8) : clipFault (s.begin w) = clipFault s := rfl

/-! ## State.complete -/

@[simp] theorem State.complete_cmd  : (s.complete).cmd = s.cmd := rfl
@[simp] theorem State.complete_errCode  : (s.complete).errCode = s.errCode := rfl
@[simp] theorem State.complete_errStage  : (s.complete).errStage = s.errStage := rfl
@[simp] theorem State.complete_errInfo  : (s.complete).errInfo = s.errInfo := rfl
@[simp] theorem State.complete_errPos  : (s.complete).errPos = s.errPos := rfl
@[simp] theorem State.complete_warnFlags  : (s.complete).warnFlags = s.warnFlags := rfl
@[simp] theorem State.complete_warnCount  : (s.complete).warnCount = s.warnCount := rfl
@[simp] theorem State.complete_ctrl  : (s.complete).ctrl = s.ctrl := rfl
@[simp] theorem State.complete_width  : (s.complete).width = s.width := rfl
@[simp] theorem State.complete_height  : (s.complete).height = s.height := rfl
@[simp] theorem State.complete_colors  : (s.complete).colors = s.colors := rfl
@[simp] theorem State.complete_cfa  : (s.complete).cfa = s.cfa := rfl
@[simp] theorem State.complete_black  : (s.complete).black = s.black := rfl
@[simp] theorem State.complete_maximum  : (s.complete).maximum = s.maximum := rfl
@[simp] theorem State.complete_clipMax  : (s.complete).clipMax = s.clipMax := rfl
@[simp] theorem State.complete_shift  : (s.complete).shift = s.shift := rfl
@[simp] theorem State.complete_orient  : (s.complete).orient = s.orient := rfl
@[simp] theorem State.complete_diagMag  : (s.complete).diagMag = s.diagMag := rfl
@[simp] theorem State.complete_xmag  : (s.complete).xmag = s.xmag := rfl
@[simp] theorem State.complete_ymag  : (s.complete).ymag = s.ymag := rfl
@[simp] theorem State.complete_streamLen  : (s.complete).streamLen = s.streamLen := rfl
@[simp] theorem State.complete_spos  : (s.complete).spos = s.spos := rfl
@[simp] theorem State.complete_sbit  : (s.complete).sbit = s.sbit := rfl
@[simp] theorem State.complete_ljBits  : (s.complete).ljBits = s.ljBits := rfl
@[simp] theorem State.complete_ljWide  : (s.complete).ljWide = s.ljWide := rfl
@[simp] theorem State.complete_ljHigh  : (s.complete).ljHigh = s.ljHigh := rfl
@[simp] theorem State.complete_ljClrs  : (s.complete).ljClrs = s.ljClrs := rfl
@[simp] theorem State.complete_ljRow  : (s.complete).ljRow = s.ljRow := rfl
@[simp] theorem State.complete_imgSel  : (s.complete).imgSel = s.imgSel := rfl
@[simp] theorem State.complete_camMul  : (s.complete).camMul = s.camMul := rfl
@[simp] theorem State.complete_premul  : (s.complete).premul = s.premul := rfl
@[simp] theorem State.complete_cmat  : (s.complete).cmat = s.cmat := rfl
@[simp] theorem State.complete_vpred  : (s.complete).vpred = s.vpred := rfl
@[simp] theorem State.complete_gwSum  : (s.complete).gwSum = s.gwSum := rfl
@[simp] theorem State.complete_gwCnt  : (s.complete).gwCnt = s.gwCnt := rfl
@[simp] theorem State.complete_ht  : (s.complete).ht = s.ht := rfl
@[simp] theorem State.complete_str  : (s.complete).str = s.str := rfl
@[simp] theorem State.complete_img0  : (s.complete).img0 = s.img0 := rfl
@[simp] theorem State.complete_img1  : (s.complete).img1 = s.img1 := rfl
@[simp] theorem State.complete_phase  : (s.complete).phase = s.phase := rfl
@[simp] theorem State.complete_inputs  : (s.complete).inputs = s.inputs := rfl
@[simp] theorem State.complete_hostData  : (s.complete).hostData = s.hostData := rfl
@[simp] theorem State.complete_epoch  : (s.complete).epoch = s.epoch := rfl
@[simp] theorem State.complete_draws  : (s.complete).draws = s.draws := rfl
@[simp] theorem State.complete_params  : (s.complete).params = s.params := rfl
theorem State.complete_status : s.complete.status = setBit (setBit s.status 1 true) 0 false := rfl
@[simp] theorem State.complete_busy : s.complete.busy = false := State.setBusy_busy _ _
@[simp] theorem State.complete_done : s.complete.done = true := (State.setBusy_done _ _).trans (State.setDone_done _ _)
@[simp] theorem State.complete_faulted : s.complete.faulted = s.faulted :=
  (State.setBusy_faulted _ _).trans (State.setDone_faulted _ _)
@[simp] theorem State.complete_warned : s.complete.warned = s.warned :=
  (State.setBusy_warned _ _).trans (State.setDone_warned _ _)
@[simp] theorem State.complete_ljReady : s.complete.ljReady = s.ljReady :=
  (State.setBusy_ljReady _ _).trans (State.setDone_ljReady _ _)
@[simp] theorem State.complete_activeBank : s.complete.activeBank = s.activeBank := rfl
@[simp] theorem State.complete_bank (b : Bank) : s.complete.bank b = s.bank b := by cases b <;> rfl
@[simp] theorem State.complete_sampleIn (b : Bank) (a : Nat) : s.complete.sampleIn b a = s.sampleIn b a := by cases b <;> rfl
@[simp] theorem State.complete_sample (a : Nat) : s.complete.sample a = s.sample a := State.complete_sampleIn s _ a

/-! ## State.setCursor -/

@[simp] theorem State.setCursor_spos (c : Cursor) : (s.setCursor c).spos = c.spos := rfl
@[simp] theorem State.setCursor_sbit (c : Cursor) : (s.setCursor c).sbit = c.sbit := rfl
@[simp] theorem State.setCursor_cmd (c : Cursor) : (s.setCursor c).cmd = s.cmd := rfl
@[simp] theorem State.setCursor_status (c : Cursor) : (s.setCursor c).status = s.status := rfl
@[simp] theorem State.setCursor_errCode (c : Cursor) : (s.setCursor c).errCode = s.errCode := rfl
@[simp] theorem State.setCursor_errStage (c : Cursor) : (s.setCursor c).errStage = s.errStage := rfl
@[simp] theorem State.setCursor_errInfo (c : Cursor) : (s.setCursor c).errInfo = s.errInfo := rfl
@[simp] theorem State.setCursor_errPos (c : Cursor) : (s.setCursor c).errPos = s.errPos := rfl
@[simp] theorem State.setCursor_warnFlags (c : Cursor) : (s.setCursor c).warnFlags = s.warnFlags := rfl
@[simp] theorem State.setCursor_warnCount (c : Cursor) : (s.setCursor c).warnCount = s.warnCount := rfl
@[simp] theorem State.setCursor_ctrl (c : Cursor) : (s.setCursor c).ctrl = s.ctrl := rfl
@[simp] theorem State.setCursor_width (c : Cursor) : (s.setCursor c).width = s.width := rfl
@[simp] theorem State.setCursor_height (c : Cursor) : (s.setCursor c).height = s.height := rfl
@[simp] theorem State.setCursor_colors (c : Cursor) : (s.setCursor c).colors = s.colors := rfl
@[simp] theorem State.setCursor_cfa (c : Cursor) : (s.setCursor c).cfa = s.cfa := rfl
@[simp] theorem State.setCursor_black (c : Cursor) : (s.setCursor c).black = s.black := rfl
@[simp] theorem State.setCursor_maximum (c : Cursor) : (s.setCursor c).maximum = s.maximum := rfl
@[simp] theorem State.setCursor_clipMax (c : Cursor) : (s.setCursor c).clipMax = s.clipMax := rfl
@[simp] theorem State.setCursor_shift (c : Cursor) : (s.setCursor c).shift = s.shift := rfl
@[simp] theorem State.setCursor_orient (c : Cursor) : (s.setCursor c).orient = s.orient := rfl
@[simp] theorem State.setCursor_diagMag (c : Cursor) : (s.setCursor c).diagMag = s.diagMag := rfl
@[simp] theorem State.setCursor_xmag (c : Cursor) : (s.setCursor c).xmag = s.xmag := rfl
@[simp] theorem State.setCursor_ymag (c : Cursor) : (s.setCursor c).ymag = s.ymag := rfl
@[simp] theorem State.setCursor_streamLen (c : Cursor) : (s.setCursor c).streamLen = s.streamLen := rfl
@[simp] theorem State.setCursor_ljBits (c : Cursor) : (s.setCursor c).ljBits = s.ljBits := rfl
@[simp] theorem State.setCursor_ljWide (c : Cursor) : (s.setCursor c).ljWide = s.ljWide := rfl
@[simp] theorem State.setCursor_ljHigh (c : Cursor) : (s.setCursor c).ljHigh = s.ljHigh := rfl
@[simp] theorem State.setCursor_ljClrs (c : Cursor) : (s.setCursor c).ljClrs = s.ljClrs := rfl
@[simp] theorem State.setCursor_ljRow (c : Cursor) : (s.setCursor c).ljRow = s.ljRow := rfl
@[simp] theorem State.setCursor_imgSel (c : Cursor) : (s.setCursor c).imgSel = s.imgSel := rfl
@[simp] theorem State.setCursor_camMul (c : Cursor) : (s.setCursor c).camMul = s.camMul := rfl
@[simp] theorem State.setCursor_premul (c : Cursor) : (s.setCursor c).premul = s.premul := rfl
@[simp] theorem State.setCursor_cmat (c : Cursor) : (s.setCursor c).cmat = s.cmat := rfl
@[simp] theorem State.setCursor_vpred (c : Cursor) : (s.setCursor c).vpred = s.vpred := rfl
@[simp] theorem State.setCursor_gwSum (c : Cursor) : (s.setCursor c).gwSum = s.gwSum := rfl
@[simp] theorem State.setCursor_gwCnt (c : Cursor) : (s.setCursor c).gwCnt = s.gwCnt := rfl
@[simp] theorem State.setCursor_ht (c : Cursor) : (s.setCursor c).ht = s.ht := rfl
@[simp] theorem State.setCursor_str (c : Cursor) : (s.setCursor c).str = s.str := rfl
@[simp] theorem State.setCursor_img0 (c : Cursor) : (s.setCursor c).img0 = s.img0 := rfl
@[simp] theorem State.setCursor_img1 (c : Cursor) : (s.setCursor c).img1 = s.img1 := rfl
@[simp] theorem State.setCursor_phase (c : Cursor) : (s.setCursor c).phase = s.phase := rfl
@[simp] theorem State.setCursor_inputs (c : Cursor) : (s.setCursor c).inputs = s.inputs := rfl
@[simp] theorem State.setCursor_hostData (c : Cursor) : (s.setCursor c).hostData = s.hostData := rfl
@[simp] theorem State.setCursor_epoch (c : Cursor) : (s.setCursor c).epoch = s.epoch := rfl
@[simp] theorem State.setCursor_draws (c : Cursor) : (s.setCursor c).draws = s.draws := rfl
@[simp] theorem State.setCursor_params (c : Cursor) : (s.setCursor c).params = s.params := rfl
@[simp] theorem State.setCursor_busy (c : Cursor) : (s.setCursor c).busy = s.busy := rfl
@[simp] theorem State.setCursor_done (c : Cursor) : (s.setCursor c).done = s.done := rfl
@[simp] theorem State.setCursor_faulted (c : Cursor) : (s.setCursor c).faulted = s.faulted := rfl
@[simp] theorem State.setCursor_warned (c : Cursor) : (s.setCursor c).warned = s.warned := rfl
@[simp] theorem State.setCursor_ljReady (c : Cursor) : (s.setCursor c).ljReady = s.ljReady := rfl
@[simp] theorem State.setCursor_activeBank (c : Cursor) : (s.setCursor c).activeBank = s.activeBank := rfl
@[simp] theorem State.setCursor_self : s.setCursor ⟨s.spos, s.sbit⟩ = s := rfl
@[simp] theorem State.setCursor_setCursor (c d : Cursor) : (s.setCursor c).setCursor d = s.setCursor d := rfl

/-! ## State.faultCursor -/

theorem State.faultCursor_of_idle (h : s.phase = .idle) : s.faultCursor = ⟨s.spos, s.sbit⟩ := by simp [State.faultCursor, h]
theorem State.faultCursor_of_start {c : Cursor} (h : s.phase = .start c) : s.faultCursor = c := by simp [State.faultCursor, h]
theorem State.faultCursor_of_header {c : Cursor} {sof : Bool} (h : s.phase = .header c sof) : s.faultCursor = c := by
  simp [State.faultCursor, h]
theorem State.faultCursor_of_scan {row : List Sample} {bits : List Bool} (h : s.phase = .scan row bits) :
    s.faultCursor = ⟨s.spos, s.sbit⟩ := by simp [State.faultCursor, h]
@[simp] theorem State.begin_faultCursor (w : BitVec 8) : (s.begin w).faultCursor = ⟨s.spos, s.sbit⟩ := rfl

/-! ## raise -/

@[simp] theorem raise_cmd (f : Raised) : (raise f s).cmd = s.cmd := rfl
@[simp] theorem raise_warnFlags (f : Raised) : (raise f s).warnFlags = s.warnFlags := rfl
@[simp] theorem raise_warnCount (f : Raised) : (raise f s).warnCount = s.warnCount := rfl
@[simp] theorem raise_ctrl (f : Raised) : (raise f s).ctrl = s.ctrl := rfl
@[simp] theorem raise_width (f : Raised) : (raise f s).width = s.width := rfl
@[simp] theorem raise_height (f : Raised) : (raise f s).height = s.height := rfl
@[simp] theorem raise_colors (f : Raised) : (raise f s).colors = s.colors := rfl
@[simp] theorem raise_cfa (f : Raised) : (raise f s).cfa = s.cfa := rfl
@[simp] theorem raise_black (f : Raised) : (raise f s).black = s.black := rfl
@[simp] theorem raise_maximum (f : Raised) : (raise f s).maximum = s.maximum := rfl
@[simp] theorem raise_clipMax (f : Raised) : (raise f s).clipMax = s.clipMax := rfl
@[simp] theorem raise_shift (f : Raised) : (raise f s).shift = s.shift := rfl
@[simp] theorem raise_orient (f : Raised) : (raise f s).orient = s.orient := rfl
@[simp] theorem raise_diagMag (f : Raised) : (raise f s).diagMag = s.diagMag := rfl
@[simp] theorem raise_xmag (f : Raised) : (raise f s).xmag = s.xmag := rfl
@[simp] theorem raise_ymag (f : Raised) : (raise f s).ymag = s.ymag := rfl
@[simp] theorem raise_streamLen (f : Raised) : (raise f s).streamLen = s.streamLen := rfl
@[simp] theorem raise_spos (f : Raised) : (raise f s).spos = s.faultCursor.spos := rfl
@[simp] theorem raise_sbit (f : Raised) : (raise f s).sbit = s.faultCursor.sbit := rfl
@[simp] theorem raise_ljBits (f : Raised) : (raise f s).ljBits = s.ljBits := rfl
@[simp] theorem raise_ljWide (f : Raised) : (raise f s).ljWide = s.ljWide := rfl
@[simp] theorem raise_ljHigh (f : Raised) : (raise f s).ljHigh = s.ljHigh := rfl
@[simp] theorem raise_ljClrs (f : Raised) : (raise f s).ljClrs = s.ljClrs := rfl
@[simp] theorem raise_ljRow (f : Raised) : (raise f s).ljRow = s.ljRow := rfl
@[simp] theorem raise_imgSel (f : Raised) : (raise f s).imgSel = s.imgSel := rfl
@[simp] theorem raise_camMul (f : Raised) : (raise f s).camMul = s.camMul := rfl
@[simp] theorem raise_premul (f : Raised) : (raise f s).premul = s.premul := rfl
@[simp] theorem raise_cmat (f : Raised) : (raise f s).cmat = s.cmat := rfl
@[simp] theorem raise_vpred (f : Raised) : (raise f s).vpred = s.vpred := rfl
@[simp] theorem raise_gwSum (f : Raised) : (raise f s).gwSum = s.gwSum := rfl
@[simp] theorem raise_gwCnt (f : Raised) : (raise f s).gwCnt = s.gwCnt := rfl
@[simp] theorem raise_ht (f : Raised) : (raise f s).ht = s.ht := rfl
@[simp] theorem raise_str (f : Raised) : (raise f s).str = s.str := rfl
@[simp] theorem raise_img0 (f : Raised) : (raise f s).img0 = s.img0 := rfl
@[simp] theorem raise_img1 (f : Raised) : (raise f s).img1 = s.img1 := rfl
@[simp] theorem raise_inputs (f : Raised) : (raise f s).inputs = s.inputs := rfl
@[simp] theorem raise_hostData (f : Raised) : (raise f s).hostData = s.hostData := rfl
@[simp] theorem raise_epoch (f : Raised) : (raise f s).epoch = s.epoch := rfl
@[simp] theorem raise_draws (f : Raised) : (raise f s).draws = s.draws := rfl
@[simp] theorem raise_params (f : Raised) : (raise f s).params = s.params := rfl
@[simp] theorem raise_errCode (f : Raised) : (raise f s).errCode = f.cause.code := rfl
@[simp] theorem raise_errStage (f : Raised) : (raise f s).errStage = s.cmd := rfl
@[simp] theorem raise_errInfo (f : Raised) : (raise f s).errInfo = BitVec.ofInt 32 f.info := rfl
@[simp] theorem raise_errPos (f : Raised) : (raise f s).errPos = s.faultCursor.spos := rfl
@[simp] theorem raise_phase (f : Raised) : (raise f s).phase = .idle := rfl
theorem raise_status (f : Raised) : (raise f s).status = setBit (setBit (setBit s.status 2 true) 4 false) 0 false := rfl
@[simp] theorem raise_busy (f : Raised) : (raise f s).busy = false := State.setBusy_busy _ _
@[simp] theorem raise_done (f : Raised) : (raise f s).done = s.done :=
  (State.setBusy_done _ _).trans ((State.setLjReady_done _ _).trans (State.setFaulted_done _ _))
@[simp] theorem raise_faulted (f : Raised) : (raise f s).faulted = true :=
  (State.setBusy_faulted _ _).trans ((State.setLjReady_faulted _ _).trans (State.setFaulted_faulted _ _))
@[simp] theorem raise_warned (f : Raised) : (raise f s).warned = s.warned :=
  (State.setBusy_warned _ _).trans ((State.setLjReady_warned _ _).trans (State.setFaulted_warned _ _))
@[simp] theorem raise_ljReady (f : Raised) : (raise f s).ljReady = false :=
  (State.setBusy_ljReady _ _).trans (State.setLjReady_ljReady _ _)
@[simp] theorem raise_activeBank (f : Raised) : (raise f s).activeBank = s.activeBank := rfl
@[simp] theorem raise_bank (f : Raised) (b : Bank) : (raise f s).bank b = s.bank b := by cases b <;> rfl
@[simp] theorem raise_sampleIn (f : Raised) (b : Bank) (a : Nat) : (raise f s).sampleIn b a = s.sampleIn b a := by
  cases b <;> rfl
@[simp] theorem raise_sample (f : Raised) (a : Nat) : (raise f s).sample a = s.sample a := raise_sampleIn s f _ a

/-! ## warn -/

@[simp] theorem warn_cmd (c : Lane) : (warn c s).cmd = s.cmd := rfl
@[simp] theorem warn_errCode (c : Lane) : (warn c s).errCode = s.errCode := rfl
@[simp] theorem warn_errStage (c : Lane) : (warn c s).errStage = s.errStage := rfl
@[simp] theorem warn_errInfo (c : Lane) : (warn c s).errInfo = s.errInfo := rfl
@[simp] theorem warn_errPos (c : Lane) : (warn c s).errPos = s.errPos := rfl
@[simp] theorem warn_ctrl (c : Lane) : (warn c s).ctrl = s.ctrl := rfl
@[simp] theorem warn_width (c : Lane) : (warn c s).width = s.width := rfl
@[simp] theorem warn_height (c : Lane) : (warn c s).height = s.height := rfl
@[simp] theorem warn_colors (c : Lane) : (warn c s).colors = s.colors := rfl
@[simp] theorem warn_cfa (c : Lane) : (warn c s).cfa = s.cfa := rfl
@[simp] theorem warn_black (c : Lane) : (warn c s).black = s.black := rfl
@[simp] theorem warn_maximum (c : Lane) : (warn c s).maximum = s.maximum := rfl
@[simp] theorem warn_clipMax (c : Lane) : (warn c s).clipMax = s.clipMax := rfl
@[simp] theorem warn_shift (c : Lane) : (warn c s).shift = s.shift := rfl
@[simp] theorem warn_orient (c : Lane) : (warn c s).orient = s.orient := rfl
@[simp] theorem warn_diagMag (c : Lane) : (warn c s).diagMag = s.diagMag := rfl
@[simp] theorem warn_xmag (c : Lane) : (warn c s).xmag = s.xmag := rfl
@[simp] theorem warn_ymag (c : Lane) : (warn c s).ymag = s.ymag := rfl
@[simp] theorem warn_streamLen (c : Lane) : (warn c s).streamLen = s.streamLen := rfl
@[simp] theorem warn_spos (c : Lane) : (warn c s).spos = s.spos := rfl
@[simp] theorem warn_sbit (c : Lane) : (warn c s).sbit = s.sbit := rfl
@[simp] theorem warn_ljBits (c : Lane) : (warn c s).ljBits = s.ljBits := rfl
@[simp] theorem warn_ljWide (c : Lane) : (warn c s).ljWide = s.ljWide := rfl
@[simp] theorem warn_ljHigh (c : Lane) : (warn c s).ljHigh = s.ljHigh := rfl
@[simp] theorem warn_ljClrs (c : Lane) : (warn c s).ljClrs = s.ljClrs := rfl
@[simp] theorem warn_ljRow (c : Lane) : (warn c s).ljRow = s.ljRow := rfl
@[simp] theorem warn_imgSel (c : Lane) : (warn c s).imgSel = s.imgSel := rfl
@[simp] theorem warn_camMul (c : Lane) : (warn c s).camMul = s.camMul := rfl
@[simp] theorem warn_premul (c : Lane) : (warn c s).premul = s.premul := rfl
@[simp] theorem warn_cmat (c : Lane) : (warn c s).cmat = s.cmat := rfl
@[simp] theorem warn_vpred (c : Lane) : (warn c s).vpred = s.vpred := rfl
@[simp] theorem warn_gwSum (c : Lane) : (warn c s).gwSum = s.gwSum := rfl
@[simp] theorem warn_gwCnt (c : Lane) : (warn c s).gwCnt = s.gwCnt := rfl
@[simp] theorem warn_ht (c : Lane) : (warn c s).ht = s.ht := rfl
@[simp] theorem warn_str (c : Lane) : (warn c s).str = s.str := rfl
@[simp] theorem warn_img0 (c : Lane) : (warn c s).img0 = s.img0 := rfl
@[simp] theorem warn_img1 (c : Lane) : (warn c s).img1 = s.img1 := rfl
@[simp] theorem warn_phase (c : Lane) : (warn c s).phase = s.phase := rfl
@[simp] theorem warn_inputs (c : Lane) : (warn c s).inputs = s.inputs := rfl
@[simp] theorem warn_hostData (c : Lane) : (warn c s).hostData = s.hostData := rfl
@[simp] theorem warn_epoch (c : Lane) : (warn c s).epoch = s.epoch := rfl
@[simp] theorem warn_draws (c : Lane) : (warn c s).draws = s.draws := rfl
@[simp] theorem warn_params (c : Lane) : (warn c s).params = s.params := rfl
@[simp] theorem warn_warnFlags (c : Lane) : (warn c s).warnFlags = setBit s.warnFlags c.val true := rfl
@[simp] theorem warn_warnCount (c : Lane) :
    (warn c s).warnCount = BitVec.ofNat 32 (min (s.warnCount.toNat + 1) (2 ^ 32 - 1)) := rfl
@[simp] theorem warn_warned (c : Lane) : (warn c s).warned = true := State.setWarned_warned _ _
@[simp] theorem warn_busy (c : Lane) : (warn c s).busy = s.busy := State.setWarned_busy _ _
@[simp] theorem warn_done (c : Lane) : (warn c s).done = s.done := State.setWarned_done _ _
@[simp] theorem warn_faulted (c : Lane) : (warn c s).faulted = s.faulted := State.setWarned_faulted _ _
@[simp] theorem warn_ljReady (c : Lane) : (warn c s).ljReady = s.ljReady := State.setWarned_ljReady _ _

/-! ## State.setBank, State.rewriteBank and State.rewriteImage -/

@[simp] theorem State.setBank_cmd (b : Bank) (m : Memory Sample) : (s.setBank b m).cmd = s.cmd := by cases b <;> rfl
@[simp] theorem State.setBank_status (b : Bank) (m : Memory Sample) : (s.setBank b m).status = s.status := by cases b <;> rfl
@[simp] theorem State.setBank_errCode (b : Bank) (m : Memory Sample) : (s.setBank b m).errCode = s.errCode := by cases b <;> rfl
@[simp] theorem State.setBank_errStage (b : Bank) (m : Memory Sample) : (s.setBank b m).errStage = s.errStage := by cases b <;> rfl
@[simp] theorem State.setBank_errInfo (b : Bank) (m : Memory Sample) : (s.setBank b m).errInfo = s.errInfo := by cases b <;> rfl
@[simp] theorem State.setBank_errPos (b : Bank) (m : Memory Sample) : (s.setBank b m).errPos = s.errPos := by cases b <;> rfl
@[simp] theorem State.setBank_warnFlags (b : Bank) (m : Memory Sample) : (s.setBank b m).warnFlags = s.warnFlags := by cases b <;> rfl
@[simp] theorem State.setBank_warnCount (b : Bank) (m : Memory Sample) : (s.setBank b m).warnCount = s.warnCount := by cases b <;> rfl
@[simp] theorem State.setBank_ctrl (b : Bank) (m : Memory Sample) : (s.setBank b m).ctrl = s.ctrl := by cases b <;> rfl
@[simp] theorem State.setBank_width (b : Bank) (m : Memory Sample) : (s.setBank b m).width = s.width := by cases b <;> rfl
@[simp] theorem State.setBank_height (b : Bank) (m : Memory Sample) : (s.setBank b m).height = s.height := by cases b <;> rfl
@[simp] theorem State.setBank_colors (b : Bank) (m : Memory Sample) : (s.setBank b m).colors = s.colors := by cases b <;> rfl
@[simp] theorem State.setBank_cfa (b : Bank) (m : Memory Sample) : (s.setBank b m).cfa = s.cfa := by cases b <;> rfl
@[simp] theorem State.setBank_black (b : Bank) (m : Memory Sample) : (s.setBank b m).black = s.black := by cases b <;> rfl
@[simp] theorem State.setBank_maximum (b : Bank) (m : Memory Sample) : (s.setBank b m).maximum = s.maximum := by cases b <;> rfl
@[simp] theorem State.setBank_clipMax (b : Bank) (m : Memory Sample) : (s.setBank b m).clipMax = s.clipMax := by cases b <;> rfl
@[simp] theorem State.setBank_shift (b : Bank) (m : Memory Sample) : (s.setBank b m).shift = s.shift := by cases b <;> rfl
@[simp] theorem State.setBank_orient (b : Bank) (m : Memory Sample) : (s.setBank b m).orient = s.orient := by cases b <;> rfl
@[simp] theorem State.setBank_diagMag (b : Bank) (m : Memory Sample) : (s.setBank b m).diagMag = s.diagMag := by cases b <;> rfl
@[simp] theorem State.setBank_xmag (b : Bank) (m : Memory Sample) : (s.setBank b m).xmag = s.xmag := by cases b <;> rfl
@[simp] theorem State.setBank_ymag (b : Bank) (m : Memory Sample) : (s.setBank b m).ymag = s.ymag := by cases b <;> rfl
@[simp] theorem State.setBank_streamLen (b : Bank) (m : Memory Sample) : (s.setBank b m).streamLen = s.streamLen := by cases b <;> rfl
@[simp] theorem State.setBank_spos (b : Bank) (m : Memory Sample) : (s.setBank b m).spos = s.spos := by cases b <;> rfl
@[simp] theorem State.setBank_sbit (b : Bank) (m : Memory Sample) : (s.setBank b m).sbit = s.sbit := by cases b <;> rfl
@[simp] theorem State.setBank_ljBits (b : Bank) (m : Memory Sample) : (s.setBank b m).ljBits = s.ljBits := by cases b <;> rfl
@[simp] theorem State.setBank_ljWide (b : Bank) (m : Memory Sample) : (s.setBank b m).ljWide = s.ljWide := by cases b <;> rfl
@[simp] theorem State.setBank_ljHigh (b : Bank) (m : Memory Sample) : (s.setBank b m).ljHigh = s.ljHigh := by cases b <;> rfl
@[simp] theorem State.setBank_ljClrs (b : Bank) (m : Memory Sample) : (s.setBank b m).ljClrs = s.ljClrs := by cases b <;> rfl
@[simp] theorem State.setBank_ljRow (b : Bank) (m : Memory Sample) : (s.setBank b m).ljRow = s.ljRow := by cases b <;> rfl
@[simp] theorem State.setBank_imgSel (b : Bank) (m : Memory Sample) : (s.setBank b m).imgSel = s.imgSel := by cases b <;> rfl
@[simp] theorem State.setBank_camMul (b : Bank) (m : Memory Sample) : (s.setBank b m).camMul = s.camMul := by cases b <;> rfl
@[simp] theorem State.setBank_premul (b : Bank) (m : Memory Sample) : (s.setBank b m).premul = s.premul := by cases b <;> rfl
@[simp] theorem State.setBank_cmat (b : Bank) (m : Memory Sample) : (s.setBank b m).cmat = s.cmat := by cases b <;> rfl
@[simp] theorem State.setBank_vpred (b : Bank) (m : Memory Sample) : (s.setBank b m).vpred = s.vpred := by cases b <;> rfl
@[simp] theorem State.setBank_gwSum (b : Bank) (m : Memory Sample) : (s.setBank b m).gwSum = s.gwSum := by cases b <;> rfl
@[simp] theorem State.setBank_gwCnt (b : Bank) (m : Memory Sample) : (s.setBank b m).gwCnt = s.gwCnt := by cases b <;> rfl
@[simp] theorem State.setBank_ht (b : Bank) (m : Memory Sample) : (s.setBank b m).ht = s.ht := by cases b <;> rfl
@[simp] theorem State.setBank_str (b : Bank) (m : Memory Sample) : (s.setBank b m).str = s.str := by cases b <;> rfl
@[simp] theorem State.setBank_phase (b : Bank) (m : Memory Sample) : (s.setBank b m).phase = s.phase := by cases b <;> rfl
@[simp] theorem State.setBank_inputs (b : Bank) (m : Memory Sample) : (s.setBank b m).inputs = s.inputs := by cases b <;> rfl
@[simp] theorem State.setBank_hostData (b : Bank) (m : Memory Sample) : (s.setBank b m).hostData = s.hostData := by cases b <;> rfl
@[simp] theorem State.setBank_epoch (b : Bank) (m : Memory Sample) : (s.setBank b m).epoch = s.epoch := by cases b <;> rfl
@[simp] theorem State.setBank_draws (b : Bank) (m : Memory Sample) : (s.setBank b m).draws = s.draws := by cases b <;> rfl
@[simp] theorem State.setBank_params (b : Bank) (m : Memory Sample) : (s.setBank b m).params = s.params := by cases b <;> rfl
@[simp] theorem State.rewriteBank_cmd (b : Bank) (base n : Nat) (f : Nat → Option Sample) :
    (s.rewriteBank b base n f).cmd = s.cmd := State.setBank_cmd s b _
@[simp] theorem State.rewriteBank_status (b : Bank) (base n : Nat) (f : Nat → Option Sample) :
    (s.rewriteBank b base n f).status = s.status := State.setBank_status s b _
@[simp] theorem State.rewriteBank_errCode (b : Bank) (base n : Nat) (f : Nat → Option Sample) :
    (s.rewriteBank b base n f).errCode = s.errCode := State.setBank_errCode s b _
@[simp] theorem State.rewriteBank_errStage (b : Bank) (base n : Nat) (f : Nat → Option Sample) :
    (s.rewriteBank b base n f).errStage = s.errStage := State.setBank_errStage s b _
@[simp] theorem State.rewriteBank_errInfo (b : Bank) (base n : Nat) (f : Nat → Option Sample) :
    (s.rewriteBank b base n f).errInfo = s.errInfo := State.setBank_errInfo s b _
@[simp] theorem State.rewriteBank_errPos (b : Bank) (base n : Nat) (f : Nat → Option Sample) :
    (s.rewriteBank b base n f).errPos = s.errPos := State.setBank_errPos s b _
@[simp] theorem State.rewriteBank_warnFlags (b : Bank) (base n : Nat) (f : Nat → Option Sample) :
    (s.rewriteBank b base n f).warnFlags = s.warnFlags := State.setBank_warnFlags s b _
@[simp] theorem State.rewriteBank_warnCount (b : Bank) (base n : Nat) (f : Nat → Option Sample) :
    (s.rewriteBank b base n f).warnCount = s.warnCount := State.setBank_warnCount s b _
@[simp] theorem State.rewriteBank_ctrl (b : Bank) (base n : Nat) (f : Nat → Option Sample) :
    (s.rewriteBank b base n f).ctrl = s.ctrl := State.setBank_ctrl s b _
@[simp] theorem State.rewriteBank_width (b : Bank) (base n : Nat) (f : Nat → Option Sample) :
    (s.rewriteBank b base n f).width = s.width := State.setBank_width s b _
@[simp] theorem State.rewriteBank_height (b : Bank) (base n : Nat) (f : Nat → Option Sample) :
    (s.rewriteBank b base n f).height = s.height := State.setBank_height s b _
@[simp] theorem State.rewriteBank_colors (b : Bank) (base n : Nat) (f : Nat → Option Sample) :
    (s.rewriteBank b base n f).colors = s.colors := State.setBank_colors s b _
@[simp] theorem State.rewriteBank_cfa (b : Bank) (base n : Nat) (f : Nat → Option Sample) :
    (s.rewriteBank b base n f).cfa = s.cfa := State.setBank_cfa s b _
@[simp] theorem State.rewriteBank_black (b : Bank) (base n : Nat) (f : Nat → Option Sample) :
    (s.rewriteBank b base n f).black = s.black := State.setBank_black s b _
@[simp] theorem State.rewriteBank_maximum (b : Bank) (base n : Nat) (f : Nat → Option Sample) :
    (s.rewriteBank b base n f).maximum = s.maximum := State.setBank_maximum s b _
@[simp] theorem State.rewriteBank_clipMax (b : Bank) (base n : Nat) (f : Nat → Option Sample) :
    (s.rewriteBank b base n f).clipMax = s.clipMax := State.setBank_clipMax s b _
@[simp] theorem State.rewriteBank_shift (b : Bank) (base n : Nat) (f : Nat → Option Sample) :
    (s.rewriteBank b base n f).shift = s.shift := State.setBank_shift s b _
@[simp] theorem State.rewriteBank_orient (b : Bank) (base n : Nat) (f : Nat → Option Sample) :
    (s.rewriteBank b base n f).orient = s.orient := State.setBank_orient s b _
@[simp] theorem State.rewriteBank_diagMag (b : Bank) (base n : Nat) (f : Nat → Option Sample) :
    (s.rewriteBank b base n f).diagMag = s.diagMag := State.setBank_diagMag s b _
@[simp] theorem State.rewriteBank_xmag (b : Bank) (base n : Nat) (f : Nat → Option Sample) :
    (s.rewriteBank b base n f).xmag = s.xmag := State.setBank_xmag s b _
@[simp] theorem State.rewriteBank_ymag (b : Bank) (base n : Nat) (f : Nat → Option Sample) :
    (s.rewriteBank b base n f).ymag = s.ymag := State.setBank_ymag s b _
@[simp] theorem State.rewriteBank_streamLen (b : Bank) (base n : Nat) (f : Nat → Option Sample) :
    (s.rewriteBank b base n f).streamLen = s.streamLen := State.setBank_streamLen s b _
@[simp] theorem State.rewriteBank_spos (b : Bank) (base n : Nat) (f : Nat → Option Sample) :
    (s.rewriteBank b base n f).spos = s.spos := State.setBank_spos s b _
@[simp] theorem State.rewriteBank_sbit (b : Bank) (base n : Nat) (f : Nat → Option Sample) :
    (s.rewriteBank b base n f).sbit = s.sbit := State.setBank_sbit s b _
@[simp] theorem State.rewriteBank_ljBits (b : Bank) (base n : Nat) (f : Nat → Option Sample) :
    (s.rewriteBank b base n f).ljBits = s.ljBits := State.setBank_ljBits s b _
@[simp] theorem State.rewriteBank_ljWide (b : Bank) (base n : Nat) (f : Nat → Option Sample) :
    (s.rewriteBank b base n f).ljWide = s.ljWide := State.setBank_ljWide s b _
@[simp] theorem State.rewriteBank_ljHigh (b : Bank) (base n : Nat) (f : Nat → Option Sample) :
    (s.rewriteBank b base n f).ljHigh = s.ljHigh := State.setBank_ljHigh s b _
@[simp] theorem State.rewriteBank_ljClrs (b : Bank) (base n : Nat) (f : Nat → Option Sample) :
    (s.rewriteBank b base n f).ljClrs = s.ljClrs := State.setBank_ljClrs s b _
@[simp] theorem State.rewriteBank_ljRow (b : Bank) (base n : Nat) (f : Nat → Option Sample) :
    (s.rewriteBank b base n f).ljRow = s.ljRow := State.setBank_ljRow s b _
@[simp] theorem State.rewriteBank_imgSel (b : Bank) (base n : Nat) (f : Nat → Option Sample) :
    (s.rewriteBank b base n f).imgSel = s.imgSel := State.setBank_imgSel s b _
@[simp] theorem State.rewriteBank_camMul (b : Bank) (base n : Nat) (f : Nat → Option Sample) :
    (s.rewriteBank b base n f).camMul = s.camMul := State.setBank_camMul s b _
@[simp] theorem State.rewriteBank_premul (b : Bank) (base n : Nat) (f : Nat → Option Sample) :
    (s.rewriteBank b base n f).premul = s.premul := State.setBank_premul s b _
@[simp] theorem State.rewriteBank_cmat (b : Bank) (base n : Nat) (f : Nat → Option Sample) :
    (s.rewriteBank b base n f).cmat = s.cmat := State.setBank_cmat s b _
@[simp] theorem State.rewriteBank_vpred (b : Bank) (base n : Nat) (f : Nat → Option Sample) :
    (s.rewriteBank b base n f).vpred = s.vpred := State.setBank_vpred s b _
@[simp] theorem State.rewriteBank_gwSum (b : Bank) (base n : Nat) (f : Nat → Option Sample) :
    (s.rewriteBank b base n f).gwSum = s.gwSum := State.setBank_gwSum s b _
@[simp] theorem State.rewriteBank_gwCnt (b : Bank) (base n : Nat) (f : Nat → Option Sample) :
    (s.rewriteBank b base n f).gwCnt = s.gwCnt := State.setBank_gwCnt s b _
@[simp] theorem State.rewriteBank_ht (b : Bank) (base n : Nat) (f : Nat → Option Sample) :
    (s.rewriteBank b base n f).ht = s.ht := State.setBank_ht s b _
@[simp] theorem State.rewriteBank_str (b : Bank) (base n : Nat) (f : Nat → Option Sample) :
    (s.rewriteBank b base n f).str = s.str := State.setBank_str s b _
@[simp] theorem State.rewriteBank_phase (b : Bank) (base n : Nat) (f : Nat → Option Sample) :
    (s.rewriteBank b base n f).phase = s.phase := State.setBank_phase s b _
@[simp] theorem State.rewriteBank_inputs (b : Bank) (base n : Nat) (f : Nat → Option Sample) :
    (s.rewriteBank b base n f).inputs = s.inputs := State.setBank_inputs s b _
@[simp] theorem State.rewriteBank_hostData (b : Bank) (base n : Nat) (f : Nat → Option Sample) :
    (s.rewriteBank b base n f).hostData = s.hostData := State.setBank_hostData s b _
@[simp] theorem State.rewriteBank_epoch (b : Bank) (base n : Nat) (f : Nat → Option Sample) :
    (s.rewriteBank b base n f).epoch = s.epoch := State.setBank_epoch s b _
@[simp] theorem State.rewriteBank_draws (b : Bank) (base n : Nat) (f : Nat → Option Sample) :
    (s.rewriteBank b base n f).draws = s.draws := State.setBank_draws s b _
@[simp] theorem State.rewriteBank_params (b : Bank) (base n : Nat) (f : Nat → Option Sample) :
    (s.rewriteBank b base n f).params = s.params := State.setBank_params s b _
@[simp] theorem State.rewriteImage_cmd (rule : Nat → Lane → Option Sample) :
    (s.rewriteImage rule).cmd = s.cmd := State.setBank_cmd s _ _
@[simp] theorem State.rewriteImage_status (rule : Nat → Lane → Option Sample) :
    (s.rewriteImage rule).status = s.status := State.setBank_status s _ _
@[simp] theorem State.rewriteImage_errCode (rule : Nat → Lane → Option Sample) :
    (s.rewriteImage rule).errCode = s.errCode := State.setBank_errCode s _ _
@[simp] theorem State.rewriteImage_errStage (rule : Nat → Lane → Option Sample) :
    (s.rewriteImage rule).errStage = s.errStage := State.setBank_errStage s _ _
@[simp] theorem State.rewriteImage_errInfo (rule : Nat → Lane → Option Sample) :
    (s.rewriteImage rule).errInfo = s.errInfo := State.setBank_errInfo s _ _
@[simp] theorem State.rewriteImage_errPos (rule : Nat → Lane → Option Sample) :
    (s.rewriteImage rule).errPos = s.errPos := State.setBank_errPos s _ _
@[simp] theorem State.rewriteImage_warnFlags (rule : Nat → Lane → Option Sample) :
    (s.rewriteImage rule).warnFlags = s.warnFlags := State.setBank_warnFlags s _ _
@[simp] theorem State.rewriteImage_warnCount (rule : Nat → Lane → Option Sample) :
    (s.rewriteImage rule).warnCount = s.warnCount := State.setBank_warnCount s _ _
@[simp] theorem State.rewriteImage_ctrl (rule : Nat → Lane → Option Sample) :
    (s.rewriteImage rule).ctrl = s.ctrl := State.setBank_ctrl s _ _
@[simp] theorem State.rewriteImage_width (rule : Nat → Lane → Option Sample) :
    (s.rewriteImage rule).width = s.width := State.setBank_width s _ _
@[simp] theorem State.rewriteImage_height (rule : Nat → Lane → Option Sample) :
    (s.rewriteImage rule).height = s.height := State.setBank_height s _ _
@[simp] theorem State.rewriteImage_colors (rule : Nat → Lane → Option Sample) :
    (s.rewriteImage rule).colors = s.colors := State.setBank_colors s _ _
@[simp] theorem State.rewriteImage_cfa (rule : Nat → Lane → Option Sample) :
    (s.rewriteImage rule).cfa = s.cfa := State.setBank_cfa s _ _
@[simp] theorem State.rewriteImage_black (rule : Nat → Lane → Option Sample) :
    (s.rewriteImage rule).black = s.black := State.setBank_black s _ _
@[simp] theorem State.rewriteImage_maximum (rule : Nat → Lane → Option Sample) :
    (s.rewriteImage rule).maximum = s.maximum := State.setBank_maximum s _ _
@[simp] theorem State.rewriteImage_clipMax (rule : Nat → Lane → Option Sample) :
    (s.rewriteImage rule).clipMax = s.clipMax := State.setBank_clipMax s _ _
@[simp] theorem State.rewriteImage_shift (rule : Nat → Lane → Option Sample) :
    (s.rewriteImage rule).shift = s.shift := State.setBank_shift s _ _
@[simp] theorem State.rewriteImage_orient (rule : Nat → Lane → Option Sample) :
    (s.rewriteImage rule).orient = s.orient := State.setBank_orient s _ _
@[simp] theorem State.rewriteImage_diagMag (rule : Nat → Lane → Option Sample) :
    (s.rewriteImage rule).diagMag = s.diagMag := State.setBank_diagMag s _ _
@[simp] theorem State.rewriteImage_xmag (rule : Nat → Lane → Option Sample) :
    (s.rewriteImage rule).xmag = s.xmag := State.setBank_xmag s _ _
@[simp] theorem State.rewriteImage_ymag (rule : Nat → Lane → Option Sample) :
    (s.rewriteImage rule).ymag = s.ymag := State.setBank_ymag s _ _
@[simp] theorem State.rewriteImage_streamLen (rule : Nat → Lane → Option Sample) :
    (s.rewriteImage rule).streamLen = s.streamLen := State.setBank_streamLen s _ _
@[simp] theorem State.rewriteImage_spos (rule : Nat → Lane → Option Sample) :
    (s.rewriteImage rule).spos = s.spos := State.setBank_spos s _ _
@[simp] theorem State.rewriteImage_sbit (rule : Nat → Lane → Option Sample) :
    (s.rewriteImage rule).sbit = s.sbit := State.setBank_sbit s _ _
@[simp] theorem State.rewriteImage_ljBits (rule : Nat → Lane → Option Sample) :
    (s.rewriteImage rule).ljBits = s.ljBits := State.setBank_ljBits s _ _
@[simp] theorem State.rewriteImage_ljWide (rule : Nat → Lane → Option Sample) :
    (s.rewriteImage rule).ljWide = s.ljWide := State.setBank_ljWide s _ _
@[simp] theorem State.rewriteImage_ljHigh (rule : Nat → Lane → Option Sample) :
    (s.rewriteImage rule).ljHigh = s.ljHigh := State.setBank_ljHigh s _ _
@[simp] theorem State.rewriteImage_ljClrs (rule : Nat → Lane → Option Sample) :
    (s.rewriteImage rule).ljClrs = s.ljClrs := State.setBank_ljClrs s _ _
@[simp] theorem State.rewriteImage_ljRow (rule : Nat → Lane → Option Sample) :
    (s.rewriteImage rule).ljRow = s.ljRow := State.setBank_ljRow s _ _
@[simp] theorem State.rewriteImage_imgSel (rule : Nat → Lane → Option Sample) :
    (s.rewriteImage rule).imgSel = s.imgSel := State.setBank_imgSel s _ _
@[simp] theorem State.rewriteImage_camMul (rule : Nat → Lane → Option Sample) :
    (s.rewriteImage rule).camMul = s.camMul := State.setBank_camMul s _ _
@[simp] theorem State.rewriteImage_premul (rule : Nat → Lane → Option Sample) :
    (s.rewriteImage rule).premul = s.premul := State.setBank_premul s _ _
@[simp] theorem State.rewriteImage_cmat (rule : Nat → Lane → Option Sample) :
    (s.rewriteImage rule).cmat = s.cmat := State.setBank_cmat s _ _
@[simp] theorem State.rewriteImage_vpred (rule : Nat → Lane → Option Sample) :
    (s.rewriteImage rule).vpred = s.vpred := State.setBank_vpred s _ _
@[simp] theorem State.rewriteImage_gwSum (rule : Nat → Lane → Option Sample) :
    (s.rewriteImage rule).gwSum = s.gwSum := State.setBank_gwSum s _ _
@[simp] theorem State.rewriteImage_gwCnt (rule : Nat → Lane → Option Sample) :
    (s.rewriteImage rule).gwCnt = s.gwCnt := State.setBank_gwCnt s _ _
@[simp] theorem State.rewriteImage_ht (rule : Nat → Lane → Option Sample) :
    (s.rewriteImage rule).ht = s.ht := State.setBank_ht s _ _
@[simp] theorem State.rewriteImage_str (rule : Nat → Lane → Option Sample) :
    (s.rewriteImage rule).str = s.str := State.setBank_str s _ _
@[simp] theorem State.rewriteImage_phase (rule : Nat → Lane → Option Sample) :
    (s.rewriteImage rule).phase = s.phase := State.setBank_phase s _ _
@[simp] theorem State.rewriteImage_inputs (rule : Nat → Lane → Option Sample) :
    (s.rewriteImage rule).inputs = s.inputs := State.setBank_inputs s _ _
@[simp] theorem State.rewriteImage_hostData (rule : Nat → Lane → Option Sample) :
    (s.rewriteImage rule).hostData = s.hostData := State.setBank_hostData s _ _
@[simp] theorem State.rewriteImage_epoch (rule : Nat → Lane → Option Sample) :
    (s.rewriteImage rule).epoch = s.epoch := State.setBank_epoch s _ _
@[simp] theorem State.rewriteImage_draws (rule : Nat → Lane → Option Sample) :
    (s.rewriteImage rule).draws = s.draws := State.setBank_draws s _ _
@[simp] theorem State.rewriteImage_params (rule : Nat → Lane → Option Sample) :
    (s.rewriteImage rule).params = s.params := State.setBank_params s _ _
@[simp] theorem State.setBank_busy (b : Bank) (m : Memory Sample) : (s.setBank b m).busy = s.busy := by cases b <;> rfl
@[simp] theorem State.setBank_done (b : Bank) (m : Memory Sample) : (s.setBank b m).done = s.done := by cases b <;> rfl
@[simp] theorem State.setBank_faulted (b : Bank) (m : Memory Sample) : (s.setBank b m).faulted = s.faulted := by cases b <;> rfl
@[simp] theorem State.setBank_warned (b : Bank) (m : Memory Sample) : (s.setBank b m).warned = s.warned := by cases b <;> rfl
@[simp] theorem State.setBank_ljReady (b : Bank) (m : Memory Sample) : (s.setBank b m).ljReady = s.ljReady := by cases b <;> rfl
@[simp] theorem State.rewriteBank_busy (b : Bank) (base n : Nat) (f : Nat → Option Sample) :
    (s.rewriteBank b base n f).busy = s.busy := State.setBank_busy s b _
@[simp] theorem State.rewriteBank_done (b : Bank) (base n : Nat) (f : Nat → Option Sample) :
    (s.rewriteBank b base n f).done = s.done := State.setBank_done s b _
@[simp] theorem State.rewriteBank_faulted (b : Bank) (base n : Nat) (f : Nat → Option Sample) :
    (s.rewriteBank b base n f).faulted = s.faulted := State.setBank_faulted s b _
@[simp] theorem State.rewriteBank_warned (b : Bank) (base n : Nat) (f : Nat → Option Sample) :
    (s.rewriteBank b base n f).warned = s.warned := State.setBank_warned s b _
@[simp] theorem State.rewriteBank_ljReady (b : Bank) (base n : Nat) (f : Nat → Option Sample) :
    (s.rewriteBank b base n f).ljReady = s.ljReady := State.setBank_ljReady s b _
@[simp] theorem State.rewriteImage_busy (rule : Nat → Lane → Option Sample) :
    (s.rewriteImage rule).busy = s.busy := State.setBank_busy s _ _
@[simp] theorem State.rewriteImage_done (rule : Nat → Lane → Option Sample) :
    (s.rewriteImage rule).done = s.done := State.setBank_done s _ _
@[simp] theorem State.rewriteImage_faulted (rule : Nat → Lane → Option Sample) :
    (s.rewriteImage rule).faulted = s.faulted := State.setBank_faulted s _ _
@[simp] theorem State.rewriteImage_warned (rule : Nat → Lane → Option Sample) :
    (s.rewriteImage rule).warned = s.warned := State.setBank_warned s _ _
@[simp] theorem State.rewriteImage_ljReady (rule : Nat → Lane → Option Sample) :
    (s.rewriteImage rule).ljReady = s.ljReady := State.setBank_ljReady s _ _

/-! ## State.skip -/

@[simp] theorem State.skip_spos (n : Nat) : (s.skip n).spos = s.spos + BitVec.ofNat 32 n := rfl
@[simp] theorem State.skip_cmd (n : Nat) : (s.skip n).cmd = s.cmd := rfl
@[simp] theorem State.skip_status (n : Nat) : (s.skip n).status = s.status := rfl
@[simp] theorem State.skip_errCode (n : Nat) : (s.skip n).errCode = s.errCode := rfl
@[simp] theorem State.skip_errStage (n : Nat) : (s.skip n).errStage = s.errStage := rfl
@[simp] theorem State.skip_errInfo (n : Nat) : (s.skip n).errInfo = s.errInfo := rfl
@[simp] theorem State.skip_errPos (n : Nat) : (s.skip n).errPos = s.errPos := rfl
@[simp] theorem State.skip_warnFlags (n : Nat) : (s.skip n).warnFlags = s.warnFlags := rfl
@[simp] theorem State.skip_warnCount (n : Nat) : (s.skip n).warnCount = s.warnCount := rfl
@[simp] theorem State.skip_ctrl (n : Nat) : (s.skip n).ctrl = s.ctrl := rfl
@[simp] theorem State.skip_width (n : Nat) : (s.skip n).width = s.width := rfl
@[simp] theorem State.skip_height (n : Nat) : (s.skip n).height = s.height := rfl
@[simp] theorem State.skip_colors (n : Nat) : (s.skip n).colors = s.colors := rfl
@[simp] theorem State.skip_cfa (n : Nat) : (s.skip n).cfa = s.cfa := rfl
@[simp] theorem State.skip_black (n : Nat) : (s.skip n).black = s.black := rfl
@[simp] theorem State.skip_maximum (n : Nat) : (s.skip n).maximum = s.maximum := rfl
@[simp] theorem State.skip_clipMax (n : Nat) : (s.skip n).clipMax = s.clipMax := rfl
@[simp] theorem State.skip_shift (n : Nat) : (s.skip n).shift = s.shift := rfl
@[simp] theorem State.skip_orient (n : Nat) : (s.skip n).orient = s.orient := rfl
@[simp] theorem State.skip_diagMag (n : Nat) : (s.skip n).diagMag = s.diagMag := rfl
@[simp] theorem State.skip_xmag (n : Nat) : (s.skip n).xmag = s.xmag := rfl
@[simp] theorem State.skip_ymag (n : Nat) : (s.skip n).ymag = s.ymag := rfl
@[simp] theorem State.skip_streamLen (n : Nat) : (s.skip n).streamLen = s.streamLen := rfl
@[simp] theorem State.skip_sbit (n : Nat) : (s.skip n).sbit = s.sbit := rfl
@[simp] theorem State.skip_ljBits (n : Nat) : (s.skip n).ljBits = s.ljBits := rfl
@[simp] theorem State.skip_ljWide (n : Nat) : (s.skip n).ljWide = s.ljWide := rfl
@[simp] theorem State.skip_ljHigh (n : Nat) : (s.skip n).ljHigh = s.ljHigh := rfl
@[simp] theorem State.skip_ljClrs (n : Nat) : (s.skip n).ljClrs = s.ljClrs := rfl
@[simp] theorem State.skip_ljRow (n : Nat) : (s.skip n).ljRow = s.ljRow := rfl
@[simp] theorem State.skip_imgSel (n : Nat) : (s.skip n).imgSel = s.imgSel := rfl
@[simp] theorem State.skip_camMul (n : Nat) : (s.skip n).camMul = s.camMul := rfl
@[simp] theorem State.skip_premul (n : Nat) : (s.skip n).premul = s.premul := rfl
@[simp] theorem State.skip_cmat (n : Nat) : (s.skip n).cmat = s.cmat := rfl
@[simp] theorem State.skip_vpred (n : Nat) : (s.skip n).vpred = s.vpred := rfl
@[simp] theorem State.skip_gwSum (n : Nat) : (s.skip n).gwSum = s.gwSum := rfl
@[simp] theorem State.skip_gwCnt (n : Nat) : (s.skip n).gwCnt = s.gwCnt := rfl
@[simp] theorem State.skip_ht (n : Nat) : (s.skip n).ht = s.ht := rfl
@[simp] theorem State.skip_str (n : Nat) : (s.skip n).str = s.str := rfl
@[simp] theorem State.skip_img0 (n : Nat) : (s.skip n).img0 = s.img0 := rfl
@[simp] theorem State.skip_img1 (n : Nat) : (s.skip n).img1 = s.img1 := rfl
@[simp] theorem State.skip_phase (n : Nat) : (s.skip n).phase = s.phase := rfl
@[simp] theorem State.skip_inputs (n : Nat) : (s.skip n).inputs = s.inputs := rfl
@[simp] theorem State.skip_hostData (n : Nat) : (s.skip n).hostData = s.hostData := rfl
@[simp] theorem State.skip_epoch (n : Nat) : (s.skip n).epoch = s.epoch := rfl
@[simp] theorem State.skip_draws (n : Nat) : (s.skip n).draws = s.draws := rfl
@[simp] theorem State.skip_params (n : Nat) : (s.skip n).params = s.params := rfl
@[simp] theorem State.skip_busy (n : Nat) : (s.skip n).busy = s.busy := rfl
@[simp] theorem State.skip_done (n : Nat) : (s.skip n).done = s.done := rfl
@[simp] theorem State.skip_faulted (n : Nat) : (s.skip n).faulted = s.faulted := rfl
@[simp] theorem State.skip_warned (n : Nat) : (s.skip n).warned = s.warned := rfl
@[simp] theorem State.skip_ljReady (n : Nat) : (s.skip n).ljReady = s.ljReady := rfl

/-! ## State.advance -/

@[simp] theorem State.advance_cmd (p : Bool) : (s.advance p).cmd = s.cmd := by unfold State.advance; split <;> rfl
@[simp] theorem State.advance_status (p : Bool) : (s.advance p).status = s.status := by unfold State.advance; split <;> rfl
@[simp] theorem State.advance_errCode (p : Bool) : (s.advance p).errCode = s.errCode := by unfold State.advance; split <;> rfl
@[simp] theorem State.advance_errStage (p : Bool) : (s.advance p).errStage = s.errStage := by unfold State.advance; split <;> rfl
@[simp] theorem State.advance_errInfo (p : Bool) : (s.advance p).errInfo = s.errInfo := by unfold State.advance; split <;> rfl
@[simp] theorem State.advance_errPos (p : Bool) : (s.advance p).errPos = s.errPos := by unfold State.advance; split <;> rfl
@[simp] theorem State.advance_warnFlags (p : Bool) : (s.advance p).warnFlags = s.warnFlags := by unfold State.advance; split <;> rfl
@[simp] theorem State.advance_warnCount (p : Bool) : (s.advance p).warnCount = s.warnCount := by unfold State.advance; split <;> rfl
@[simp] theorem State.advance_ctrl (p : Bool) : (s.advance p).ctrl = s.ctrl := by unfold State.advance; split <;> rfl
@[simp] theorem State.advance_width (p : Bool) : (s.advance p).width = s.width := by unfold State.advance; split <;> rfl
@[simp] theorem State.advance_height (p : Bool) : (s.advance p).height = s.height := by unfold State.advance; split <;> rfl
@[simp] theorem State.advance_colors (p : Bool) : (s.advance p).colors = s.colors := by unfold State.advance; split <;> rfl
@[simp] theorem State.advance_cfa (p : Bool) : (s.advance p).cfa = s.cfa := by unfold State.advance; split <;> rfl
@[simp] theorem State.advance_black (p : Bool) : (s.advance p).black = s.black := by unfold State.advance; split <;> rfl
@[simp] theorem State.advance_maximum (p : Bool) : (s.advance p).maximum = s.maximum := by unfold State.advance; split <;> rfl
@[simp] theorem State.advance_clipMax (p : Bool) : (s.advance p).clipMax = s.clipMax := by unfold State.advance; split <;> rfl
@[simp] theorem State.advance_shift (p : Bool) : (s.advance p).shift = s.shift := by unfold State.advance; split <;> rfl
@[simp] theorem State.advance_orient (p : Bool) : (s.advance p).orient = s.orient := by unfold State.advance; split <;> rfl
@[simp] theorem State.advance_diagMag (p : Bool) : (s.advance p).diagMag = s.diagMag := by unfold State.advance; split <;> rfl
@[simp] theorem State.advance_xmag (p : Bool) : (s.advance p).xmag = s.xmag := by unfold State.advance; split <;> rfl
@[simp] theorem State.advance_ymag (p : Bool) : (s.advance p).ymag = s.ymag := by unfold State.advance; split <;> rfl
@[simp] theorem State.advance_streamLen (p : Bool) : (s.advance p).streamLen = s.streamLen := by unfold State.advance; split <;> rfl
@[simp] theorem State.advance_ljBits (p : Bool) : (s.advance p).ljBits = s.ljBits := by unfold State.advance; split <;> rfl
@[simp] theorem State.advance_ljWide (p : Bool) : (s.advance p).ljWide = s.ljWide := by unfold State.advance; split <;> rfl
@[simp] theorem State.advance_ljHigh (p : Bool) : (s.advance p).ljHigh = s.ljHigh := by unfold State.advance; split <;> rfl
@[simp] theorem State.advance_ljClrs (p : Bool) : (s.advance p).ljClrs = s.ljClrs := by unfold State.advance; split <;> rfl
@[simp] theorem State.advance_ljRow (p : Bool) : (s.advance p).ljRow = s.ljRow := by unfold State.advance; split <;> rfl
@[simp] theorem State.advance_imgSel (p : Bool) : (s.advance p).imgSel = s.imgSel := by unfold State.advance; split <;> rfl
@[simp] theorem State.advance_camMul (p : Bool) : (s.advance p).camMul = s.camMul := by unfold State.advance; split <;> rfl
@[simp] theorem State.advance_premul (p : Bool) : (s.advance p).premul = s.premul := by unfold State.advance; split <;> rfl
@[simp] theorem State.advance_cmat (p : Bool) : (s.advance p).cmat = s.cmat := by unfold State.advance; split <;> rfl
@[simp] theorem State.advance_vpred (p : Bool) : (s.advance p).vpred = s.vpred := by unfold State.advance; split <;> rfl
@[simp] theorem State.advance_gwSum (p : Bool) : (s.advance p).gwSum = s.gwSum := by unfold State.advance; split <;> rfl
@[simp] theorem State.advance_gwCnt (p : Bool) : (s.advance p).gwCnt = s.gwCnt := by unfold State.advance; split <;> rfl
@[simp] theorem State.advance_ht (p : Bool) : (s.advance p).ht = s.ht := by unfold State.advance; split <;> rfl
@[simp] theorem State.advance_str (p : Bool) : (s.advance p).str = s.str := by unfold State.advance; split <;> rfl
@[simp] theorem State.advance_img0 (p : Bool) : (s.advance p).img0 = s.img0 := by unfold State.advance; split <;> rfl
@[simp] theorem State.advance_img1 (p : Bool) : (s.advance p).img1 = s.img1 := by unfold State.advance; split <;> rfl
@[simp] theorem State.advance_phase (p : Bool) : (s.advance p).phase = s.phase := by unfold State.advance; split <;> rfl
@[simp] theorem State.advance_inputs (p : Bool) : (s.advance p).inputs = s.inputs := by unfold State.advance; split <;> rfl
@[simp] theorem State.advance_hostData (p : Bool) : (s.advance p).hostData = s.hostData := by unfold State.advance; split <;> rfl
@[simp] theorem State.advance_epoch (p : Bool) : (s.advance p).epoch = s.epoch := by unfold State.advance; split <;> rfl
@[simp] theorem State.advance_draws (p : Bool) : (s.advance p).draws = s.draws := by unfold State.advance; split <;> rfl
@[simp] theorem State.advance_params (p : Bool) : (s.advance p).params = s.params := by unfold State.advance; split <;> rfl

end Sys2Proof.Machine
end

