-- ==== Sys2Proof/Laws/Ops.lean ====
section
/-! SUPPORT. For each shared operation, once, everything it can do: the life of a command word, the checks, the memory of an image
command, and the bit reader. -/

namespace Sys2Proof.Machine

variable {s t : State}

/-! ## The life of a command -/

theorem command_of_busy (w : BitVec 8) (body : Body) (h : s.busy = true) : command w body s = s := by
  simp [command, h]

theorem command_of_faulted (w : BitVec 8) (body : Body) (h : s.faulted = true) : command w body s = s := by
  simp [command, h]

theorem command_of_accepting (w : BitVec 8) (body : Body) (h : s.accepting) :
    command w body s = settle (body (s.begin w)) := by
  simp [command, h.1, h.2]

/-- A command word does nothing, or runs its body from the state `begin` gives. -/
theorem command_cases (w : BitVec 8) (body : Body) (s : State) :
    ((s.busy = true ∨ s.faulted = true) ∧ command w body s = s) ∨
      (s.accepting ∧ command w body s = settle (body (s.begin w))) := by
  by_cases hb : s.busy = true
  · exact .inl ⟨.inl hb, command_of_busy w body hb⟩
  · by_cases hf : s.faulted = true
    · exact .inl ⟨.inr hf, command_of_faulted w body hf⟩
    · have ha : s.accepting := ⟨by simpa using hb, by simpa using hf⟩
      exact .inr ⟨ha, command_of_accepting w body ha⟩

/-- What follows a body: the fault it raised, completion, or nothing. -/
theorem settle_cases (r : State × Option Raised) :
    (∃ f, r.2 = some f ∧ settle r = raise f r.1) ∨
      (r.2 = none ∧ r.1.phase = .idle ∧ settle r = r.1.complete) ∨
      (r.2 = none ∧ r.1.phase ≠ .idle ∧ settle r = r.1) := by
  obtain ⟨s, _ | f⟩ := r
  · by_cases h : s.phase = .idle
    · exact .inr (.inl ⟨rfl, h, by simp [settle, h]⟩)
    · exact .inr (.inr ⟨rfl, h, by simp [settle, h]⟩)
  · exact .inl ⟨f, rfl, rfl⟩

@[simp] theorem settle_some (s : State) (f : Raised) : settle (s, some f) = raise f s := rfl

theorem settle_idle (h : s.phase = .idle) : settle (s, none) = s.complete := by simp [settle, h]

theorem settle_running (h : s.phase ≠ .idle) : settle (s, none) = s := by simp [settle, h]

theorem checked_of_fault {check : State → Option Raised} {effect : State → State} {f : Raised} (h : check s = some f) :
    checked check effect s = (s, some f) := by
  simp [checked, h]

theorem checked_of_none {check : State → Option Raised} {effect : State → State} (h : check s = none) :
    checked check effect s = (effect s, none) := by
  simp [checked, h]

/-- A fault that a body raises before it writes anything. -/
theorem command_check_fails {w : BitVec 8} {body : Body} {f : Raised} (ha : s.accepting)
    (h : body (s.begin w) = (s.begin w, some f)) : command w body s = raise f (s.begin w) := by
  rw [command_of_accepting w body ha, h]
  rfl

/-- A command whose checks pass and whose effect ends between commands. -/
theorem command_checks_pass {w : BitVec 8} {check : State → Option Raised} {effect : State → State} (ha : s.accepting)
    (hc : check (s.begin w) = none) (hp : (effect (s.begin w)).phase = .idle) :
    command w (checked check effect) s = (effect (s.begin w)).complete := by
  rw [command_of_accepting w _ ha, checked_of_none hc, settle_idle hp]

/-! ## Taking a fault -/

/-- A fault raised right after a command has begun is taken as `FaultTaken` says, with DONE = 0. -/
theorem faultTaken_raise_begin (w : BitVec 8) (f : Raised) (s : State) :
    FaultTaken w f.cause.code.toNat f.info s (raise f (s.begin w)) := by
  refine ⟨?_, by simp, by simp, by simp, by simp⟩
  simp [raise, State.begin, State.setFaulted, State.setLjReady, State.setBusy, State.setDone, State.setCursor, State.faultCursor]

/-- A fault raised by an element is taken as `FaultTaken` says, with DONE kept, at the cursor the fault finds. -/
theorem faultTaken_raise (f : Raised) (s : State) :
    FaultTaken s.cmd f.cause.code.toNat f.info (s.setCursor s.faultCursor) (raise f s) := by
  refine ⟨?_, by simp, by simp, by simp, by simp⟩
  simp [raise, State.setFaulted, State.setLjReady, State.setBusy, State.setCursor]

/-- A command whose checks fail ends in that fault. -/
theorem commandFaults_of_check {i : Instr} {w : BitVec 8} {body : Body} {f : Raised} (ha : s.accepting)
    (he : exec i s = .next (command w body s)) (h : body (s.begin w) = (s.begin w, some f)) :
    CommandFaults i w f.cause.code.toNat f.info s :=
  ⟨raise f (s.begin w), by rw [he, command_check_fails ha h], faultTaken_raise_begin w f s, by simp⟩

/-- An element whose body raises a fault in the state `t` ends in that fault. -/
theorem elementFaults_of_raise {o : Host.Outcome State Fault Refusal} (f : Raised) (t : State)
    (h : o = .next (raise f t)) : ElementFaults o f.cause.code.toNat f.info (t.setCursor t.faultCursor) :=
  ⟨raise f t, h, faultTaken_raise f t, by simp⟩

/-- In a scan the fault leaves the cursor where it is. -/
theorem elementFaults_of_raise_scan {o : Host.Outcome State Fault Refusal} {row : List Sample} {bits : List Bool} (f : Raised)
    (t : State) (hp : t.phase = .scan row bits) (h : o = .next (raise f t)) : ElementFaults o f.cause.code.toNat f.info t := by
  have := elementFaults_of_raise f t h
  rwa [State.faultCursor_of_scan _ hp, State.setCursor_self] at this

/-- In a header the fault takes the cursor back to where LJSTART was started. -/
theorem elementFaults_of_raise_header {o : Host.Outcome State Fault Refusal} {loaded : Cursor} {sof : Bool} (f : Raised)
    (t : State) (hp : t.phase = .header loaded sof) (h : o = .next (raise f t)) :
    ElementFaults o f.cause.code.toNat f.info (t.setCursor loaded) := by
  have := elementFaults_of_raise f t h
  rwa [State.faultCursor_of_header _ hp] at this

/-! ## The checks -/

theorem cfaField_val (cfa : BitVec 32) (i : Nat) : (cfaField cfa i).val = cfa.toNat / 4 ^ i % 4 := by
  simp only [cfaField, BitVec.toFin_extractLsb', Fin.val_ofNat, Nat.shiftRight_eq_div_pow]
  rw [Nat.pow_mul]

theorem imageRegsFault_eq_none_iff (s : State) : imageRegsFault s = none ↔ s.legalImage := by
  unfold imageRegsFault State.legalImage legalColors State.pixels
  simp only [← BitVec.toNat_inj, BitVec.ofNat_eq_ofNat, BitVec.toNat_ofNat, Nat.zero_mod]
  split_ifs with h1 h2 h3 <;> simp_all <;> omega

theorem cfaFault_eq_none_iff (s : State) : cfaFault s = none ↔ s.legalCfa := by
  unfold cfaFault State.legalCfa State.cfaNumber
  rw [Option.map_eq_none_iff, List.find?_eq_none]
  simp [cfaField_val]

theorem streamFault_eq_none_iff (s : State) : streamFault s = none ↔ s.legalStream := by
  unfold streamFault State.legalStream
  split_ifs with h <;> simp_all

theorem frameFault_eq_none_iff (s : State) : frameFault s = none ↔ s.frameMatches := by
  unfold frameFault State.frameMatches
  split_ifs with h
  · simp
    tauto
  · simp
    tauto

theorem clipFault_eq_none_iff (s : State) : clipFault s = none ↔ s.clipMax ≠ 0 := by
  unfold clipFault
  split_ifs with h <;> simp_all

/-! ## The memory of an image command -/

theorem State.setBank_bank (s : State) (b d : Bank) (m : Memory Sample) :
    (s.setBank b m).bank d = if d = b then m else s.bank d := by
  cases b <;> cases d <;> rfl

theorem Bank.other_ne (b : Bank) : b.other ≠ b := by cases b <;> decide

theorem Bank.eq_or_eq_other (b d : Bank) : d = b ∨ d = b.other := by cases b <;> cases d <;> decide

/-- A sample read after a block of a bank has been rewritten. -/
theorem State.sampleIn_rewriteBank (s : State) (b : Bank) (base n : Nat) (f : Nat → Option Sample) (d : Bank) (a : Nat) :
    (s.rewriteBank b base n f).sampleIn d a =
      if d = b ∧ base ≤ a ∧ a < base + n then (f (a - base)).getD (s.sampleIn d a) else s.sampleIn d a := by
  unfold State.rewriteBank State.sampleIn
  rw [State.setBank_bank, State.setBank_epoch]
  by_cases hd : d = b
  · subst hd
    rw [if_pos rfl, Memory.read_rewrite]
    by_cases h : base ≤ a ∧ a < base + n
    · rw [if_pos h, if_pos ⟨rfl, h⟩]
      cases f (a - base) <;> rfl
    · rw [if_neg h, if_neg (fun h' => h h'.2)]
  · rw [if_neg hd, if_neg (fun h' => hd h'.1)]

@[simp] theorem State.rewriteBank_activeBank (s : State) (b : Bank) (base n : Nat) (f : Nat → Option Sample) :
    (s.rewriteBank b base n f).activeBank = s.activeBank := by
  simp [State.activeBank]

@[simp] theorem State.rewriteImage_activeBank (s : State) (rule : Nat → Lane → Option Sample) :
    (s.rewriteImage rule).activeBank = s.activeBank := by
  simp [State.activeBank]

/-- A sample of any bank after the image has been rewritten by a rule. -/
theorem State.sampleIn_rewriteImage (s : State) (rule : Nat → Lane → Option Sample) (d : Bank) (a : Nat) :
    (s.rewriteImage rule).sampleIn d a =
      if d = s.activeBank ∧ a < 4 * s.pixels then (rule (a / 4) (laneOf (a % 4))).getD (s.sampleIn d a)
      else s.sampleIn d a := by
  unfold State.rewriteImage
  rw [State.sampleIn_rewriteBank]
  simp

theorem State.sample_rewriteImage (s : State) (rule : Nat → Lane → Option Sample) (a : Nat) :
    (s.rewriteImage rule).sample a =
      if a < 4 * s.pixels then (rule (a / 4) (laneOf (a % 4))).getD (s.sample a) else s.sample a := by
  unfold State.sample
  rw [State.rewriteImage_activeBank, State.sampleIn_rewriteImage]
  simp

/-- Lane `k` of pixel `p` after the image has been rewritten by a rule. -/
theorem State.sample_rewriteImage_pixel (s : State) (rule : Nat → Lane → Option Sample) (p : Nat) (k : Lane)
    (hp : p < s.pixels) :
    (s.rewriteImage rule).sample (4 * p + k.val) = (rule p k).getD (s.sample (4 * p + k.val)) := by
  have hk := k.isLt
  rw [State.sample_rewriteImage, if_pos (by omega)]
  have h1 : (4 * p + k.val) / 4 = p := by omega
  have h2 : (4 * p + k.val) % 4 = k.val := by omega
  rw [h1, h2]
  simp [laneOf]

/-- A pixel of the image has a linear index below the number of pixels, which gives back its row and column. -/
theorem State.linear_index (s : State) {row col : Nat} (hr : row < s.height.toNat) (hc : col < s.width.toNat) :
    row * s.width.toNat + col < s.pixels ∧ (row * s.width.toNat + col) / s.width.toNat = row ∧
      (row * s.width.toNat + col) % s.width.toNat = col := by
  have hw : 0 < s.width.toNat := by omega
  refine ⟨?_, ?_, ?_⟩
  · unfold State.pixels
    calc row * s.width.toNat + col < row * s.width.toNat + s.width.toNat := by omega
      _ = (row + 1) * s.width.toNat := by ring
      _ ≤ s.height.toNat * s.width.toNat := Nat.mul_le_mul_right _ hr
      _ = s.width.toNat * s.height.toNat := Nat.mul_comm _ _
  · rw [Nat.mul_comm, Nat.mul_add_div hw, Nat.div_eq_of_lt hc, Nat.add_zero]
  · rw [Nat.mul_comm, Nat.mul_add_mod, Nat.mod_eq_of_lt hc]

/-- What an image command that rewrites the selected bank by a rule leaves, everywhere but in the rewritten samples. -/
theorem imageCommandDone_rewriteImage (w : BitVec 8) (rule : Nat → Lane → Option Sample) (ha : s.accepting) :
    ImageCommandDone w s (((s.begin w).rewriteImage rule).complete) := by
  refine ⟨⟨by simp, by simp, by simp, by simp, by simp [ha.2]⟩, by simp, by simp, ?_, ?_, ?_⟩
  · unfold State.rewriteImage State.rewriteBank
    cases (s.begin w).activeBank <;> rfl
  · intro a
    simp only [State.complete_sampleIn]
    rw [State.sampleIn_rewriteImage, if_neg]
    · simp
    · intro h
      exact Bank.other_ne _ h.1
  · intro a h
    simp only [State.complete_sample]
    rw [State.sample_rewriteImage, if_neg]
    · simp
    · simpa using h

/-! ## What the stream holds -/

theorem State.streamByte_eq_some_iff (s : State) (a : Nat) (b : Byte) :
    s.streamByte a = some b ↔ a < s.streamLen.toNat ∧ s.strByte a = b := by
  unfold State.streamByte
  split_ifs with h <;> simp [h]

theorem State.streamByte_eq_none_iff (s : State) (a : Nat) : s.streamByte a = none ↔ s.streamLen.toNat ≤ a := by
  unfold State.streamByte
  split_ifs with h <;> simp <;> omega

theorem State.holdsAt_nil (s : State) (a : Nat) : s.holdsAt a [] := by
  intro k b h
  simp at h

theorem State.holdsAt_cons (s : State) (a : Nat) (b : Byte) (l : List Byte) :
    s.holdsAt a (b :: l) ↔ s.streamByte a = some b ∧ s.holdsAt (a + 1) l := by
  constructor
  · intro h
    refine ⟨by simpa using h 0 b rfl, fun k c hc => ?_⟩
    have := h (k + 1) c (by simpa using hc)
    rwa [show a + 1 + k = a + (k + 1) by omega]
  · rintro ⟨h0, h⟩ k c hc
    cases k with
    | zero => simpa using (by simpa using hc) ▸ h0
    | succ k =>
      have := h k c (by simpa using hc)
      rwa [show a + (k + 1) = a + 1 + k by omega]

theorem State.holdsAt_append (s : State) (a : Nat) (l m : List Byte) :
    s.holdsAt a (l ++ m) ↔ s.holdsAt a l ∧ s.holdsAt (a + l.length) m := by
  induction l generalizing a with
  | nil => simp [State.holdsAt_nil]
  | cons b l ih =>
    rw [List.cons_append, State.holdsAt_cons, State.holdsAt_cons, ih, List.length_cons]
    rw [show a + 1 + l.length = a + (l.length + 1) by omega]
    tauto

/-- A window onto bytes that the stream holds is those bytes. -/
theorem State.streamWindow_of_holdsAt (s : State) {a : Nat} {l : List Byte} (h : s.holdsAt a l) (n : Nat) (hn : n ≤ l.length) :
    s.streamWindow a n = l.take n := by
  induction n generalizing a l with
  | zero => simp [State.streamWindow]
  | succ n ih =>
    cases l with
    | nil => simp at hn
    | cons b l =>
      rw [State.holdsAt_cons] at h
      simp only [State.streamWindow, h.1, List.take_succ_cons]
      rw [ih h.2 (by simpa using hn)]

/-- The stream holds what a window onto it shows. -/
theorem State.holdsAt_streamWindow (s : State) (a n : Nat) : s.holdsAt a (s.streamWindow a n) := by
  induction n generalizing a with
  | zero => exact s.holdsAt_nil a
  | succ n ih =>
    unfold State.streamWindow
    cases h : s.streamByte a with
    | none => exact s.holdsAt_nil a
    | some b => exact (s.holdsAt_cons _ _ _).2 ⟨h, ih _⟩

theorem State.holdsAt_of_window (s : State) {a : Nat} {l : List Byte} (h : s.streamWindow a l.length = l) : s.holdsAt a l :=
  h ▸ s.holdsAt_streamWindow a l.length

/-! ## The bodies of the commands -/

/-- The body of a command; an element, and INIT, which is no body, are given one that does nothing. -/
def commandBody : Instr → Body
  | .ljstart => ljstartBody
  | .ljrow => ljrowBody
  | .bilin => bilinBody
  | .vngref => vngrefBody
  | .expsetup => expsetupBody
  | .expapply => expapplyBody
  | .cmatrix => cmatrixBody
  | .diagrs => diagrsBody
  | .permute => permuteBody
  | .init => fun s => (s, none)
  | .soi => fun s => (s, none)
  | .sof3 _ _ => fun s => (s, none)
  | .dht _ _ => fun s => (s, none)
  | .sos _ _ => fun s => (s, none)
  | .stuff => fun s => (s, none)
  | .diff _ _ => fun s => (s, none)

/-- Every command but INIT is the life of its word around its body. -/
theorem exec_command {w : BitVec 8} {i : Instr} (h : (w, i) ∈ commandWords) (hi : i ≠ .init) (s : State) :
    exec i s = .next (command w (commandBody i) s) := by
  cases i <;> simp [commandWords] at h <;> first
    | exact absurd rfl hi
    | (rw [h]; rfl)

/-- Every command but INIT, and LJROW after its own check, raises the fault of the image registers first. -/
theorem commandBody_imageRegsFault {w : BitVec 8} {i : Instr} (h : (w, i) ∈ commandWords) (hi : i ≠ .init) {f : Raised}
    (hf : imageRegsFault s = some f) (hr : i = .ljrow → s.ljReady = true) : commandBody i s = (s, some f) := by
  cases i with
  | ljstart => simp [commandBody, ljstartBody, startFault, hf]
  | ljrow => simp [commandBody, ljrowBody, rowFault, hf, hr rfl]
  | bilin => simp [commandBody, bilinBody, checked, mosaicFault, hf]
  | vngref => simp [commandBody, vngrefBody, checked, vngFault, mosaicFault, hf]
  | expsetup => simp [commandBody, expsetupBody, checked, expsetupFault, hf]
  | expapply => simp [commandBody, expapplyBody, checked, correctFault, hf]
  | cmatrix => simp [commandBody, cmatrixBody, checked, correctFault, hf]
  | diagrs => simp [commandBody, diagrsBody, checked, diagrsFault, hf]
  | permute => simp [commandBody, permuteBody, checked, hf]
  | init => exact absurd rfl hi
  | soi | stuff => simp [commandWords] at h
  | sof3 | dht | sos | diff => simp [commandWords] at h

/-- The commands that evaluate FC raise the fault of the CFA word second. -/
theorem commandBody_cfaFault {i : Instr} (hi : i = .ljstart ∨ i = .ljrow ∨ i = .bilin ∨ i = .vngref) {f : Raised}
    (h1 : imageRegsFault s = none) (hf : cfaFault s = some f) (hr : i = .ljrow → s.ljReady = true) :
    commandBody i s = (s, some f) := by
  rcases hi with rfl | rfl | rfl | rfl
  · simp [commandBody, ljstartBody, startFault, h1, hf]
  · simp [commandBody, ljrowBody, rowFault, h1, hf, hr rfl]
  · simp [commandBody, bilinBody, checked, mosaicFault, h1, hf]
  · simp [commandBody, vngrefBody, checked, vngFault, mosaicFault, h1, hf]

end Sys2Proof.Machine
end

