-- ==== Sys2Proof/Laws/Stream.lean ====
section
/-! SUPPORT. The bit reader: what it can change, how many bits it gives, what it depends on, and when it recognises a DIFF. -/

namespace Sys2Proof.Machine

/-- `t` is `s` but for the stream cursor. -/
def OnlyCursorMoves (s t : State) : Prop := t = { s with spos := t.spos, sbit := t.sbit }

theorem onlyCursorMoves_refl (s : State) : OnlyCursorMoves s s := rfl

theorem OnlyCursorMoves.trans {s t u : State} (h : OnlyCursorMoves s t) (k : OnlyCursorMoves t u) : OnlyCursorMoves s u := by
  unfold OnlyCursorMoves at *
  rw [h] at k
  exact k

theorem onlyCursorMoves_advance (s : State) (pair : Bool) : OnlyCursorMoves s (s.advance pair) := by
  unfold OnlyCursorMoves State.advance
  split <;> rfl

/-- What a bit read depends on: the stream, its mode and the cursor. -/
def SameStream (s t : State) : Prop :=
  s.str = t.str ∧ s.epoch = t.epoch ∧ s.streamLen = t.streamLen ∧ s.ctrl = t.ctrl ∧ s.spos = t.spos ∧ s.sbit = t.sbit

theorem SameStream.streamByte {s t : State} (h : SameStream s t) (a : Nat) : s.streamByte a = t.streamByte a := by
  unfold State.streamByte State.strByte
  rw [h.1, h.2.1, h.2.2.1]

theorem SameStream.advance {s t : State} (h : SameStream s t) (pair : Bool) : SameStream (s.advance pair) (t.advance pair) := by
  obtain ⟨h1, h2, h3, h4, h5, h6⟩ := h
  unfold State.advance
  rw [h6]
  split
  · exact ⟨h1, h2, h3, h4, h5, by simp⟩
  · exact ⟨h1, h2, h3, h4, by simp [h5], rfl⟩

/-- A bit read gives a fault, or a bit and the cursor one bit on. -/
theorem nextBit_cases (s : State) :
    (∃ f, nextBit s = .error f) ∨
      ∃ b byte pair, nextBit s = .ok (b, s.advance pair) ∧ s.streamByte s.spos.toNat = some byte ∧
        b = byte.getLsbD (7 - s.sbit.toNat) ∧ pair = (s.stuffed && byte == 0xFF) := by
  unfold nextBit
  cases h : s.streamByte s.spos.toNat with
  | none => exact .inl ⟨_, rfl⟩
  | some byte =>
    simp only []
    split
    · cases s.streamByte (s.spos.toNat + 1) with
      | none => exact .inl ⟨_, rfl⟩
      | some follow =>
        simp only []
        split
        · exact .inr ⟨_, _, _, rfl, rfl, rfl, rfl⟩
        · exact .inl ⟨_, rfl⟩
    · exact .inr ⟨_, _, _, rfl, rfl, rfl, rfl⟩

theorem nextBit_onlyCursorMoves {s t : State} {b : Bool} (h : nextBit s = .ok (b, t)) : OnlyCursorMoves s t := by
  obtain ⟨f, hf⟩ | ⟨b', byte, pair, hb, -⟩ := nextBit_cases s
  · rw [hf] at h
    cases h
  · rw [hb] at h
    cases h
    exact onlyCursorMoves_advance s pair

theorem takeBits_onlyCursorMoves (n : Nat) (s : State) : OnlyCursorMoves s (takeBits n s).1 := by
  induction n generalizing s with
  | zero => rfl
  | succ n ih =>
    unfold takeBits
    split
    · rfl
    · rename_i b s1 hb
      have h1 := nextBit_onlyCursorMoves hb
      have h2 := ih s1
      split <;> rename_i h <;> rw [h] at h2 <;> exact h1.trans h2

theorem takeBits_length {n : Nat} {s t : State} {bits : List Bool} (h : takeBits n s = (t, .ok bits)) : bits.length = n := by
  induction n generalizing s t bits with
  | zero =>
    unfold takeBits at h
    cases h
    rfl
  | succ n ih =>
    unfold takeBits at h
    split at h
    · cases h
    · split at h <;> rename_i hr <;> cases h
      simp [ih hr]

theorem nextBit_sameStream {s t : State} (h : SameStream s t) :
    (∃ f, nextBit s = .error f ∧ nextBit t = .error f) ∨
      ∃ b pair, nextBit s = .ok (b, s.advance pair) ∧ nextBit t = .ok (b, t.advance pair) := by
  have hs : s.spos = t.spos := h.2.2.2.2.1
  have hb : s.sbit = t.sbit := h.2.2.2.2.2
  have hm : s.stuffed = t.stuffed := by unfold State.stuffed; rw [h.2.2.2.1]
  unfold nextBit
  simp only [h.streamByte, hs, hb, hm]
  cases t.streamByte t.spos.toNat with
  | none => exact .inl ⟨_, rfl, rfl⟩
  | some byte =>
    simp only []
    split
    · cases t.streamByte (t.spos.toNat + 1) with
      | none => exact .inl ⟨_, rfl, rfl⟩
      | some follow =>
        simp only []
        split
        · exact .inr ⟨_, _, rfl, rfl⟩
        · exact .inl ⟨_, rfl, rfl⟩
    · exact .inr ⟨_, _, rfl, rfl⟩

/-- Two states with the same stream and cursor give the same bits or the same fault, and move alike. -/
theorem takeBits_sameStream (n : Nat) {s t : State} (h : SameStream s t) :
    (takeBits n s).2 = (takeBits n t).2 ∧ SameStream (takeBits n s).1 (takeBits n t).1 := by
  induction n generalizing s t with
  | zero => exact ⟨rfl, h⟩
  | succ n ih =>
    unfold takeBits
    obtain ⟨f, h1, h2⟩ | ⟨b, pair, h1, h2⟩ := nextBit_sameStream h
    · rw [h1, h2]
      exact ⟨rfl, h⟩
    · rw [h1, h2]
      obtain ⟨e1, e2⟩ := ih (h.advance pair)
      revert e1 e2
      dsimp only
      generalize takeBits n (s.advance pair) = x
      generalize takeBits n (t.advance pair) = y
      obtain ⟨x1, _ | x2⟩ := x <;> obtain ⟨y1, _ | y2⟩ := y <;> intro e1 e2 <;> simp_all

theorem readDiff_onlyCursorMoves (done fuel : Nat) (bits : List Bool) (s : State) :
    OnlyCursorMoves s (readDiff done fuel bits s).1 := by
  induction fuel generalizing bits s with
  | zero => rfl
  | succ n ih =>
    unfold readDiff
    split
    · rfl
    · split
      · rfl
      · rename_i hb
        exact (nextBit_onlyCursorMoves hb).trans (ih _ _)

theorem scanDiff_onlyCursorMoves {s t : State} (h : OnlyCursorMoves s t) (done : Nat) (bits : List Bool) :
    t.scanDiff done bits = s.scanDiff done bits := by
  rw [h]
  rfl

/-- While the bits say nothing yet, reading a DIFF is taking more of them. -/
theorem readDiff_continues {done k : Nat} (fuel : Nat) {bits more : List Bool} {s s1 : State} (h : takeBits k s = (s1, .ok more))
    (hm : ∀ j, j < k → s.scanDiff done (bits ++ more.take j) = .more) :
    readDiff done (fuel + k) bits s = readDiff done fuel (bits ++ more) s1 := by
  induction k generalizing bits more s with
  | zero =>
    unfold takeBits at h
    cases h
    rw [List.append_nil]
    rfl
  | succ k ih =>
    unfold takeBits at h
    split at h
    · cases h
    · rename_i b s2 hb
      split at h <;> rename_i hr <;> cases h
      rename_i rest
      have h0 := hm 0 (by omega)
      rw [List.take_zero, List.append_nil] at h0
      simp only [readDiff, h0, hb]
      rw [show bits ++ b :: rest = bits ++ [b] ++ rest by rw [List.append_assoc]; rfl]
      refine ih hr (fun j hj => ?_)
      rw [scanDiff_onlyCursorMoves (nextBit_onlyCursorMoves hb), List.append_assoc]
      exact hm (j + 1) (by omega)

/-- Reading a DIFF is taking bits until they are recognised. -/
theorem readDiff_of_takeBits {done k fuel : Nat} {bits more code extra : List Bool} {s s1 : State}
    (h : takeBits k s = (s1, .ok more)) (hf : k < fuel) (hm : ∀ j, j < k → s.scanDiff done (bits ++ more.take j) = .more)
    (hd : s.scanDiff done (bits ++ more) = .found code extra) : readDiff done fuel bits s = (s1, .ok (code, extra)) := by
  obtain ⟨f, rfl⟩ := Nat.exists_eq_add_of_lt hf
  have hmove : OnlyCursorMoves s s1 := by simpa [h] using takeBits_onlyCursorMoves k s
  rw [show k + f + 1 = f + 1 + k by omega, readDiff_continues (f + 1) h hm]
  simp [readDiff, scanDiff_onlyCursorMoves hmove, hd]

/-- Reading a DIFF stops where a bit it needs cannot be read, the cursor after the bits taken. -/
theorem readDiff_stops {done k fuel : Nat} {bits more : List Bool} {s s1 : State} {f : Raised}
    (h : takeBits k s = (s1, .ok more)) (hf : k < fuel) (hm : ∀ j, j ≤ k → s.scanDiff done (bits ++ more.take j) = .more)
    (hn : nextBit s1 = .error f) : readDiff done fuel bits s = (s1, .error f) := by
  obtain ⟨g, rfl⟩ := Nat.exists_eq_add_of_lt hf
  have hmove : OnlyCursorMoves s s1 := by simpa [h] using takeBits_onlyCursorMoves k s
  have hk := hm k (le_refl k)
  rw [List.take_of_length_le (le_of_eq (takeBits_length h))] at hk
  rw [show k + g + 1 = g + 1 + k by omega, readDiff_continues (g + 1) h (fun j hj => hm j (by omega))]
  simp [readDiff, scanDiff_onlyCursorMoves hmove, hk, hn]

/-- The next DIFF of a scan, given its bits: the code is a leaf of the channel's table and the extra bits are as many as it says. -/
theorem readDiff_of_leafAt {done k : Nat} {bits more code extra : List Bool} {n : Nat} {s s1 : State}
    (h : takeBits k s = (s1, .ok more)) (hb : bits ++ more = code ++ extra)
    (hl : leafAt (s.table (s.diffChannel done)) code n) (hn : n ≤ s.ljBits.toNat) (he : extra.length = n) (hk : k < diffFuel) :
    readDiff done diffFuel bits s = (s1, .ok (code, extra)) := by
  refine readDiff_of_takeBits h hk (fun j hj => ?_) ?_
  · refine scanDiff_of_proper_prefix (more := more.drop j) hl hn he ?_ ?_
    · rw [List.append_assoc, List.take_append_drop, hb]
    · have := takeBits_length h
      intro hnil
      rw [List.drop_eq_nil_iff] at hnil
      omega
  · rw [hb]
    exact scanDiff_of_leafAt hl hn he

end Sys2Proof.Machine
end

