-- ==== Sys2Proof/Laws/Ljpeg.lean ====
section
/-! SUPPORT. For each body of the LJ unit, once, everything it can do; and what its loops keep. -/

namespace Sys2Proof.Machine

variable {s : State}

/-! ## Table definitions -/

/-- A legal definition is read as what it stands for. -/
theorem parseDefinition_of_legal {d : TableDefinition} (h : d.legal) (len : BitVec 16) (rest : List Byte) :
    parseDefinition len (d.bytes ++ rest) = .ok (d.id, d.table, rest) := by
  obtain ⟨hc, hv, hs, hb⟩ := h
  have hid : (BitVec.ofNat 8 d.id.val).toNat = d.id.val := by
    rw [BitVec.toNat_ofNat]
    omega
  have htake : (d.counts ++ d.vals ++ rest).take 16 = d.counts := by
    rw [List.append_assoc, ← hc, List.take_left]
  have hdrop : (d.counts ++ d.vals ++ rest).drop 16 = d.vals ++ rest := by
    rw [List.append_assoc, ← hc, List.drop_left]
  have hall : (d.counts ++ d.vals ++ rest).drop (16 + (d.counts.map (·.toNat)).sum) = rest := by
    rw [← hv, ← hc, ← List.length_append, List.drop_left]
  have hfind : d.vals.find? (fun v => decide (Config.maxSymbol < v.toNat)) = none := by
    rw [List.find?_eq_none]
    intro v hmem
    have hx : ¬Config.maxSymbol < v.toNat := Nat.not_lt.2 (hs v hmem)
    exact fun hd => hx (of_decide_eq_true hd)
  have hlane : laneOf d.id.val = d.id := Fin.ext (by simp [laneOf])
  simp only [TableDefinition.bytes, List.cons_append, parseDefinition, hid]
  rw [if_neg (by omega)]
  simp only [htake, hdrop, hall]
  rw [if_neg (by simp only [List.length_append]; omega), ← hv, List.take_left, hfind]
  simp only [hb, hlane]

/-- Legal definitions are stored in turn before what follows them is looked at. -/
theorem storeDefinitions_of_legal (len : BitVec 16) (ds : List TableDefinition) (tail : List Byte) (ht : Quad (Option HuffTable))
    (fuel : Nat) (hd : ∀ d ∈ ds, d.legal) (hne : tail ≠ []) :
    storeDefinitions len (fuel + ds.length) (definitionsBytes ds ++ tail) ht = storeDefinitions len fuel tail (storeAll ds ht) := by
  induction ds generalizing ht with
  | nil => rfl
  | cons d ds ih =>
    have hrest : (definitionsBytes ds ++ tail).isEmpty = false := by
      cases tail with
      | nil => exact absurd rfl hne
      | cons b l => cases hx : definitionsBytes ds ++ b :: l <;> simp_all
    rw [List.length_cons, ← Nat.add_assoc, storeDefinitions]
    rw [show definitionsBytes (d :: ds) ++ tail = d.bytes ++ (definitionsBytes ds ++ tail) by simp [definitionsBytes],
      parseDefinition_of_legal (hd d (by simp))]
    simp only [hrest]
    exact ih _ (fun e he => hd e (List.mem_cons_of_mem d he))

/-- A payload of legal definitions and nothing else is stored without a fault. -/
theorem storeDefinitions_all (len : BitVec 16) (ds : List TableDefinition) (ht : Quad (Option HuffTable)) (fuel : Nat)
    (hd : ∀ d ∈ ds, d.legal) (hne : ds ≠ []) :
    storeDefinitions len (fuel + ds.length) (definitionsBytes ds) ht = (storeAll ds ht, none) := by
  induction ds generalizing ht with
  | nil => exact absurd rfl hne
  | cons d ds ih =>
    rw [List.length_cons, ← Nat.add_assoc, storeDefinitions]
    rw [show definitionsBytes (d :: ds) = d.bytes ++ definitionsBytes ds by simp [definitionsBytes],
      parseDefinition_of_legal (hd d (by simp))]
    cases ds with
    | nil => rfl
    | cons e es =>
      have hrest : (definitionsBytes (e :: es)).isEmpty = false := by simp [definitionsBytes, TableDefinition.bytes]
      simp only [hrest]
      exact ih _ (fun x hx => hd x (List.mem_cons_of_mem d hx)) (by simp)

/-! ## Header elements -/

/-- SOF3 raises a fault with nothing written, or is the first and writes a legal frame. -/
theorem sof3Body_cases {loaded : Cursor} {sof : Bool} (len : BitVec 16) (payload : List Byte) (h : s.phase = .header loaded sof) :
    (∃ f, sof3Body len payload s = (s, some f)) ∨
      ∃ t, sof3Body len payload s = (t, none) ∧ sof = false ∧ 2 ≤ len.toNat ∧ t.frameLegal ∧
        t = { s.skip (2 + len.toNat) with
              ljBits := t.ljBits, ljHigh := t.ljHigh, ljWide := t.ljWide, ljClrs := t.ljClrs
              phase := .header loaded true } := by
  unfold sof3Body
  simp only [h]
  split_ifs with h1 h2 h3 h4 h5 h6 h7
  iterate 7 exact .inl ⟨_, rfl⟩
  refine .inr ⟨_, rfl, by simpa using h2, by omega, ?_, rfl⟩
  have hy : bigEndian (payloadByte payload 1) (payloadByte payload 2) ≠ 0 := fun hc => h7 (.inl hc)
  have hx : bigEndian (payloadByte payload 3) (payloadByte payload 4) ≠ 0 := fun hc => h7 (.inr hc)
  have hy' := BitVec.toNat_ne.1 hy
  have hx' := BitVec.toNat_ne.1 hx
  simp only [State.frameLegal, BitVec.toNat_setWidth]
  simp only [BitVec.ofNat_eq_ofNat, BitVec.toNat_ofNat, Nat.zero_mod] at hx' hy'
  omega

/-- DHT raises a fault or goes on after its segment; in both cases it may have written tables. -/
theorem dhtBody_cases {loaded : Cursor} {sof : Bool} (len : BitVec 16) (payload : List Byte) (h : s.phase = .header loaded sof) :
    (∃ f, dhtBody len payload s = (s, some f)) ∨
      (∃ f, dhtBody len payload s =
        ({ s with ht := (storeDefinitions len (payload.length + 1) payload s.ht).1 }, some f)) ∨
      (2 ≤ len.toNat ∧ dhtBody len payload s =
        ({ s.skip (2 + len.toNat) with ht := (storeDefinitions len (payload.length + 1) payload s.ht).1 }, none)) := by
  unfold dhtBody
  simp only [h]
  split
  · exact .inl ⟨_, rfl⟩
  · rename_i hl
    split <;> rename_i hs
    · exact .inr (.inl ⟨_, by rw [hs]⟩)
    · exact .inr (.inr ⟨by omega, by rw [hs]⟩)

theorem dhtBody_of_fault {loaded : Cursor} {sof : Bool} {len : BitVec 16} {payload : List Byte} {ht : Quad (Option HuffTable)} {f : Raised}
    (h : s.phase = .header loaded sof) (hl : 2 ≤ len.toNat) (hs : storeDefinitions len (payload.length + 1) payload s.ht = (ht, some f)) :
    dhtBody len payload s = ({ s with ht := ht }, some f) := by
  unfold dhtBody
  simp only [h, hs]
  rw [if_neg (by omega)]

theorem dhtBody_of_stored {loaded : Cursor} {sof : Bool} {len : BitVec 16} {payload : List Byte} {ht : Quad (Option HuffTable)}
    (h : s.phase = .header loaded sof) (hl : 2 ≤ len.toNat) (hs : storeDefinitions len (payload.length + 1) payload s.ht = (ht, none)) :
    dhtBody len payload s = ({ s.skip (2 + len.toNat) with ht := ht }, none) := by
  unfold dhtBody
  simp only [h, hs]
  rw [if_neg (by omega)]

theorem execSof3_of_header {loaded : Cursor} {sof : Bool} (h : s.phase = .header loaded sof) (len : BitVec 16) (payload : List Byte) :
    execSof3 len payload s = .next (settle (sof3Body len payload s)) := by
  unfold execSof3
  simp only [h]

theorem execDht_of_header {loaded : Cursor} {sof : Bool} (h : s.phase = .header loaded sof) (len : BitVec 16) (payload : List Byte) :
    execDht len payload s = .next (settle (dhtBody len payload s)) := by
  unfold execDht
  simp only [h]

theorem execSos_of_header {loaded : Cursor} {sof : Bool} (h : s.phase = .header loaded sof) (len : BitVec 16) (payload : List Byte) :
    execSos len payload s = .next (settle (sosBody len s)) := by
  unfold execSos
  simp only [h]

theorem missingTable_eq_none_iff (h : s.ljClrs.toNat ≤ 4) :
    missingTable s = none ↔ ∀ c : Lane, c.val < s.ljClrs.toNat → (s.ht.get c).isSome = true := by
  unfold missingTable
  rw [List.find?_eq_none]
  constructor
  · intro hn c hc
    have := hn c.val (by simpa using hc)
    rw [show laneOf c.val = c from Fin.ext (by simp [laneOf])] at this
    cases hg : s.ht.get c <;> simp_all
  · intro ha c hc
    rw [List.mem_range] at hc
    have := ha (laneOf c) (by simpa [laneOf, Nat.mod_eq_of_lt (show c < 4 by omega)] using hc)
    cases hg : s.ht.get (laneOf c) <;> simp_all

/-- SOS raises a fault with nothing written, or comes after a SOF3, has its tables and its frame, and ends the header. -/
theorem sosBody_cases {loaded : Cursor} {sof : Bool} (len : BitVec 16) (h : s.phase = .header loaded sof) :
    (∃ f, sosBody len s = (s, some f)) ∨
      (sof = true ∧ 2 ≤ len.toNat ∧ missingTable s = none ∧ s.frameMatches ∧
        sosBody len s = (finishStart { s.skip (2 + len.toNat) with sbit := 0 }, none)) := by
  unfold sosBody
  simp only [h]
  iterate 4 split; exact .inl ⟨_, rfl⟩
  rename_i h1 h2 _ h3 _ h4
  exact .inr ⟨by simpa using h2, by omega, h3, (frameFault_eq_none_iff s).1 h4, rfl⟩

/-- The header loop keeps what every element body keeps. -/
theorem headerLoop_keeps {P : State → Prop} (hb : ∀ i s, P s → s.phase ≠ .idle → fetchHeader s = .ok i → P (headerBody i s).1)
    (fuel : Nat) (h : P s) : P (headerLoop fuel s).1 := by
  induction fuel generalizing s with
  | zero => exact h
  | succ n ih =>
    unfold headerLoop
    split
    · exact h
    · rename_i hp
      split
      · exact h
      · rename_i i hi
        have := hb i s h hp hi
        split <;> rename_i hr <;> rw [hr] at this
        · exact this
        · exact ih this

/-- What is fetched fits the place: SOI at the start, a segment in the header. -/
theorem fetchHeader_cases {i : Instr} (h : fetchHeader s = .ok i) :
    (∃ loaded, s.phase = .start loaded ∧ i = .soi) ∨
      ∃ loaded sof, s.phase = .header loaded sof ∧ ∃ len payload, i = .sof3 len payload ∨ i = .dht len payload ∨ i = .sos len payload := by
  unfold fetchHeader at h
  split at h
  · rename_i loaded hp
    refine .inl ⟨loaded, hp, ?_⟩
    split at h
    · rename_i j rest hd
      unfold decodeStart at hd
      split at hd
      · split at hd <;> cases hd
        cases h
        rfl
      · cases hd
    · cases h
  · rename_i loaded sof hp
    refine .inr ⟨loaded, sof, hp, ?_⟩
    split at h
    · rename_i j rest hd
      cases h
      unfold decodeSegment at hd
      split at hd
      · split at hd
        · split at hd
          · split at hd
            · split at hd
              · rename_i hj
                cases hd
                unfold segmentOf at hj
                split at hj <;> cases hj
                · exact ⟨_, _, .inl rfl⟩
                · exact ⟨_, _, .inr (.inl rfl)⟩
                · exact ⟨_, _, .inr (.inr rfl)⟩
              · cases hd
            · cases hd
          · cases hd
        · cases hd
      · cases hd
    · cases h
  · cases h
  · cases h

/-! ## Entropy-coded elements -/

/-- What DIFF writes into the state before the end of a row. -/
def keepSample (row : List Sample) (v : Sample) (s : State) : State :=
  { s with vpred := s.vpredAfter row v, phase := .scan (v :: row) [] }

/-- A DIFF raises a fault with nothing written, or its sample is in range and is kept, and the row's last one ends the row. -/
theorem applyDiff_cases {row : List Sample} {bits : List Bool} (code extra : List Bool) (h : s.phase = .scan row bits) :
    (∃ f, applyDiff code extra s = (s, some f)) ∨
      ∃ (n : Nat) (v : Int), (s.table (s.diffChannel row.length)).lookup code = some n ∧ n ≤ s.ljBits.toNat ∧
        v = predictor s row + diffValue n (bitsValue extra) ∧ 0 ≤ v ∧ v < 2 ^ s.ljBits.toNat ∧
        applyDiff code extra s =
          (if row.length + 1 = s.ljWide.toNat * s.ljClrs.toNat then
              finishRow (BitVec.ofInt 16 v :: row) (keepSample row (BitVec.ofInt 16 v) s)
            else keepSample row (BitVec.ofInt 16 v) s, none) := by
  unfold applyDiff
  simp only [h]
  split
  · exact .inl ⟨_, rfl⟩
  · rename_i n hn
    split
    · exact .inl ⟨_, rfl⟩
    · split
      · exact .inl ⟨_, rfl⟩
      · rename_i hb hv
        refine .inr ⟨n, _, hn, by omega, rfl, by omega, by omega, ?_⟩
        have hk : keepSample row (BitVec.ofInt 16 (predictor s row + diffValue n (bitsValue extra))) s =
            { s with
              vpred :=
                if row.length < s.ljClrs.toNat then
                  s.vpred.set (s.diffChannel row.length) (BitVec.ofInt 16 (predictor s row + diffValue n (bitsValue extra)))
                else s.vpred
              phase := .scan (BitVec.ofInt 16 (predictor s row + diffValue n (bitsValue extra)) :: row) [] } := by
          unfold keepSample State.vpredAfter State.diffChannel
          split
          · rename_i hc
            rw [Nat.mod_eq_of_lt hc]
          · rfl
        rw [hk]
        split <;> rfl

/-- A DIFF keeps what its sample and the end of the row keep. -/
theorem applyDiff_keeps {P : State → Prop} (hs : ∀ s row bits (v : Sample), P s → s.phase = .scan row bits → v.toNat < 2 ^ s.ljBits.toNat →
      P (keepSample row v s))
    (hf : ∀ s row (v : Sample), P s → s.phase = .scan row [] → v.toNat < 2 ^ s.ljBits.toNat → P (finishRow row s))
    (code extra : List Bool) (h : P s) : P (applyDiff code extra s).1 := by
  by_cases hp : ∃ row bits, s.phase = .scan row bits
  · obtain ⟨row, bits, hp⟩ := hp
    obtain ⟨f, hc⟩ | ⟨n, v, -, -, -, h0, h1, hc⟩ := applyDiff_cases code extra hp
    · rw [hc]
      exact h
    · rw [hc]
      have hv : (BitVec.ofInt 16 v).toNat < 2 ^ s.ljBits.toNat := by
        obtain ⟨m, rfl⟩ := Int.eq_ofNat_of_zero_le h0
        rw [BitVec.ofInt_natCast, BitVec.toNat_ofNat]
        exact lt_of_le_of_lt (Nat.mod_le _ _) (by exact_mod_cast h1)
      have hk := hs s row bits _ h hp hv
      dsimp only
      split
      · exact hf _ _ (BitVec.ofInt 16 v) hk rfl hv
      · exact hk
  · unfold applyDiff
    split
    · rename_i row bits hq
      exact absurd ⟨row, bits, hq⟩ hp
    · exact h

/-- The ones of a stuffed pair keep what the cursor, the pending bits and DIFF keep. -/
theorem stuffLoop_keeps {P : State → Prop} (ha : ∀ s row bits, P s → s.phase = .scan row bits → P (s.advance true))
    (hp : ∀ s row bits more, P s → s.phase = .scan row bits → P { s with phase := .scan row more })
    (hd : ∀ s code extra, P s → P (applyDiff code extra s).1) (n : Nat) (h : P s) : P (stuffLoop n s).1 := by
  induction n generalizing s with
  | zero => exact h
  | succ n ih =>
    unfold stuffLoop
    split
    · rename_i row bits hs
      have hx : P (acceptBit true (s.advance true)).1 := by
        have h0 := ha s row bits h hs
        unfold acceptBit
        split
        · rename_i row bits hq
          split
          · exact hp _ _ _ _ h0 hq
          · exact hd _ _ _ h0
        · exact h0
      split <;> rename_i hr <;> rw [hr] at hx
      · exact hx
      · exact ih hx
    · exact h

/-- The loop of LJROW keeps what the cursor and DIFF keep. -/
theorem rowLoop_keeps {P : State → Prop} (hc : ∀ s t row bits, P s → s.phase = .scan row bits → OnlyCursorMoves s t → P t)
    (hd : ∀ s code extra, P s → P (applyDiff code extra s).1) (n : Nat) (h : P s) : P (rowLoop n s).1 := by
  induction n generalizing s with
  | zero => exact h
  | succ n ih =>
    unfold rowLoop
    split
    · rename_i row bits hq
      have hm := readDiff_onlyCursorMoves row.length diffFuel bits s
      split <;> rename_i hr <;> rw [hr] at hm
      · exact hc _ _ _ _ h hq hm
      · rename_i s1 code extra
        have h1 := hd _ code extra (hc _ _ _ _ h hq hm)
        split <;> rename_i hr2 <;> rw [hr2] at h1
        · exact h1
        · exact ih h1
    · exact h

end Sys2Proof.Machine
end

