-- ==== Sys2Proof/Laws/PerInstr.lean ====
section
/-! SUPPORT. The families of statements that are made about each instruction by itself: how many bits its encoding has (30_encoding R80,
R86, R98). -/

namespace Sys2Proof.Laws

/-- The number of bits of an encoding. -/
def codeBits : Code → Nat
  | .word _ => 8
  | .bytes l => 8 * l.length
  | .bits l => l.length

/-- The length 30_encoding R86 and R98 give an instruction, in bits: a command word, two bytes, 2 + L bytes, or the code bits and the
extra bits. -/
def specBits : Instr → Nat
  | .ljstart => 8
  | .ljrow => 8
  | .bilin => 8
  | .vngref => 8
  | .expsetup => 8
  | .expapply => 8
  | .cmatrix => 8
  | .diagrs => 8
  | .permute => 8
  | .init => 8
  | .soi => 16
  | .sof3 len _ => 8 * (2 + len.toNat)
  | .dht len _ => 8 * (2 + len.toNat)
  | .sos len _ => 8 * (2 + len.toNat)
  | .stuff => 16
  | .diff code extra => code.length + extra.length

/-- A well-formed instruction's encoding has the length the spec gives it. -/
def EncodedLength.Statement (i : Instr) : Prop := i.wellFormed = true → codeBits (encode i) = specBits i

theorem EncodedLength.ljstart : EncodedLength.Statement .ljstart := fun _ => rfl

theorem EncodedLength.ljrow : EncodedLength.Statement .ljrow := fun _ => rfl

theorem EncodedLength.bilin : EncodedLength.Statement .bilin := fun _ => rfl

theorem EncodedLength.vngref : EncodedLength.Statement .vngref := fun _ => rfl

theorem EncodedLength.expsetup : EncodedLength.Statement .expsetup := fun _ => rfl

theorem EncodedLength.expapply : EncodedLength.Statement .expapply := fun _ => rfl

theorem EncodedLength.cmatrix : EncodedLength.Statement .cmatrix := fun _ => rfl

theorem EncodedLength.diagrs : EncodedLength.Statement .diagrs := fun _ => rfl

theorem EncodedLength.permute : EncodedLength.Statement .permute := fun _ => rfl

theorem EncodedLength.init : EncodedLength.Statement .init := fun _ => rfl

theorem EncodedLength.soi : EncodedLength.Statement .soi := fun _ => rfl

/-- A well-formed segment has as many bytes as its length field and its marker say. -/
theorem length_encodeSegment (m1 : Byte) {len : BitVec 16} {payload : List Byte} (h : segmentWellFormed len payload = true) :
    (encodeSegment m1 len payload).length = 2 + len.toNat := by
  simp only [segmentWellFormed, Bool.and_eq_true, decide_eq_true_eq] at h
  simp only [encodeSegment, List.length_cons]
  omega

theorem EncodedLength.sof3 (len : BitVec 16) (payload : List Byte) : EncodedLength.Statement (.sof3 len payload) :=
  fun h => congrArg (8 * ·) (length_encodeSegment 0xC3 h)

theorem EncodedLength.dht (len : BitVec 16) (payload : List Byte) : EncodedLength.Statement (.dht len payload) :=
  fun h => congrArg (8 * ·) (length_encodeSegment 0xC4 h)

theorem EncodedLength.sos (len : BitVec 16) (payload : List Byte) : EncodedLength.Statement (.sos len payload) :=
  fun h => congrArg (8 * ·) (length_encodeSegment 0xDA h)

theorem EncodedLength.stuff : EncodedLength.Statement .stuff := fun _ => rfl

theorem EncodedLength.diff (code extra : List Bool) : EncodedLength.Statement (.diff code extra) :=
  fun _ => List.length_append

end Sys2Proof.Laws
end

