-- ==== Sys2Proof/Laws/Step.lean ====
section
/-! SUPPORT. What a step is in each phase, said once. -/

namespace Sys2Proof.Machine

variable {s : State}

/-- The table of command words and the decoder agree on every word. -/
theorem commandWords_eq_decoded :
    ∀ n : Nat, n < 256 → ∀ p ∈ commandWords, (p.1.toNat = n ↔ decodeCommand (BitVec.ofNat 8 n) = .ok p.2) := by
  decide +kernel

/-- Every word the decoder accepts is in the table. -/
theorem decoded_listed :
    ∀ n : Nat, n < 256 → (match decodeCommand (BitVec.ofNat 8 n) with
      | .ok i => decide (i ∈ commandWords.map Prod.snd)
      | .error _ => true) = true := by
  decide +kernel

/-- The decoder of command words accepts exactly the ten defined ones. -/
theorem decodeCommand_ok_iff (w : BitVec 8) (i : Instr) : decodeCommand w = .ok i ↔ (w, i) ∈ commandWords := by
  have agree := commandWords_eq_decoded w.toNat w.isLt
  have listed := decoded_listed w.toNat w.isLt
  rw [BitVec.ofNat_toNat, BitVec.setWidth_eq] at agree listed
  constructor
  · intro h
    rw [h] at listed
    obtain ⟨⟨v, j⟩, hp, rfl⟩ := List.mem_map.1 (of_decide_eq_true listed)
    rwa [← BitVec.toNat_inj.1 ((agree _ hp).2 h)]
  · intro h
    exact (agree _ h).1 rfl

/-- Between commands a step is what the host does. -/
theorem step_of_idle (hp : s.params.wf = true) (hi : s.phase = .idle) :
    step s = match fetchHost s with
      | .run i t => exec i t
      | .other o => o := by
  have hf : fetch s = fetchHost s := by
    unfold fetch
    rw [hi]
  cases hc : fetchHost s <;> simp only [step, if_pos hp, hf, hc]

/-- A host write of CMD runs the command it names, or takes E_ILLCMD. -/
theorem step_command_write {v : BitVec 32} {rest : List HostOp} (hp : s.params.wf = true) (hi : s.phase = .idle)
    (h : s.inputs = .writeReg 0 v :: rest) :
    step s = match decodeCommand (v.setWidth 8) with
      | .ok i => exec i { s with inputs := rest }
      | .error _ => .next (illegalCommand (v.setWidth 8) { s with inputs := rest }) := by
  have hf : fetchHost s = fetchCommand (v.setWidth 8) { s with inputs := rest } := by
    unfold fetchHost
    rw [h]
    rfl
  rw [step_of_idle hp hi, hf]
  unfold fetchCommand
  cases decodeCommand (v.setWidth 8) <;> rfl

theorem step_defined_word {v : BitVec 32} {rest : List HostOp} {i : Instr} (hp : s.params.wf = true) (hi : s.phase = .idle)
    (h : s.inputs = .writeReg 0 v :: rest) (hw : (v.setWidth 8, i) ∈ commandWords) :
    step s = exec i { s with inputs := rest } := by
  rw [step_command_write hp hi h, (decodeCommand_ok_iff _ _).2 hw]

theorem step_undefined_word {v : BitVec 32} {rest : List HostOp} (hp : s.params.wf = true) (hi : s.phase = .idle)
    (h : s.inputs = .writeReg 0 v :: rest) (hw : ∀ i, (v.setWidth 8, i) ∉ commandWords) :
    step s = .next (illegalCommand (v.setWidth 8) { s with inputs := rest }) := by
  rw [step_command_write hp hi h]
  cases hd : decodeCommand (v.setWidth 8) with
  | ok i => exact absurd ((decodeCommand_ok_iff _ _).1 hd) (hw i)
  | error e => rfl

/-- Any other action of the host is done as such. -/
theorem step_host_act {op : HostOp} {rest : List HostOp} (hp : s.params.wf = true) (hi : s.phase = .idle)
    (h : s.inputs = op :: rest) (hop : ∀ v, op ≠ .writeReg 0 v) : step s = hostAct op { s with inputs := rest } := by
  rw [step_of_idle hp hi]
  unfold fetchHost
  rw [h]
  cases op with
  | writeReg n v =>
    have hn : n ≠ 0 := fun hn => hop v (by rw [hn])
    simp only [if_neg hn]
  | readReg n => rfl
  | writeByte a v => rfl
  | readByte a => rfl
  | writeSample a v => rfl
  | readSample a => rfl
  | hardwareReset => rfl

theorem step_idle (hp : s.params.wf = true) (hi : s.phase = .idle) (h : s.inputs = []) : step s = .next s := by
  rw [step_of_idle hp hi]
  unfold fetchHost
  rw [h]

/-- In a header the next element is run, or the fault of its fetch is taken. -/
theorem step_header (hp : s.params.wf = true) (h : (∃ loaded, s.phase = .start loaded) ∨ ∃ loaded sof, s.phase = .header loaded sof) :
    step s = match fetchHeader s with
      | .ok i => exec i s
      | .error f => .next (raise f s) := by
  unfold step
  rw [if_pos hp]
  unfold fetch
  rcases h with ⟨c, h⟩ | ⟨c, sof, h⟩ <;> rw [h] <;> cases fetchHeader s <;> rfl

/-- In a scan the stuffed pair or the next DIFF is run, or the fault of reading its bits is taken. -/
theorem step_scan {row : List Sample} {bits : List Bool} (hp : s.params.wf = true) (h : s.phase = .scan row bits) :
    step s =
      if atStuff s then exec .stuff s
      else match readDiff row.length diffFuel bits s with
        | (s1, .error f) => .next (raise f s1)
        | (_, .ok (code, extra)) => exec (.diff code extra) s := by
  unfold step
  rw [if_pos hp]
  have hf : fetch s = fetchScan row bits s := by
    unfold fetch
    rw [h]
  rw [hf]
  unfold fetchScan
  by_cases ha : atStuff s = true
  · simp only [if_pos ha]
  · simp only [if_neg ha]
    cases readDiff row.length diffFuel bits s with
    | mk s1 r => cases r <;> rfl

/-- With parameters outside their domains the step is refused; so a step that answers has them inside. -/
theorem params_wf_of_step {t : State} (h : step s = .next t) : s.params.wf = true := by
  unfold step at h
  by_contra hp
  rw [if_neg hp] at h
  cases h

/-- Everything a step can do. -/
inductive StepResult (s t : State) : Prop where
  /-- There was nothing to do. -/
  | idle (hi : s.phase = .idle) (h : s.inputs = []) (ht : t = s)
  /-- The host wrote a defined word to CMD. -/
  | command (hi : s.phase = .idle) (v : BitVec 32) (rest : List HostOp) (i : Instr) (h : s.inputs = .writeReg 0 v :: rest)
      (hw : (v.setWidth 8, i) ∈ commandWords) (ht : exec i { s with inputs := rest } = .next t)
  /-- The host wrote an undefined word to CMD. -/
  | illegal (hi : s.phase = .idle) (v : BitVec 32) (rest : List HostOp) (h : s.inputs = .writeReg 0 v :: rest)
      (hw : ∀ i, (v.setWidth 8, i) ∉ commandWords) (ht : t = illegalCommand (v.setWidth 8) { s with inputs := rest })
  /-- The host did something else. -/
  | host (hi : s.phase = .idle) (op : HostOp) (rest : List HostOp) (h : s.inputs = op :: rest) (hop : ∀ v, op ≠ .writeReg 0 v)
      (ht : hostAct op { s with inputs := rest } = .next t)
  /-- A header element was run. -/
  | header (i : Instr) (h : fetchHeader s = .ok i) (hi : s.phase ≠ .idle) (ht : exec i s = .next t)
  /-- A header element could not be fetched. -/
  | headerFault (f : Raised) (h : fetchHeader s = .error f) (hi : s.phase ≠ .idle) (ht : t = raise f s)
  /-- The stuffed pair was run. -/
  | stuff (row : List Sample) (bits : List Bool) (hi : s.phase = .scan row bits) (h : atStuff s = true) (ht : exec .stuff s = .next t)
  /-- A DIFF was run. -/
  | diff (row : List Sample) (bits code extra : List Bool) (s1 : State) (hi : s.phase = .scan row bits)
      (h : readDiff row.length diffFuel bits s = (s1, .ok (code, extra))) (ht : exec (.diff code extra) s = .next t)
  /-- A DIFF could not be read. -/
  | scanFault (row : List Sample) (bits : List Bool) (f : Raised) (s1 : State) (hi : s.phase = .scan row bits)
      (h : readDiff row.length diffFuel bits s = (s1, .error f)) (ht : t = raise f s1)

/-- A step that answers does one of these. -/
theorem step_cases {t : State} (h : step s = .next t) : StepResult s t := by
  have hp := params_wf_of_step h
  cases hph : s.phase with
  | idle =>
    cases hin : s.inputs with
    | nil =>
      rw [step_idle hp hph hin] at h
      exact .idle hph hin (Host.Outcome.next.inj h).symm
    | cons op rest =>
      by_cases hop : ∃ v, op = .writeReg 0 v
      · obtain ⟨v, rfl⟩ := hop
        by_cases hw : ∃ i, (v.setWidth 8, i) ∈ commandWords
        · obtain ⟨i, hw⟩ := hw
          rw [step_defined_word hp hph hin hw] at h
          exact .command hph v rest i hin hw h
        · have hw' : ∀ i, (v.setWidth 8, i) ∉ commandWords := fun i hi => hw ⟨i, hi⟩
          rw [step_undefined_word hp hph hin hw'] at h
          exact .illegal hph v rest hin hw' (Host.Outcome.next.inj h).symm
      · have hop' : ∀ v, op ≠ .writeReg 0 v := fun v hv => hop ⟨v, hv⟩
        rw [step_host_act hp hph hin hop'] at h
        exact .host hph op rest hin hop' h
  | start c =>
    rw [step_header hp (.inl ⟨c, hph⟩)] at h
    cases hf : fetchHeader s with
    | ok i =>
      rw [hf] at h
      exact .header i hf (by simp [hph]) h
    | error f =>
      rw [hf] at h
      exact .headerFault f hf (by simp [hph]) (Host.Outcome.next.inj h).symm
  | header c sof =>
    rw [step_header hp (.inr ⟨c, sof, hph⟩)] at h
    cases hf : fetchHeader s with
    | ok i =>
      rw [hf] at h
      exact .header i hf (by simp [hph]) h
    | error f =>
      rw [hf] at h
      exact .headerFault f hf (by simp [hph]) (Host.Outcome.next.inj h).symm
  | scan row bits =>
    rw [step_scan hp hph] at h
    split at h
    · rename_i ha
      exact .stuff row bits hph ha h
    · cases hr : readDiff row.length diffFuel bits s with
      | mk s1 r =>
        rw [hr] at h
        cases r with
        | error f => exact .scanFault row bits f s1 hph hr (Host.Outcome.next.inj h).symm
        | ok d => exact .diff row bits d.1 d.2 s1 hph hr h

end Sys2Proof.Machine
end

