-- ==== Sys2Proof/Tests/Slice0.lean ====
section
/-! SUPPORT. The model's own tests: ill-formed terms are refused, words written out from the spec decode, single steps give the values of the
spec's worked examples, and every obligation's hypotheses can be met, each clause's at a boundary. -/

open Sys2Proof Sys2Proof.Machine

set_option Elab.async false

/-! ## Well-formedness: one ill-formed term for each check -/

theorem test_wf_segment_length_too_small : (Instr.sof3 1 []).wellFormed = false := by decide

theorem test_wf_segment_length_not_the_payloads : (Instr.dht 5 [0x00]).wellFormed = false := by decide

theorem test_wf_segment_payload_too_long : (Instr.sos 3 [0x00, 0x00]).wellFormed = false := by decide

theorem test_wf_diff_without_code : (Instr.diff [] [true]).wellFormed = false := by decide

theorem test_wf_diff_code_too_long : (Instr.diff (List.replicate 17 true) []).wellFormed = false := by decide

theorem test_wf_diff_extra_too_long : (Instr.diff [true] (List.replicate 17 true)).wellFormed = false := by decide

/-! ## Decoding: a word of every constructor, written from 30_encoding R80, R88, R90, R91, R93, R94, R95 -/

theorem test_decode_ljstart : decodeCommand 0b00000001 = .ok .ljstart := by decide

theorem test_decode_ljrow : decodeCommand 0b00000010 = .ok .ljrow := by decide

theorem test_decode_bilin : decodeCommand 0b00010000 = .ok .bilin := by decide

theorem test_decode_vngref : decodeCommand 0b00010001 = .ok .vngref := by decide

theorem test_decode_expsetup : decodeCommand 0b00100000 = .ok .expsetup := by decide

theorem test_decode_expapply : decodeCommand 0b00100001 = .ok .expapply := by decide

theorem test_decode_cmatrix : decodeCommand 0b00100010 = .ok .cmatrix := by decide

theorem test_decode_diagrs : decodeCommand 0b00110000 = .ok .diagrs := by decide

theorem test_decode_permute : decodeCommand 0b00110001 = .ok .permute := by decide

theorem test_decode_init : decodeCommand 0b11111111 = .ok .init := by decide

theorem test_decode_undefined_command : decodeCommand 0b00000011 = .error (.unknownCommand 3) := by decide

theorem test_decode_soi : decodeElement [0b11111111, 0b11011000] = .ok (.soi, []) := by decide

/-- The example of R90: 12 bits, 2 rows, 3 columns, 1 channel. -/
theorem test_decode_sof3 :
    decodeElement [0xFF, 0xC3, 0x00, 0x0B, 0x0C, 0x00, 0x02, 0x00, 0x03, 0x01, 0x01, 0x11, 0x00] =
      .ok (.sof3 11 [12, 0, 2, 0, 3, 1, 1, 0x11, 0], []) := by decide

/-- The example of R91: three 2-bit codes for the values 0, 1, 2. -/
theorem test_decode_dht :
    decodeElement ([0xFF, 0xC4, 0x00, 0x16, 0x00, 0, 3] ++ List.replicate 14 0 ++ [0, 1, 2]) =
      .ok (.dht 22 ([0, 0, 3] ++ List.replicate 14 0 ++ [0, 1, 2]), []) := by decide

/-- The example of R93, with the first data byte after it. -/
theorem test_decode_sos :
    decodeElement [0xFF, 0xDA, 0x00, 0x08, 0x01, 0x01, 0x00, 0x01, 0x00, 0x00, 0xA5] =
      .ok (.sos 8 [1, 1, 0, 1, 0, 0], [0xA5]) := by decide

theorem test_decode_stuff : decodeElement [0b11111111, 0b00000000] = .ok (.stuff, []) := by decide

theorem test_decode_reserved_marker : decodeElement [0xFF, 0xD9, 0x00, 0x02] = .error (.badMarker 0xFFD9) := by decide

/-- The table of R92's example. -/
def exampleTable : HuffTable := [⟨2, 0, 0⟩, ⟨2, 1, 1⟩, ⟨2, 2, 2⟩]

/-- The example of R95: `10 01` has n = 2 and extra bits 01. -/
theorem test_decode_diff :
    decodeDiff exampleTable 12 [true, false, false, true, true] = .ok (.diff [true, false] [false, true], [true]) := by decide

theorem test_table_word_command : decodeTableWord 8 0xFF = some .init := by decide

theorem test_table_word_element : decodeTableWord 16 0xFF00 = some .stuff := by decide

/-! ## Small states -/

/-- Bytes from address 0 on. -/
def bytesOf (l : List Nat) : List Host.Cell := l.zipIdx.map (fun p => (p.2, BitVec.ofNat 8 p.1))

/-- Samples from address 0 on. -/
def samplesOf (l : List Nat) : Memory Sample := l.zipIdx.map (fun p => (p.2, BitVec.ofNat 16 p.1))

/-- One number of the next state, 0 where there is none. -/
def after (o : Host.Outcome State Fault Refusal) (f : State → Nat) : Nat :=
  match o with
  | .next t => f t
  | .fault _ => 0
  | .refused _ => 0

/-- The four lanes of pixel `p` of the next state, as one list. -/
def pixelAfter (o : Host.Outcome State Fault Refusal) (p : Nat) : List Nat :=
  [after o (fun t => (t.sample (4 * p)).toNat), after o (fun t => (t.sample (4 * p + 1)).toNat),
    after o (fun t => (t.sample (4 * p + 2)).toNat), after o (fun t => (t.sample (4 * p + 3)).toNat)]

/-- A 2×1 image of three channels (42_exposure R175 a). -/
def camera : State :=
  { State.reset with
    width := 2, height := 1, colors := 3, cfa := 0x99449944, black := 128, maximum := 4095
    camMul := ⟨0x20000, 0x10000, 0x18000, 0⟩
    img0 := samplesOf [128, 4095, 100, 7, 1000, 2000, 3000, 9] }

/-- The state of 42_exposure R175 (c): gray world with a channel that has no samples. -/
def gray : State :=
  { State.reset with
    width := 2, height := 2, colors := 3, black := 10, maximum := 1010, ctrl := 0b01000
    img0 := samplesOf [110, 210, 0, 0, 210, 410, 0, 0, 5, 990, 0, 0, 310, 976, 0, 0] }

/-- The 4×4 RGGB mosaic of 41_demosaic R158. -/
def mosaic : State :=
  { State.reset with
    width := 4, height := 4, colors := 3, cfa := 0x99449944, clipMax := 1023
    img0 := samplesOf
      [10, 0, 0, 0, 0, 20, 0, 0, 30, 0, 0, 0, 0, 40, 0, 0,
       0, 50, 0, 0, 0, 0, 60, 0, 0, 70, 0, 0, 0, 0, 80, 0,
       90, 0, 0, 0, 0, 100, 0, 0, 110, 0, 0, 0, 0, 120, 0, 0,
       0, 130, 0, 0, 0, 0, 140, 0, 0, 150, 0, 0, 0, 0, 160, 0] }

/-- The 5×5 image of 41_demosaic R159 after BILIN. -/
def seeded : State :=
  { State.reset with
    width := 5, height := 5, colors := 3, cfa := 0x99449944, clipMax := 1023
    img0 := samplesOf (
      [100, 0, 0, 0, 0, 200, 0, 0, 110, 0, 0, 0, 0, 210, 0, 0, 120, 0, 0, 0] ++
      [0, 220, 0, 0, 120, 225, 50, 0, 125, 230, 55, 0, 130, 235, 60, 0, 0, 240, 0, 0] ++
      [130, 0, 0, 0, 135, 250, 60, 0, 140, 255, 65, 0, 145, 260, 70, 0, 150, 0, 0, 0] ++
      [0, 270, 0, 0, 150, 275, 70, 0, 155, 280, 75, 0, 160, 285, 80, 0, 0, 290, 0, 0] ++
      [160, 0, 0, 0, 0, 300, 0, 0, 170, 0, 0, 0, 0, 310, 0, 0, 180, 0, 0, 0]) }

/-- The 4×4 image of 43_geometry R192 (a). -/
def diagonal : State :=
  { State.reset with
    width := 4, height := 4, colors := 1, ctrl := 0b10000, diagMag := 2
    img0 := samplesOf
      [100, 5, 6, 7, 110, 5, 6, 7, 120, 5, 6, 7, 130, 5, 6, 7, 200, 5, 6, 7, 210, 5, 6, 7, 220, 5, 6, 7, 230, 5, 6, 7,
       300, 5, 6, 7, 310, 5, 6, 7, 320, 5, 6, 7, 330, 5, 6, 7, 400, 5, 6, 7, 410, 5, 6, 7, 420, 5, 6, 7, 430, 5, 6, 7] }

/-- The 2-row, 3-column image of 43_geometry R193 with an orientation. -/
def oriented (code : BitVec 3) : State :=
  { State.reset with
    width := 3, height := 2, colors := 1, orient := code, xmag := 1, ymag := 2
    img0 := samplesOf
      [0, 9, 9, 9, 1, 9, 9, 9, 2, 9, 9, 9, 3, 9, 9, 9, 4, 9, 9, 9, 5, 9, 9, 9] }

/-- A legal header of one channel, 2 bits, one row of two pixels: SOI, the DHT of 30_encoding R91's example, SOF3, SOS; then the data byte
of `row`. -/
def headerStream : List Nat :=
  [0xFF, 0xD8] ++ ([0xFF, 0xC4, 0x00, 0x16, 0x00, 0, 3] ++ List.replicate 14 0 ++ [0, 1, 2]) ++
    [0xFF, 0xC3, 0x00, 0x0B, 0x02, 0x00, 0x01, 0x00, 0x02, 0x01, 0x01, 0x11, 0x00] ++
    [0xFF, 0xDA, 0x00, 0x08, 0x01, 0x01, 0x00, 0x01, 0x00, 0x00] ++ [0b00011000]

/-- The image and stream registers for `headerStream`. -/
def scanner : State :=
  { State.reset with
    width := 2, height := 1, colors := 1, streamLen := 50
    str := bytesOf headerStream
    img0 := samplesOf [7, 7, 7, 7, 7, 7, 7, 7] }

/-- What LJSTART leaves of `scanner`: ready for the one row, whose data byte is at address 49. -/
def ready : State :=
  { scanner with
    status := 0b10010, spos := 49, ljBits := 2, ljWide := 2, ljHigh := 1, ljClrs := 1
    vpred := Quad.all 2
    ht := ⟨some exampleTable, none, none, none⟩ }

/-- Inside LJSTART, with these bytes at address 0 and this phase. -/
def inHeader (l : List Nat) (phase : Phase) : State :=
  { scanner with status := 0b00001, cmd := 0x01, str := bytesOf l, streamLen := BitVec.ofNat 32 l.length, phase := phase }

/-- Inside LJROW of a 12-bit frame of one row of two pixels, with these bytes at the cursor, this row and these pending bits. -/
def inScan (l : List Nat) (row : List Sample) (bits : List Bool) : State :=
  { ready with
    status := 0b10001, cmd := 0x02, str := bytesOf l, streamLen := BitVec.ofNat 32 l.length, spos := 0, ljBits := 12
    vpred := Quad.all 2048
    phase := .scan row bits }

/-! ## Single steps: the spec's worked examples -/

/-- 40_ljpeg R112, R115: the cursor after SOS, the predictor 1 << (2 - 1), LJ_READY and DONE. -/
theorem test_ljstart :
    (after (exec .ljstart scanner) (fun t => t.spos.toNat), after (exec .ljstart scanner) (fun t => t.vpred.c3.toNat),
      after (exec .ljstart scanner) (fun t => t.status.toNat)) = (49, 2, 0b10010) := by decide +kernel

/-- 30_encoding R88: a stream that does not start with SOI faults with the two bytes found. -/
theorem test_ljstart_no_soi :
    after (exec .ljstart { scanner with spos := 2 }) (fun t => t.errInfo.toNat) = 0xFFC4 := by decide +kernel

/-- 40_ljpeg R118, R123: `00` repeats the predictor 2, `01 1` adds 1; FC = 0, so lane 0 gets the samples and the others 0. -/
theorem test_ljrow :
    (pixelAfter (exec .ljrow ready) 0, pixelAfter (exec .ljrow ready) 1,
      after (exec .ljrow ready) (fun t => 8 * t.spos.toNat + t.sbit.toNat)) = ([2, 0, 0, 0], [3, 0, 0, 0], 8 * 49 + 5) := by
  decide +kernel

/-- 40_ljpeg R118: without LJ_READY, E_SEQ. -/
theorem test_ljrow_sequence : after (exec .ljrow scanner) (fun t => t.errCode.toNat) = 12 := by decide +kernel

/-- 41_demosaic R158: pixels (1,1) and (1,2). -/
theorem test_bilin :
    (pixelAfter (exec .bilin mosaic) 5, pixelAfter (exec .bilin mosaic) 6) = ([60, 60, 60, 0], [70, 70, 70, 0]) := by
  decide +kernel

/-- 60_exceptions R220 (a): BILIN right after reset. -/
theorem test_bilin_after_reset :
    (after (exec .bilin State.reset) (fun t => t.errCode.toNat), after (exec .bilin State.reset) (fun t => t.errStage.toNat),
      after (exec .bilin State.reset) (fun t => t.status.toNat)) = (10, 0x10, 0b00100) := by decide +kernel

/-- 41_demosaic R159: the one refined pixel. -/
theorem test_vngref : pixelAfter (exec .vngref seeded) 12 = [140, 255, 65, 0] := by decide +kernel

/-- 41_demosaic R152: CLIP_MAX not loaded. -/
theorem test_vngref_clip : after (exec .vngref { seeded with clipMax := 0 }) (fun t => t.errCode.toNat) = 10 := by decide +kernel

/-- 42_exposure R175 (a). -/
theorem test_expsetup_camera :
    (after (exec .expsetup camera) (fun t => t.shift.toNat), after (exec .expsetup camera) (fun t => t.premul.c0.toNat),
      after (exec .expsetup camera) (fun t => t.premul.c2.toNat), after (exec .expsetup camera) (fun t => t.clipMax.toNat)) =
      (4, 0x200000, 0x180000, 63472) := by decide +kernel

/-- 42_exposure R175 (c). -/
theorem test_expsetup_gray :
    (after (exec .expsetup gray) (fun t => t.gwSum.c1.toNat), after (exec .expsetup gray) (fun t => t.gwCnt.c0.toNat),
      after (exec .expsetup gray) (fun t => t.premul.c0.toNat), after (exec .expsetup gray) (fun t => t.warnFlags.toNat)) =
      (1566, 4, 0xDEB851, 0b0100) := by decide +kernel

/-- `camera` as its EXPSETUP leaves it. -/
def exposed : State :=
  { camera with premul := ⟨0x200000, 0x100000, 0x180000, 0⟩, clipMax := 63472 }

/-- 42_exposure R175 (a). -/
theorem test_expapply :
    (pixelAfter (exec .expapply exposed) 0, pixelAfter (exec .expapply exposed) 1) =
      ([0, 63472, 0, 7], [27904, 29952, 63472, 9]) := by decide +kernel

/-- The matrix and pixels of 42_exposure R172's example. -/
def matrix : State :=
  { State.reset with
    width := 2, height := 1, colors := 3, clipMax := 1000
    cmat := ⟨⟨0x18000, 0xFFFF8000, 0, 0⟩, ⟨0xFFFFC000, 0x14000, 0, 0⟩, ⟨0, 0xFFFF0000, 0x20000, 0⟩⟩
    img0 := samplesOf [400, 200, 100, 77, 101, 200, 600, 77] }

/-- 42_exposure R172. -/
theorem test_cmatrix :
    (pixelAfter (exec .cmatrix matrix) 0, pixelAfter (exec .cmatrix matrix) 1) = ([500, 150, 0, 77], [51, 224, 1000, 77]) := by
  decide +kernel

/-- 43_geometry R192 (a): the four output pixels' lane 0, a background lane, the new bank. -/
theorem test_diagrs :
    ((List.range 4).map (fun p => after (exec .diagrs diagonal) (fun t => (t.sample (4 * p)).toNat)),
      after (exec .diagrs diagonal) (fun t => (t.sample 1).toNat), after (exec .diagrs diagonal) (fun t => t.imgSel.toNat)) =
      ([300, 236, 377, 314], 0, 1) := by decide +kernel

/-- 43_geometry R193, code 5. -/
theorem test_permute_counterclockwise :
    (List.range 6).map (fun p => after (exec .permute (oriented 5)) (fun t => (t.sample (4 * p)).toNat)) =
      [2, 5, 1, 4, 0, 3] := by decide +kernel

/-- 43_geometry R193, code 6, and the swapped registers. -/
theorem test_permute_clockwise :
    ((List.range 6).map (fun p => after (exec .permute (oriented 6)) (fun t => (t.sample (4 * p)).toNat)),
      after (exec .permute (oriented 6)) (fun t => t.width.toNat), after (exec .permute (oriented 6)) (fun t => t.xmag.toNat)) =
      ([3, 0, 4, 1, 5, 2], 2, 2) := by decide +kernel

/-- 60_exceptions R208, R220 (a): INIT leaves STATUS and ERR_CODE 0 after a fault, and the image as it was. -/
theorem test_init :
    (after (exec .init { camera with status := 4, errCode := 10 }) (fun t => t.status.toNat + t.errCode.toNat + t.width.toNat),
      after (exec .init { camera with status := 4, errCode := 10 }) (fun t => (t.sample 1).toNat)) = (0, 4095) := by
  decide +kernel

/-- 30_encoding R88. -/
theorem test_soi :
    after (exec .soi (inHeader [0xFF, 0xD8] (.start ⟨0, 0⟩))) (fun t => 10 * t.spos.toNat + (decide (t.phase = .header ⟨0, 0⟩ false)).toNat) =
      21 := by decide +kernel

/-- 95_test_vectors V20: a header fault, here SOS without a SOF3, leaves SPOS and SBIT, and in ERR_POS SPOS, as LJSTART was started with. -/
theorem test_header_fault_position :
    (match exec (.sos 2 []) { inHeader [] (.header ⟨7, 3⟩ false) with spos := 9 } with
      | .next t => (t.errInfo, t.errPos, t.spos, t.sbit)
      | .fault _ => (0, 0, 0, 0)
      | .refused _ => (0, 0, 0, 0)) = (0xFFDA, 7, 7, 3) := by decide +kernel

/-- 30_encoding R90: the frame of the example. -/
theorem test_sof3 :
    after (exec (.sof3 11 [12, 0, 2, 0, 3, 1, 1, 0x11, 0]) (inHeader [] (.header ⟨0, 0⟩ false)))
      (fun t => 1000 * t.ljBits.toNat + 100 * t.ljHigh.toNat + 10 * t.ljWide.toNat + t.ljClrs.toNat) = 12231 := by decide +kernel

/-- 30_encoding R91: HT[0] of the example. -/
theorem test_dht :
    (match exec (.dht 22 ([0, 0, 3] ++ List.replicate 14 0 ++ [0, 1, 2])) (inHeader [] (.header ⟨0, 0⟩ false)) with
      | .next t => t.ht.c0
      | .fault _ => none
      | .refused _ => none) = some exampleTable := by decide +kernel

/-- 30_encoding R93: the lowest undefined table of a used channel is reported. -/
theorem test_sos_missing_table :
    after (exec (.sos 2 []) { inHeader [] (.header ⟨0, 0⟩ true) with ljClrs := 2, ht := ⟨some exampleTable, none, none, none⟩ })
      (fun t => 100 * t.errCode.toNat + t.errInfo.toNat) = 201 := by decide +kernel

/-- 30_encoding R94: the eight ones of FF 00 are no code of the example's table, and the cursor moves two bytes on. -/
theorem test_stuff :
    after (exec .stuff { inScan [0xFF, 0x00] [] [] with ctrl := 4 }) (fun t => t.spos.toNat) = 2 := by decide +kernel

/-- 40_ljpeg R120: bits 12, predictor 2048, n = 2 and raw 01 is the difference -2. -/
theorem test_diff :
    (match exec (.diff [true, false] [false, true]) (inScan [0b10010000] [] []) with
      | .next t => (t.phase, t.sbit.toNat)
      | .fault _ => (.idle, 0)
      | .refused _ => (.idle, 0)) = (.scan [2046] [], 4) := by decide +kernel

/-- 40_ljpeg R120: a sum above the depth faults with the sum. -/
theorem test_diff_sample :
    after (exec (.diff [false, true] [true]) { inScan [0b01100000] [] [] with vpred := Quad.all 4095 })
      (fun t => 10000 * t.errCode.toNat + t.errInfo.toNat) = 74096 := by decide +kernel

/-- The host writes BILIN's word to CMD, and the step runs it (30_encoding R81). -/
theorem test_step_runs_command :
    after (step ({ camera with width := 0 }.withFetchWord 8 0x10)) (fun t => t.errStage.toNat) = 0x10 := by decide +kernel

/-- 70_reset R239, 10_state R24: with LJ_READY = 1 the host moves the cursor from bit 5 of byte 49 to the start of byte 48, from where LJROW then reads. -/
theorem test_host_moves_cursor :
    (after (step { ready with sbit := 5, inputs := [.writeReg 0x16 48] }) (fun t => 8 * t.spos.toNat + t.sbit.toNat),
      after (exec .ljrow { ready with spos := 48 }) (fun t => 8 * t.spos.toNat + t.sbit.toNat)) = (8 * 48, 8 * 48 + 4) := by
  decide +kernel

/-- 10_state R45, R46: SBIT is read-only, so a write of its number is ignored. -/
theorem test_host_write_ignored :
    after (step { ready with sbit := 5, inputs := [.writeReg 0x17 2] }) (fun t => 8 * t.spos.toNat + t.sbit.toNat) = 8 * 49 + 5 := by
  decide +kernel

/-! ## The statements' hypotheses can be met

One theorem per statement that has hypotheses, named after it: concrete states and operands, for each clause one, at the ends of its range. -/

/-- `leafAt` by evaluation. -/
theorem leafAt_of {t : HuffTable} {code : List Bool} {n : Nat}
    (h : (decide (1 ≤ code.length ∧ code.length ≤ 16 ∧ t.lookup code = some n ∧
      ∀ j, j < code.length → 1 ≤ j → t.lookup (code.take j) = none)) = true) : leafAt t code n :=
  have h := of_decide_eq_true h
  ⟨h.1, h.2.1, h.2.2.1, fun j h1 h2 => h.2.2.2 j h2 h1⟩

/-- `legalImage`, `legalCfa`, `legalStream` and `accepting` by evaluation. -/
theorem healthy_of {s : State}
    (h : (imageRegsFault s == none && cfaFault s == none && streamFault s == none && !s.busy && !s.faulted) = true) :
    s.accepting ∧ s.legalImage ∧ s.legalCfa ∧ s.legalStream := by
  simp only [Bool.and_eq_true, beq_iff_eq, Bool.not_eq_true'] at h
  obtain ⟨⟨⟨⟨h1, h2⟩, h3⟩, h4⟩, h5⟩ := h
  exact ⟨⟨h4, h5⟩, (imageRegsFault_eq_none_iff s).1 h1, (cfaFault_eq_none_iff s).1 h2, (streamFault_eq_none_iff s).1 h3⟩

/-- A segment of 2 and more zero bytes. -/
theorem longest_segment (n : Nat) (h : n + 2 < 2 ^ 16 := by decide) :
    (Instr.sos (BitVec.ofNat 16 (n + 2)) (List.replicate n 0)).wellFormed = true := by
  simp only [Instr.wellFormed, segmentWellFormed, List.length_replicate, BitVec.toNat_ofNat, Nat.mod_eq_of_lt h]
  simp

/-- The shortest and the longest segment, and the DIFF of 30_encoding R95. -/
theorem witness_DecodeInvertsEncode :
    (Instr.dht 2 []).wellFormed = true ∧ (Instr.sos (BitVec.ofNat 16 (65533 + 2)) (List.replicate 65533 0)).wellFormed = true ∧
    ((Instr.diff [true, false] [false, true]).wellFormed = true ∧ leafAt exampleTable [true, false] 2 ∧ 2 ≤ 12) :=
  ⟨by decide, longest_segment 65533, by decide, leafAt_of (by decide), by decide⟩

theorem witness_DecodedElementReencodes : ∃ bytes i rest, decodeElement bytes = .ok (i, rest) ∧ rest ≠ [] :=
  ⟨_, _, _, test_decode_sos, by decide⟩

/-- Both cases at both ends: n = 16 and n = 1, at the least raw value of the upper half and the greatest of the lower. -/
theorem witness_DifferenceValueRanges :
    ((0x8000 : Nat) < 2 ^ 16 ∧ 2 ^ 15 ≤ (0x8000 : Nat)) ∧ ((0x7FFF : Nat) < 2 ^ 16 ∧ (0x7FFF : Nat) < 2 ^ 15) ∧
    diffValue 16 0x8000 = 32768 ∧ diffValue 16 0x7FFF = -32768 ∧ diffValue 1 1 = 1 ∧ diffValue 1 0 = -1 := by decide

/-- The counts of 30_encoding R92's example. -/
def exampleCounts : List Byte := [0, 3] ++ List.replicate 14 0

theorem witness_BuiltTablesArePrefixFree :
    exampleCounts.length = 16 ∧ (∀ v ∈ ([0, 1, 16] : List Byte), v.toNat ≤ 16) ∧
    buildTable exampleCounts [0, 1, 16] = .ok [⟨2, 0, 0⟩, ⟨2, 1, 1⟩, ⟨2, 2, 16⟩] := by decide

/-- A table; and length vectors over-subscribed at the first and at the last length. -/
theorem witness_CanonicalCodeAssignment :
    (exampleCounts.length = 16 ∧ ([0, 1, 2] : List Byte).length = (exampleCounts.map (·.toNat)).sum ∧
      buildTable exampleCounts [0, 1, 2] = .ok exampleTable) ∧
    buildTable (3 :: List.replicate 15 0) [0, 1, 2] = .error 1 ∧
    buildTable (List.replicate 15 1 ++ [3]) (List.replicate 18 0) = .error 16 := by decide

/-- `s` with these host actions to come. -/
def withInputs (s : State) (l : List HostOp) : State := { s with inputs := l }

/-- A write to CMD whose low byte is BILIN's word, and nothing to do. -/
theorem witness_StepRunsCommandWord :
    (let s := withInputs State.reset [.writeReg 0 0x110];
      s.params.wf = true ∧ s.phase = .idle ∧ s.inputs = .writeReg 0 0x110 :: [] ∧
        ((0x110 : BitVec 32).setWidth 8, Instr.bilin) ∈ commandWords) ∧
    (State.reset.params.wf = true ∧ State.reset.phase = .idle ∧ State.reset.inputs = []) := by
  refine ⟨⟨?_, ?_, ?_, ?_⟩, ?_, ?_, ?_⟩ <;> decide

theorem witness_StepRunsStreamElement_soi :
    let s := inHeader [0xFF, 0xD8] (.start ⟨0, 0⟩)
    s.params.wf = true ∧ s.phase = .start ⟨0, 0⟩ ∧ s.holdsAt 0 [0xFF, 0xD8] :=
  ⟨by decide, rfl, State.holdsAt_of_window _ (by decide)⟩

/-- A segment with no payload. -/
theorem witness_StepRunsStreamElement_segment :
    let s := inHeader [0xFF, 0xDA, 0, 2] (.header ⟨0, 0⟩ true)
    s.params.wf = true ∧ s.phase = .header ⟨0, 0⟩ true ∧ (Instr.sos 2 []).wellFormed = true ∧
      encode (.sos 2 []) = .bytes [0xFF, 0xDA, 0, 2] ∧ s.holdsAt 0 [0xFF, 0xDA, 0, 2] :=
  ⟨by decide, rfl, by decide, by decide, State.holdsAt_of_window _ (by decide)⟩

/-- Stuffed data: the pair FF 00 at the cursor. -/
def stuffedScan : State := { inScan [0xFF, 0x00, 0xFF, 0x01] [] [] with ctrl := 4 }

theorem witness_StepRunsStreamElement_stuff :
    stuffedScan.params.wf = true ∧ stuffedScan.phase = .scan [] [] ∧ stuffedScan.stuffed = true ∧ stuffedScan.sbit = 0 ∧
      stuffedScan.holdsAt stuffedScan.spos.toNat [0xFF, 0x00] :=
  ⟨by decide, rfl, by decide, by decide, State.holdsAt_of_window _ (by decide)⟩

/-- Unstuffed data, and a DIFF begun by a pair already taken. -/
theorem witness_StepRunsStreamElement_diff :
    (let s := inScan [0b10010000] [] [];
      s.params.wf = true ∧ s.phase = .scan [] [] ∧ s.stuffed = false ∧
        takeBits 4 s = ((takeBits 4 s).1, .ok [true, false, false, true]) ∧
        ([] ++ [true, false, false, true] : List Bool) = [true, false] ++ [false, true] ∧
        leafAt (s.table (s.diffChannel 0)) [true, false] 2 ∧ 2 ≤ s.ljBits.toNat) ∧
    (let s := { inScan [0b01000000] [] [true, false] with ctrl := 4 };
      s.phase = .scan [] [true, false] ∧ ¬s.holdsAt s.spos.toNat [0xFF, 0x00] ∧
        takeBits 2 s = ((takeBits 2 s).1, .ok [false, true]) ∧
        leafAt (s.table (s.diffChannel 0)) [true, false] 2) := by
  refine ⟨⟨by decide, rfl, by decide, rfl, rfl, leafAt_of (by decide), by decide⟩, rfl, fun h => ?_, rfl, leafAt_of (by decide)⟩
  exact absurd (h 0 0xFF rfl) (by decide)

theorem witness_IllegalWordFaults :
    let s := withInputs State.reset [.writeReg 0 0x12]
    s.params.wf = true ∧ s.phase = .idle ∧ s.accepting ∧ s.inputs = .writeReg 0 0x12 :: [] ∧
      (∀ i, ((0x12 : BitVec 32).setWidth 8, i) ∉ commandWords) :=
  ⟨by decide, rfl, ⟨by decide, by decide⟩, rfl, fun i h => by simp [commandWords] at h⟩

/-- A latched fault, with a command's word, INIT's word and a register read. -/
theorem witness_RefusedWhileFaulted :
    let s := { State.reset with status := 4, errCode := 10 }
    (((0x31 : BitVec 8), Instr.permute) ∈ commandWords ∧ s.busy = false ∧ s.faulted = true) ∧
    (s.params.wf = true ∧ s.phase = .idle ∧ (withInputs s [.writeReg 0 0x01]).inputs = .writeReg 0 0x01 :: [] ∧
      ((0x01 : BitVec 32).setWidth 8 : BitVec 8) ≠ 0xFF ∧ ((0xFFF : BitVec 32).setWidth 8 : BitVec 8) = 0xFF) ∧
    ∀ v, HostOp.readReg 1 ≠ .writeReg 0 v := by
  refine ⟨⟨?_, ?_, ?_⟩, ⟨?_, ?_, ?_, ?_, ?_⟩, fun v => by simp⟩ <;> decide

/-- BUSY set, with a write of each kind, the memories' at their last address. -/
theorem witness_WritesIgnoredWhileBusy :
    (let s := withInputs { State.reset with status := 1 } [.writeReg 9 5];
      s.params.wf = true ∧ s.phase = .idle ∧ s.busy = true ∧ s.inputs = .writeReg 9 5 :: []) ∧
    (let s := withInputs { State.reset with status := 1 } [.writeByte 16777215 5];
      s.busy = true ∧ s.inputs = .writeByte 16777215 5 :: [] ∧ 16777215 < s.params.strCap) ∧
    (let s := withInputs { State.reset with status := 1 } [.writeSample 67108863 5];
      s.busy = true ∧ s.inputs = .writeSample 67108863 5 :: [] ∧ 67108863 < 4 * s.params.imgCap) := by
  refine ⟨⟨?_, ?_, ?_, ?_⟩, ⟨?_, ?_, ?_⟩, ?_, ?_, ?_⟩ <;> decide

/-- With and without a latched fault. -/
theorem witness_InitRestoresResetValues :
    camera.busy = false ∧ ({ camera with status := 4, errCode := 10 } : State).busy = false := by decide

theorem witness_ResetReadsZero :
    let s := withInputs camera [.hardwareReset]
    s.params.wf = true ∧ s.phase = .idle ∧ s.inputs = .hardwareReset :: [] := by
  refine ⟨?_, ?_, ?_⟩ <;> decide

/-- A 3-bit register, SPOS, SBIT, the last writable and the first read-only number of the groups, and a reserved number; SBIT read-only and not. -/
theorem witness_HostWritesRegister :
    ∀ n ∈ [0x0B, 0x16, 0x17, 0x33, 0x34, 0x40], ∀ w : Bool,
      let s : State := { camera with inputs := [.writeReg n 0xFFFFFFFF], params := { camera.params with sbitWritable := w } }
      s.params.wf = true ∧ s.phase = .idle ∧ s.busy = false ∧ n ≠ 0 ∧ s.inputs = .writeReg n 0xFFFFFFFF :: [] := by
  intro n hn w
  refine ⟨show camera.params.wf = true by decide, rfl, show camera.busy = false by decide, ?_, rfl⟩
  simp only [List.mem_cons, List.not_mem_nil, or_false] at hn
  omega

/-- A register read, at the first and the last number of the table, and of the unlisted numbers beside them; a byte and a sample read back, at the first and at the last address. -/
theorem witness_HostReadsWhatIsHeld :
    (let s := withInputs camera [.readReg 0x0F];
      s.params.wf = true ∧ s.phase = .idle ∧ s.busy = false ∧ s.inputs = .readReg 0x0F :: [] ∧
        (0x01, 0) ∈ s.registerTable ∧ (0x3F, 0) ∈ s.registerTable ∧ 0x00 ∉ s.registerTable.map (·.1) ∧ 0x40 ∉ s.registerTable.map (·.1)) ∧
    (let s := withInputs camera [.writeByte 0 7, .readByte 16777215];
      0 < s.params.strCap ∧ 16777215 < s.params.strCap ∧ s.inputs = .writeByte 0 7 :: .readByte 16777215 :: []) ∧
    (let s := withInputs camera [.writeSample 67108863 7, .readSample 67108863];
      67108863 < 4 * s.params.imgCap ∧ s.inputs = .writeSample 67108863 7 :: .readSample 67108863 :: []) := by
  refine ⟨by decide +kernel, ⟨?_, ?_, ?_⟩, ?_, ?_⟩ <;> decide

/-- A zero dimension, COLORS 0 and 2, one row too many; and LJROW with LJ_READY. -/
theorem witness_ImageRegisterChecks :
    (((0x30 : BitVec 8), Instr.diagrs) ∈ commandWords ∧ ((0x02 : BitVec 8), Instr.ljrow) ∈ commandWords) ∧
    (let s : State := { camera with height := 0 };
      s.busy = false ∧ s.faulted = false ∧ s.height = 0) ∧
    (∀ n ∈ [(0 : BitVec 3), 2, 7], let s : State := { ready with colors := n };
      s.busy = false ∧ s.faulted = false ∧ s.ljReady = true ∧ s.width ≠ 0 ∧ s.height ≠ 0 ∧
        s.colors ≠ 1 ∧ s.colors ≠ 3 ∧ s.colors ≠ 4) ∧
    (let s : State := { camera with width := 4096, height := 4097 };
      s.width ≠ 0 ∧ s.height ≠ 0 ∧ s.colors = 3 ∧ s.params.imgCap < s.width.toNat * s.height.toNat) := by decide

/-- The lowest and the highest field of the CFA word. -/
theorem witness_CfaFieldCheck :
    (let s : State := { ready with cfa := 1 };
      (s.accepting ∧ s.legalImage ∧ s.ljReady = true) ∧ s.colors.toNat ≤ s.cfaNumber 0 ∧ (∀ j, j < 0 → s.cfaNumber j < s.colors.toNat)) ∧
    (let s : State := { camera with cfa := 0xD9449944 };
      (s.accepting ∧ s.legalImage) ∧ s.colors.toNat ≤ s.cfaNumber 15 ∧ (∀ j, j < 15 → s.cfaNumber j < s.colors.toNat)) := by
  refine ⟨⟨?_, ?_, ?_⟩, ?_, ?_, ?_⟩
  · unfold State.accepting State.legalImage; decide
  · decide
  · decide
  · unfold State.accepting State.legalImage; decide
  · decide
  · decide

/-- LJROW before LJSTART; a stream one byte too long; a frame one column too wide. -/
theorem witness_LjCommandChecks :
    (scanner.busy = false ∧ scanner.faulted = false ∧ scanner.ljReady = false) ∧
    (let s : State := { ready with streamLen := 16777217 };
      s.accepting ∧ s.ljReady = true ∧ s.legalImage ∧ s.legalCfa ∧ s.params.strCap < s.streamLen.toNat) ∧
    (let s : State := { ready with ljWide := 3 };
      (s.accepting ∧ s.legalImage ∧ s.legalCfa ∧ s.legalStream) ∧ s.ljReady = true ∧ ¬s.frameMatches) := by
  refine ⟨by decide, ?_, healthy_of (by decide), by decide, fun h => absurd h.1 (by decide)⟩
  unfold State.accepting State.legalImage State.legalCfa
  decide

/-- CLIP_MAX 0; MAXIMUM equal to BLACK; the last used multiplier 0. -/
theorem witness_ExposureChecks :
    ((mosaic.accepting ∧ mosaic.legalImage ∧ mosaic.legalCfa ∧ mosaic.legalStream) ∧
      (let s : State := { mosaic with clipMax := 0 }; s.clipMax = 0 ∧ s.quick = false)) ∧
    ((camera.accepting ∧ camera.legalImage ∧ camera.legalCfa ∧ camera.legalStream) ∧
      (let s : State := { camera with maximum := 128 }; s.maximum.toNat ≤ s.black.toNat)) ∧
    (let s : State := { camera with camMul := ⟨1, 1, 0, 0⟩ };
      (s.accepting ∧ s.legalImage ∧ s.legalCfa ∧ s.legalStream) ∧ s.black.toNat < s.maximum.toNat ∧ s.grayWorld = false ∧
        (2 : Lane).val < s.colors.toNat ∧ s.camMul.get 2 = 0 ∧ (∀ d : Lane, d.val < (2 : Lane).val → s.camMul.get d ≠ 0)) := by
  refine ⟨⟨healthy_of (by decide), by decide⟩, ⟨healthy_of (by decide), by decide⟩, healthy_of (by decide), ?_⟩
  decide

/-- A column of `h` pixels with DIAGRS enabled. -/
def column (h mag : BitVec 16) : State := { State.reset with width := 1, height := h, colors := 1, ctrl := 0b10000, diagMag := mag }

/-- DIAG_MAG 0, HEIGHT, and the least for which the new image is too wide; and an image of 4096 by 4097 pixels. -/
theorem witness_DiagrsChecks :
    (let s := column 4 0;
      (s.accepting ∧ s.legalImage ∧ s.legalCfa ∧ s.legalStream) ∧ s.diagEnabled = true ∧ s.diagMag = 0) ∧
    (let s := column 4 4;
      (s.accepting ∧ s.legalImage ∧ s.legalCfa ∧ s.legalStream) ∧ s.height.toNat ≤ s.diagMag.toNat) ∧
    (let s := column 46342 46341;
      (s.accepting ∧ s.legalImage ∧ s.legalCfa ∧ s.legalStream) ∧ 65535 < s.diagMag.toNat * 65536 / 46341) ∧
    (let s := column 5794 2897;
      (s.accepting ∧ s.legalImage ∧ s.legalCfa ∧ s.legalStream) ∧ s.diagMag ≠ 0 ∧ s.diagMag.toNat < s.height.toNat ∧
        s.diagMag.toNat * 65536 / 46341 = 4096 ∧ (s.height.toNat - s.diagMag.toNat) * 65536 / 46341 = 4096) ∧
    (let s := column 5795 2897;
      (s.accepting ∧ s.legalImage ∧ s.legalCfa ∧ s.legalStream) ∧
        s.params.imgCap < (s.diagMag.toNat * 65536 / 46341) * ((s.height.toNat - s.diagMag.toNat) * 65536 / 46341)) :=
  ⟨⟨healthy_of (by decide), by decide⟩, ⟨healthy_of (by decide), by decide⟩, ⟨healthy_of (by decide), by decide⟩,
    ⟨healthy_of (by decide), by decide⟩, healthy_of (by decide), by decide⟩

/-- The definition of `headerStream`'s DHT segment. -/
def exampleDefinition : TableDefinition := { id := 0, counts := exampleCounts, vals := [0, 1, 2], table := exampleTable }

theorem exampleDefinition_legal : exampleDefinition.legal := by
  unfold TableDefinition.legal
  decide

/-- The frame of `headerStream`. -/
def exampleFrame : FrameHeader := { bits := 2, rows := 1, columns := 2, channels := 1, components := [0x01, 0x11, 0x00] }

theorem exampleFrame_legal : exampleFrame.legal := by
  unfold FrameHeader.legal
  decide

/-- `scanner` with a DHT before the SOF3. -/
theorem witness_LjstartParsesHeader :
    (scanner.accepting ∧ scanner.legalImage ∧ scanner.legalCfa ∧ scanner.legalStream) ∧
    (∀ ds ∈ [[exampleDefinition]] ++ [], ds ≠ [] ∧ (∀ d ∈ ds, d.legal) ∧ fitsSegment (definitionsBytes ds)) ∧
    exampleFrame.legal ∧ fitsSegment [1, 1, 0, 1, 0, 0] ∧
    (∀ c : Lane, c.val < exampleFrame.channels →
      ((storeAll ([[exampleDefinition]] ++ []).flatten (Quad.all none)).get c).isSome = true) ∧
    exampleFrame.columns * exampleFrame.channels = scanner.width.toNat ∧ exampleFrame.rows = scanner.height.toNat ∧
    scanner.holdsAt scanner.spos.toNat (headerBytes [[exampleDefinition]] exampleFrame [] [1, 1, 0, 1, 0, 0]) := by
  refine ⟨healthy_of (by decide), ?_, exampleFrame_legal, ?_, by decide, by decide, by decide, State.holdsAt_of_window _ (by decide +kernel)⟩
  · simp only [List.append_nil, List.mem_singleton, forall_eq]
    exact ⟨by decide, exampleDefinition_legal, by unfold fitsSegment; decide⟩
  · unfold fitsSegment; decide

/-- 1 after a next state without a fault, 2 after one with a fault, 0 where there is none. -/
def verdict (o : Host.Outcome State Fault Refusal) : Nat := after o (fun t => 1 + t.faulted.toNat)

/-- An LJSTART that completes, and one that faults. -/
theorem witness_LjstartOutcome :
    (scanner.accepting ∧ scanner.legalImage ∧ scanner.legalCfa ∧ scanner.legalStream) ∧
    verdict (exec .ljstart scanner) = 1 ∧ verdict (exec .ljstart { scanner with spos := 2 }) = 2 :=
  ⟨healthy_of (by decide), by decide +kernel, by decide +kernel⟩

theorem witness_LjstartIsItsElements :
    scanner.params.wf = true ∧ (scanner.accepting ∧ scanner.legalImage ∧ scanner.legalCfa ∧ scanner.legalStream) :=
  ⟨by decide, healthy_of (by decide)⟩

/-- The codes of `exampleTable`. -/
def exampleCodes (_ n : Nat) : List Bool := [[false, false], [false, true], [true, false]].getD n []

theorem ready_healthy : ready.accepting ∧ ready.legalImage ∧ ready.legalCfa ∧ ready.legalStream := healthy_of (by decide)

theorem ready_frame : ready.frameMatches ∧ ready.frameLegal ∧ ready.predictorsLegal := by
  unfold State.frameMatches State.frameLegal State.predictorsLegal
  decide

/-- `ready` with samples of 12 bits, so that its table has no code for most bit lengths. -/
def deep : State := { ready with ljBits := 12, vpred := Quad.all 2048 }

theorem deep_codes (j n : Nat) (hj : j < 2) (hn : n = bitLength (deep.differenceOf [2048, 2049] j)) :
    leafAt (deep.table (deep.diffChannel j)) (exampleCodes (j % 1) n) n := by
  have h0 : bitLength (deep.differenceOf [2048, 2049] 0) = 0 := by decide +kernel
  have h1 : bitLength (deep.differenceOf [2048, 2049] 1) = 1 := by decide +kernel
  obtain rfl | rfl : j = 0 ∨ j = 1 := by omega
  · rw [hn, h0]
    exact leafAt_of (by decide)
  · rw [hn, h1]
    exact leafAt_of (by decide)

/-- The row 2048, 2049 of `deep`, whose bits are 00 011. -/
theorem witness_LjrowDecodesRow :
    (deep.accepting ∧ deep.legalImage ∧ deep.legalCfa ∧ deep.legalStream) ∧ deep.ljReady = true ∧
    (deep.frameMatches ∧ deep.frameLegal ∧ deep.predictorsLegal) ∧
    (deep.width.toNat = 2 ∧ deep.ljBits.toNat = 12 ∧ deep.ljClrs.toNat = 1) ∧
    ((2048 : Sample).toNat < 2 ^ 12 ∧ (2049 : Sample).toNat < 2 ^ 12) ∧
    (∀ j n, j < 2 → n = bitLength (deep.differenceOf [2048, 2049] j) →
      leafAt (deep.table (deep.diffChannel j)) (exampleCodes (j % 1) n) n) ∧
    deep.rowBits exampleCodes [2048, 2049] = [false, false, false, true, true] ∧
    (takeBits 5 deep).2 = .ok [false, false, false, true, true] := by
  refine ⟨healthy_of (by decide), by decide, ?_, by decide, by decide, deep_codes, by decide +kernel, by decide +kernel⟩
  unfold State.frameMatches State.frameLegal State.predictorsLegal
  decide

/-- A row that meets a reserved code. -/
theorem witness_LjrowFaultLeavesImage :
    ready.accepting ∧ verdict (exec .ljrow { ready with str := bytesOf (List.replicate 50 0xFF) }) = 2 :=
  ⟨ready_healthy.1, by decide +kernel⟩

theorem witness_LjrowIsItsElements :
    ready.params.wf = true ∧ (ready.accepting ∧ ready.legalImage ∧ ready.legalCfa ∧ ready.legalStream) ∧ ready.ljReady = true ∧
      ready.frameMatches :=
  ⟨by decide, ready_healthy, by decide, ready_frame.1⟩

/-- The data FF 80 in either mode. -/
theorem witness_BitReaderDeliversBytes :
    (let s : State := { inScan [0xFF, 0x00, 0x80] [] [] with ctrl := 4 };
      s.sbit = 0 ∧ s.stuffed = true ∧ s.holdsAt s.spos.toNat (stuffBytes [0xFF, 0x80])) ∧
    (let s := inScan [0xFF, 0x80] [] [];
      s.sbit = 0 ∧ s.stuffed = false ∧ s.holdsAt s.spos.toNat [0xFF, 0x80]) :=
  ⟨⟨by decide, by decide, State.holdsAt_of_window _ (by decide)⟩, by decide, by decide, State.holdsAt_of_window _ (by decide)⟩

/-- A scan whose table has one code, of sixteen bits: a one and fifteen zeros. -/
def longCode (l : List Nat) (control : BitVec 5) : State :=
  { inScan l [] [] with ctrl := control, ht := ⟨some [⟨16, 0x8000, 3⟩], none, none, none⟩ }

/-- No byte, at once and after eight bits of the DIFF (as in the first row of 95_test_vectors V21). -/
theorem witness_EntropyDataStops_end :
    (let s := inScan [] [] [true];
      s.params.wf = true ∧ s.phase = .scan [] [true] ∧ s.stuffed = false ∧ takeBits 0 s = (s, .ok []) ∧ s.scanDiff 0 [true] = .more ∧
        s.streamByte s.spos.toNat = none) ∧
    (let s := longCode [0x80] 0;
      let more := true :: List.replicate 7 false;
      s.phase = .scan [] [] ∧ s.stuffed = false ∧ (takeBits 8 s).2 = .ok more ∧ (takeBits 8 s).1.spos = 1 ∧
        (∀ j, j < 9 → s.scanDiff 0 (more.take j) = .more) ∧ s.streamByte 1 = none) := by
  decide +kernel

/-- In stuffed mode, FF as the last byte at once; FF with E3 after it once eight bits have been taken (as in the last row of V21). -/
theorem witness_EntropyDataStops_stuffed :
    (let s : State := { inScan [0xFF] [] [] with ctrl := 4 };
      ¬s.holdsAt s.spos.toNat [0xFF, 0x00] ∧ s.scanDiff 0 [] = .more ∧ s.stuffed = true ∧ s.sbit = 0 ∧
        s.streamByte s.spos.toNat = some 0xFF ∧ s.streamByte (s.spos.toNat + 1) = none) ∧
    (let s := longCode [0x80, 0xFF, 0xE3] 4;
      ¬s.holdsAt s.spos.toNat [0xFF, 0x00] ∧ s.stuffed = true ∧ (takeBits 8 s).2 = .ok (true :: List.replicate 7 false) ∧
        (takeBits 8 s).1.spos = 1 ∧ (takeBits 8 s).1.sbit = 0 ∧ s.streamByte 1 = some 0xFF ∧ s.streamByte 2 = some 0xE3) :=
  ⟨⟨fun h => absurd (h 1 0x00 rfl) (by decide), by decide⟩, fun h => absurd (h 0 0xFF rfl) (by decide), by decide +kernel⟩

/-- Before SOI: no byte, one byte, a wrong second byte. -/
theorem witness_HeaderStops_start :
    (let s := inHeader [] (.start ⟨0, 0⟩); s.params.wf = true ∧ s.phase = .start ⟨0, 0⟩ ∧ s.streamByte 0 = none) ∧
    (let s := inHeader [0xFF] (.start ⟨0, 0⟩); s.streamByte 0 ≠ none ∧ s.streamByte (0 + 1) = none) ∧
    (inHeader [0xFF, 0xD9] (.start ⟨0, 0⟩)).holdsAt 0 [0xFF, 0xD9] ∧ ¬((0xFF : Byte) = 0xFF ∧ (0xD9 : Byte) = 0xD8) :=
  ⟨by decide, by decide, State.holdsAt_of_window _ (by decide), by decide⟩

/-- Before a segment: no byte, one byte, a wrong marker, no length, half a length, the lengths 0 and 1, and a payload byte missing. -/
theorem witness_HeaderStops_segment :
    (let s := inHeader [] (.header ⟨0, 0⟩ false); s.params.wf = true ∧ s.phase = .header ⟨0, 0⟩ false ∧ s.streamByte 0 = none) ∧
    (let s := inHeader [0xFF] (.header ⟨0, 0⟩ true); s.streamByte 0 ≠ none ∧ s.streamByte (0 + 1) = none) ∧
    ((inHeader [0xFF, 0xC5] (.header ⟨0, 0⟩ false)).holdsAt 0 [0xFF, 0xC5] ∧
      ¬((0xFF : Byte) = 0xFF ∧ ((0xC5 : Byte) = 0xC3 ∨ (0xC5 : Byte) = 0xC4 ∨ (0xC5 : Byte) = 0xDA))) ∧
    ((inHeader [0xFF, 0xC4] (.header ⟨0, 0⟩ false)).holdsAt 0 [0xFF, 0xC4] ∧ (inHeader [0xFF, 0xC4] (.header ⟨0, 0⟩ false)).streamByte (0 + 2) = none) ∧
    (let s := inHeader [0xFF, 0xC3, 0x00] (.header ⟨0, 0⟩ false); s.streamByte (0 + 2) ≠ none ∧ s.streamByte (0 + 3) = none) ∧
    (inHeader [0xFF, 0xDA, 0x00, 0x01] (.header ⟨0, 0⟩ false)).holdsAt 0 [0xFF, 0xDA, 0x00, 0x01] ∧
    ((inHeader [0xFF, 0xC4, 0x00, 0x03] (.header ⟨0, 0⟩ false)).holdsAt 0 [0xFF, 0xC4, 0x00, 0x03] ∧
      (inHeader [0xFF, 0xC4, 0x00, 0x03] (.header ⟨0, 0⟩ false)).streamByte (0 + 2 + (0 * 256 + 3) - 1) = none) :=
  ⟨by decide, by decide, ⟨State.holdsAt_of_window _ (by decide), by decide⟩, ⟨State.holdsAt_of_window _ (by decide), by decide⟩, by decide,
    State.holdsAt_of_window _ (by decide), State.holdsAt_of_window _ (by decide), by decide⟩

theorem witness_SoiOpensHeader : (inHeader [0xFF, 0xD8] (.start ⟨0, 0⟩)).phase = .start ⟨0, 0⟩ := rfl

/-- The example's frame; and the greatest one. -/
theorem witness_Sof3WritesFrame :
    ((inHeader [] (.header ⟨0, 0⟩ false)).phase = .header ⟨0, 0⟩ false ∧ exampleFrame.legal) ∧
    FrameHeader.legal { bits := 16, rows := 65535, columns := 65535, channels := 4, components := List.replicate 12 0 } := by
  refine ⟨⟨rfl, exampleFrame_legal⟩, ?_⟩
  unfold FrameHeader.legal
  decide

/-- A second SOF3; lengths 7 and 12; precisions 1 and 17; 0 and 5 channels; no rows and no columns. -/
theorem witness_Sof3Faults :
    ((inHeader [] (.header ⟨0, 0⟩ true)).phase = .header ⟨0, 0⟩ true ∧ (inHeader [] (.header ⟨0, 0⟩ false)).phase = .header ⟨0, 0⟩ false) ∧
    segmentWellFormed 7 [12, 0, 1, 0, 2] = true ∧
    (segmentWellFormed 12 [12, 0, 1, 0, 2, 1, 1, 17, 0, 0] = true ∧ (12 : BitVec 16).toNat ≠ 8 + 3 * (1 : Byte).toNat) ∧
    (segmentWellFormed 11 [1, 0, 1, 0, 2, 1, 1, 17, 0] = true ∧ (11 : BitVec 16).toNat = 8 + 3 * (1 : Byte).toNat ∧
      (1 : Byte).toNat < 2 ∧ 16 < (17 : Byte).toNat) ∧
    (segmentWellFormed 8 [2, 0, 1, 0, 2, 0] = true ∧ (8 : BitVec 16).toNat = 8 + 3 * (0 : Byte).toNat ∧ 2 ≤ (2 : Byte).toNat) ∧
    (segmentWellFormed 23 ([16, 0, 1, 0, 2, 5] ++ List.replicate 15 0) = true ∧ (23 : BitVec 16).toNat = 8 + 3 * (5 : Byte).toNat ∧
      (16 : Byte).toNat ≤ 16 ∧ 4 < (5 : Byte).toNat) ∧
    (segmentWellFormed 11 [12, 0, 0, 0, 2, 1, 1, 17, 0] = true ∧ segmentWellFormed 20 ([12, 0, 1, 0, 0, 4] ++ List.replicate 12 0) = true ∧
      (20 : BitVec 16).toNat = 8 + 3 * (4 : Byte).toNat) := by decide

theorem witness_DhtStoresTables :
    (inHeader [] (.header ⟨0, 0⟩ false)).phase = .header ⟨0, 0⟩ false ∧ [exampleDefinition, exampleDefinition] ≠ [] ∧
    (∀ d ∈ [exampleDefinition, exampleDefinition], d.legal) ∧ fitsSegment (definitionsBytes [exampleDefinition, exampleDefinition]) := by
  refine ⟨rfl, by decide, ?_, by unfold fitsSegment; decide⟩
  simp [exampleDefinition_legal]

/-- After no and after one legal definition: nothing; the ids 4 and 3 with nothing after it; a value 17; three codes of one bit. -/
theorem witness_DhtFaults :
    ((inHeader [] (.header ⟨0, 0⟩ true)).phase = .header ⟨0, 0⟩ true ∧ definitionsBytes [] ++ [] = []) ∧
    (∀ d ∈ [exampleDefinition], d.legal) ∧
    (∀ tail ∈ [[4], [3], 3 :: (exampleCounts ++ [0, 17, 2]), 3 :: (3 :: List.replicate 15 0 ++ [0, 1, 2])],
      fitsSegment (definitionsBytes [exampleDefinition] ++ tail)) ∧
    3 < (4 : Byte).toNat ∧
    ((3 : Byte).toNat ≤ 3 ∧ ([] : List Byte).length < 16 + ((([] : List Byte).take 16).map (·.toNat)).sum) ∧
    (([0, 17, 2] : List Byte).length = (exampleCounts.map (·.toNat)).sum ∧ ([0, 17, 2] : List Byte)[1]? = some 17 ∧ 16 < (17 : Byte).toNat) ∧
    (((3 : Byte) :: List.replicate 15 0).length = 16 ∧ buildTable (3 :: List.replicate 15 0) [0, 1, 2] = .error 1) := by
  refine ⟨⟨rfl, rfl⟩, ?_, ?_, by decide, by decide, by decide, by decide⟩
  · simp [exampleDefinition_legal]
  · unfold fitsSegment; decide

/-- Inside LJSTART after the tables and the frame of `scanner`. -/
def framed (sof : Bool) : State :=
  { inHeader [] (.header ⟨0, 0⟩ sof) with ljBits := 2, ljWide := 2, ljHigh := 1, ljClrs := 1, ht := ⟨some exampleTable, none, none, none⟩ }

theorem framed_legal (sof : Bool) : (framed sof).frameLegal ∧ (framed sof).frameMatches := by
  unfold State.frameMatches State.frameLegal
  cases sof <;> decide

theorem witness_SosOpensScan :
    (framed true).phase = .header ⟨0, 0⟩ true ∧ segmentWellFormed 2 [] = true ∧
    (∀ c : Lane, c.val < (framed true).ljClrs.toNat → ((framed true).ht.get c).isSome = true) ∧
    ((framed true).frameLegal ∧ (framed true).frameMatches) :=
  ⟨rfl, by decide, by decide, framed_legal true⟩

/-- Before SOF3; a second channel without a table; a frame one row too high. -/
theorem witness_SosFaults :
    (segmentWellFormed 2 [] = true ∧ (framed false).phase = .header ⟨0, 0⟩ false) ∧
    (let s : State := { framed true with ljClrs := 2 };
      s.phase = .header ⟨0, 0⟩ true ∧ s.frameLegal ∧ (1 : Lane).val < s.ljClrs.toNat ∧ s.ht.get 1 = none ∧
        (∀ d : Lane, d.val < (1 : Lane).val → (s.ht.get d).isSome = true)) ∧
    (let s : State := { framed true with ljHigh := 2 };
      s.frameLegal ∧ (∀ c : Lane, c.val < s.ljClrs.toNat → (s.ht.get c).isSome = true) ∧ ¬s.frameMatches) := by
  unfold State.frameMatches State.frameLegal
  decide

/-- A table whose codes of one bit are 0 for no difference, and of sixteen bits for 16. -/
def skewedTable : HuffTable := [⟨1, 0, 0⟩, ⟨16, 0x8000, 16⟩]

/-- A stuffed scan with this table, these pending bits and two pixels of 12 bits to come. -/
def stuffedWith (t : HuffTable) (bits : List Bool) : State :=
  { inScan [0xFF, 0x00] [] bits with ctrl := 4, ht := ⟨some t, none, none, none⟩ }

/-- Eight ones that complete nothing, also after a first one; and of which the first, and the last, completes a DIFF. -/
theorem witness_StuffDeliversOnes :
    (let s := stuffedWith skewedTable [];
      s.phase = .scan [] [] ∧ s.stuffed = true ∧ s.sbit = 0 ∧
        ∀ j, j < 9 → s.scanDiff 0 ([] ++ List.replicate j true) = .more) ∧
    (let s := stuffedWith exampleTable [true, false, true];
      ([true, false, true] ++ List.replicate 1 true : List Bool) = [true, false] ++ [true, true] ∧
        leafAt (s.table (s.diffChannel 0)) [true, false] 2 ∧ 2 ≤ s.ljBits.toNat ∧
        (2051 : Int) = predictor s [] + diffValue 2 (bitsValue [true, true]) ∧ (2051 : Int) < 2 ^ s.ljBits.toNat ∧
        0 + 1 ≠ s.ljWide.toNat * s.ljClrs.toNat ∧ ∀ j, j < 8 → s.scanDiff 1 (List.replicate j true) = .more) ∧
    (let s := stuffedWith [⟨8, 0xFF, 0⟩] [];
      leafAt (s.table (s.diffChannel 0)) (List.replicate 8 true) 0 ∧
        (2048 : Int) = predictor s [] + diffValue 0 (bitsValue [])) := by
  refine ⟨⟨rfl, by decide, by decide, by decide⟩, ⟨rfl, leafAt_of (by decide), by decide, by decide, by decide +kernel, by decide, by decide⟩,
    leafAt_of (by decide), by decide⟩

/-- The one code 1 with this value. -/
def oneCode (n : Nat) : State := { inScan [0b10010000] [] [] with ht := ⟨some [⟨1, 1, n⟩], none, none, none⟩ }

/-- A sample that is not the last of its row; the last one; and the ends of the range, 2048 - 2048 and 2048 + 2047. -/
theorem witness_DiffReconstructsSample :
    (let s := inScan [0b10010000] [] [];
      s.phase = .scan [] [] ∧ takeBits 4 s = ((takeBits 4 s).1, .ok [true, false, false, true]) ∧
        leafAt (s.table (s.diffChannel 0)) [true, false] 2 ∧ 2 ≤ s.ljBits.toNat ∧
        (2046 : Int) = predictor s [] + diffValue 2 (bitsValue [false, true]) ∧ (2046 : Int) < 2 ^ s.ljBits.toNat ∧
        0 + 1 ≠ s.ljWide.toNat * s.ljClrs.toNat) ∧
    (let s := inScan [0b10010000] [2046] [];
      s.phase = .scan [2046] [] ∧ leafAt (s.table (s.diffChannel 1)) [true, false] 2 ∧
        (2044 : Int) = predictor s [2046] + diffValue 2 (bitsValue [false, true]) ∧
        1 + 1 = s.ljWide.toNat * s.ljClrs.toNat) ∧
    (leafAt ((oneCode 12).table ((oneCode 12).diffChannel 0)) [true] 12 ∧ 12 ≤ (oneCode 12).ljBits.toNat ∧
      (0 : Int) = predictor (oneCode 12) [] + diffValue 12 (bitsValue (false :: List.replicate 11 true))) ∧
    (leafAt ((oneCode 11).table ((oneCode 11).diffChannel 0)) [true] 11 ∧
      (4095 : Int) = predictor (oneCode 11) [] + diffValue 11 (bitsValue (List.replicate 11 true))) :=
  ⟨⟨rfl, rfl, leafAt_of (by decide), by decide, by decide, by decide, by decide⟩, ⟨rfl, leafAt_of (by decide), by decide, by decide⟩,
    ⟨leafAt_of (by decide), by decide, by decide⟩, leafAt_of (by decide), by decide⟩

/-- Sixteen bits and no leaf; the length 13 at depth 12; a sum one below 0 and one above 4095. -/
theorem witness_DiffFaults :
    (let s := inScan [0xFF, 0xFF] [] [];
      s.phase = .scan [] [] ∧ takeBits 16 s = ((takeBits 16 s).1, .ok (List.replicate 16 true)) ∧
        ∀ j, j < 17 → 1 ≤ j → (s.table (s.diffChannel 0)).lookup ((List.replicate 16 true).take j) = none) ∧
    (leafAt ((oneCode 13).table ((oneCode 13).diffChannel 0)) [true] 13 ∧ (oneCode 13).ljBits.toNat < 13) ∧
    (leafAt ((oneCode 12).table ((oneCode 12).diffChannel 0)) [true] 12 ∧
      (-1 : Int) = predictor (oneCode 12) [] + diffValue 12 (bitsValue (false :: List.replicate 10 true ++ [false])) ∧
      (4096 : Int) = predictor (oneCode 12) [] + diffValue 12 (bitsValue (true :: List.replicate 11 false))) :=
  ⟨⟨rfl, rfl, by decide +kernel⟩, ⟨leafAt_of (by decide), by decide⟩, leafAt_of (by decide), by decide, by decide⟩

theorem witness_MisplacedElements :
    (State.reset.phase = .idle ∧ isLjInstr (.diff [true] []) = true) ∧
    (inHeader [] (.header ⟨0, 0⟩ true)).phase = .header ⟨0, 0⟩ true ∧ (inHeader [] (.start ⟨0, 0⟩)).phase = .start ⟨0, 0⟩ ∧
    ((inScan [] [] []).phase = .scan [] [] ∧ (inScan [] [] []).stuffed = false) := by
  refine ⟨⟨?_, ?_⟩, ?_, ?_, ?_, ?_⟩ <;> decide

theorem mosaic_healthy : mosaic.accepting ∧ mosaic.legalImage ∧ mosaic.legalCfa ∧ mosaic.legalStream := healthy_of (by decide)

theorem seeded_healthy : seeded.accepting ∧ seeded.legalImage ∧ seeded.legalCfa ∧ seeded.legalStream := healthy_of (by decide)

/-- Inside, the missing channel 0 at (1, 1); outside, the border and the native channel. -/
theorem witness_BilinAveragesNeighbours :
    (mosaic.accepting ∧ mosaic.legalImage ∧ mosaic.legalCfa ∧ mosaic.legalStream) ∧
    (mosaic.inside 1 1 1 ∧ (0 : Lane).val < mosaic.colors.toNat ∧ 0 ≠ mosaic.fc 1 1 ∧
      neighbourSum mosaic 1 1 0 (fun _ _ => 1) = 4 ∧ neighbourSum mosaic 1 1 0 (fun y x => mosaic.pix y x 0) = 240) ∧
    ¬mosaic.inside 1 0 1 ∧ ¬(2 ≠ mosaic.fc 1 1) := by
  refine ⟨mosaic_healthy, ?_, ?_, by decide⟩ <;> unfold State.inside <;> decide +kernel

/-- `seeded` with every sample 7. -/
def flat : State := { seeded with img0 := samplesOf (List.replicate 100 7) }

/-- The gradients around the inner pixel of `seeded`, as 41_demosaic R159 has them; all 0 around that of `flat`; and a pixel on the border. -/
theorem witness_VngrefRefinesPixels :
    (seeded.accepting ∧ seeded.legalImage ∧ seeded.legalCfa ∧ seeded.legalStream) ∧ seeded.quick = false ∧ seeded.clipMax ≠ 0 ∧
    (seeded.inside 2 2 2 ∧ (2 : Lane).val < seeded.colors.toNat ∧
      (List.range 8).map (gradientAt seeded 2 2) = [300, 140, 80, 260, 300, 140, 80, 260]) ∧
    (List.range 8).map (gradientAt flat 2 2) = List.replicate 8 0 ∧
    ¬seeded.inside 2 1 2 := by
  refine ⟨seeded_healthy, by decide, by decide, ?_, by decide +kernel, ?_⟩ <;> unfold State.inside <;> decide +kernel

/-- VNGREF in quick mode, DIAGRS without DIAG_EN. -/
theorem witness_DisabledCommandsChangeNothing :
    (let s : State := { mosaic with ctrl := 1 };
      (s.accepting ∧ s.legalImage ∧ s.legalCfa ∧ s.legalStream) ∧ s.quick = true) ∧ mosaic.diagEnabled = false :=
  ⟨⟨healthy_of (by decide), by decide⟩, by decide⟩

/-- Every native sample of `flat` is 7; (1, 1) is inside and has a neighbour of every channel it lacks. -/
theorem witness_FlatFieldStaysFlat :
    (flat.accepting ∧ flat.legalImage ∧ flat.legalCfa ∧ flat.legalStream) ∧ flat.clipMax ≠ 0 ∧
    (flat.height.toNat = 5 ∧ flat.width.toNat = 5 ∧ ∀ row, row < 5 → ∀ col, col < 5 → flat.pix row col (flat.fc row col) = 7) ∧
    (flat.inside 1 1 1 ∧ ∀ c : Lane, c.val < flat.colors.toNat → c ≠ flat.fc 1 1 → neighbourSum flat 1 1 c (fun _ _ => 1) ≠ 0) := by
  refine ⟨healthy_of (by decide), by decide, by decide +kernel, ?_⟩
  unfold State.inside
  decide +kernel

theorem witness_ExpsetupCameraMultipliers :
    (camera.accepting ∧ camera.legalImage ∧ camera.legalCfa ∧ camera.legalStream) ∧ camera.black.toNat < camera.maximum.toNat ∧
    camera.grayWorld = false ∧ (∀ c : Lane, c.val < camera.colors.toNat → camera.camMul.get c ≠ 0) ∧
    (∃ c : Lane, c.val < camera.colors.toNat ∧ (camera.camMul.get c).toNat = 0x10000) ∧
    (∀ c : Lane, c.val < camera.colors.toNat → 0x10000 ≤ (camera.camMul.get c).toNat) :=
  ⟨healthy_of (by decide), by decide⟩

/-- Channel 2 has a zero sum; channel 1 has the least ratio of count to sum. -/
theorem witness_ExpsetupGrayWorld :
    (gray.accepting ∧ gray.legalImage) ∧ gray.black.toNat < gray.maximum.toNat ∧ gray.grayWorld = true ∧
    gray.graySum 2 = 0 ∧ gray.graySum 0 ≠ 0 ∧ gray.graySum 1 = 1566 ∧
    (∀ j : Lane, j.val < gray.colors.toNat → gray.graySum j ≠ 0 →
      gray.grayCount 1 * gray.graySum j ≤ gray.grayCount j * gray.graySum 1) := by
  refine ⟨?_, ?_⟩
  · unfold State.accepting State.legalImage; decide
  · decide +kernel

/-- A channel of the pixel, and lane 3, which is none. -/
theorem witness_ExpapplyScalesAndClamps :
    (exposed.accepting ∧ exposed.legalImage ∧ exposed.legalCfa ∧ exposed.legalStream) ∧ exposed.clipMax ≠ 0 ∧
    0 < exposed.height.toNat ∧ 1 < exposed.width.toNat ∧ (2 : Lane).val < exposed.colors.toNat ∧ exposed.colors.toNat ≤ (3 : Lane).val :=
  ⟨healthy_of (by decide), by decide⟩

theorem witness_CmatrixAppliesMatrix :
    (matrix.accepting ∧ matrix.legalImage ∧ matrix.legalCfa ∧ matrix.legalStream) ∧ matrix.clipMax ≠ 0 ∧ 1 < matrix.pixels :=
  ⟨healthy_of (by decide), by decide⟩

/-- A diagonal image; a pixel whose source is inside and one whose source is below the image. -/
theorem witness_DiagrsResamples :
    ((diagonal.accepting ∧ diagonal.legalImage) ∧ diagonal.diagEnabled = true ∧ diagonal.diagMag ≠ 0 ∧
      diagonal.diagMag.toNat < diagonal.height.toNat ∧
      diagonal.diagMag.toNat * 65536 / 46341 = 2 ∧ (diagonal.height.toNat - diagonal.diagMag.toNat) * 65536 / 46341 = 2 ∧
      2 * 2 ≤ diagonal.params.imgCap ∧
      (diagonal.diagSource 1 1).1.toNat / 65536 + 2 ≤ diagonal.height.toNat ∧
      (diagonal.diagSource 1 1).2.toNat / 65536 + 2 ≤ diagonal.width.toNat) ∧
    (let s : State := { diagonal with diagMag := 1 };
      (s.height.toNat - s.diagMag.toNat) * 65536 / 46341 = 4 ∧ s.height.toNat < (s.diagSource 3 0).1.toNat / 65536 + 2) := by
  refine ⟨⟨?_, ?_⟩, ?_⟩
  · unfold State.accepting State.legalImage; decide
  · decide
  · decide

/-- A code without and one with a transpose. -/
theorem witness_PermuteMovesPixels :
    ((oriented 3).accepting ∧ (oriented 3).legalImage ∧ (oriented 3).legalCfa ∧ (oriented 3).legalStream) ∧ (oriented 3).orient.toNat < 4 ∧
    ((oriented 4).accepting ∧ (oriented 4).legalImage ∧ (oriented 4).legalCfa ∧ (oriented 4).legalStream) ∧ 4 ≤ (oriented 4).orient.toNat :=
  ⟨healthy_of (by decide), by decide, healthy_of (by decide), by decide⟩

theorem witness_PermuteSourceIsBijection : 5 < 3 * 2 ∧ permuteSource true false true 3 2 5 = 3 := by decide

/-- The host writes a byte beyond all the others. -/
theorem witness_StepKeepsMemoryCanonical :
    (withInputs scanner [.writeByte 60 1]).memoryWf ∧ Answers (step (withInputs scanner [.writeByte 60 1])) := by
  refine ⟨?_, _, step_host_act (s := withInputs scanner [.writeByte 60 1]) (by decide) rfl rfl (by simp)⟩
  unfold State.memoryWf
  decide

theorem ready_runs : Answers (step (withInputs ready [.writeReg 0 0x02])) :=
  ⟨_, step_defined_word (i := .ljrow) (by decide) rfl rfl (by decide)⟩

/-- LJROW's word written to CMD in `ready`. -/
theorem witness_StepKeepsTablesPrefixFree :
    (withInputs ready [.writeReg 0 0x02]).tablesWf ∧ Answers (step (withInputs ready [.writeReg 0 0x02])) := by
  refine ⟨fun c t h => ?_, ready_runs⟩
  have hc : c = 0 ∧ t = exampleTable := by
    revert h
    fin_cases c <;> simp [withInputs, ready, Quad.get]; exact fun h => h.symm
  rw [hc.2]
  decide

theorem witness_StepKeepsStatusTruthful :
    (withInputs ready [.writeReg 0 0x02]).statusWf ∧ Answers (step (withInputs ready [.writeReg 0 0x02])) := by
  refine ⟨?_, ready_runs⟩
  unfold State.statusWf
  decide

theorem witness_StepKeepsScanReady :
    (withInputs ready [.writeReg 0 0x02]).scanWf ∧ Answers (step (withInputs ready [.writeReg 0 0x02])) := by
  refine ⟨⟨fun _ => ⟨ready_frame.2.1, by decide, ready_frame.2.2, by decide⟩, fun c h => ?_, fun c sof h => ?_⟩, ready_runs⟩
  · exact absurd (show Phase.idle = .start c from h) (by simp)
  · exact absurd (show Phase.idle = .header c sof from h) (by simp)

theorem witness_WritersOfRegisters : ∃ t, exec .bilin mosaic = .next t ∧ Instr.bilin ≠ .init :=
  ⟨_, exec_command (w := 0x10) (by decide) (by decide) mosaic, by decide⟩

/-- LJROW of `ready` is at a row of the image; BILIN of `mosaic` is not concerned; a faulted state for the clause on faults. -/
theorem witness_WritersOfMemory :
    (∃ t, exec .ljrow ready = .next t) ∧ ready.ljRow.toNat < ready.height.toNat ∧
    (∃ t, exec .bilin { mosaic with ljRow := 4 } = .next t) ∧
    (let s : State := { ready with status := 4, errCode := 10 }; s.faulted = true ∧ ∃ t, exec .ljstart s = .next t) :=
  ⟨⟨_, exec_command (w := 0x02) (by decide) (by decide) ready⟩, by decide, ⟨_, exec_command (w := 0x10) (by decide) (by decide) _⟩, by decide,
    _, exec_command (w := 0x01) (by decide) (by decide) _⟩
end

section
/-! PROOFS of the family 00_scope. The instructions of the core are the commands and the bitstream elements that two of the commands execute (00_scope R2):
LJSTART and LJROW reach in one step what their elements reach one after the other. A run is compared with a command's loop through `settleAfter`, what the
loop reaches from the outcome of one element. -/

namespace Sys2Proof.Machine

variable {s t u : State}

/-! ## Runs -/

/-- Some number of steps leads from `s` to `t`. -/
def RunsTo (s t : State) : Prop := ∃ k, Host.Core.run core k s = .next t

theorem RunsTo.refl (s : State) : RunsTo s s := ⟨0, rfl⟩

/-- A run of a core that begins with a step. -/
theorem run_succ (M : Host.Core) (k : Nat) {a b : M.State} (h : M.step a = .next b) : M.run (k + 1) a = M.run k b := by
  simp only [Host.Core.run, h]

theorem RunsTo.head (h : step s = .next t) (hr : RunsTo t u) : RunsTo s u := by
  obtain ⟨k, hk⟩ := hr
  exact ⟨k + 1, (run_succ core k h).trans hk⟩

theorem RunsTo.of_step (h : step s = .next t) : RunsTo s t := .head h (.refl t)

/-- What a command reaches that goes on with `rest` after an element with the outcome `r`; a fault leaves nothing to go on with. -/
def settleAfter (rest : Body) (r : State × Option Raised) : State :=
  match r with
  | (s, some f) => raise f s
  | (s, none) => settle (rest s)

theorem settleAfter_some (rest : Body) (s : State) (f : Raised) : settleAfter rest (s, some f) = raise f s := rfl

theorem settleAfter_none (rest : Body) (s : State) : settleAfter rest (s, none) = settle (rest s) := rfl

/-- The element that a step runs, and then the run of the rest, reach what the command reaches. -/
theorem runsTo_settleAfter {rest : Body} {r : State × Option Raised} (h : step s = .next (settle r))
    (hi : ∀ t, r = (t, none) → t.phase = .idle → rest t = (t, none))
    (hr : ∀ t, r = (t, none) → t.phase ≠ .idle → RunsTo t (settle (rest t))) : RunsTo s (settleAfter rest r) := by
  obtain ⟨t, _ | f⟩ := r
  · rw [settleAfter_none]
    by_cases ht : t.phase = .idle
    · rw [hi t rfl ht]
      exact .of_step h
    · rw [settle_running ht] at h
      exact .head h (hr t rfl ht)
  · exact .of_step h

/-! ## LJSTART and its header elements -/

/-- The core is inside LJSTART. -/
def State.inHeader (s : State) : Prop := (∃ loaded, s.phase = .start loaded) ∨ ∃ loaded sof, s.phase = .header loaded sof

theorem State.inHeader.running (h : s.inHeader) : s.phase ≠ .idle := by
  obtain ⟨loaded, hp⟩ | ⟨loaded, sof, hp⟩ := h <;> rw [hp] <;> exact Phase.noConfusion

theorem soiBody_of_start {loaded : Cursor} (h : s.phase = .start loaded) :
    soiBody s = ({ s.skip 2 with phase := .header loaded false }, none) := by
  unfold soiBody
  simp only [h]

theorem execSoi_of_start {loaded : Cursor} (h : s.phase = .start loaded) : execSoi s = .next (settle (soiBody s)) := by
  unfold execSoi
  simp only [h]

/-- The fetched element is executed by the body that LJSTART's loop gives it. -/
theorem exec_of_fetchHeader {i : Instr} (h : fetchHeader s = .ok i) : exec i s = .next (settle (headerBody i s)) := by
  obtain ⟨loaded, hp, rfl⟩ | ⟨loaded, sof, hp, len, payload, rfl | rfl | rfl⟩ := fetchHeader_cases h
  · exact execSoi_of_start hp
  · exact execSof3_of_header hp len payload
  · exact execDht_of_header hp len payload
  · exact execSos_of_header hp len payload

/-- A header element that raises no fault leads to the next one, or ends LJSTART. -/
theorem headerBody_goes_on {i : Instr} (h : fetchHeader s = .ok i) (hb : headerBody i s = (t, none)) :
    t.params = s.params ∧ (t.phase = .idle ∨ t.inHeader) := by
  obtain ⟨loaded, hp, rfl⟩ | ⟨loaded, sof, hp, len, payload, rfl | rfl | rfl⟩ := fetchHeader_cases h
  · rw [headerBody, soiBody_of_start hp] at hb
    cases hb
    exact ⟨rfl, .inr (.inr ⟨_, _, rfl⟩)⟩
  · rw [headerBody] at hb
    obtain ⟨f, hc⟩ | ⟨u, hc, -, -, -, hu⟩ := sof3Body_cases len payload hp <;> rw [hc] at hb <;> cases hb
    exact ⟨by rw [hu]; rfl, .inr (.inr ⟨_, _, congrArg State.phase hu⟩)⟩
  · rw [headerBody] at hb
    obtain ⟨f, hc⟩ | ⟨f, hc⟩ | ⟨-, hc⟩ := dhtBody_cases len payload hp <;> rw [hc] at hb <;> cases hb
    exact ⟨rfl, .inr (.inr ⟨_, _, hp⟩)⟩
  · rw [headerBody] at hb
    obtain ⟨f, hc⟩ | ⟨-, -, -, -, hc⟩ := sosBody_cases len hp <;> rw [hc] at hb <;> cases hb
    exact ⟨rfl, .inl rfl⟩

theorem headerLoop_idle (h : s.phase = .idle) (fuel : Nat) : headerLoop fuel s = (s, none) := by
  cases fuel with
  | zero => rfl
  | succ n => rw [headerLoop, if_pos h]

theorem settle_headerLoop_of_error {f : Raised} (hp : s.phase ≠ .idle) (h : fetchHeader s = .error f) (fuel : Nat) :
    settle (headerLoop (fuel + 1) s) = raise f s := by
  rw [headerLoop, if_neg hp, h]
  rfl

theorem settle_headerLoop_of_ok {i : Instr} (hp : s.phase ≠ .idle) (h : fetchHeader s = .ok i) (fuel : Nat) :
    settle (headerLoop (fuel + 1) s) = settleAfter (headerLoop fuel) (headerBody i s) := by
  rw [headerLoop, if_neg hp, h]
  dsimp only
  generalize headerBody i s = r
  obtain ⟨t, _ | f⟩ := r <;> rfl

/-- From any place in the header a run does what the loop does, however long the loop is allowed to be. -/
theorem headerLoop_isRun (fuel : Nat) (hw : s.params.wf = true) (hs : s.inHeader) : RunsTo s (settle (headerLoop fuel s)) := by
  induction fuel generalizing s with
  | zero =>
    rw [headerLoop, settle_running hs.running]
    exact .refl s
  | succ n ih =>
    have hstep := step_header hw hs
    cases hf : fetchHeader s with
    | error f =>
      rw [settle_headerLoop_of_error hs.running hf]
      rw [hf] at hstep
      exact .of_step hstep
    | ok i =>
      rw [settle_headerLoop_of_ok hs.running hf]
      simp only [hf, exec_of_fetchHeader hf] at hstep
      refine runsTo_settleAfter hstep (fun t _ ht => headerLoop_idle ht n) (fun t hb ht => ?_)
      obtain ⟨hparams, hidle | hin⟩ := headerBody_goes_on hf hb
      · exact absurd hidle ht
      · exact ih (by rw [hparams]; exact hw) hin

/-- An accepted LJSTART whose checks pass is its header loop. -/
theorem exec_ljstart_of_legal (ha : s.accepting) (hi : s.legalImage) (hc : s.legalCfa) (hst : s.legalStream) :
    exec .ljstart s = .next (settle (headerLoop (s.streamLen.toNat + 2) (openHeader (s.begin 0x01)))) := by
  have hchecks : startFault (s.begin 0x01) = none := by
    simp [startFault, (imageRegsFault_eq_none_iff s).2 hi, (cfaFault_eq_none_iff s).2 hc, (streamFault_eq_none_iff s).2 hst]
  rw [exec, execLjstart, command_of_accepting _ _ ha, ljstartBody, hchecks]
  rfl

/-- Settles O23: each turn of LJSTART's loop is one step, and the loop ends where the run does. -/
theorem ljstartIsItsElements : Obligations.LjstartIsItsElements := by
  intro s hw ha hi hc hst
  rw [exec_ljstart_of_legal ha hi hc hst]
  exact headerLoop_isRun _ hw (.inl ⟨_, rfl⟩)

end Sys2Proof.Machine
end

section
/-! PROOFS of the family 00_scope, continued: the entropy-coded elements. LJROW reads a row DIFF by DIFF, a run reads it STUFF by STUFF and DIFF by DIFF, and a
stuffed pair may stand anywhere within a DIFF; so both are compared bit by bit. -/

namespace Sys2Proof.Machine

variable {s t u : State}

/-! ## What a further bit says of a DIFF -/

theorem leafAt_of_splitCodeFrom {tab : HuffTable} {bits code rest : List Bool} {n : Nat} :
    ∀ fuel k : Nat, k + fuel ≤ 16 → (∀ j, 1 ≤ j → j ≤ k → tab.lookup (bits.take j) = none) →
      splitCodeFrom tab bits fuel k = some (code, n, rest) → leafAt tab code n ∧ bits = code ++ rest := by
  intro fuel
  induction fuel with
  | zero => intro k _ _ h; cases h
  | succ f ih =>
    intro k hk hnone h
    unfold splitCodeFrom at h
    split at h
    · cases h
    · rename_i hlen
      split at h
      · rename_i m hm
        cases h
        have hl : (bits.take (k + 1)).length = k + 1 := by rw [List.length_take]; omega
        refine ⟨⟨by omega, by omega, hm, fun j h1 h2 => ?_⟩, (List.take_append_drop _ _).symm⟩
        rw [List.take_take, Nat.min_eq_left (by omega)]
        exact hnone j h1 (by omega)
      · rename_i hm
        refine ih (k + 1) (by omega) (fun j h1 h2 => ?_) h
        obtain h3 | rfl : j ≤ k ∨ j = k + 1 := by omega
        · exact hnone j h1 h3
        · exact hm

/-- The walk's answer is the leaf at the head of the bits. -/
theorem leafAt_of_splitCode {tab : HuffTable} {bits code rest : List Bool} {n : Nat} (h : splitCode tab bits = some (code, n, rest)) :
    leafAt tab code n ∧ bits = code ++ rest :=
  leafAt_of_splitCodeFrom _ 0 (by simp [Config.huffMaxLen]) (fun j h1 h2 => absurd h1 (by omega)) h

/-- Bits that begin with a leaf still ask for more only where extra bits are missing. -/
theorem scanDiff_leaf_append {tab : HuffTable} {maxBits n : Nat} {code : List Bool} (h : leafAt tab code n) (rest : List Bool) :
    scanDiff tab maxBits (code ++ rest) =
      if maxBits < n then .found code [] else if rest.length < n then .more else .found code (rest.take n) := by
  unfold scanDiff
  rw [splitCode_of_leafAt h]

/-- Bits that reach no leaf ask for more until they are sixteen. -/
theorem scanDiff_without_leaf {tab : HuffTable} {bits : List Bool} (h : splitCode tab bits = none) (maxBits : Nat) :
    scanDiff tab maxBits bits = if bits.length < 16 then .more else .found (bits.take 16) [] := by
  unfold scanDiff
  rw [h]
  rfl

/-- No bits say nothing. -/
theorem scanDiff_nil (tab : HuffTable) (maxBits : Nat) : scanDiff tab maxBits [] = .more :=
  scanDiff_without_leaf (splitCode_of_no_leaf (fun j h1 _ h3 => absurd (h1.trans h3) (by decide))) maxBits

/-- The bits of an unfinished DIFF are fewer than a whole code and the extra bits of the depth. -/
theorem length_lt_of_scanDiff_more {tab : HuffTable} {maxBits : Nat} {bits : List Bool} (h : scanDiff tab maxBits bits = .more) :
    bits.length < 16 + maxBits := by
  cases hs : splitCode tab bits with
  | none =>
    rw [scanDiff_without_leaf hs] at h
    split_ifs at h
    omega
  | some r =>
    obtain ⟨hleaf, rfl⟩ := leafAt_of_splitCode hs
    have hcode := hleaf.2.1
    rw [scanDiff_leaf_append hleaf] at h
    rw [List.length_append]
    split_ifs at h
    omega

/-- A leaf that some bits reach is reached with further bits as well. -/
theorem splitCode_eq_none_of_append {tab : HuffTable} {bits more : List Bool} (h : splitCode tab (bits ++ more) = none) :
    splitCode tab bits = none := by
  cases hs : splitCode tab bits with
  | none => rfl
  | some r =>
    obtain ⟨hleaf, rfl⟩ := leafAt_of_splitCode hs
    rw [List.append_assoc, splitCode_of_leafAt hleaf] at h
    cases h

/-- The bit that completes a DIFF is its last one. -/
theorem append_eq_of_scanDiff_completed {tab : HuffTable} {maxBits : Nat} {bits code extra : List Bool} {b : Bool}
    (hm : scanDiff tab maxBits bits = .more) (h : scanDiff tab maxBits (bits ++ [b]) = .found code extra) :
    bits ++ [b] = code ++ extra := by
  cases hs : splitCode tab (bits ++ [b]) with
  | none =>
    rw [scanDiff_without_leaf (splitCode_eq_none_of_append hs)] at hm
    rw [scanDiff_without_leaf hs] at h
    split_ifs at hm
    split_ifs at h
    cases h
    rw [List.append_nil, List.take_of_length_le]
    simpa using ‹bits.length < 16›
  | some r =>
    obtain ⟨c, n, rest⟩ := r
    obtain ⟨hleaf, hbits⟩ := leafAt_of_splitCode hs
    rw [hbits] at h ⊢
    rw [scanDiff_leaf_append hleaf] at h
    obtain rfl | ⟨init, last, rfl⟩ := List.eq_nil_or_concat rest
    · split_ifs at h <;> cases h <;> simp
    · rw [List.concat_eq_append, ← List.append_assoc] at hbits
      obtain ⟨rfl, -⟩ := List.append_inj' hbits rfl
      rw [scanDiff_leaf_append hleaf] at hm
      split_ifs at hm with h1 h2
      rw [if_neg h1] at h
      split_ifs at h with h3
      cases h
      rw [List.take_of_length_le]
      simp
      omega

/-- A DIFF has at most 16 code bits and, as LJ_BITS is at most 31, 31 extra bits; an unfinished one has at most 46. -/
theorem State.length_le_of_scanDiff_more {done : Nat} {bits : List Bool} (h : s.scanDiff done bits = .more) : bits.length ≤ 46 := by
  have h1 := length_lt_of_scanDiff_more h
  have h2 := s.ljBits.isLt
  omega

/-! ## Reading a DIFF -/

theorem readDiff_of_error {done : Nat} {bits : List Bool} {f : Raised} (hm : s.scanDiff done bits = .more)
    (hb : nextBit s = .error f) (fuel : Nat) : readDiff done (fuel + 1) bits s = (s, .error f) := by
  simp only [readDiff, hm, hb]

theorem readDiff_of_bit {done : Nat} {bits : List Bool} {b : Bool} (hm : s.scanDiff done bits = .more)
    (hb : nextBit s = .ok (b, t)) (fuel : Nat) : readDiff done (fuel + 1) bits s = readDiff done fuel (bits ++ [b]) t := by
  simp only [readDiff, hm, hb]

theorem readDiff_of_found {done : Nat} {bits code extra : List Bool} (h : s.scanDiff done bits = .found code extra)
    (fuel : Nat) : readDiff done (fuel + 1) bits s = (s, .ok (code, extra)) := by
  simp only [readDiff, h]

theorem takeBits_of_bit {n : Nat} {b : Bool} {more : List Bool} (hb : nextBit s = .ok (b, t)) (h : takeBits n t = (u, .ok more)) :
    takeBits (n + 1) s = (u, .ok (b :: more)) := by
  simp only [takeBits, hb, h]

/-- Fuel for a whole DIFF is not used up, so more of it makes no difference. -/
theorem readDiff_succ_fuel {done fuel : Nat} {bits : List Bool} (hm : s.scanDiff done bits = .more) (hf : 48 ≤ fuel + bits.length) :
    readDiff done (fuel + 1) bits s = readDiff done fuel bits s := by
  have hl := State.length_le_of_scanDiff_more hm
  induction fuel generalizing bits s with
  | zero => omega
  | succ n ih =>
    cases hb : nextBit s with
    | error f => rw [readDiff_of_error hm hb, readDiff_of_error hm hb]
    | ok r =>
      obtain ⟨b, t⟩ := r
      rw [readDiff_of_bit hm hb, readDiff_of_bit hm hb]
      cases hd : t.scanDiff done (bits ++ [b]) with
      | more => exact ih hd (by simp; omega) (State.length_le_of_scanDiff_more hd)
      | found code extra =>
        obtain ⟨m, rfl⟩ : ∃ m, n = m + 1 := ⟨n - 1, by omega⟩
        rw [readDiff_of_found hd, readDiff_of_found hd]

/-- The DIFF that is read is recognised in its own bits: those read before, and those taken now. -/
theorem takeBits_of_readDiff {done fuel : Nat} {bits code extra : List Bool} (hm : s.scanDiff done bits = .more)
    (hf : 48 ≤ fuel + bits.length) (h : readDiff done fuel bits s = (t, .ok (code, extra))) :
    s.scanDiff done (code ++ extra) = .found code extra ∧
      ∃ more, bits ++ more = code ++ extra ∧ takeBits more.length s = (t, .ok more) := by
  have hl := State.length_le_of_scanDiff_more hm
  induction fuel generalizing bits s with
  | zero => omega
  | succ n ih =>
    cases hb : nextBit s with
    | error f =>
      rw [readDiff_of_error hm hb] at h
      cases h
    | ok r =>
      obtain ⟨b, s1⟩ := r
      rw [readDiff_of_bit hm hb] at h
      have hsame := scanDiff_onlyCursorMoves (nextBit_onlyCursorMoves hb) done
      cases hd : s1.scanDiff done (bits ++ [b]) with
      | more =>
        obtain ⟨hfound, more, hmore, htake⟩ := ih hd (by simp; omega) h (State.length_le_of_scanDiff_more hd)
        refine ⟨by rw [← hsame]; exact hfound, b :: more, ?_, takeBits_of_bit hb htake⟩
        rw [← hmore, List.append_assoc, List.singleton_append]
      | found c e =>
        obtain ⟨m, rfl⟩ : ∃ m, n = m + 1 := ⟨n - 1, by omega⟩
        rw [readDiff_of_found hd] at h
        cases h
        rw [hsame] at hd
        have hall := append_eq_of_scanDiff_completed hm hd
        exact ⟨by rw [← hall]; exact hd, [b], hall, takeBits_of_bit hb rfl⟩

/-! ## The bit reader at another place of the row -/

/-- `s` with another place inside the command. -/
def State.atPlace (p : Phase) (s : State) : State := { s with phase := p }

theorem State.atPlace_phase (p : Phase) (s : State) : (s.atPlace p).phase = p := rfl

theorem State.sameStream_atPlace (p : Phase) (s : State) : SameStream s (s.atPlace p) := ⟨rfl, rfl, rfl, rfl, rfl, rfl⟩

theorem State.atPlace_advance (p : Phase) (s : State) (pair : Bool) : (s.atPlace p).advance pair = (s.advance pair).atPlace p := by
  unfold State.advance State.atPlace
  split <;> rfl

theorem nextBit_atPlace (p : Phase) (s : State) : nextBit (s.atPlace p) = (nextBit s).map (fun r => (r.1, r.2.atPlace p)) := by
  obtain ⟨f, h1, h2⟩ | ⟨b, pair, h1, h2⟩ := nextBit_sameStream (s.sameStream_atPlace p)
  · rw [h1, h2]
    rfl
  · rw [h1, h2, State.atPlace_advance]
    rfl

theorem readDiff_atPlace (done fuel : Nat) (bits : List Bool) (p : Phase) (s : State) :
    readDiff done fuel bits (s.atPlace p) = ((readDiff done fuel bits s).1.atPlace p, (readDiff done fuel bits s).2) := by
  induction fuel generalizing bits s with
  | zero => rfl
  | succ n ih =>
    have hscan : (s.atPlace p).scanDiff done bits = s.scanDiff done bits := rfl
    cases hd : s.scanDiff done bits with
    | found code extra => rw [readDiff_of_found hd, readDiff_of_found (hscan.trans hd)]
    | more =>
      have hbit := nextBit_atPlace p s
      cases hb : nextBit s with
      | error f =>
        rw [hb] at hbit
        rw [readDiff_of_error hd hb, readDiff_of_error (hscan.trans hd) hbit]
      | ok r =>
        obtain ⟨b, t⟩ := r
        rw [hb] at hbit
        rw [readDiff_of_bit hd hb, readDiff_of_bit (hscan.trans hd) hbit]
        exact ih (bits ++ [b]) t

/-! ## The rest of a row -/

/-- The number of DIFFs of a row (40_ljpeg R118). -/
def State.rowSize (s : State) : Nat := s.ljWide.toNat * s.ljClrs.toNat

/-- What LJROW still does once the samples of the present place have been decoded. -/
def rowRest : Body := fun s =>
  match s.phase with
  | .scan row _ => rowLoop (s.rowSize - row.length) s
  | _ => (s, none)

/-- The core is inside LJROW, the row is not full, and the pending bits are an unfinished DIFF. -/
structure InRow (s : State) (row : List Sample) (bits : List Bool) : Prop where
  place : s.phase = .scan row bits
  room : row.length < s.rowSize
  unfinished : s.scanDiff row.length bits = .more

/-- A bound on the bits that the row still takes: 64 for each DIFF to come, less those of the present one that have been read. -/
def State.bitsLeft (s : State) : Nat :=
  match s.phase with
  | .scan row bits => 64 * (s.rowSize - row.length) - bits.length
  | _ => 0

/-- `t` is a later place of the row that `s` is in. -/
structure Onward (s t : State) : Prop where
  inRow : ∃ row bits, InRow t row bits
  params : t.params = s.params
  fewer : t.bitsLeft < s.bitsLeft

theorem Onward.trans (h : Onward s t) (k : Onward t u) : Onward s u :=
  ⟨k.inRow, k.params.trans h.params, k.fewer.trans h.fewer⟩

theorem State.bitsLeft_of_scan {row : List Sample} {bits : List Bool} (h : s.phase = .scan row bits) :
    s.bitsLeft = 64 * (s.rowSize - row.length) - bits.length := by
  unfold State.bitsLeft
  rw [h]

theorem InRow.of_onlyCursorMoves {row : List Sample} {bits : List Bool} (h : InRow s row bits) (hm : OnlyCursorMoves s t) :
    InRow t row bits := by
  refine ⟨?_, ?_, by rw [scanDiff_onlyCursorMoves hm]; exact h.unfinished⟩
  · rw [hm]; exact h.place
  · rw [hm]; exact h.room

theorem Onward.of_onlyCursorMoves (hm : OnlyCursorMoves s t) (h : Onward t u) : Onward s u := by
  refine ⟨h.inRow, h.params.trans (by rw [hm]), ?_⟩
  have hb : t.bitsLeft = s.bitsLeft := by rw [hm]; rfl
  rw [← hb]
  exact h.fewer

theorem rowRest_of_scan {row : List Sample} {bits : List Bool} (h : s.phase = .scan row bits) :
    rowRest s = rowLoop (s.rowSize - row.length) s := by
  unfold rowRest
  rw [h]

theorem rowRest_idle (h : s.phase = .idle) : rowRest s = (s, none) := by
  unfold rowRest
  rw [h]

theorem rowLoop_idle (h : s.phase = .idle) (n : Nat) : rowLoop n s = (s, none) := by
  cases n with
  | zero => rfl
  | succ n =>
    unfold rowLoop
    rw [h]

/-- A DIFF that raises no fault ends the row, or leads to the next DIFF with one more sample. -/
theorem applyDiff_goes_on {row : List Sample} {bits code extra : List Bool} (hp : s.phase = .scan row bits) (hr : row.length < s.rowSize)
    (h : applyDiff code extra s = (t, none)) :
    t.phase = .idle ∨ ∃ v, InRow t (v :: row) [] ∧ SameStream s t ∧ t.params = s.params ∧ t.rowSize = s.rowSize := by
  obtain ⟨f, hc⟩ | ⟨n, v, -, -, -, -, -, hc⟩ := applyDiff_cases code extra hp
  · rw [hc] at h
    cases h
  · rw [hc] at h
    by_cases hlast : row.length + 1 = s.ljWide.toNat * s.ljClrs.toNat
    · rw [if_pos hlast] at h
      cases h
      exact .inl rfl
    · rw [if_neg hlast] at h
      cases h
      refine .inr ⟨_, ⟨rfl, ?_, scanDiff_nil _ _⟩, ⟨rfl, rfl, rfl, rfl, rfl, rfl⟩, rfl, rfl⟩
      exact lt_of_le_of_ne hr hlast

theorem Onward.of_applyDiff {row : List Sample} {bits code extra : List Bool} (h : InRow s row bits)
    (hd : applyDiff code extra s = (t, none)) : t.phase = .idle ∨ (Onward s t ∧ SameStream s t) := by
  obtain hi | ⟨v, hin, hstream, hparams, hsize⟩ := applyDiff_goes_on h.place h.room hd
  · exact .inl hi
  · refine .inr ⟨⟨⟨_, _, hin⟩, hparams, ?_⟩, hstream⟩
    have hl := State.length_le_of_scanDiff_more h.unfinished
    have hroom := h.room
    rw [State.bitsLeft_of_scan hin.place, State.bitsLeft_of_scan h.place, hsize, List.length_cons, List.length_nil]
    omega

/-- What LJROW reaches from the outcome of reading a DIFF. -/
def settleRead (r : State × Except Raised (List Bool × List Bool)) : State :=
  match r with
  | (s, .error f) => raise f s
  | (s, .ok d) => settleAfter rowRest (applyDiff d.1 d.2 s)

/-- The rest of a row is its next DIFF and then the rest of it. -/
theorem settle_rowRest {row : List Sample} {bits : List Bool} (h : InRow s row bits) :
    settle (rowRest s) = settleRead (readDiff row.length diffFuel bits s) := by
  obtain ⟨n, hn⟩ : ∃ n, s.rowSize - row.length = n + 1 := ⟨s.rowSize - row.length - 1, by have := h.room; omega⟩
  rw [rowRest_of_scan h.place, hn]
  unfold rowLoop
  simp only [h.place]
  have hmove := readDiff_onlyCursorMoves row.length diffFuel bits s
  generalize readDiff row.length diffFuel bits s = r at hmove
  obtain ⟨s1, f | ⟨code, extra⟩⟩ := r
  · rfl
  · have h1 := h.of_onlyCursorMoves hmove
    have hsize : s1.rowSize = s.rowSize := by rw [show s1 = _ from hmove]; rfl
    dsimp only [settleRead]
    cases hd : applyDiff code extra s1 with
    | mk s2 o =>
      cases o with
      | some f => rfl
      | none =>
        dsimp only [settleAfter]
        obtain hi | ⟨v, hin, -, -, hsize2⟩ := applyDiff_goes_on h1.place h1.room hd
        · rw [rowRest_idle hi, rowLoop_idle hi]
        · rw [rowRest_of_scan hin.place, hsize2, hsize, List.length_cons, show s.rowSize - (row.length + 1) = n by omega]

/-! ## One bit of a row -/

/-- A fault leaves the scan, whatever bits were pending. -/
theorem raise_atPlace_scan {row : List Sample} {bits : List Bool} (hp : s.phase = .scan row bits) (other : List Bool) (f : Raised) :
    raise f (s.atPlace (.scan row other)) = raise f s := by
  unfold raise
  rw [State.faultCursor_of_scan _ hp, State.faultCursor_of_scan _ (State.atPlace_phase _ s)]
  rfl

/-- A DIFF raises the same fault, or does the same, whatever bits were pending. -/
theorem applyDiff_atPlace_cases {row : List Sample} {bits : List Bool} (hp : s.phase = .scan row bits) (other code extra : List Bool) :
    (∃ f, applyDiff code extra (s.atPlace (.scan row other)) = (s.atPlace (.scan row other), some f) ∧ applyDiff code extra s = (s, some f)) ∨
      applyDiff code extra (s.atPlace (.scan row other)) = applyDiff code extra s := by
  have htable : (s.atPlace (.scan row other)).table ((s.atPlace (.scan row other)).diffChannel row.length) =
      s.table (s.diffChannel row.length) := rfl
  have hdepth : (s.atPlace (.scan row other)).ljBits = s.ljBits := rfl
  have hpred : predictor (s.atPlace (.scan row other)) row = predictor s row := rfl
  unfold applyDiff
  simp only [hp, State.atPlace_phase, htable, hdepth, hpred]
  split
  · exact .inl ⟨_, rfl, rfl⟩
  · split
    · exact .inl ⟨_, rfl, rfl⟩
    · split
      · exact .inl ⟨_, rfl, rfl⟩
      · exact .inr rfl

theorem settleAfter_applyDiff_atPlace {row : List Sample} {bits : List Bool} (hp : s.phase = .scan row bits) (rest : Body)
    (other code extra : List Bool) :
    settleAfter rest (applyDiff code extra (s.atPlace (.scan row other))) = settleAfter rest (applyDiff code extra s) := by
  obtain ⟨f, h1, h2⟩ | h := applyDiff_atPlace_cases hp other code extra
  · rw [h1, h2]
    exact raise_atPlace_scan hp other f
  · rw [h]

theorem settleRead_atPlace {row : List Sample} {bits : List Bool} {r : State × Except Raised (List Bool × List Bool)}
    (hp : r.1.phase = .scan row bits) (other : List Bool) : settleRead (r.1.atPlace (.scan row other), r.2) = settleRead r := by
  obtain ⟨t, f | ⟨code, extra⟩⟩ := r
  · exact raise_atPlace_scan hp other f
  · exact settleAfter_applyDiff_atPlace hp rowRest other code extra

theorem acceptBit_of_more {row : List Sample} {bits : List Bool} {b : Bool} (hp : s.phase = .scan row bits)
    (hd : s.scanDiff row.length (bits ++ [b]) = .more) : acceptBit b s = (s.atPlace (.scan row (bits ++ [b])), none) := by
  unfold acceptBit
  simp only [hp, hd]
  rfl

theorem acceptBit_of_found {row : List Sample} {bits code extra : List Bool} {b : Bool} (hp : s.phase = .scan row bits)
    (hd : s.scanDiff row.length (bits ++ [b]) = .found code extra) : acceptBit b s = applyDiff code extra s := by
  unfold acceptBit
  simp only [hp, hd]

theorem InRow.atPlace {row : List Sample} {bits more : List Bool} (h : InRow s row bits) (hd : s.scanDiff row.length more = .more) :
    InRow (s.atPlace (.scan row more)) row more :=
  ⟨rfl, h.room, hd⟩

/-- The rest of a row is its next bit and then the rest of it. -/
theorem settle_rowRest_of_bit {row : List Sample} {bits : List Bool} {b : Bool} (h : InRow s row bits) (hb : nextBit s = .ok (b, t)) :
    settle (rowRest s) = settleAfter rowRest (acceptBit b t) := by
  have ht := h.of_onlyCursorMoves (nextBit_onlyCursorMoves hb)
  rw [settle_rowRest h, diffFuel, readDiff_of_bit h.unfinished hb]
  cases hd : t.scanDiff row.length (bits ++ [b]) with
  | found code extra =>
    rw [acceptBit_of_found ht.place hd, readDiff_of_found hd]
    rfl
  | more =>
    have hplace : (readDiff row.length 63 (bits ++ [b]) t).1.phase = .scan row bits := by
      rw [show (readDiff row.length 63 (bits ++ [b]) t).1 = _ from readDiff_onlyCursorMoves _ _ _ _]
      exact ht.place
    have hfuel : readDiff row.length diffFuel (bits ++ [b]) t = readDiff row.length 63 (bits ++ [b]) t :=
      readDiff_succ_fuel hd (by omega)
    rw [acceptBit_of_more ht.place hd, settleAfter_none, settle_rowRest (ht.atPlace hd), readDiff_atPlace, hfuel,
      settleRead_atPlace hplace]

/-- A bit that raises no fault ends the row or leads on in it. -/
theorem Onward.of_acceptBit {row : List Sample} {bits : List Bool} {b : Bool} (h : InRow s row bits)
    (hb : acceptBit b s = (t, none)) : t.phase = .idle ∨ (Onward s t ∧ SameStream s t) := by
  cases hd : s.scanDiff row.length (bits ++ [b]) with
  | found code extra =>
    rw [acceptBit_of_found h.place hd] at hb
    exact Onward.of_applyDiff h hb
  | more =>
    rw [acceptBit_of_more h.place hd] at hb
    cases hb
    refine .inr ⟨⟨⟨_, _, h.atPlace hd⟩, rfl, ?_⟩, s.sameStream_atPlace _⟩
    have hsize : (s.atPlace (.scan row (bits ++ [b]))).rowSize = s.rowSize := rfl
    have hl := State.length_le_of_scanDiff_more h.unfinished
    have hroom := h.room
    rw [State.bitsLeft_of_scan (State.atPlace_phase _ s), State.bitsLeft_of_scan h.place, hsize, List.length_append,
      List.length_singleton]
    omega

/-! ## The stuffed pair -/

/-- The cursor stands in the byte FF of a stuffed pair, `n` bits of which are to come; at its start the 00 is there (30_encoding R94). -/
structure InPair (s : State) (n : Nat) : Prop where
  mode : s.stuffed = true
  byte : s.streamByte s.spos.toNat = some 0xFF
  follow : s.sbit = 0 → s.streamByte (s.spos.toNat + 1) = some 0x00
  left : s.sbit.toNat + n = 8

theorem InPair.of_atStuff (h : atStuff s = true) : InPair s 8 := by
  unfold atStuff at h
  simp only [Bool.and_eq_true, beq_iff_eq] at h
  obtain ⟨⟨⟨hmode, hbit⟩, hbyte⟩, hfollow⟩ := h
  exact ⟨hmode, hbyte, fun _ => hfollow, by rw [hbit]; rfl⟩

theorem InPair.of_sameStream {n : Nat} (h : InPair s n) (hs : SameStream s t) : InPair t n := by
  have hbytes := hs.streamByte
  obtain ⟨-, -, -, hctrl, hspos, hsbit⟩ := hs
  have hmode : s.stuffed = t.stuffed := by unfold State.stuffed; rw [hctrl]
  refine ⟨?_, ?_, ?_, ?_⟩
  · rw [← hmode]; exact h.mode
  · rw [← hbytes, ← hspos]; exact h.byte
  · rw [← hbytes, ← hspos, ← hsbit]; exact h.follow
  · rw [← hsbit]; exact h.left

/-- Every bit of the FF is a one. -/
theorem InPair.nextBit {n : Nat} (h : InPair s (n + 1)) : nextBit s = .ok (true, s.advance true) := by
  have hleft := h.left
  have hone : (0xFF : Byte).getLsbD (7 - s.sbit.toNat) = true := by
    have : ∀ k, k < 8 → (0xFF : Byte).getLsbD k = true := by decide
    exact this _ (by omega)
  unfold Machine.nextBit
  simp only [h.byte, h.mode, Bool.true_and, beq_self_eq_true, hone]
  split
  · rename_i hbit
    simp [h.follow (by simpa using hbit)]
  · rfl

theorem InPair.advance {n : Nat} (h : InPair s (n + 2)) : InPair (s.advance true) (n + 1) := by
  have hleft := h.left
  have hnext : (s.sbit + 1).toNat = s.sbit.toNat + 1 := by
    rw [BitVec.toNat_add]
    exact Nat.mod_eq_of_lt (by simp; omega)
  have hadv : s.advance true = { s with sbit := s.sbit + 1 } := by
    unfold State.advance
    rw [if_pos (by omega)]
  rw [hadv]
  refine ⟨h.mode, h.byte, fun h0 => ?_, ?_⟩
  · rw [show s.sbit + 1 = 0 from h0] at hnext
    simp at hnext
  · show (s.sbit + 1).toNat + (n + 1) = 8
    omega

theorem stuffLoop_idle (h : s.phase = .idle) (n : Nat) : stuffLoop n s = (s, none) := by
  cases n with
  | zero => rfl
  | succ n =>
    unfold stuffLoop
    rw [h]

theorem stuffLoop_of_fault {row : List Sample} {bits : List Bool} {f : Raised} (hp : s.phase = .scan row bits)
    (hb : acceptBit true (s.advance true) = (t, some f)) (n : Nat) : stuffLoop (n + 1) s = (t, some f) := by
  simp only [stuffLoop, hp, hb]

theorem stuffLoop_of_bit {row : List Sample} {bits : List Bool} (hp : s.phase = .scan row bits)
    (hb : acceptBit true (s.advance true) = (t, none)) (n : Nat) : stuffLoop (n + 1) s = stuffLoop n t := by
  simp only [stuffLoop, hp, hb]

/-- The element with the outcome `r` is the next of the row that `s` is in: after it the row goes on as it does from `s`, further on. -/
structure NextOfRow (s : State) (r : State × Option Raised) : Prop where
  agrees : settle (rowRest s) = settleAfter rowRest r
  onward : ∀ t, r = (t, none) → t.phase = .idle ∨ Onward s t

/-- The ones of a stuffed pair are the next bits of the row. -/
theorem stuffLoop_nextOfRow {s : State} {row : List Sample} {bits : List Bool} (n : Nat) (h : InRow s row bits) (hpair : InPair s (n + 1)) :
    NextOfRow s (stuffLoop (n + 1) s) := by
  have hmove := onlyCursorMoves_advance s true
  have hadv := h.of_onlyCursorMoves hmove
  have hbit := settle_rowRest_of_bit h hpair.nextBit
  cases hb : acceptBit true (s.advance true) with
  | mk t o =>
    rw [hb] at hbit
    cases o with
    | some f =>
      rw [stuffLoop_of_fault h.place hb]
      exact ⟨hbit, fun u hu => by cases hu⟩
    | none =>
      rw [stuffLoop_of_bit h.place hb]
      obtain hi | ⟨ho, hstream⟩ := Onward.of_acceptBit hadv hb
      · rw [stuffLoop_idle hi]
        exact ⟨hbit, fun u hu => by cases hu; exact .inl hi⟩
      · have hon := ho.of_onlyCursorMoves hmove
        cases n with
        | zero => exact ⟨hbit, fun u hu => by cases hu; exact .inr hon⟩
        | succ n =>
          obtain ⟨row', bits', hin⟩ := ho.inRow
          have hnext := stuffLoop_nextOfRow n hin (hpair.advance.of_sameStream hstream)
          exact ⟨hbit.trans hnext.agrees, fun u hu => (hnext.onward u hu).imp_right hon.trans⟩

theorem exec_stuff_of_atStuff {row : List Sample} {bits : List Bool} (hp : s.phase = .scan row bits) (ha : atStuff s = true) :
    exec .stuff s = .next (settle (stuffLoop 8 s)) := by
  have hpair := InPair.of_atStuff ha
  have hbit : s.sbit = 0 := by
    have := hpair.left
    exact BitVec.eq_of_toNat_eq (by simp; omega)
  rw [exec, execStuff]
  simp only [hp]
  rw [if_pos ⟨hpair.mode, hbit⟩]

/-! ## A DIFF of the row -/

/-- The DIFF that is read at the cursor is executed with the bits that were taken for it. -/
theorem exec_diff_of_readDiff {row : List Sample} {bits code extra : List Bool} (h : InRow s row bits)
    (hr : readDiff row.length diffFuel bits s = (t, .ok (code, extra))) :
    exec (.diff code extra) s = .next (settle (applyDiff code extra t)) := by
  obtain ⟨hfound, more, hmore, htake⟩ := takeBits_of_readDiff h.unfinished (by simp [diffFuel]; omega) hr
  have hlen : code.length + extra.length - bits.length = more.length := by
    have := congrArg List.length hmore
    simp only [List.length_append] at this
    omega
  have hnext : isNextDiff s row.length bits code extra = true := by
    rw [isNextDiff, hfound, ← hmore]
    simp
  have hbody : diffBody more.length code extra s = applyDiff code extra t := by simp only [diffBody, htake]
  rw [exec, execDiff]
  simp only [h.place, hnext, if_true, hlen, hbody]

/-- Every step inside a row is the next element of the row. -/
theorem step_nextOfRow {row : List Sample} {bits : List Bool} (hw : s.params.wf = true) (h : InRow s row bits) :
    ∃ r, step s = .next (settle r) ∧ NextOfRow s r := by
  rw [step_scan hw h.place]
  by_cases ha : atStuff s = true
  · rw [if_pos ha]
    exact ⟨_, exec_stuff_of_atStuff h.place ha, stuffLoop_nextOfRow 7 h (InPair.of_atStuff ha)⟩
  · rw [if_neg ha]
    have hrest := settle_rowRest h
    have hmove := readDiff_onlyCursorMoves row.length diffFuel bits s
    cases hr : readDiff row.length diffFuel bits s with
    | mk t x =>
      rw [hr] at hrest hmove
      cases x with
      | error f => exact ⟨(t, some f), rfl, hrest, fun u hu => by cases hu⟩
      | ok d =>
        refine ⟨_, exec_diff_of_readDiff h hr, hrest, fun u hu => ?_⟩
        obtain hi | ⟨ho, -⟩ := Onward.of_applyDiff (h.of_onlyCursorMoves hmove) hu
        · exact .inl hi
        · exact .inr (ho.of_onlyCursorMoves hmove)

/-! ## LJROW -/

/-- From any place in a row a run does what is left of LJROW's loop. -/
theorem rowRest_isRun {row : List Sample} {bits : List Bool} (hw : s.params.wf = true) (h : InRow s row bits) :
    RunsTo s (settle (rowRest s)) := by
  induction hn : s.bitsLeft using Nat.strong_induction_on generalizing s row bits with
  | _ n ih =>
    obtain ⟨r, hstep, hagrees, honward⟩ := step_nextOfRow hw h
    rw [hagrees]
    refine runsTo_settleAfter hstep (fun t _ ht => rowRest_idle ht) (fun t hr ht => ?_)
    obtain hi | ho := honward t hr
    · exact absurd hi ht
    · obtain ⟨row', bits', hin⟩ := ho.inRow
      exact ih _ (by rw [← hn]; exact ho.fewer) (by rw [ho.params]; exact hw) hin rfl

/-- An accepted LJROW whose checks pass is its loop over the DIFFs of a row. -/
theorem exec_ljrow_of_legal (ha : s.accepting) (hr : s.ljReady = true) (hi : s.legalImage) (hc : s.legalCfa) (hst : s.legalStream)
    (hf : s.frameMatches) :
    exec .ljrow s = .next (settle (rowLoop s.rowSize ((s.begin 0x02).atPlace (.scan [] [])))) := by
  have hchecks : rowFault (s.begin 0x02) = none := by
    simp [rowFault, hr, (imageRegsFault_eq_none_iff s).2 hi, (cfaFault_eq_none_iff s).2 hc, (streamFault_eq_none_iff s).2 hst,
      (frameFault_eq_none_iff s).2 hf]
  rw [exec, execLjrow, command_of_accepting _ _ ha, ljrowBody, hchecks]
  rfl

/-- Settles O26: each step is the next STUFF or DIFF of the row, and after each the run and LJROW's loop have the same rest before them. -/
theorem ljrowIsItsElements : Obligations.LjrowIsItsElements := by
  intro s hw ha hr hi hc hst hf
  rw [exec_ljrow_of_legal ha hr hi hc hst hf]
  have hroom : 0 < s.rowSize := by
    rw [State.rowSize, hf.1]
    exact hi.1
  exact rowRest_isRun (s := (s.begin 0x02).atPlace (.scan [] [])) hw ⟨rfl, hroom, scanDiff_nil _ _⟩

end Sys2Proof.Machine
end

section
/-! PROOFS of the family 10_state. Code assignment (30_encoding R92) builds the tables of 10_state R41: while codes are assigned, the next code stands
above everything that the codes assigned so far reach at its length. -/

namespace Sys2Proof

/-! ## Tables of 10_state R41 -/

/-- Neither code starts the other. -/
def HuffEntry.Apart (e f : HuffEntry) : Prop := e.isPrefixOf f = false ∧ f.isPrefixOf e = false

theorem HuffEntry.Apart.symm {e f : HuffEntry} (h : e.Apart f) : f.Apart e := And.symm h

theorem HuffTable.wf_cons_iff (e : HuffEntry) (t : HuffTable) :
    HuffTable.wf (e :: t) = true ↔ e.wf = true ∧ (∀ f ∈ t, e.Apart f) ∧ HuffTable.wf t = true := by
  simp [HuffTable.wf, HuffEntry.Apart, and_assoc]

theorem HuffTable.wf_iff (t : HuffTable) :
    HuffTable.wf t = true ↔ (∀ e ∈ t, e.wf = true) ∧ t.Pairwise HuffEntry.Apart := by
  induction t with
  | nil => simp [HuffTable.wf]
  | cons e t ih =>
    rw [HuffTable.wf_cons_iff, ih, List.forall_mem_cons, List.pairwise_cons]
    tauto

theorem HuffTable.wf_reverse {t : HuffTable} (h : HuffTable.wf t = true) : HuffTable.wf t.reverse = true := by
  obtain ⟨hbounds, hapart⟩ := (HuffTable.wf_iff t).1 h
  refine (HuffTable.wf_iff _).2 ⟨fun e he => hbounds e (List.mem_reverse.1 he), ?_⟩
  exact List.pairwise_reverse.2 (hapart.imp HuffEntry.Apart.symm)

/-- A code above everything that `e` starts at its length neither starts `e` nor is started by it. -/
theorem HuffEntry.apart_of_above {e f : HuffEntry} (hlen : e.len ≤ f.len) (h : (e.code + 1) * 2 ^ (f.len - e.len) ≤ f.code) :
    f.Apart e := by
  have hshift : e.code + 1 ≤ f.code >>> (f.len - e.len) := by
    rw [Nat.shiftRight_eq_div_pow]
    exact (Nat.le_div_iff_mul_le (by positivity)).2 h
  constructor
  · simp only [HuffEntry.isPrefixOf, Bool.and_eq_false_iff, decide_eq_false_iff_not, beq_eq_false_iff_ne]
    by_cases hle : f.len ≤ e.len
    · have hsame : e.len - f.len = 0 ∧ f.len - e.len = 0 := by omega
      rw [hsame.2, Nat.shiftRight_zero] at hshift
      rw [hsame.1, Nat.shiftRight_zero]
      exact .inr (by omega)
    · exact .inl hle
  · simp only [HuffEntry.isPrefixOf, Bool.and_eq_false_iff, decide_eq_false_iff_not, beq_eq_false_iff_ne]
    exact .inr (by omega)

/-! ## Four like things -/

theorem Quad.get_set {α : Type} (q : Quad α) (k c : Lane) (v : α) : (q.set k v).get c = if c = k then v else q.get c := by
  match k, c with
  | 0, 0 | 0, 1 | 0, 2 | 0, 3 | 1, 0 | 1, 1 | 1, 2 | 1, 3 => rfl
  | 2, 0 | 2, 1 | 2, 2 | 2, 3 | 3, 0 | 3, 1 | 3, 2 | 3, 3 => rfl

@[simp] theorem Quad.get_all {α : Type} (v : α) (c : Lane) : (Quad.all v).get c = v := by
  match c with
  | 0 | 1 | 2 | 3 => rfl

end Sys2Proof

namespace Sys2Proof.Machine

/-! ## Code assignment -/

/-- The triples assigned so far are a table, and at length `len` all their codes lie below `code`. -/
structure Assigned (len code : Nat) (t : HuffTable) : Prop where
  wf : HuffTable.wf t = true
  below : ∀ e ∈ t, e.len ≤ len ∧ (e.code + 1) * 2 ^ (len - e.len) ≤ code

theorem Assigned.nil (len code : Nat) : Assigned len code [] := ⟨rfl, fun _ h => absurd h List.not_mem_nil⟩

/-- The next code of the same length is assigned. -/
theorem Assigned.cons {len code value : Nat} {t : HuffTable} (h : Assigned len code t) (h1 : 1 ≤ len) (h16 : len ≤ 16)
    (hc : code < 2 ^ len) (hv : value ≤ 16) : Assigned len (code + 1) (⟨len, code, value⟩ :: t) := by
  refine ⟨(HuffTable.wf_cons_iff _ _).2 ⟨?_, fun e he => ?_, h.wf⟩, fun e he => ?_⟩
  · simp [HuffEntry.wf, Config.huffMaxLen, Config.maxSymbol, h1, h16, hc, hv]
  · obtain ⟨hlen, hcode⟩ := h.below e he
    exact HuffEntry.apart_of_above hlen hcode
  · obtain rfl | he := List.mem_cons.1 he
    · simp
    · obtain ⟨hlen, hcode⟩ := h.below e he
      exact ⟨hlen, by omega⟩

/-- The codes go on at the next length. -/
theorem Assigned.next_length {len code : Nat} {t : HuffTable} (h : Assigned len code t) : Assigned (len + 1) (code <<< 1) t := by
  refine ⟨h.wf, fun e he => ?_⟩
  obtain ⟨hlen, hcode⟩ := h.below e he
  refine ⟨by omega, ?_⟩
  rw [Nat.shiftLeft_eq, Nat.sub_add_comm hlen, pow_succ, pow_one, ← Nat.mul_assoc]
  exact Nat.mul_le_mul_right 2 hcode

theorem headD_le_of_alphabet {vals : List Byte} (h : ∀ v ∈ vals, v.toNat ≤ 16) : (vals.headD 0).toNat ≤ 16 := by
  cases vals with
  | nil => simp
  | cons v vals => exact h v List.mem_cons_self

theorem assignLength_assigned {len count code code' : Nat} {vals vals' : List Byte} {t t' : HuffTable} (h1 : 1 ≤ len) (h16 : len ≤ 16)
    (hv : ∀ v ∈ vals, v.toNat ≤ 16) (h : Assigned len code t) (ha : assignLength len count code vals t = .ok (code', vals', t')) :
    Assigned len code' t' ∧ ∀ v ∈ vals', v.toNat ≤ 16 := by
  induction count generalizing code vals t with
  | zero =>
    cases ha
    exact ⟨h, hv⟩
  | succ n ih =>
    unfold assignLength at ha
    split at ha
    · cases ha
    · rename_i hc
      exact ih (fun v hm => hv v (List.mem_of_mem_tail hm)) (h.cons h1 h16 (by omega) (headD_le_of_alphabet hv)) ha

theorem assignCodes_wf {counts vals : List Byte} {len code : Nat} {t t' : HuffTable} (h1 : 1 ≤ len) (h17 : len + counts.length ≤ 17)
    (hv : ∀ v ∈ vals, v.toNat ≤ 16) (h : Assigned len code t) (ha : assignCodes counts len code vals t = .ok t') :
    HuffTable.wf t' = true := by
  induction counts generalizing len code vals t with
  | nil =>
    cases ha
    exact HuffTable.wf_reverse h.wf
  | cons n counts ih =>
    rw [List.length_cons] at h17
    unfold assignCodes at ha
    split at ha
    · rename_i hl
      obtain ⟨hnext, hrest⟩ := assignLength_assigned h1 (by omega) hv h hl
      exact ih (by omega) (by omega) hrest hnext.next_length ha
    · cases ha

/-- A table built from at most sixteen counts and values of the alphabet is one of 10_state R41. -/
theorem buildTable_wf {counts vals : List Byte} {t : HuffTable} (hc : counts.length ≤ 16) (hv : ∀ v ∈ vals, v.toNat ≤ 16)
    (h : buildTable counts vals = .ok t) : HuffTable.wf t = true :=
  assignCodes_wf (le_refl 1) (by omega) hv (.nil 1 0) h

/-! ## Stored definitions -/

theorem parseDefinition_wf {len : BitVec 16} {payload rest : List Byte} {id : Lane} {t : HuffTable}
    (h : parseDefinition len payload = .ok (id, t, rest)) : HuffTable.wf t = true := by
  unfold parseDefinition at h
  split at h
  · cases h
  · dsimp only at h
    split_ifs at h
    split at h
    · cases h
    · rename_i hvals
      split at h
      · cases h
      · rename_i hbuild
        cases h
        refine buildTable_wf (by simp) (fun v hm => ?_) hbuild
        exact Nat.not_lt.1 (fun hlt => List.find?_eq_none.1 hvals v hm (decide_eq_true hlt))

/-- Every defined table of the four is one of 10_state R41. -/
def TablesWf (ht : Quad (Option HuffTable)) : Prop := ∀ c t, ht.get c = some t → HuffTable.wf t = true

theorem State.tablesWf_iff (s : State) : s.tablesWf ↔ TablesWf s.ht := Iff.rfl

theorem TablesWf.none : TablesWf (Quad.all none) := fun c t h => by
  rw [Quad.get_all] at h
  cases h

theorem TablesWf.set {ht : Quad (Option HuffTable)} {t : HuffTable} (h : TablesWf ht) (ht' : HuffTable.wf t = true) (k : Lane) :
    TablesWf (ht.set k (some t)) := by
  intro c u hu
  rw [Quad.get_set] at hu
  split_ifs at hu
  · cases hu
    exact ht'
  · exact h c u hu

/-- DHT stores only tables of 10_state R41, also before a fault. -/
theorem TablesWf.storeDefinitions {ht : Quad (Option HuffTable)} (h : TablesWf ht) (len : BitVec 16) (fuel : Nat) (payload : List Byte) :
    TablesWf (storeDefinitions len fuel payload ht).1 := by
  induction fuel generalizing payload ht with
  | zero => exact h
  | succ n ih =>
    unfold Machine.storeDefinitions
    split
    · exact h
    · rename_i id t rest hparse
      have hset := h.set (parseDefinition_wf hparse) id
      split
      · exact hset
      · exact ih hset rest

end Sys2Proof.Machine
end

section
/-! PROOFS of the family 10_state, continued: what each operation leaves unchanged. The registers are grouped as the last column of 10_state R45 groups them, by
who writes them; an operation that does not write a group leaves the group's value, a tuple, as it was. -/

namespace Sys2Proof.Machine

/-! ## Groups of registers -/

section Groups

variable (s : State)

/-- The registers that only the host writes. -/
def State.hostRegisters :=
  (s.colors, s.cfa, s.black, s.maximum, s.streamLen, s.camMul, s.cmat)

/-- The warnings and the registers of the EX unit. -/
def State.exposureRegisters :=
  (s.warned, s.warnFlags, s.warnCount, s.clipMax, s.shift, s.premul, s.gwSum, s.gwCnt)

/-- The registers that DIAGRS consumes or switches. -/
def State.resampleRegisters := (s.ctrl, s.diagMag, s.imgSel)

/-- The registers that PERMUTE consumes or swaps. -/
def State.orientRegisters := (s.orient, s.xmag, s.ymag)

/-- The size of the declared image. -/
def State.sizeRegisters := (s.width, s.height)

/-- The frame, the row counter, the predictors and the tables. -/
def State.scanRegisters := (s.ljBits, s.ljWide, s.ljHigh, s.ljClrs, s.ljRow, s.vpred, s.ht)

/-- The registers of the LJ unit: the stream cursor and what a scan needs. -/
def State.ljRegisters := ((s.spos, s.sbit), s.scanRegisters)

/-- How the last command ended, or that one runs: the flags BUSY, DONE and FAULT, and ERR_*. -/
def State.reports := (s.busy, s.done, s.faulted, s.errCode, s.errStage, s.errInfo, s.errPos)

/-- Where the core is: its reports, LJ_READY and the place inside an LJ command. -/
def State.control := (s.reports, s.ljReady, s.phase)

/-- All that no operation of the LJ unit writes before its command ends. -/
def State.beyondLj :=
  (s.hostRegisters, s.exposureRegisters, s.resampleRegisters, s.orientRegisters, s.sizeRegisters, s.reports)

end Groups

/-! ## What an instruction may write -/

/-- `t` differs from `s` at most in groups of registers that instruction `i` writes (10_state R45), and in those that every command writes. -/
structure WritesOwn (i : Instr) (s t : State) : Prop where
  host : t.hostRegisters = s.hostRegisters
  exposure : i ≠ .expsetup → t.exposureRegisters = s.exposureRegisters
  resample : i ≠ .diagrs → t.resampleRegisters = s.resampleRegisters
  orient : i ≠ .permute → t.orientRegisters = s.orientRegisters
  size : i ≠ .diagrs → i ≠ .permute → t.sizeRegisters = s.sizeRegisters
  lj : isLjInstr i = false → t.ljRegisters = s.ljRegisters

variable {i : Instr} {s t u : State}

theorem WritesOwn.refl (i : Instr) (s : State) : WritesOwn i s s :=
  ⟨rfl, fun _ => rfl, fun _ => rfl, fun _ => rfl, fun _ _ => rfl, fun _ => rfl⟩

theorem WritesOwn.trans (h : WritesOwn i s t) (k : WritesOwn i t u) : WritesOwn i s u where
  host := k.host.trans h.host
  exposure hi := (k.exposure hi).trans (h.exposure hi)
  resample hi := (k.resample hi).trans (h.resample hi)
  orient hi := (k.orient hi).trans (h.orient hi)
  size hd hp := (k.size hd hp).trans (h.size hd hp)
  lj hi := (k.lj hi).trans (h.lj hi)

/-- Whatever the instruction, keeping all the groups that it might not write is enough. -/
theorem WritesOwn.of_groups (h1 : t.hostRegisters = s.hostRegisters) (h2 : t.exposureRegisters = s.exposureRegisters)
    (h3 : t.resampleRegisters = s.resampleRegisters) (h4 : t.orientRegisters = s.orientRegisters)
    (h5 : t.sizeRegisters = s.sizeRegisters) (h6 : isLjInstr i = false → t.ljRegisters = s.ljRegisters) : WritesOwn i s t :=
  ⟨h1, fun _ => h2, fun _ => h3, fun _ => h4, fun _ _ => h5, h6⟩

theorem WritesOwn.of_beyondLj (hi : isLjInstr i = true) (h : t.beyondLj = s.beyondLj) : WritesOwn i s t := by
  simp only [State.beyondLj, Prod.mk.injEq] at h
  obtain ⟨h1, h2, h3, h4, h5, -⟩ := h
  exact .of_groups h1 h2 h3 h4 h5 (fun hf => by simp [hi] at hf)

theorem WritesOwn.begin (i : Instr) (s : State) (w : BitVec 8) : WritesOwn i s (s.begin w) :=
  .of_groups rfl (by simp [State.exposureRegisters]) rfl rfl rfl (fun _ => rfl)

theorem WritesOwn.complete (i : Instr) (s : State) : WritesOwn i s s.complete :=
  .of_groups rfl (by simp [State.exposureRegisters]) rfl rfl rfl (fun _ => rfl)

/-- A fault moves the cursor only where an LJ command takes it. -/
theorem WritesOwn.raise (f : Raised) (h : isLjInstr i = false → s.phase = .idle) : WritesOwn i s (raise f s) := by
  refine .of_groups rfl (by simp [State.exposureRegisters]) rfl rfl rfl (fun hi => ?_)
  have hcursor := State.faultCursor_of_idle s (h hi)
  show ((s.faultCursor.spos, s.faultCursor.sbit), s.scanRegisters) = _
  rw [hcursor]
  rfl

/-! ## The commands that are not the LJ unit's -/

/-- What the effect of such a command does: it writes only its own registers, and does not touch the life of a command. -/
structure ImageEffect (i : Instr) (s t : State) : Prop where
  writes : WritesOwn i s t
  control : t.control = s.control

theorem ImageEffect.refl (i : Instr) (s : State) : ImageEffect i s s := ⟨.refl i s, rfl⟩

theorem ImageEffect.rewriteBank (i : Instr) (s : State) (b : Bank) (base n : Nat) (f : Nat → Option Sample) :
    ImageEffect i s (s.rewriteBank b base n f) := by
  unfold State.rewriteBank State.setBank
  cases b <;>
    exact ⟨⟨rfl, fun _ => rfl, fun _ => rfl, fun _ => rfl, fun _ _ => rfl, fun _ => rfl⟩, rfl⟩

theorem ImageEffect.rewriteImage (i : Instr) (s : State) (rule : Nat → Lane → Option Sample) :
    ImageEffect i s (s.rewriteImage rule) :=
  .rewriteBank i s _ _ _ _

/-- A warning is written by EXPSETUP alone. -/
theorem ImageEffect.warn (s : State) (c : Lane) : ImageEffect .expsetup s (warn c s) :=
  ⟨⟨rfl, fun h => absurd rfl h, fun _ => rfl, fun _ => rfl, fun _ _ => rfl, fun _ => rfl⟩, by simp [State.control, State.reports]⟩

theorem ImageEffect.trans (h : ImageEffect i s t) (k : ImageEffect i t u) : ImageEffect i s u :=
  ⟨h.writes.trans k.writes, k.control.trans h.control⟩

theorem ImageEffect.warnZeroSums (s : State) (cs : List Lane) : ImageEffect .expsetup s (warnZeroSums s cs) := by
  induction cs generalizing s with
  | nil => exact .refl _ s
  | cons c cs ih =>
    unfold Machine.warnZeroSums
    split
    · exact (ImageEffect.warn s c).trans (ih _)
    · exact ih s

theorem ImageEffect.grayWorldScan (s : State) : ImageEffect .expsetup s (grayWorldScan s) := by
  refine .trans ?_ (.warnZeroSums _ _)
  exact ⟨⟨rfl, fun h => absurd rfl h, fun _ => rfl, fun _ => rfl, fun _ _ => rfl, fun _ => rfl⟩, rfl⟩

theorem ImageEffect.setupRegisters (s : State) : ImageEffect .expsetup s (setupRegisters s) :=
  ⟨⟨rfl, fun h => absurd rfl h, fun _ => rfl, fun _ => rfl, fun _ _ => rfl, fun _ => rfl⟩, rfl⟩

theorem ImageEffect.resample (s : State) : ImageEffect .diagrs s (resample s) := by
  unfold Machine.resample State.rewriteBank State.setBank
  cases s.activeBank.other <;>
    exact ⟨⟨rfl, fun _ => rfl, fun h => absurd rfl h, fun _ => rfl, fun h => absurd rfl h, fun _ => rfl⟩, rfl⟩

theorem ImageEffect.finalise (s : State) : ImageEffect .permute s (finalise s) := by
  unfold Machine.finalise
  split <;>
    exact ⟨⟨rfl, fun _ => rfl, fun _ => rfl, fun h => absurd rfl h, fun _ h => absurd rfl h, fun _ => rfl⟩, rfl⟩

/-- A body that makes its checks first raises a fault with nothing written, or has its effect. -/
theorem checked_cases (check : State → Option Raised) (effect : State → State) (s : State) :
    (∃ f, checked check effect s = (s, some f)) ∨ checked check effect s = (effect s, none) := by
  cases h : check s with
  | none => exact .inr (checked_of_none h)
  | some f => exact .inl ⟨f, checked_of_fault h⟩

theorem ImageEffect.checked {check : State → Option Raised} {effect : State → State} (h : ImageEffect i s (effect s)) :
    ImageEffect i s (checked check effect s).1 := by
  obtain ⟨f, hc⟩ | hc := checked_cases check effect s
  · rw [hc]
    exact .refl i s
  · rw [hc]
    exact h

/-- Every command that is not the LJ unit's has such an effect. -/
theorem ImageEffect.commandBody (hi : isLjInstr i = false) (s : State) : ImageEffect i s (commandBody i s).1 := by
  cases i with
  | bilin => exact .checked (.rewriteImage _ s _)
  | vngref =>
    refine .checked ?_
    split
    · exact .refl _ s
    · exact .rewriteImage _ s _
  | expsetup =>
    refine .checked (.trans ?_ (.setupRegisters _))
    split
    · exact .grayWorldScan s
    · exact .refl _ s
  | expapply => exact .checked (.rewriteImage _ s _)
  | cmatrix => exact .checked (.rewriteImage _ s _)
  | diagrs =>
    refine .checked ?_
    split
    · exact .resample s
    · exact .refl _ s
  | permute => exact .checked ((ImageEffect.rewriteImage _ s _).trans (.finalise _))
  | init => exact .refl _ s
  | ljstart | ljrow | soi | stuff => cases hi
  | sof3 | dht | sos | diff => cases hi

end Sys2Proof.Machine
end

section
/-! PROOFS of the family 10_state, continued: what the LJ unit keeps. Its bodies are made of few updates of the state; what these keep, every body keeps
(`KeptByLj`), and so every instruction of the unit. -/

namespace Sys2Proof.Machine

variable {s t : State} {P Q : State → Prop} {i : Instr}

/-! ## The header elements -/

/-- Everything the body of a header element can reach, with a fault or without. -/
inductive HeaderResult (s : State) : State → Prop where
  /-- A fault, or an element out of place: nothing written. -/
  | unchanged : HeaderResult s s
  /-- SOI. -/
  | opened (loaded : Cursor) (hp : s.phase = .start loaded) : HeaderResult s { s.skip 2 with phase := .header loaded false }
  /-- SOF3. -/
  | frame (t : State) (len : BitVec 16) (loaded : Cursor) (hp : s.phase = .header loaded false) (hl : t.frameLegal)
      (ht : t = { s.skip (2 + len.toNat) with
                  ljBits := t.ljBits, ljHigh := t.ljHigh, ljWide := t.ljWide, ljClrs := t.ljClrs
                  phase := .header loaded true }) : HeaderResult s t
  /-- DHT, which stores tables also before a fault. -/
  | tables (len : BitVec 16) (payload : List Byte) (spos : BitVec 32) (loaded : Cursor) (sof : Bool) (hp : s.phase = .header loaded sof) :
      HeaderResult s { s with ht := (storeDefinitions len (payload.length + 1) payload s.ht).1, spos := spos }
  /-- SOS. -/
  | ended (len : BitVec 16) (loaded : Cursor) (hp : s.phase = .header loaded true) (ht : missingTable s = none) :
      HeaderResult s (finishStart { s.skip (2 + len.toNat) with sbit := 0 })

theorem soiBody_result (s : State) : HeaderResult s (soiBody s).1 := by
  unfold soiBody
  split
  · rename_i loaded hp
    exact .opened loaded hp
  · exact .unchanged

theorem sof3Body_result (len : BitVec 16) (payload : List Byte) (s : State) : HeaderResult s (sof3Body len payload s).1 := by
  cases hp : s.phase with
  | header loaded sof =>
    obtain ⟨f, hc⟩ | ⟨t, hc, rfl, -, hl, ht⟩ := sof3Body_cases len payload hp <;> rw [hc]
    · exact .unchanged
    · exact .frame t len loaded hp hl ht
  | idle | start | scan =>
    simp only [sof3Body, hp]
    exact .unchanged

theorem dhtBody_result (len : BitVec 16) (payload : List Byte) (s : State) : HeaderResult s (dhtBody len payload s).1 := by
  cases hp : s.phase with
  | header loaded sof =>
    obtain ⟨f, hc⟩ | ⟨f, hc⟩ | ⟨-, hc⟩ := dhtBody_cases len payload hp <;> rw [hc]
    · exact .unchanged
    · exact .tables len payload s.spos loaded sof hp
    · exact .tables len payload _ loaded sof hp
  | idle | start | scan =>
    simp only [dhtBody, hp]
    exact .unchanged

theorem sosBody_result (len : BitVec 16) (s : State) : HeaderResult s (sosBody len s).1 := by
  cases hp : s.phase with
  | header loaded sof =>
    obtain ⟨f, hc⟩ | ⟨rfl, -, ht, -, hc⟩ := sosBody_cases len hp <;> rw [hc]
    · exact .unchanged
    · exact .ended len loaded hp ht
  | idle | start | scan =>
    simp only [sosBody, hp]
    exact .unchanged

theorem headerBody_result (i : Instr) (s : State) : HeaderResult s (headerBody i s).1 := by
  cases i with
  | soi => exact soiBody_result s
  | sof3 len payload => exact sof3Body_result len payload s
  | dht len payload => exact dhtBody_result len payload s
  | sos len payload => exact sosBody_result len s
  | ljstart | ljrow | bilin | vngref | expsetup => exact .unchanged
  | expapply | cmatrix | diagrs | permute | init => exact .unchanged
  | stuff | diff => exact .unchanged

/-! ## The updates of the LJ unit -/

/-- The updates that the bodies of the LJ unit are made of keep `Q`. -/
structure KeptByLj (Q : State → Prop) : Prop where
  openHeader : ∀ {s}, Q s → Q (openHeader s)
  header : ∀ {s t}, Q s → HeaderResult s t → Q t
  cursor : ∀ {s t row bits}, Q s → s.phase = .scan row bits → OnlyCursorMoves s t → Q t
  place : ∀ {s} row bits, Q s → Q (s.atPlace (.scan row bits))
  sample : ∀ {s row bits} {v : Sample}, Q s → s.phase = .scan row bits → v.toNat < 2 ^ s.ljBits.toNat → Q (keepSample row v s)
  row : ∀ {s} row, Q s → Q (finishRow row s)

theorem KeptByLj.headerBody (h : KeptByLj Q) (i : Instr) (hq : Q s) : Q (headerBody i s).1 :=
  h.header hq (headerBody_result i s)

theorem KeptByLj.applyDiff (h : KeptByLj Q) (code extra : List Bool) (hq : Q s) : Q (applyDiff code extra s).1 :=
  applyDiff_keeps (P := Q) (fun _ _ _ _ => h.sample) (fun _ row _ ht _ _ => h.row row ht) code extra hq

theorem KeptByLj.stuffLoop (h : KeptByLj Q) (n : Nat) (hq : Q s) : Q (stuffLoop n s).1 :=
  stuffLoop_keeps (P := Q) (fun s _ _ ht hp => h.cursor ht hp (onlyCursorMoves_advance s true)) (fun _ _ _ _ ht _ => h.place _ _ ht)
    (fun _ _ _ => h.applyDiff _ _) n hq

theorem KeptByLj.diffBody (h : KeptByLj Q) {row : List Sample} {bits : List Bool} (n : Nat) (code extra : List Bool) (hq : Q s)
    (hp : s.phase = .scan row bits) : Q (diffBody n code extra s).1 := by
  have hmove := takeBits_onlyCursorMoves n s
  unfold Machine.diffBody
  split <;> rename_i ht <;> rw [ht] at hmove
  · exact h.cursor hq hp hmove
  · exact h.applyDiff code extra (h.cursor hq hp hmove)

theorem KeptByLj.ljstartBody (h : KeptByLj Q) (hq : Q s) : Q (ljstartBody s).1 := by
  unfold Machine.ljstartBody
  split
  · exact hq
  · exact headerLoop_keeps (P := Q) (fun i _ ht _ _ => h.headerBody i ht) _ (h.openHeader hq)

theorem KeptByLj.ljrowBody (h : KeptByLj Q) (hq : Q s) : Q (ljrowBody s).1 := by
  unfold Machine.ljrowBody
  split
  · exact hq
  · exact rowLoop_keeps (P := Q) (fun _ _ _ _ => h.cursor) (fun _ _ _ => h.applyDiff _ _) _ (h.place [] [] hq)

/-- The two commands of the unit keep it; an element has no command body of its own. -/
theorem KeptByLj.commandBody (h : KeptByLj Q) (hi : isLjInstr i = true) (hq : Q s) : Q (commandBody i s).1 := by
  cases i with
  | ljstart => exact h.ljstartBody hq
  | ljrow => exact h.ljrowBody hq
  | soi | sof3 | dht | sos | stuff | diff => exact hq
  | bilin | vngref | expsetup | expapply | cmatrix | diagrs | permute | init => cases hi

/-! ## What an element of the LJ unit does as an instruction -/

/-- An element raises a fault where it stands, or its body is run and settled. -/
inductive ElementResult (s : State) : State → Prop where
  | raised (f : Raised) : ElementResult s (raise f s)
  | header (i : Instr) : ElementResult s (settle (headerBody i s))
  | stuff : ElementResult s (settle (stuffLoop 8 s))
  | diff (row : List Sample) (bits code extra : List Bool) (n : Nat) (hp : s.phase = .scan row bits) :
      ElementResult s (settle (diffBody n code extra s))

theorem misplaced_result {marker : Nat} (h : misplaced marker s = .next t) : ElementResult s t := by
  unfold misplaced at h
  split at h
  · cases h
  · cases h
    exact .raised _
  · cases h
    exact .raised _
  · split at h <;> cases h
    exact .raised _

/-- An instruction of the LJ unit that is no command leads to one of these results. -/
theorem exec_element_result (hi : isLjInstr i = true) (h1 : i ≠ .ljstart) (h2 : i ≠ .ljrow) (h : exec i s = .next t) :
    ElementResult s t := by
  cases i with
  | ljstart => exact absurd rfl h1
  | ljrow => exact absurd rfl h2
  | soi =>
    rw [exec, execSoi] at h
    split at h
    · cases h
      exact .header .soi
    iterate 3 exact misplaced_result h
  | sof3 len payload =>
    rw [exec, execSof3] at h
    split at h
    · cases h
      exact .header (.sof3 len payload)
    iterate 3 exact misplaced_result h
  | dht len payload =>
    rw [exec, execDht] at h
    split at h
    · cases h
      exact .header (.dht len payload)
    iterate 3 exact misplaced_result h
  | sos len payload =>
    rw [exec, execSos] at h
    split at h
    · cases h
      exact .header (.sos len payload)
    iterate 3 exact misplaced_result h
  | stuff =>
    rw [exec, execStuff] at h
    split at h
    · split at h <;> cases h
      exact .stuff
    iterate 3 exact misplaced_result h
  | diff code extra =>
    rw [exec, execDiff] at h
    split at h
    · rename_i row bits hp
      split at h <;> cases h
      exact .diff row bits code extra _ hp
    iterate 3 cases h
  | bilin | vngref | expsetup | expapply | cmatrix | diagrs | permute | init => cases hi

/-! ## What lies beyond the LJ unit -/

theorem State.setLjReady_beyondLj (b : Bool) (s : State) : (s.setLjReady b).beyondLj = s.beyondLj := by
  simp [State.beyondLj, State.exposureRegisters, State.reports]
  exact ⟨rfl, rfl, rfl, rfl⟩

theorem State.rewriteBank_beyondLj (s : State) (b : Bank) (base n : Nat) (f : Nat → Option Sample) :
    (s.rewriteBank b base n f).beyondLj = s.beyondLj := by
  unfold State.rewriteBank State.setBank
  cases b <;> rfl

theorem openHeader_beyondLj (s : State) : (openHeader s).beyondLj = s.beyondLj := State.setLjReady_beyondLj false s

theorem finishStart_beyondLj (s : State) : (finishStart s).beyondLj = s.beyondLj := State.setLjReady_beyondLj true s

/-- The image with a decoded row in its place (40_ljpeg R123). -/
def rowWritten (row : List Sample) (s : State) : State :=
  s.rewriteBank s.activeBank (4 * (s.ljRow.toNat * s.width.toNat)) (4 * s.width.toNat)
    (fun a => some (if s.fc s.ljRow.toNat (a / 4) = laneOf (a % 4) then rowSample row (a / 4) else 0))

theorem finishRow_eq (row : List Sample) (s : State) :
    finishRow row s =
      { (rowWritten row s).setLjReady (s.ljReady && decide (s.ljRow.toNat + 1 ≠ s.ljHigh.toNat)) with
        ljRow := s.ljRow + 1, phase := .idle } := rfl

theorem finishRow_beyondLj (row : List Sample) (s : State) : (finishRow row s).beyondLj = s.beyondLj :=
  calc (finishRow row s).beyondLj
    _ = ((rowWritten row s).setLjReady (s.ljReady && decide (s.ljRow.toNat + 1 ≠ s.ljHigh.toNat))).beyondLj := by
      rw [finishRow_eq]
      rfl
    _ = (rowWritten row s).beyondLj := State.setLjReady_beyondLj _ _
    _ = s.beyondLj := State.rewriteBank_beyondLj _ _ _ _ _

theorem HeaderResult.beyondLj (h : HeaderResult s t) : t.beyondLj = s.beyondLj := by
  cases h with
  | unchanged => rfl
  | opened => rfl
  | frame t len loaded hp hl ht => rw [ht]; rfl
  | tables => rfl
  | ended len loaded hp ht => exact finishStart_beyondLj { s.skip (2 + len.toNat) with sbit := 0 }

/-- The LJ unit keeps what lies beyond it. -/
theorem KeptByLj.of_beyondLj (h : ∀ {s t : State}, Q s → t.beyondLj = s.beyondLj → Q t) : KeptByLj Q where
  openHeader {s} hq := h hq (openHeader_beyondLj s)
  header hq hr := h hq hr.beyondLj
  cursor {s t} _ _ hq _ hm := h hq (by rw [hm]; rfl)
  place {s} _ _ hq := h hq rfl
  sample {s} _ _ _ hq _ _ := h hq rfl
  row {s} row hq := h hq (finishRow_beyondLj row s)

theorem keptByLj_beyondLj (s : State) : KeptByLj (fun t => t.beyondLj = s.beyondLj) :=
  .of_beyondLj (fun hq h => h.trans hq)

end Sys2Proof.Machine
end

section
/-! PROOFS of the family 10_state, continued: who writes which registers. -/

namespace Sys2Proof.Machine

variable {s t : State} {i : Instr}

/-- An instruction that is no element of a stream is a command with a word of its own (30_encoding R80). -/
theorem exists_commandWord (h : isLjInstr i = false ∨ i = .ljstart ∨ i = .ljrow) : ∃ w, (w, i) ∈ commandWords := by
  cases i with
  | ljstart | ljrow | bilin | vngref | expsetup => exact ⟨_, by simp [commandWords]; rfl⟩
  | expapply | cmatrix | diagrs | permute | init => exact ⟨_, by simp [commandWords]; rfl⟩
  | soi | sof3 | dht | sos | stuff | diff => simp [isLjInstr] at h

theorem WritesOwn.settle {r : State × Option Raised} (h : WritesOwn i s r.1) (hp : isLjInstr i = false → r.1.phase = .idle) :
    WritesOwn i s (settle r) := by
  obtain ⟨f, -, hs⟩ | ⟨-, -, hs⟩ | ⟨-, -, hs⟩ := settle_cases r <;> rw [hs]
  · exact h.trans (.raise f hp)
  · exact h.trans (.complete i r.1)
  · exact h

/-- A command writes what its body writes. -/
theorem WritesOwn.command {body : Body} (w : BitVec 8) (hb : WritesOwn i (s.begin w) (body (s.begin w)).1)
    (hp : isLjInstr i = false → (body (s.begin w)).1.phase = .idle) : WritesOwn i s (command w body s) := by
  obtain ⟨-, hc⟩ | ⟨-, hc⟩ := command_cases w body s <;> rw [hc]
  · exact .refl i s
  · exact .settle ((WritesOwn.begin i s w).trans hb) hp

theorem commandBody_writesOwn (i : Instr) (s : State) : WritesOwn i s (commandBody i s).1 := by
  by_cases hi : isLjInstr i = false
  · exact (ImageEffect.commandBody hi s).writes
  · have hlj : isLjInstr i = true := by simpa using hi
    exact .of_beyondLj hlj ((keptByLj_beyondLj s).commandBody hlj rfl)

theorem ElementResult.writesOwn (hi : isLjInstr i = true) (h : ElementResult s t) : WritesOwn i s t := by
  have hnot : ∀ {p : Prop}, isLjInstr i = false → p := fun hf => by simp [hi] at hf
  cases h with
  | raised f => exact .raise f hnot
  | header j => exact .settle (.of_beyondLj hi ((keptByLj_beyondLj s).headerBody j rfl)) hnot
  | stuff => exact .settle (.of_beyondLj hi ((keptByLj_beyondLj s).stuffLoop 8 rfl)) hnot
  | diff row bits code extra n hp => exact .settle (.of_beyondLj hi ((keptByLj_beyondLj s).diffBody n code extra rfl hp)) hnot

/-- Every instruction but INIT writes only its own groups of registers. -/
theorem exec_writesOwn (hi : i ≠ .init) (h : exec i s = .next t) : WritesOwn i s t := by
  by_cases hc : isLjInstr i = false ∨ i = .ljstart ∨ i = .ljrow
  · obtain ⟨w, hw⟩ := exists_commandWord hc
    rw [exec_command hw hi] at h
    cases h
    exact .command w (commandBody_writesOwn i _) (fun hf => congrArg (·.2.2) (ImageEffect.commandBody hf (s.begin w)).control)
  · simp only [not_or, Bool.not_eq_false] at hc
    obtain ⟨hlj, h1, h2⟩ := hc
    exact (exec_element_result hlj h1 h2 h).writesOwn hlj

/-- Settles O57: every instruction but INIT writes only its own groups of registers, and a group that is kept is kept register by register. -/
theorem writersOfRegisters : Obligations.WritersOfRegisters := by
  intro i s t hi h
  have hw := exec_writesOwn hi h
  refine ⟨?_, fun h1 => ?_, fun h1 => ?_, fun h1 => ?_, fun h1 h2 => ?_, fun h1 => ?_⟩
  · simpa [State.hostRegisters] using hw.host
  · simpa [State.exposureRegisters] using hw.exposure h1
  · simpa [State.resampleRegisters] using hw.resample h1
  · simpa [State.orientRegisters] using hw.orient h1
  · simpa [State.sizeRegisters] using hw.size h1 h2
  · simpa [State.ljRegisters, State.scanRegisters, and_assoc] using hw.lj h1

end Sys2Proof.Machine
end

section
/-! PROOFS of the family 10_state, continued: the invariants of a step. What an invariant must meet is said once (`StepInvariant`): a property between steps, and
one inside commands that the LJ unit's updates keep. -/

namespace Sys2Proof.Machine

variable {s t : State} {i : Instr} {P Q : State → Prop}

/-! ## What the host leaves alone -/

/-- A host write of a register writes neither the core's place and reports nor the scan's registers. -/
theorem writeRegister_keeps (s : State) (n : Nat) (v : BitVec 32) :
    (writeRegister s n v).control = s.control ∧ (writeRegister s n v).scanRegisters = s.scanRegisters := by
  unfold writeRegister
  split
  case h_15 => split_ifs <;> exact ⟨rfl, rfl⟩
  case h_16 => split_ifs <;> exact ⟨rfl, rfl⟩
  all_goals exact ⟨rfl, rfl⟩

theorem State.answer_keeps (s : State) (v : BitVec 48) :
    (s.answer v).control = s.control ∧ (s.answer v).scanRegisters = s.scanRegisters := by
  unfold State.answer
  split <;> exact ⟨rfl, rfl⟩

theorem State.setBank_keeps (s : State) (b : Bank) (m : Memory Sample) :
    (s.setBank b m).control = s.control ∧ (s.setBank b m).scanRegisters = s.scanRegisters := by
  cases b <;> exact ⟨rfl, rfl⟩

/-- Whatever the host does, but for a hardware reset, it leaves these alone. -/
theorem hostAct_keeps {op : HostOp} (hop : op ≠ .hardwareReset) (h : hostAct op s = .next t) :
    t.control = s.control ∧ t.scanRegisters = s.scanRegisters := by
  cases op with
  | writeReg n v =>
    cases h
    split
    · exact ⟨rfl, rfl⟩
    · exact writeRegister_keeps s n v
  | readReg n =>
    cases h
    split
    · exact ⟨rfl, rfl⟩
    · exact s.answer_keeps _
  | writeByte a v =>
    rw [hostAct] at h
    split at h <;> cases h
    split <;> exact ⟨rfl, rfl⟩
  | readByte a =>
    rw [hostAct] at h
    split at h <;> cases h
    exact s.answer_keeps _
  | writeSample a v =>
    rw [hostAct] at h
    split at h <;> cases h
    split
    · exact ⟨rfl, rfl⟩
    · exact s.setBank_keeps _ _
  | readSample a =>
    rw [hostAct] at h
    split at h <;> cases h
    exact s.answer_keeps _
  | hardwareReset => exact absurd rfl hop

/-! ## Invariants of a step -/

/-- `P` holds between steps, and `Q` while an instruction is executed. -/
structure StepInvariant (P Q : State → Prop) : Prop where
  reset : P State.reset
  kept : ∀ {s t : State}, P s → s.phase = .idle → t.control = s.control → t.scanRegisters = s.scanRegisters → P t
  keptInside : ∀ {s t : State}, Q s → s.phase = .idle → t.control = s.control → t.scanRegisters = s.scanRegisters → Q t
  begin : ∀ {s : State} (w : BitVec 8), P s → s.accepting → Q (s.begin w)
  inside : ∀ {s : State}, P s → s.phase ≠ .idle → Q s
  lj : KeptByLj Q
  raise : ∀ {s : State} (f : Raised), Q s → P (raise f s)
  complete : ∀ {s : State}, Q s → s.phase = .idle → P s.complete
  running : ∀ {s : State}, Q s → s.phase ≠ .idle → P s

theorem StepInvariant.settle (h : StepInvariant P Q) {r : State × Option Raised} (hq : Q r.1) : P (settle r) := by
  obtain ⟨f, -, hs⟩ | ⟨-, hp, hs⟩ | ⟨-, hp, hs⟩ := settle_cases r <;> rw [hs]
  · exact h.raise f hq
  · exact h.complete hq hp
  · exact h.running hq hp

theorem StepInvariant.command (h : StepInvariant P Q) {body : Body} (w : BitVec 8) (hs : P s)
    (hb : Q (s.begin w) → Q (body (s.begin w)).1) : P (command w body s) := by
  obtain ⟨-, hc⟩ | ⟨ha, hc⟩ := command_cases w body s <;> rw [hc]
  · exact hs
  · exact h.settle (hb (h.begin w hs ha))

theorem StepInvariant.initialise (h : StepInvariant P Q) (s : State) : P s.initialise := h.kept h.reset rfl rfl rfl

theorem StepInvariant.hardwareReset (h : StepInvariant P Q) (s : State) : P s.hardwareReset := h.kept h.reset rfl rfl rfl

/-- What the host has still to do is no matter of the invariant. -/
theorem StepInvariant.withInputs (h : StepInvariant P Q) (hs : P s) (hp : s.phase = .idle) (rest : List HostOp) :
    P { s with inputs := rest } :=
  h.kept hs hp rfl rfl

/-- A command of any unit keeps the invariant. -/
theorem StepInvariant.exec_command (h : StepInvariant P Q) {w : BitVec 8} (hw : (w, i) ∈ commandWords) (hs : P s)
    (he : exec i s = .next t) : P t := by
  by_cases hi : i = .init
  · subst hi
    rw [exec, execInit] at he
    cases he
    split
    · exact hs
    · exact h.initialise s
  · rw [Machine.exec_command hw hi] at he
    cases he
    refine h.command w hs (fun hq => ?_)
    cases hlj : isLjInstr i with
    | true => exact h.lj.commandBody hlj hq
    | false =>
      have heffect := ImageEffect.commandBody hlj (s.begin w)
      exact h.keptInside hq rfl heffect.control (congrArg (·.2) (heffect.writes.lj hlj))

/-- An element of the LJ unit keeps the invariant. -/
theorem StepInvariant.exec_element (h : StepInvariant P Q) (hq : Q s) (he : ElementResult s t) : P t := by
  cases he with
  | raised f => exact h.raise f hq
  | header j => exact h.settle (h.lj.headerBody j hq)
  | stuff => exact h.settle (h.lj.stuffLoop 8 hq)
  | diff row bits code extra n hp => exact h.settle (h.lj.diffBody n code extra hq hp)

theorem StepInvariant.hostAct (h : StepInvariant P Q) {op : HostOp} (hs : P s) (hp : s.phase = .idle) (he : hostAct op s = .next t) :
    P t := by
  by_cases hop : op = .hardwareReset
  · subst hop
    cases he
    exact h.hardwareReset s
  · obtain ⟨hc, hl⟩ := hostAct_keeps hop he
    exact h.kept hs hp hc hl

theorem StepInvariant.exec_header (h : StepInvariant P Q) (hq : Q s) (hf : fetchHeader s = .ok i) (he : exec i s = .next t) :
    P t := by
  rw [exec_of_fetchHeader hf] at he
  cases he
  exact h.exec_element hq (.header i)

/-- Every step keeps the invariant. -/
theorem StepInvariant.step (h : StepInvariant P Q) (hs : P s) (he : step s = .next t) : P t := by
  cases step_cases he with
  | idle hi hn ht => exact ht ▸ hs
  | command hi v rest i hn hw ht => exact h.exec_command hw (h.withInputs hs hi rest) ht
  | illegal hi v rest hn hw ht => exact ht ▸ h.command _ (h.withInputs hs hi rest) id
  | host hi op rest hn hop ht => exact h.hostAct (h.withInputs hs hi rest) hi ht
  | header i hf hi ht => exact h.exec_header (h.inside hs hi) hf ht
  | headerFault f hf hi ht => exact ht ▸ h.raise f (h.inside hs hi)
  | stuff row bits hi ha ht =>
    rw [exec_stuff_of_atStuff hi ha] at ht
    cases ht
    exact h.exec_element (h.inside hs (by simp [hi])) .stuff
  | diff row bits code extra s1 hi hr ht =>
    exact h.exec_element (h.inside hs (by simp [hi])) (exec_element_result rfl (by simp) (by simp) ht)
  | scanFault row bits f s1 hi hr ht =>
    have hmove : OnlyCursorMoves s s1 := by simpa [hr] using readDiff_onlyCursorMoves row.length diffFuel bits s
    exact ht ▸ h.raise f (h.lj.cursor (h.inside hs (by simp [hi])) hi hmove)

/-! ## The Huffman tables -/

theorem State.tablesWf.of_ht (hs : s.tablesWf) (h : t.ht = s.ht) : t.tablesWf := by
  rw [State.tablesWf_iff] at hs ⊢
  rwa [h]

theorem HeaderResult.tablesWf (h : HeaderResult s t) (hs : s.tablesWf) : t.tablesWf := by
  cases h with
  | unchanged => exact hs
  | opened => exact hs
  | frame t len loaded hp hl ht => rw [ht]; exact hs
  | tables len payload spos loaded sof hp => exact TablesWf.storeDefinitions hs len _ payload
  | ended => exact hs

theorem stepInvariant_tablesWf : StepInvariant State.tablesWf State.tablesWf where
  reset := TablesWf.none
  kept hs _ _ hl := hs.of_ht (congrArg (·.2.2.2.2.2.2) hl)
  keptInside hs _ _ hl := hs.of_ht (congrArg (·.2.2.2.2.2.2) hl)
  begin _ hs _ := hs
  inside hs _ := hs
  raise _ hs := hs
  complete hs _ := hs
  running hs _ := hs
  lj :=
    { openHeader := fun _ => TablesWf.none
      header := fun hs hr => hr.tablesWf hs
      cursor := fun hs _ hm => by rw [hm]; exact hs
      place := fun _ _ hs => hs
      sample := fun hs _ _ => hs
      row := fun {s} row hs => hs.of_ht (State.rewriteBank_ht s _ _ _ _) }

/-- Settles O53: only DHT defines tables, and code assignment builds tables of 10_state R41. -/
theorem stepKeepsTablesPrefixFree : Obligations.StepKeepsTablesPrefixFree :=
  fun _ _ hs he => stepInvariant_tablesWf.step hs he

/-! ## STATUS and ERR_* -/

/-- What STATUS and ERR_* say while an instruction is executed: a command runs and nothing has gone wrong. -/
structure Working (s : State) : Prop where
  busy : s.busy = true
  done : s.done = false
  faulted : s.faulted = false
  errors : s.errCode = 0 ∧ s.errStage = 0 ∧ s.errInfo = 0 ∧ s.errPos = 0

theorem Working.of_reports (hs : Working s) (h : t.reports = s.reports) : Working t := by
  simp only [State.reports, Prod.mk.injEq] at h
  obtain ⟨hbusy, hdone, hfaulted, h1, h2, h3, h4⟩ := h
  exact ⟨hbusy.trans hs.busy, hdone.trans hs.done, hfaulted.trans hs.faulted, by rw [h1, h2, h3, h4]; exact hs.errors⟩

theorem State.statusWf_of_control (hs : s.statusWf) (h : t.control = s.control) : t.statusWf := by
  simp only [State.control, State.reports, Prod.mk.injEq] at h
  obtain ⟨⟨hbusy, hdone, hfaulted, h1, h2, h3, h4⟩, hready, hphase⟩ := h
  unfold State.statusWf at hs ⊢
  rw [hbusy, hdone, hfaulted, h1, h2, h3, h4, hready, hphase]
  exact hs

/-- A fault has one of the twelve codes of 60_exceptions R201. -/
theorem Cause.code_range (c : Cause) : 1 ≤ c.code.toNat ∧ c.code.toNat ≤ 12 := by
  cases c <;> decide

theorem Working.raise (hs : Working s) (f : Raised) : (raise f s).statusWf := by
  refine ⟨by simp, by simp, fun _ => ?_, by simp⟩
  exact ⟨raise_busy s f, (raise_done s f).trans hs.done, raise_ljReady s f, f.cause.code_range⟩

theorem Working.complete (hs : Working s) (hp : s.phase = .idle) : s.complete.statusWf := by
  refine ⟨by simp [hp], by simp, ?_, fun _ => hs.errors⟩
  simp [hs.faulted]

theorem Working.running (hs : Working s) (hp : s.phase ≠ .idle) : s.statusWf := by
  refine ⟨by simp [hs.busy, hp], fun _ => hs.done, ?_, fun _ => hs.errors⟩
  simp [hs.faulted]

theorem State.statusWf.working_of_begin (hs : s.statusWf) (ha : s.accepting) (w : BitVec 8) : Working (s.begin w) := by
  obtain ⟨-, -, -, hclear⟩ := hs
  exact ⟨by simp, by simp, by simpa using ha.2, hclear ha.2⟩

theorem State.statusWf.working_of_running (hs : s.statusWf) (hp : s.phase ≠ .idle) : Working s := by
  obtain ⟨hbusy, hdone, hfault, hclear⟩ := hs
  have hb : s.busy = true := hbusy.2 hp
  have hf : s.faulted = false := by
    by_contra hf
    have := (hfault (by simpa using hf)).1
    simp [hb] at this
  exact ⟨hb, hdone hb, hf, hclear hf⟩

theorem reset_statusWf : State.reset.statusWf := by
  refine ⟨?_, ?_, ?_, fun _ => ⟨rfl, rfl, rfl, rfl⟩⟩
  · simp [State.reset, State.busy]
  · simp [State.reset, State.busy]
  · simp [State.reset, State.faulted]

theorem stepInvariant_statusWf : StepInvariant State.statusWf Working where
  reset := reset_statusWf
  kept hs _ hc _ := State.statusWf_of_control hs hc
  keptInside hs _ hc _ := hs.of_reports (congrArg (·.1) hc)
  begin w hs ha := hs.working_of_begin ha w
  inside hs hp := hs.working_of_running hp
  raise f hs := hs.raise f
  complete hs hp := hs.complete hp
  running hs hp := hs.running hp
  lj := .of_beyondLj (fun hs h => hs.of_reports (congrArg (·.2.2.2.2.2) h))

/-- Settles O54: inside a command STATUS says that one runs, and the command ends by a fault or by its completion. -/
theorem stepKeepsStatusTruthful : Obligations.StepKeepsStatusTruthful :=
  fun _ _ hs he => stepInvariant_statusWf.step hs he

end Sys2Proof.Machine
end

section
/-! PROOFS of the family 10_state, continued: what LJ_READY promises. SOF3 leaves a legal frame, SOS opens the scan on it, and from there the predictors stay in
range and the rows run out together with LJ_READY. -/

namespace Sys2Proof.Machine

variable {s t : State}

/-- A scan can go on: the frame is legal, a row is to come, the predictors are in range and every channel has a table. -/
structure State.scanOpen (s : State) : Prop where
  frame : s.frameLegal
  row : s.ljRow.toNat < s.ljHigh.toNat
  predictors : s.predictorsLegal
  tables : ∀ c : Lane, c.val < s.ljClrs.toNat → (s.ht.get c).isSome = true

theorem State.scanWf_iff (s : State) : s.scanWf ↔ (s.ljReady = true → s.scanOpen) ∧
    (∀ loaded, s.phase = .start loaded → s.ljReady = false ∧ s.sbit = 0) ∧
    (∀ loaded sof, s.phase = .header loaded sof → s.ljReady = false ∧ s.sbit = 0 ∧ (sof = true → s.frameLegal)) := by
  have hopen : s.scanOpen ↔ s.frameLegal ∧ s.ljRow.toNat < s.ljHigh.toNat ∧ s.predictorsLegal ∧
      ∀ c : Lane, c.val < s.ljClrs.toNat → (s.ht.get c).isSome = true :=
    ⟨fun h => ⟨h.frame, h.row, h.predictors, h.tables⟩, fun ⟨h1, h2, h3, h4⟩ => ⟨h1, h2, h3, h4⟩⟩
  rw [State.scanWf, hopen]

theorem State.scanOpen.of_scanRegisters (h : s.scanOpen) (hr : t.scanRegisters = s.scanRegisters) : t.scanOpen := by
  simp only [State.scanRegisters, Prod.mk.injEq] at hr
  obtain ⟨hbits, hwide, hhigh, hclrs, hrow, hvpred, hht⟩ := hr
  obtain ⟨h1, h2, h3, h4⟩ := h
  refine ⟨?_, ?_, ?_, ?_⟩
  · simpa only [State.frameLegal, hbits, hwide, hhigh, hclrs] using h1
  · simpa only [hrow, hhigh] using h2
  · simpa only [State.predictorsLegal, hvpred, hbits] using h3
  · simpa only [hclrs, hht] using h4

theorem State.scanWf.scanOpen (h : s.scanWf) (hr : s.ljReady = true) : s.scanOpen := ((State.scanWf_iff s).1 h).1 hr

theorem State.scanWf.scanOpen_of_kept (hs : s.scanWf) (hready : t.ljReady = s.ljReady) (hregs : t.scanRegisters = s.scanRegisters)
    (h : t.ljReady = true) : t.scanOpen :=
  (hs.scanOpen (hready.symm.trans h)).of_scanRegisters hregs

theorem State.scanWf.at_start (h : s.scanWf) {loaded : Cursor} (hp : s.phase = .start loaded) : s.ljReady = false ∧ s.sbit = 0 :=
  ((State.scanWf_iff s).1 h).2.1 loaded hp

theorem State.scanWf.in_header (h : s.scanWf) {loaded : Cursor} {sof : Bool} (hp : s.phase = .header loaded sof) :
    s.ljReady = false ∧ s.sbit = 0 ∧ (sof = true → s.frameLegal) :=
  ((State.scanWf_iff s).1 h).2.2 loaded sof hp

theorem State.scanWf.of_idle (hp : s.phase = .idle) (h : s.ljReady = true → s.scanOpen) : s.scanWf :=
  (State.scanWf_iff s).2 ⟨h, fun _ hq => by simp [hp] at hq, fun _ _ hq => by simp [hp] at hq⟩

theorem State.scanWf.of_scan {row : List Sample} {bits : List Bool} (hp : s.phase = .scan row bits)
    (h : s.ljReady = true → s.scanOpen) : s.scanWf :=
  (State.scanWf_iff s).2 ⟨h, fun _ hq => by simp [hp] at hq, fun _ _ hq => by simp [hp] at hq⟩

theorem State.scanWf.of_start {loaded : Cursor} (hp : s.phase = .start loaded) (hr : s.ljReady = false) (hb : s.sbit = 0) : s.scanWf :=
  (State.scanWf_iff s).2 ⟨fun h => by simp [hr] at h, fun _ _ => ⟨hr, hb⟩, fun _ _ hq => by simp [hp] at hq⟩

theorem State.scanWf.of_header {loaded : Cursor} {sof : Bool} (hp : s.phase = .header loaded sof) (hr : s.ljReady = false)
    (hb : s.sbit = 0) (hl : sof = true → s.frameLegal) : s.scanWf := by
  refine (State.scanWf_iff s).2 ⟨fun h => by simp [hr] at h, fun _ hq => by simp [hp] at hq, fun c sof' hq => ⟨hr, hb, fun hs => hl ?_⟩⟩
  rw [hp] at hq
  cases hq
  exact hs

/-! ## Opening the scan -/

/-- Half the range is a value of the frame's depth (40_ljpeg R115). -/
theorem half_range_lt {bits : Nat} (h : 2 ≤ bits) : (BitVec.ofNat 16 (1 <<< (bits - 1))).toNat < 2 ^ bits := by
  rw [BitVec.toNat_ofNat, Nat.one_shiftLeft]
  exact lt_of_le_of_lt (Nat.mod_le _ _) (Nat.pow_lt_pow_right (by decide) (by omega))

theorem scanOpen_finishStart (hl : s.frameLegal) (ht : missingTable s = none) : (finishStart s).scanOpen := by
  obtain ⟨h2, -, -, h4, -, hhigh⟩ := id hl
  refine ⟨hl, hhigh, fun c => ?_, (missingTable_eq_none_iff h4).1 ht⟩
  show ((Quad.all (BitVec.ofNat 16 (1 <<< (s.ljBits.toNat - 1)))).get c).toNat < 2 ^ s.ljBits.toNat
  rw [Quad.get_all]
  exact half_range_lt h2

theorem HeaderResult.scanWf (h : HeaderResult s t) (hs : s.scanWf) : t.scanWf := by
  cases h with
  | unchanged => exact hs
  | opened loaded hp =>
    obtain ⟨hr, hb⟩ := hs.at_start hp
    exact .of_header rfl hr hb (by simp)
  | frame t len loaded hp hl ht =>
    obtain ⟨hr, hb, -⟩ := hs.in_header hp
    have hphase : t.phase = .header loaded true := by rw [ht]
    have hready : t.ljReady = s.ljReady := by rw [ht]; rfl
    have hsbit : t.sbit = s.sbit := by rw [ht]; rfl
    exact .of_header hphase (hready.trans hr) (hsbit.trans hb) (fun _ => hl)
  | tables len payload spos loaded sof hp =>
    obtain ⟨hr, hb, hl⟩ := hs.in_header hp
    exact .of_header hp hr hb hl
  | ended len loaded hp ht =>
    obtain ⟨-, -, hl⟩ := hs.in_header hp
    exact .of_idle rfl (fun _ => scanOpen_finishStart (s := { s.skip (2 + len.toNat) with sbit := 0 }) (hl rfl) ht)

/-! ## Inside the scan -/

theorem scanOpen_keepSample {v : Sample} (h : s.scanOpen) (row : List Sample) (hv : v.toNat < 2 ^ s.ljBits.toNat) :
    (keepSample row v s).scanOpen := by
  refine ⟨h.frame, h.row, fun c => ?_, h.tables⟩
  show ((s.vpredAfter row v).get c).toNat < 2 ^ s.ljBits.toNat
  unfold State.vpredAfter
  split
  · rw [Quad.get_set]
    split
    · exact hv
    · exact h.predictors c
  · exact h.predictors c

theorem finishRow_ljReady (row : List Sample) (s : State) :
    (finishRow row s).ljReady = (s.ljReady && decide (s.ljRow.toNat + 1 ≠ s.ljHigh.toNat)) :=
  State.setLjReady_ljReady (rowWritten row s) _

/-- After a row but the last there is another one to come (40_ljpeg R124). -/
theorem scanOpen_finishRow (h : s.scanOpen) (row : List Sample) (hmore : s.ljRow.toNat + 1 ≠ s.ljHigh.toNat) :
    (finishRow row s).scanOpen := by
  have hlt := h.row
  have hbound := s.ljHigh.isLt
  have hcount : { s with ljRow := s.ljRow + 1 }.scanOpen := by
    refine ⟨h.frame, ?_, h.predictors, h.tables⟩
    show (s.ljRow + 1).toNat < s.ljHigh.toNat
    rw [BitVec.toNat_add, show (1 : BitVec 16).toNat = 1 from rfl]
    omega
  have hwritten : (rowWritten row s).scanRegisters = s.scanRegisters := (State.setBank_keeps s _ _).2
  refine hcount.of_scanRegisters ?_
  simp only [State.scanRegisters, Prod.mk.injEq] at hwritten ⊢
  obtain ⟨hbits, hwide, hhigh, hclrs, -, hvpred, hht⟩ := hwritten
  exact ⟨hbits, hwide, hhigh, hclrs, rfl, hvpred, hht⟩

theorem State.scanWf.finishRow (hs : s.scanWf) (row : List Sample) : (finishRow row s).scanWf := by
  refine .of_idle rfl (fun hr => ?_)
  rw [finishRow_ljReady, Bool.and_eq_true, decide_eq_true_eq] at hr
  exact scanOpen_finishRow (hs.scanOpen hr.1) row hr.2

/-! ## Every step -/

theorem keptByLj_scanWf : KeptByLj State.scanWf where
  openHeader {s} _ := .of_start rfl (State.setLjReady_ljReady s false) rfl
  header hs hr := hr.scanWf hs
  cursor hs hp hm := by
    rw [hm]
    exact .of_scan hp (hs.scanOpen_of_kept rfl rfl)
  place _ _ hs := .of_scan rfl (hs.scanOpen_of_kept rfl rfl)
  sample hs _ hv := .of_scan rfl (fun hr => scanOpen_keepSample (hs.scanOpen hr) _ hv)
  row row hs := hs.finishRow row

theorem State.scanWf.of_control (hs : s.scanWf) (hp : s.phase = .idle) (hc : t.control = s.control)
    (hr : t.scanRegisters = s.scanRegisters) : t.scanWf := by
  have hready : t.ljReady = s.ljReady := congrArg (·.2.1) hc
  have hphase : t.phase = s.phase := congrArg (·.2.2) hc
  exact .of_idle (hphase.trans hp) (hs.scanOpen_of_kept hready hr)

theorem reset_scanWf : State.reset.scanWf := .of_idle rfl (fun h => by simp [State.reset, State.ljReady] at h)

theorem stepInvariant_scanWf : StepInvariant State.scanWf State.scanWf where
  reset := reset_scanWf
  kept hs hp hc hr := hs.of_control hp hc hr
  keptInside hs hp hc hr := hs.of_control hp hc hr
  begin {s} w hs _ := .of_idle rfl (hs.scanOpen_of_kept (State.begin_ljReady s w) rfl)
  inside hs _ := hs
  lj := keptByLj_scanWf
  raise {s} f _ := .of_idle rfl (fun h => by simp at h)
  complete {s} hs hp := .of_idle hp (hs.scanOpen_of_kept (State.complete_ljReady s) rfl)
  running hs _ := hs

/-- Settles O55: SOS begins the scan on a legal frame, and every DIFF and every row but the last leaves it able to go on. -/
theorem stepKeepsScanReady : Obligations.StepKeepsScanReady :=
  fun _ _ hs he => stepInvariant_scanWf.step hs he

/-- Settles O56: nothing is written, defined or begun after reset. -/
theorem resetMeetsInvariants : Obligations.ResetMeetsInvariants :=
  ⟨⟨rfl, rfl, rfl⟩, stepInvariant_tablesWf.reset, reset_statusWf, reset_scanWf, by decide⟩

end Sys2Proof.Machine
end

section
/-! PROOFS of the family 10_state, continued: the host's view. Reading a register, after a write of the same number and of another one, and the host's
accesses to the memories. -/

namespace Sys2Proof.Machine

variable {s t : State} {i : Instr}

/-! ## Reading a register -/

/-- From number 0x20 on there are the groups, one number for each channel (10_state R45). -/
theorem readRegister_group (s : State) {n : Nat} (h : 0x20 ≤ n) :
    readRegister s n =
      if n < 0x24 then groupElement s.camMul 0x20 n
      else if n < 0x28 then groupElement s.premul 0x24 n
      else if n < 0x2C then groupElement s.cmat.row0 0x28 n
      else if n < 0x30 then groupElement s.cmat.row1 0x2C n
      else if n < 0x34 then groupElement s.cmat.row2 0x30 n
      else if n < 0x38 then groupElement s.vpred 0x34 n
      else if n < 0x3C then groupElement s.gwSum 0x38 n
      else if n < 0x40 then groupElement s.gwCnt 0x3C n
      else 0 := by
  unfold readRegister
  split
  case h_31 => rw [if_neg (by omega)]
  all_goals omega

/-- CMD and the reserved numbers read 0. -/
theorem readRegister_reserved (s : State) {n : Nat} (h : n = 0 ∨ n = 0x1E ∨ n = 0x1F ∨ 0x40 ≤ n) : readRegister s n = 0 := by
  rcases h with rfl | rfl | rfl | h
  iterate 3 rfl
  rw [readRegister_group s (by omega)]
  iterate 8 rw [if_neg (by omega)]

/-- The eight registers of a channel in the table read what they hold. -/
theorem readRegister_channel (s : State) (c : Lane) :
    readRegister s (0x20 + c.val) = BitVec.ofNat 48 (s.camMul.get c).toNat ∧
    readRegister s (0x24 + c.val) = BitVec.ofNat 48 (s.premul.get c).toNat ∧
    readRegister s (0x28 + c.val) = BitVec.ofNat 48 (s.cmat.row0.get c).toNat ∧
    readRegister s (0x2C + c.val) = BitVec.ofNat 48 (s.cmat.row1.get c).toNat ∧
    readRegister s (0x30 + c.val) = BitVec.ofNat 48 (s.cmat.row2.get c).toNat ∧
    readRegister s (0x34 + c.val) = BitVec.ofNat 48 (s.vpred.get c).toNat ∧
    readRegister s (0x38 + c.val) = BitVec.ofNat 48 (s.gwSum.get c).toNat ∧
    readRegister s (0x3C + c.val) = BitVec.ofNat 48 (s.gwCnt.get c).toNat := by
  simp only [BitVec.ofNat_toNat]
  match c with
  | 0 | 1 | 2 | 3 => exact ⟨rfl, rfl, rfl, rfl, rfl, rfl, rfl, rfl⟩

/-- Every number of the table reads what its register holds. -/
theorem readRegister_registerTable (s : State) : ∀ p ∈ s.registerTable, readRegister s p.1 = BitVec.ofNat 48 p.2 := by
  have hchannel : ∀ c : Lane, ∀ p ∈ ([(0x20 + c.val, (s.camMul.get c).toNat), (0x24 + c.val, (s.premul.get c).toNat),
      (0x28 + c.val, (s.cmat.row0.get c).toNat), (0x2C + c.val, (s.cmat.row1.get c).toNat), (0x30 + c.val, (s.cmat.row2.get c).toNat),
      (0x34 + c.val, (s.vpred.get c).toNat), (0x38 + c.val, (s.gwSum.get c).toNat), (0x3C + c.val, (s.gwCnt.get c).toNat)] :
      List (Nat × Nat)), readRegister s p.1 = BitVec.ofNat 48 p.2 := by
    intro c
    simpa only [List.forall_mem_cons, List.not_mem_nil, false_imp_iff, implies_true, and_true] using readRegister_channel s c
  intro p hp
  rw [State.registerTable, List.mem_append] at hp
  obtain hp | hp := hp
  · revert p
    simp only [List.forall_mem_append, List.forall_mem_cons, List.not_mem_nil, false_imp_iff, implies_true, and_true, and_assoc,
      BitVec.ofNat_toNat]
    iterate 28 refine ⟨rfl, ?_⟩
    rfl
  · obtain ⟨c, -, hc⟩ := List.mem_flatMap.1 hp
    exact hchannel c p hc

/-- The numbers of the table: 0x01 to 0x1D, and 0x20 to 0x3F channel by channel. -/
def registerNumbers : List Nat := List.range' 1 29 ++ (List.range 4).flatMap (fun c => (List.range 8).map (fun g => 0x20 + 4 * g + c))

theorem registerTable_numbers (s : State) : s.registerTable.map Prod.fst = registerNumbers := rfl

theorem mem_registerNumbers : ∀ n, n < 0x40 → n ∉ registerNumbers → n = 0 ∨ n = 0x1E ∨ n = 0x1F := by decide

/-- A number that is not in the table is CMD's or reserved. -/
theorem readRegister_of_not_mem {n : Nat} (h : ∀ v, (n, v) ∉ s.registerTable) : readRegister s n = 0 := by
  have hn : n ∉ registerNumbers := by
    rw [← registerTable_numbers s]
    intro hm
    obtain ⟨⟨m, v⟩, hv, rfl⟩ := List.mem_map.1 hm
    exact h v hv
  refine readRegister_reserved s ?_
  by_cases hlt : n < 0x40
  · obtain h0 | h1 | h2 := mem_registerNumbers n hlt hn
    · exact .inl h0
    · exact .inr (.inl h1)
    · exact .inr (.inr (.inl h2))
  · exact .inr (.inr (.inr (by omega)))

/-! ## Writing a register -/

/-- The table of `t` is that of `s` with register `n` holding `x`. -/
structure TableSet (s t : State) (n x : Nat) : Prop where
  listed : n ∈ registerNumbers
  table : t.registerTable = s.registerTable.set (registerNumbers.idxOf n) (n, x)

theorem registerTable_length (s : State) : s.registerTable.length = 61 := rfl

theorem registerNumbers_length : registerNumbers.length = 61 := rfl

/-- The number at a place of the table. -/
theorem registerNumbers_getElem? (s : State) {j n v : Nat} (h : s.registerTable[j]? = some (n, v)) : registerNumbers[j]? = some n := by
  rw [← registerTable_numbers s, List.getElem?_map, h]
  rfl

theorem TableSet.readRegister_same {n x : Nat} (h : TableSet s t n x) : readRegister t n = BitVec.ofNat 48 x := by
  refine readRegister_registerTable t (n, x) ?_
  rw [h.table]
  refine List.mem_set ?_ _
  rw [registerTable_length, ← registerNumbers_length]
  exact List.idxOf_lt_length_of_mem h.listed

theorem TableSet.readRegister_other {n x m : Nat} (h : TableSet s t n x) (hm : m ≠ n) : readRegister t m = readRegister s m := by
  by_cases hl : m ∈ registerNumbers
  · rw [← registerTable_numbers s] at hl
    obtain ⟨⟨k, v⟩, hv, rfl⟩ := List.mem_map.1 hl
    obtain ⟨j, hj⟩ := List.mem_iff_getElem?.1 hv
    have hne : registerNumbers.idxOf n ≠ j := by
      rintro rfl
      have hk := registerNumbers_getElem? s hj
      rw [List.getElem?_idxOf h.listed] at hk
      exact hm (Option.some.inj hk).symm
    have hmem : (k, v) ∈ t.registerTable := by
      rw [List.mem_iff_getElem?]
      exact ⟨j, by rw [h.table, List.getElem?_set_ne hne, hj]⟩
    rw [readRegister_registerTable t _ hmem, readRegister_registerTable s _ hv]
  · have hnone : ∀ u : State, ∀ v, (m, v) ∉ u.registerTable := fun u v hv =>
      hl (by rw [← registerTable_numbers u]; exact List.mem_map_of_mem hv)
    rw [readRegister_of_not_mem (hnone t), readRegister_of_not_mem (hnone s)]

/-- A host write of a register other than SPOS writes that register alone, truncated to its width. -/
theorem TableSet.of_writeRegister {n w : Nat} {v : BitVec 32} (h : writableWidth s.params n = some w) (hn : n ≠ 0x16) :
    TableSet s (writeRegister s n v) n (v.toNat % 2 ^ w) := by
  rw [← BitVec.toNat_setWidth]
  unfold writableWidth at h
  split_ifs at h with h5 h3 hs hp h32 h16 hg <;> cases h
  · subst h5
    exact ⟨by decide, rfl⟩
  · rcases h3 with rfl | rfl <;> exact ⟨by decide, rfl⟩
  · subst hs
    refine ⟨by decide, ?_⟩
    simp only [writeRegister, hp]
    rfl
  · rcases h32 with rfl | rfl | rfl
    · exact ⟨by decide, rfl⟩
    · exact ⟨by decide, rfl⟩
    · exact absurd rfl hn
  · have hcases : n = 0x09 ∨ n = 0x0A ∨ n = 0x0D ∨ n = 0x0E ∨ n = 0x0F ∨ n = 0x12 ∨ n = 0x13 ∨ n = 0x14 := by omega
    rcases hcases with rfl | rfl | rfl | rfl | rfl | rfl | rfl | rfl <;> exact ⟨by decide, rfl⟩
  · obtain ⟨h1, h2⟩ := hg
    interval_cases n <;> exact ⟨by decide, rfl⟩

end Sys2Proof.Machine
end

section
/-! PROOFS of the family 10_state, continued: the steps of the host. -/

namespace Sys2Proof.Machine

variable {s t : State} {i : Instr}

/-! ## Each action of the host while idle -/

theorem hostAct_writeReg (hb : s.busy = false) (n : Nat) (v : BitVec 32) :
    hostAct (.writeReg n v) s = .next (writeRegister s n v) := by
  simp only [hostAct, hb]
  rfl

theorem State.answer_idle (hb : s.busy = false) (v : BitVec 48) : s.answer v = { s with hostData := v } := by
  simp only [State.answer, hb]
  rfl

theorem hostAct_readReg (hb : s.busy = false) (n : Nat) :
    hostAct (.readReg n) s = .next { s with hostData := readRegister s n } := by
  rw [hostAct, State.answer_idle hb, ite_self]

theorem hostAct_writeByte (hb : s.busy = false) {a : Nat} (ha : a < s.params.strCap) (v : Byte) :
    hostAct (.writeByte a v) s = .next { s with str := Memory.write s.str a v } := by
  rw [hostAct, if_neg (Nat.not_le.2 ha), if_neg (by rw [hb]; decide)]

theorem hostAct_readByte (hb : s.busy = false) {a : Nat} (ha : a < s.params.strCap) :
    hostAct (.readByte a) s = .next { s with hostData := (s.strByte a).setWidth 48 } := by
  rw [hostAct, if_neg (Nat.not_le.2 ha), State.answer_idle hb]

theorem hostAct_writeSample (hb : s.busy = false) {a : Nat} (ha : a < 4 * s.params.imgCap) (v : Sample) :
    hostAct (.writeSample a v) s = .next (s.setBank s.activeBank ((s.bank s.activeBank).write a v)) := by
  rw [hostAct, if_neg (Nat.not_le.2 ha), if_neg (by rw [hb]; decide)]

theorem hostAct_readSample (hb : s.busy = false) {a : Nat} (ha : a < 4 * s.params.imgCap) :
    hostAct (.readSample a) s = .next { s with hostData := (s.sample a).setWidth 48 } := by
  rw [hostAct, if_neg (Nat.not_le.2 ha), State.answer_idle hb]

/-! ## Writing registers -/

/-- A host write of a register that the host cannot write does nothing. -/
theorem writeRegister_readOnly {n : Nat} (h : writableWidth s.params n = none) (v : BitVec 32) : writeRegister s n v = s := by
  unfold writeRegister
  split
  case h_15 =>
    refine if_neg (fun hp => ?_)
    simp [writableWidth, hp] at h
  case h_16 =>
    have hgroup : ¬(0x20 ≤ n ∧ n ≤ 0x33) := fun hg => by
      unfold writableWidth at h
      split_ifs at h
    split_ifs
    · rfl
    iterate 5 omega
    rfl
  all_goals exact absurd h (by simp [writableWidth])

theorem readRegister_writeSpos (s : State) (v : BitVec 32) (m : Nat) :
    readRegister (writeRegister s 0x16 v) m =
      if m = 0x16 then BitVec.ofNat 48 (v.toNat % 2 ^ 32) else if m = 0x17 then 0 else readRegister s m := by
  have h1 : TableSet s { s with spos := v } 0x16 (v.toNat % 2 ^ 32) := by
    rw [Nat.mod_eq_of_lt v.isLt]
    exact ⟨by decide, rfl⟩
  have h2 : TableSet { s with spos := v } (writeRegister s 0x16 v) 0x17 0 := ⟨by decide, rfl⟩
  split_ifs with hm hm'
  · subst hm
    rw [h2.readRegister_other (by decide), h1.readRegister_same]
  · subst hm'
    exact h2.readRegister_same
  · rw [h2.readRegister_other hm', h1.readRegister_other hm]

/-- What every register reads after a host write of a register it may write. -/
theorem readRegister_writeRegister {n w : Nat} (h : writableWidth s.params n = some w) (v : BitVec 32) (m : Nat) :
    readRegister (writeRegister s n v) m =
      if m = n then BitVec.ofNat 48 (v.toNat % 2 ^ w) else if n = 0x16 ∧ m = 0x17 then 0 else readRegister s m := by
  by_cases hn : n = 0x16
  · subst hn
    cases h
    rw [readRegister_writeSpos]
    simp
  · have hset := TableSet.of_writeRegister (v := v) h hn
    rw [if_neg (fun hc : n = 0x16 ∧ m = 0x17 => hn hc.1)]
    split_ifs with hm
    · rw [hm]
      exact hset.readRegister_same
    · exact hset.readRegister_other hm

/-- All that is no register, and CMD, whose write is another action of the host. -/
def State.beyondRegisters (s : State) :=
  (s.inputs, s.cmd, s.ht, s.str, s.img0, s.img1, s.phase, s.hostData, s.epoch, s.draws, s.params)

theorem writeRegister_beyondRegisters (s : State) (n : Nat) (v : BitVec 32) :
    (writeRegister s n v).beyondRegisters = s.beyondRegisters := by
  unfold writeRegister
  split
  case h_15 => split_ifs <;> rfl
  case h_16 => split_ifs <;> rfl
  all_goals rfl

/-- The registers do not tell what the host has still to do. -/
theorem readRegister_withInputs (s : State) (rest : List HostOp) (m : Nat) :
    readRegister { s with inputs := rest } m = readRegister s m := by
  unfold readRegister
  rfl

/-- Settles O14: a write of a register other than SPOS replaces one entry of the register table, a write of SPOS two. -/
theorem hostWritesRegister : Obligations.HostWritesRegister := by
  intro s n v rest hp hi hb hn hin
  have hstep : step s = .next (writeRegister { s with inputs := rest } n v) :=
    (step_host_act hp hi hin (by simp [hn])).trans (hostAct_writeReg (s := { s with inputs := rest }) hb n v)
  refine ⟨_, hstep, fun m => ?_, ?_⟩
  · cases hw : writableWidth s.params n with
    | none =>
      rw [writeRegister_readOnly (s := { s with inputs := rest }) hw]
      exact readRegister_withInputs s rest m
    | some w =>
      rw [readRegister_writeRegister (s := { s with inputs := rest }) hw, readRegister_withInputs]
  · have hkeep := writeRegister_beyondRegisters { s with inputs := rest } n v
    simpa only [State.beyondRegisters, Prod.mk.injEq] using hkeep

/-! ## Reading registers and the memories -/

theorem State.strByte_write (s : State) (a b : Nat) (v : Byte) :
    { s with str := Memory.write s.str a v }.strByte b = if b = a then v else s.strByte b := by
  unfold State.strByte
  rw [Memory.read_write]
  split <;> rfl

theorem State.sampleIn_write (s : State) (b d : Bank) (a e : Nat) (v : Sample) :
    (s.setBank b ((s.bank b).write a v)).sampleIn d e = if d = b ∧ e = a then v else s.sampleIn d e := by
  unfold State.sampleIn
  rw [State.setBank_bank, State.setBank_epoch]
  by_cases hd : d = b
  · subst hd
    rw [if_pos rfl, Memory.read_write]
    by_cases he : e = a
    · rw [if_pos he, if_pos ⟨rfl, he⟩]
      rfl
    · rw [if_neg he, if_neg (fun h => he h.2)]
  · rw [if_neg hd, if_neg (fun h => hd h.1)]

theorem State.sample_write (s : State) (a e : Nat) (v : Sample) :
    (s.setBank s.activeBank ((s.bank s.activeBank).write a v)).sample e = if e = a then v else s.sample e := by
  have hbank : (s.setBank s.activeBank ((s.bank s.activeBank).write a v)).activeBank = s.activeBank := by
    simp [State.activeBank]
  rw [State.sample, hbank, State.sampleIn_write]
  simp [State.sample]

theorem step_readReg {n : Nat} {rest : List HostOp} (hp : s.params.wf = true) (hi : s.phase = .idle) (hb : s.busy = false)
    (hin : s.inputs = .readReg n :: rest) : step s = .next { s with inputs := rest, hostData := readRegister s n } := by
  refine (step_host_act hp hi hin (by simp)).trans ?_
  rw [hostAct_readReg (s := { s with inputs := rest }) hb, readRegister_withInputs]

theorem step_writeByte {a : Nat} {v : Byte} {rest : List HostOp} (hp : s.params.wf = true) (hi : s.phase = .idle) (hb : s.busy = false)
    (ha : a < s.params.strCap) (hin : s.inputs = .writeByte a v :: rest) :
    step s = .next { s with inputs := rest, str := Memory.write s.str a v } :=
  (step_host_act hp hi hin (by simp)).trans (hostAct_writeByte (s := { s with inputs := rest }) hb ha v)

theorem step_readByte {a : Nat} {rest : List HostOp} (hp : s.params.wf = true) (hi : s.phase = .idle) (hb : s.busy = false)
    (ha : a < s.params.strCap) (hin : s.inputs = .readByte a :: rest) :
    step s = .next { s with inputs := rest, hostData := (s.strByte a).setWidth 48 } :=
  (step_host_act hp hi hin (by simp)).trans (hostAct_readByte (s := { s with inputs := rest }) hb ha)

theorem State.setBank_withInputs (s : State) (b : Bank) (m : Memory Sample) (rest : List HostOp) :
    { s with inputs := rest }.setBank b m = { s.setBank b m with inputs := rest } := by
  cases b <;> rfl

theorem step_writeSample {a : Nat} {v : Sample} {rest : List HostOp} (hp : s.params.wf = true) (hi : s.phase = .idle) (hb : s.busy = false)
    (ha : a < 4 * s.params.imgCap) (hin : s.inputs = .writeSample a v :: rest) :
    step s = .next { s.setBank s.activeBank ((s.bank s.activeBank).write a v) with inputs := rest } := by
  refine (step_host_act hp hi hin (by simp)).trans ?_
  exact (hostAct_writeSample (s := { s with inputs := rest }) hb ha v).trans (congrArg _ (s.setBank_withInputs _ _ rest))

theorem step_readSample {a : Nat} {rest : List HostOp} (hp : s.params.wf = true) (hi : s.phase = .idle) (hb : s.busy = false)
    (ha : a < 4 * s.params.imgCap) (hin : s.inputs = .readSample a :: rest) :
    step s = .next { s with inputs := rest, hostData := (s.sample a).setWidth 48 } :=
  (step_host_act hp hi hin (by simp)).trans (hostAct_readSample (s := { s with inputs := rest }) hb ha)

/-- A byte written and a byte read after it. -/
theorem byte_read_after_write {a b : Nat} {v : Byte} {rest : List HostOp} (hp : s.params.wf = true) (hi : s.phase = .idle)
    (hb : s.busy = false) (ha : a < s.params.strCap) (hc : b < s.params.strCap)
    (hin : s.inputs = .writeByte a v :: .readByte b :: rest) :
    ∃ t u, step s = .next t ∧ step t = .next u ∧ u.hostData = (if b = a then v else s.strByte b).setWidth 48 ∧
      u = { s with inputs := rest, hostData := u.hostData, str := u.str } ∧ ∀ d, d ≠ a → u.strByte d = s.strByte d := by
  have h2 := step_readByte (s := { s with inputs := .readByte b :: rest, str := Memory.write s.str a v }) hp hi hb hc rfl
  refine ⟨_, _, step_writeByte hp hi hb ha hin, h2, ?_, rfl, fun d hd => ?_⟩
  · exact congrArg (BitVec.setWidth 48) (s.strByte_write a b v)
  · exact (s.strByte_write a d v).trans (if_neg hd)

/-- A sample written and a sample read after it. -/
theorem sample_read_after_write {a b : Nat} {v : Sample} {rest : List HostOp} (hp : s.params.wf = true) (hi : s.phase = .idle)
    (hb : s.busy = false) (ha : a < 4 * s.params.imgCap) (hc : b < 4 * s.params.imgCap)
    (hin : s.inputs = .writeSample a v :: .readSample b :: rest) :
    ∃ t u, step s = .next t ∧ step t = .next u ∧ u.hostData = (if b = a then v else s.sample b).setWidth 48 ∧
      u = { s with inputs := rest, hostData := u.hostData, img0 := u.img0, img1 := u.img1 } ∧
      OtherBankKept s u ∧ ∀ d, d ≠ a → u.sample d = s.sample d := by
  have h1 := step_writeSample hp hi hb ha hin
  generalize hw : s.setBank s.activeBank ((s.bank s.activeBank).write a v) = w at h1
  have hother : ∀ d, w.sampleIn s.activeBank.other d = s.sampleIn s.activeBank.other d := fun d => by
    rw [← hw, State.sampleIn_write, if_neg (fun h => Bank.other_ne _ h.1)]
  have hsame : ∀ d, w.sample d = if d = a then v else s.sample d := fun d => by
    rw [← hw, State.sample_write]
  have hwp : w.params = s.params := by rw [← hw, State.setBank_params]
  have hwi : w.phase = .idle := by rw [← hw, State.setBank_phase, hi]
  have hwb : w.busy = false := by rw [← hw, State.setBank_busy, hb]
  have h2 := step_readSample (s := { w with inputs := .readSample b :: rest }) (a := b) (rest := rest) (by simpa [hwp] using hp) hwi hwb
    (by simpa [hwp] using hc) rfl
  refine ⟨_, _, h1, h2, congrArg (BitVec.setWidth 48) (hsame b), ?_, hother, fun d hd => (hsame d).trans (if_neg hd)⟩
  rw [← hw]
  unfold State.setBank
  cases s.activeBank <;> rfl

/-- Settles O15: the register table says what a read returns, and a read after a write finds what was written at its address. -/
theorem hostReadsWhatIsHeld : Obligations.HostReadsWhatIsHeld := by
  intro s rest hp hi hb
  refine ⟨fun n v hm hin => ?_, fun n hm hin => ?_, fun a v b ha hc hin => byte_read_after_write hp hi hb ha hc hin,
    fun a v b ha hc hin => sample_read_after_write hp hi hb ha hc hin⟩
  · rw [step_readReg hp hi hb hin, readRegister_registerTable s _ hm]
  · rw [step_readReg hp hi hb hin, readRegister_of_not_mem hm]

/-! ## While BUSY, and hardware reset -/

theorem exec_command_of_busy {w : BitVec 8} (hw : (w, i) ∈ commandWords) (hb : s.busy = true) : exec i s = .next s := by
  by_cases hi : i = .init
  · rw [hi, exec, execInit, if_pos hb]
  · rw [exec_command hw hi, command_of_busy w _ hb]

/-- While BUSY a host write of any kind is ignored. -/
theorem hostAct_write_of_busy {op : HostOp} (hb : s.busy = true)
    (h : (∃ n v, op = .writeReg n v) ∨ (∃ a v, op = .writeByte a v ∧ a < s.params.strCap) ∨
      (∃ a v, op = .writeSample a v ∧ a < 4 * s.params.imgCap)) : hostAct op s = .next s := by
  obtain ⟨n, v, rfl⟩ | ⟨a, v, rfl, ha⟩ | ⟨a, v, rfl, ha⟩ := h
  · rw [hostAct, if_pos hb]
  · rw [hostAct, if_neg (Nat.not_le.2 ha), if_pos hb]
  · rw [hostAct, if_neg (Nat.not_le.2 ha), if_pos hb]

/-- Settles O11: every command word, and every other write of the host, asks for BUSY first. -/
theorem writesIgnoredWhileBusy : Obligations.WritesIgnoredWhileBusy := by
  intro s op rest hp hi hb hin hop
  by_cases hcmd : ∃ v, op = .writeReg 0 v
  · obtain ⟨v, rfl⟩ := hcmd
    rw [step_command_write hp hi hin]
    cases hd : decodeCommand (v.setWidth 8) with
    | ok i => exact exec_command_of_busy (s := { s with inputs := rest }) ((decodeCommand_ok_iff _ _).1 hd) hb
    | error e => exact congrArg _ (command_of_busy (s := { s with inputs := rest }) _ _ hb)
  · rw [step_host_act hp hi hin (fun v hv => hcmd ⟨v, hv⟩)]
    exact hostAct_write_of_busy (s := { s with inputs := rest }) hb hop

theorem readRegister_reset (n : Nat) : readRegister State.reset n = 0 := by
  by_cases hn : ∃ v, (n, v) ∈ State.reset.registerTable
  · obtain ⟨v, hv⟩ := hn
    have hzero : ∀ p ∈ State.reset.registerTable, p.2 = 0 := by decide
    rw [readRegister_registerTable _ _ hv, hzero _ hv]
    rfl
  · exact readRegister_of_not_mem (fun v hv => hn ⟨v, hv⟩)

/-- Settles O13: every entry of the register table is 0 after reset. -/
theorem resetReadsZero : Obligations.ResetReadsZero := by
  refine ⟨readRegister_reset, fun c => Quad.get_all none c, rfl, rfl, rfl, fun s rest hp hi hin => ?_⟩
  exact step_host_act hp hi hin (by simp)

end Sys2Proof.Machine
end

section
/-! PROOFS of the family 10_state, continued: the elements at the cursor. What a step runs is the element whose encoding stands there, and SOI, SOF3 and DHT leave
the cursor after themselves. -/

namespace Sys2Proof.Machine

variable {s t : State} {i : Instr}

/-! ## The element at the cursor -/

theorem fetchHeader_start {loaded : Cursor} (hp : s.phase = .start loaded) (h : s.holdsAt s.spos.toNat [0xFF, 0xD8]) :
    fetchHeader s = .ok .soi := by
  have hw : s.streamWindow s.spos.toNat 2 = [0xFF, 0xD8] := s.streamWindow_of_holdsAt h 2 (le_refl 2)
  simp only [fetchHeader, hp, hw]
  rfl

/-- An instruction that is spelled by bytes is SOI, STUFF or a segment. -/
theorem encode_bytes_cases {l : List Byte} (h : encode i = .bytes l) (h1 : i ≠ .soi) (h2 : i ≠ .stuff) (hw : i.wellFormed = true) :
    ∃ m1 len payload, l = encodeSegment m1 len payload ∧ segmentWellFormed len payload = true ∧
      (segmentOf m1 0 []).isSome = true ∧ segmentOf m1 len payload = some i := by
  cases i with
  | soi => exact absurd rfl h1
  | stuff => exact absurd rfl h2
  | sof3 len payload =>
    cases h
    exact ⟨_, len, payload, rfl, hw, rfl, rfl⟩
  | dht len payload =>
    cases h
    exact ⟨_, len, payload, rfl, hw, rfl, rfl⟩
  | sos len payload =>
    cases h
    exact ⟨_, len, payload, rfl, hw, rfl, rfl⟩
  | ljstart | ljrow | bilin | vngref | expsetup => cases h
  | expapply | cmatrix | diagrs | permute | init | diff => cases h

theorem decodeSegment_encodeSegment {m1 : Byte} {len : BitVec 16} {payload : List Byte} (hw : segmentWellFormed len payload = true)
    (hm : (segmentOf m1 0 []).isSome = true) (hi : segmentOf m1 len payload = some i) :
    decodeSegment (encodeSegment m1 len payload) = .ok (i, []) := by
  simp only [encodeSegment, decodeSegment, hm, true_and, if_true, bigEndian_extract, takePayload_of_wellFormed hw, hi]

theorem fetchHeader_segment {loaded : Cursor} {sof : Bool} {m1 : Byte} {len : BitVec 16} {payload : List Byte}
    (hp : s.phase = .header loaded sof) (hw : segmentWellFormed len payload = true)
    (hm : (segmentOf m1 0 []).isSome = true) (hi : segmentOf m1 len payload = some i)
    (h : s.holdsAt s.spos.toNat (encodeSegment m1 len payload)) : fetchHeader s = .ok i := by
  have hlen := Laws.length_encodeSegment m1 hw
  have hfour : 4 ≤ (encodeSegment m1 len payload).length := by simp [encodeSegment]
  have hhead : segmentLength (s.streamWindow s.spos.toNat 4) = len.toNat := by
    rw [s.streamWindow_of_holdsAt h 4 hfour]
    simp [encodeSegment, segmentLength, bigEndian_extract]
  have hwhole : s.streamWindow s.spos.toNat (max 4 (len.toNat + 2)) = encodeSegment m1 len payload := by
    rw [Nat.max_eq_right (by omega), s.streamWindow_of_holdsAt h _ (by omega), List.take_of_length_le (by omega)]
  simp only [fetchHeader, hp, hhead, hwhole, decodeSegment_encodeSegment hw hm hi]

theorem step_of_fetchHeader (hw : s.params.wf = true) (hs : s.inHeader) (hf : fetchHeader s = .ok i) : step s = exec i s := by
  rw [step_header hw hs, hf]

theorem atStuff_iff (s : State) : atStuff s = true ↔ s.stuffed = true ∧ s.sbit = 0 ∧ s.holdsAt s.spos.toNat [0xFF, 0x00] := by
  rw [State.holdsAt_cons, State.holdsAt_cons]
  simp [atStuff, State.holdsAt_nil, and_assoc]

/-- Settles O8: the decoder of the place finds the element whose bytes, or bits, stand at the cursor. -/
theorem stepRunsStreamElement : Obligations.StepRunsStreamElement := by
  refine ⟨fun s loaded hw hp h => ?_, fun s loaded sof i l hw hp hi he h1 h2 h => ?_, fun s row bits hw hp hm hb h => ?_,
    fun s row bits code extra n k s1 more hw hp hns ht hb hl hn he => ?_⟩
  · exact step_of_fetchHeader hw (.inl ⟨loaded, hp⟩) (fetchHeader_start hp h)
  · obtain ⟨m1, len, payload, rfl, hwf, hm, hseg⟩ := encode_bytes_cases he h1 h2 hi
    exact step_of_fetchHeader hw (.inr ⟨loaded, sof, hp⟩) (fetchHeader_segment hp hwf hm hseg h)
  · rw [step_scan hw hp, if_pos ((atStuff_iff s).2 ⟨hm, hb, h⟩)]
  · have hk : k < diffFuel := by
      have hcount := congrArg List.length hb
      have hdepth := s.ljBits.isLt
      have hcode := hl.2.1
      simp only [List.length_append, takeBits_length ht] at hcount
      unfold diffFuel
      omega
    rw [step_scan hw hp, if_neg (fun ha => hns ((atStuff_iff s).1 ha)), readDiff_of_leafAt ht hb hl hn he hk]

/-! ## SOI, SOF3 and DHT -/

/-- Settles O30. -/
theorem soiOpensHeader : Obligations.SoiOpensHeader := by
  intro s loaded hp
  rw [exec, execSoi_of_start hp, soiBody_of_start hp, settle_running Phase.noConfusion]
  rfl

theorem FrameHeader.length_payload {f : FrameHeader} (h : f.legal) : f.payload.length = 6 + 3 * f.channels := by
  obtain ⟨-, -, -, -, -, -, -, -, hc⟩ := h
  simp only [FrameHeader.payload, List.length_append, List.length_cons, List.length_nil, hc]

theorem bigEndian_split {n : Nat} (h : n ≤ 65535) : bigEndian (BitVec.ofNat 8 (n / 256)) (BitVec.ofNat 8 (n % 256)) = BitVec.ofNat 16 n := by
  apply BitVec.eq_of_toNat_eq
  rw [bigEndian_toNat]
  simp only [BitVec.toNat_ofNat]
  omega

/-- A legal frame passes SOF3's checks and is written as it stands. -/
theorem sof3Body_of_legal {loaded : Cursor} {f : FrameHeader} (hp : s.phase = .header loaded false) (h : f.legal) :
    sof3Body (BitVec.ofNat 16 (f.payload.length + 2)) f.payload s =
      ({ s.skip (2 + (f.payload.length + 2)) with
          ljBits := BitVec.ofNat 5 f.bits
          ljHigh := BitVec.ofNat 16 f.rows
          ljWide := BitVec.ofNat 16 f.columns
          ljClrs := BitVec.ofNat 3 f.channels
          phase := .header loaded true }, none) := by
  have hlength := FrameHeader.length_payload h
  obtain ⟨hb1, hb2, hr1, hr2, hc1, hc2, hn1, hn2, -⟩ := h
  have hlen : (BitVec.ofNat 16 (f.payload.length + 2)).toNat = f.payload.length + 2 := by
    rw [BitVec.toNat_ofNat]
    omega
  have hdepth : payloadByte f.payload 0 = BitVec.ofNat 8 f.bits := rfl
  have hrows : bigEndian (payloadByte f.payload 1) (payloadByte f.payload 2) = BitVec.ofNat 16 f.rows := bigEndian_split hr2
  have hcolumns : bigEndian (payloadByte f.payload 3) (payloadByte f.payload 4) = BitVec.ofNat 16 f.columns := bigEndian_split hc2
  have hchannels : payloadByte f.payload 5 = BitVec.ofNat 8 f.channels := rfl
  have hbits : (BitVec.ofNat 8 f.bits).toNat = f.bits := by
    rw [BitVec.toNat_ofNat]
    omega
  have hcount : (BitVec.ofNat 8 f.channels).toNat = f.channels := by
    rw [BitVec.toNat_ofNat]
    omega
  have hrows0 : BitVec.ofNat 16 f.rows ≠ 0 := BitVec.toNat_ne.2 (by simp; omega)
  have hcolumns0 : BitVec.ofNat 16 f.columns ≠ 0 := BitVec.toNat_ne.2 (by simp; omega)
  simp only [sof3Body, hp, hlen, hdepth, hrows, hcolumns, hchannels, hbits, hcount]
  rw [if_neg (by omega), if_neg (by decide), if_neg (by omega), if_neg (by omega), if_neg (by omega), if_neg (by omega),
    if_neg (fun hz => hz.elim hrows0 hcolumns0)]
  rw [BitVec.setWidth_ofNat_of_le (by decide), BitVec.setWidth_ofNat_of_le (by decide)]

/-- Settles O31: SOF3 goes on in the header with the frame written. -/
theorem sof3WritesFrame : Obligations.Sof3WritesFrame := by
  intro s loaded frame hp hl
  rw [exec, execSof3_of_header hp, sof3Body_of_legal hp hl, settle_running Phase.noConfusion]
  rfl

/-- A definition takes bytes of the payload. -/
theorem length_le_definitionsBytes (ds : List TableDefinition) : ds.length ≤ (definitionsBytes ds).length := by
  induction ds with
  | nil => exact Nat.zero_le _
  | cons d ds ih =>
    have hcons : definitionsBytes (d :: ds) = d.bytes ++ definitionsBytes ds := by simp [definitionsBytes]
    rw [hcons, List.length_append, List.length_cons, TableDefinition.bytes, List.length_cons]
    omega

/-- Settles O33: DHT goes on in the header with all its definitions stored. -/
theorem dhtStoresTables : Obligations.DhtStoresTables := by
  intro s loaded sof ds hp hne hd hfit
  have hlen : (BitVec.ofNat 16 ((definitionsBytes ds).length + 2)).toNat = (definitionsBytes ds).length + 2 := by
    rw [BitVec.toNat_ofNat, Nat.mod_eq_of_lt hfit]
  have hstored : storeDefinitions (BitVec.ofNat 16 ((definitionsBytes ds).length + 2)) ((definitionsBytes ds).length + 1)
      (definitionsBytes ds) s.ht = (storeAll ds s.ht, none) := by
    have hcount := length_le_definitionsBytes ds
    rw [show (definitionsBytes ds).length + 1 = (definitionsBytes ds).length + 1 - ds.length + ds.length by omega]
    exact storeDefinitions_all _ ds s.ht _ hd hne
  rw [exec, execDht_of_header hp, dhtBody_of_stored hp (by omega) hstored, settle_running (by simp [hp]), hlen]
  rfl

end Sys2Proof.Machine
end

section
/-! PROOFS of the family 20_memory: who writes which memory. What an instruction may do to the memories is said once (`Writes`): it leaves the stream alone, it
keeps the banks in canonical form, and it changes at most the samples of a region, which each instruction has its own (`State.cellsOf`). -/

namespace Sys2Proof.Machine

variable {s t u : State} {i : Instr}

/-! ## Regions of image memory -/

/-- A set of samples: of each bank, the addresses that belong to it. -/
abbrev Cells := Bank → Nat → Prop

/-- No sample at all. -/
def Cells.none : Cells := fun _ _ => False

/-- The samples of the declared image (20_memory R65). -/
def State.imageCells (s : State) : Cells := fun b a => b = s.activeBank ∧ a < 4 * s.pixels

/-- The samples of the mosaic row that LJROW is at (40_ljpeg R123). -/
def State.rowCells (s : State) : Cells := fun b a =>
  b = s.activeBank ∧ 4 * (s.ljRow.toNat * s.width.toNat) ≤ a ∧ a < 4 * (s.ljRow.toNat * s.width.toNat) + 4 * s.width.toNat

/-- The bank that is not selected, which DIAGRS fills (43_geometry R186). -/
def State.otherCells (s : State) : Cells := fun b _ => b = s.activeBank.other

/-- A row of the declared image lies in it. -/
theorem State.rowCells_inside {b : Bank} {a : Nat} (hr : s.ljRow.toNat < s.height.toNat) (h : s.rowCells b a) : a < 4 * s.pixels := by
  obtain ⟨-, -, ha⟩ := h
  have hrows : (s.ljRow.toNat + 1) * s.width.toNat ≤ s.pixels := by
    rw [State.pixels, Nat.mul_comm s.width.toNat]
    exact Nat.mul_le_mul_right _ hr
  rw [Nat.add_mul, Nat.one_mul] at hrows
  omega

/-! ## What may happen to the memories -/

/-- What no instruction changes: stream memory, what unwritten memory holds, and the parameters. -/
def State.fixed (s : State) := (s.str, s.epoch, s.params)

/-- All three memories with what unwritten memory holds, and the parameters. -/
def State.memory (s : State) := (s.fixed, s.img0, s.img1)

/-- Of the memories at most the samples of `R` change from `s` to `t`, and the banks stay in canonical form. -/
structure Writes (R : Cells) (s t : State) : Prop where
  fixed : t.fixed = s.fixed
  canonical : ∀ b, Memory.wf (s.bank b) = true → Memory.wf (t.bank b) = true
  kept : ∀ b a, ¬R b a → t.sampleIn b a = s.sampleIn b a

variable {R : Cells}

theorem Writes.of_memory (h : t.memory = s.memory) : Writes R s t := by
  simp only [State.memory, Prod.mk.injEq] at h
  obtain ⟨hfixed, h0, h1⟩ := h
  have hbank : ∀ b, t.bank b = s.bank b := by
    intro b
    cases b with
    | bank0 => exact h0
    | bank1 => exact h1
  have hepoch : t.epoch = s.epoch := congrArg (·.2.1) hfixed
  refine ⟨hfixed, fun b hb => by rw [hbank]; exact hb, fun b a _ => ?_⟩
  rw [State.sampleIn, State.sampleIn, hbank, hepoch]

theorem Writes.refl (R : Cells) (s : State) : Writes R s s := .of_memory rfl

theorem Writes.trans (h : Writes R s t) (k : Writes R t u) : Writes R s u where
  fixed := k.fixed.trans h.fixed
  canonical b hb := k.canonical b (h.canonical b hb)
  kept b a ha := (k.kept b a ha).trans (h.kept b a ha)

theorem Writes.mono {R' : Cells} (h : Writes R s t) (hR : ∀ b a, R b a → R' b a) : Writes R' s t :=
  ⟨h.fixed, h.canonical, fun b a ha => h.kept b a (fun hr => ha (hR b a hr))⟩

/-- A state whose memories are in canonical form leads only to such states. -/
theorem Writes.memoryWf (h : Writes R s t) (hs : s.memoryWf) : t.memoryWf := by
  obtain ⟨hstr, h0, h1⟩ := hs
  have hsame : t.str = s.str := congrArg (·.1) h.fixed
  exact ⟨by rw [hsame]; exact hstr, h.canonical .bank0 h0, h.canonical .bank1 h1⟩

theorem Writes.strByte (h : Writes R s t) (a : Nat) : t.strByte a = s.strByte a := by
  have hstr : t.str = s.str := congrArg (·.1) h.fixed
  have hepoch : t.epoch = s.epoch := congrArg (·.2.1) h.fixed
  rw [State.strByte, State.strByte, hstr, hepoch]

theorem State.rewriteBank_fixed (s : State) (b : Bank) (base n : Nat) (f : Nat → Option Sample) :
    (s.rewriteBank b base n f).fixed = s.fixed := by
  simp only [State.fixed, State.rewriteBank_str, State.rewriteBank_epoch, State.rewriteBank_params]

theorem Writes.rewriteBank (s : State) (b : Bank) (base n : Nat) (f : Nat → Option Sample) :
    Writes (fun d a => d = b ∧ base ≤ a ∧ a < base + n) s (s.rewriteBank b base n f) where
  fixed := s.rewriteBank_fixed b base n f
  canonical d hd := by
    rw [State.rewriteBank, State.setBank_bank]
    split
    · rename_i hdb
      exact Memory.wf_rewrite base n f _ (hdb ▸ hd)
    · exact hd
  kept d a ha := by rw [State.sampleIn_rewriteBank, if_neg ha]

theorem Writes.rewriteImage (s : State) (rule : Nat → Lane → Option Sample) : Writes s.imageCells s (s.rewriteImage rule) := by
  refine (Writes.rewriteBank s s.activeBank 0 (4 * s.pixels) _).mono (fun b a h => ?_)
  obtain ⟨hb, -, ha⟩ := h
  exact ⟨hb, by rwa [Nat.zero_add] at ha⟩

/-! ## The life of a command -/

theorem settle_memory (r : State × Option Raised) : (settle r).memory = r.1.memory := by
  obtain ⟨f, -, hs⟩ | ⟨-, -, hs⟩ | ⟨-, -, hs⟩ := settle_cases r <;> rw [hs] <;> rfl

theorem Writes.settle {r : State × Option Raised} (h : Writes R s r.1) : Writes R s (settle r) :=
  h.trans (.of_memory (settle_memory r))

/-- A command writes what its body writes. -/
theorem Writes.command {body : Body} (w : BitVec 8) (h : Writes R (s.begin w) (body (s.begin w)).1) : Writes R s (command w body s) := by
  have hbegin : Writes R s (s.begin w) := .of_memory rfl
  obtain ⟨-, hc⟩ | ⟨-, hc⟩ := command_cases w body s <;> rw [hc]
  · exact .refl R s
  · exact .settle (hbegin.trans h)

theorem Writes.checked {check : State → Option Raised} {effect : State → State} (h : Writes R s (effect s)) :
    Writes R s (checked check effect s).1 := by
  obtain ⟨f, hc⟩ | hc := checked_cases check effect s <;> rw [hc]
  · exact .refl R s
  · exact h

/-! ## The commands that are not the LJ unit's -/

theorem warnZeroSums_memory (s : State) (cs : List Lane) : (warnZeroSums s cs).memory = s.memory := by
  induction cs generalizing s with
  | nil => rfl
  | cons c cs ih =>
    rw [warnZeroSums, ih]
    split <;> rfl

theorem grayWorldScan_memory (s : State) : (grayWorldScan s).memory = s.memory := warnZeroSums_memory _ _

theorem expsetupBody_memory (s : State) : (expsetupBody s).1.memory = s.memory := by
  obtain ⟨f, hc⟩ | hc := checked_cases expsetupFault (fun s => setupRegisters (if s.grayWorld then grayWorldScan s else s)) s <;>
    rw [expsetupBody, hc]
  show (if s.grayWorld then grayWorldScan s else s).memory = s.memory
  split
  · exact grayWorldScan_memory s
  · rfl

theorem finalise_memory (s : State) : (finalise s).memory = s.memory := by
  unfold finalise
  split <;> rfl

theorem Writes.resample (s : State) : Writes s.otherCells s (resample s) :=
  (Writes.rewriteBank s s.activeBank.other 0 (4 * (s.diagWide * s.diagHigh)) _).mono (fun _ _ h => h.1) |>.trans (.of_memory rfl)

/-! ## The header elements -/

theorem HeaderResult.memory (h : HeaderResult s t) : t.memory = s.memory := by
  cases h with
  | unchanged => rfl
  | opened => rfl
  | frame t len loaded hp hl ht => rw [ht]; rfl
  | tables => rfl
  | ended => rfl

theorem ljstartBody_memory (s : State) : (ljstartBody s).1.memory = s.memory := by
  unfold ljstartBody
  split
  · rfl
  · exact headerLoop_keeps (P := fun t => t.memory = s.memory) (fun i t ht _ _ => (headerBody_result i t).memory.trans ht) _ rfl

/-- An element out of place raises a fault or has no meaning. -/
theorem misplaced_memory {marker : Nat} (h : misplaced marker s = .next t) : t.memory = s.memory := by
  unfold misplaced at h
  split at h
  · cases h
  · cases h
    rfl
  · cases h
    rfl
  · split at h <;> cases h
    rfl

/-- The elements of LJSTART's header (30_encoding R88 to R93). -/
inductive HeaderElement : Instr → Prop where
  | soi : HeaderElement .soi
  | sof3 (len : BitVec 16) (payload : List Byte) : HeaderElement (.sof3 len payload)
  | dht (len : BitVec 16) (payload : List Byte) : HeaderElement (.dht len payload)
  | sos (len : BitVec 16) (payload : List Byte) : HeaderElement (.sos len payload)

/-- A header element runs its body in its place, and is misplaced elsewhere. -/
theorem exec_headerElement_cases (hi : HeaderElement i) (s : State) :
    exec i s = .next (settle (headerBody i s)) ∨ ∃ marker, exec i s = misplaced marker s := by
  cases hi with
  | soi =>
    cases hp : s.phase with
    | start loaded => exact .inl (execSoi_of_start hp)
    | idle | header | scan => exact .inr ⟨0xFFD8, by rw [exec, execSoi, hp]⟩
  | sof3 len payload =>
    cases hp : s.phase with
    | header loaded sof => exact .inl (execSof3_of_header hp len payload)
    | idle | start | scan => exact .inr ⟨0xFFC3, by rw [exec, execSof3, hp]⟩
  | dht len payload =>
    cases hp : s.phase with
    | header loaded sof => exact .inl (execDht_of_header hp len payload)
    | idle | start | scan => exact .inr ⟨0xFFC4, by rw [exec, execDht, hp]⟩
  | sos len payload =>
    cases hp : s.phase with
    | header loaded sof => exact .inl (execSos_of_header hp len payload)
    | idle | start | scan => exact .inr ⟨0xFFDA, by rw [exec, execSos, hp]⟩

theorem exec_headerElement_memory (hi : HeaderElement i) (h : exec i s = .next t) : t.memory = s.memory := by
  obtain hc | ⟨marker, hc⟩ := exec_headerElement_cases hi s <;> rw [hc] at h
  · cases h
    exact (settle_memory _).trans (headerBody_result i s).memory
  · exact misplaced_memory h

/-! ## The entropy-coded elements -/

/-- `t` is reached inside LJROW from `s`: at most the row that `s` is at has been written, and until LJROW ends it is the row that `t` is at. -/
structure RowWrites (s t : State) : Prop where
  writes : Writes s.rowCells s t
  place : t.phase ≠ .idle → t.rowCells = s.rowCells

theorem RowWrites.refl (s : State) : RowWrites s s := ⟨.refl _ s, fun _ => rfl⟩

/-- Inside LJROW an update may leave the memories and the row's place alone. -/
theorem RowWrites.goes_on {row : List Sample} {bits : List Bool} (h : RowWrites s t) (hp : t.phase = .scan row bits)
    (hm : u.memory = t.memory) (hc : u.rowCells = t.rowCells) : RowWrites s u :=
  ⟨h.writes.trans (.of_memory hm), fun _ => hc.trans (h.place (by simp [hp]))⟩

theorem RowWrites.cursor {row : List Sample} {bits : List Bool} (h : RowWrites s t) (hp : t.phase = .scan row bits)
    (hm : OnlyCursorMoves t u) : RowWrites s u :=
  h.goes_on hp (by rw [hm]; rfl) (by rw [hm]; rfl)

/-- The row is written once, for LJROW ends with it. -/
theorem RowWrites.finishRow {row : List Sample} {bits : List Bool} (h : RowWrites s t) (hp : t.phase = .scan row bits)
    (done : List Sample) : RowWrites s (finishRow done t) := by
  have hrow : Writes t.rowCells t (rowWritten done t) := .rewriteBank t t.activeBank _ _ _
  rw [h.place (by simp [hp])] at hrow
  exact ⟨h.writes.trans (hrow.trans (.of_memory rfl)), fun hidle => absurd rfl hidle⟩

theorem RowWrites.applyDiff (h : RowWrites s t) (code extra : List Bool) : RowWrites s (applyDiff code extra t).1 :=
  applyDiff_keeps (P := RowWrites s) (fun _ _ _ _ hr hp _ => hr.goes_on hp rfl rfl) (fun _ row _ hr hp _ => hr.finishRow hp row) code extra h

theorem RowWrites.stuffLoop (n : Nat) (s : State) : RowWrites s (stuffLoop n s).1 :=
  stuffLoop_keeps (P := RowWrites s) (fun t _ _ h hp => h.cursor hp (onlyCursorMoves_advance t true))
    (fun _ _ _ _ h hp => h.goes_on hp rfl rfl) (fun _ code extra h => h.applyDiff code extra) n (.refl s)

theorem RowWrites.diffBody {row : List Sample} {bits : List Bool} (n : Nat) (code extra : List Bool) (hp : s.phase = .scan row bits) :
    RowWrites s (diffBody n code extra s).1 := by
  have hmove := takeBits_onlyCursorMoves n s
  unfold Machine.diffBody
  split <;> rename_i ht <;> rw [ht] at hmove
  · exact (RowWrites.refl s).cursor hp hmove
  · exact ((RowWrites.refl s).cursor hp hmove).applyDiff code extra

theorem RowWrites.rowLoop (n : Nat) (s : State) : RowWrites s (rowLoop n s).1 :=
  rowLoop_keeps (P := RowWrites s) (fun _ _ _ _ h hp hm => h.cursor hp hm) (fun _ code extra h => h.applyDiff code extra) n (.refl s)

theorem ljrowBody_writes (s : State) : Writes s.rowCells s (ljrowBody s).1 := by
  unfold ljrowBody
  split
  · exact .refl _ s
  · have hopen : Writes s.rowCells s (s.atPlace (.scan [] [])) := .of_memory rfl
    exact hopen.trans (RowWrites.rowLoop _ (s.atPlace (.scan [] []))).writes

theorem execStuff_writes (h : execStuff s = .next t) : Writes s.rowCells s t := by
  unfold execStuff at h
  split at h
  · split at h <;> cases h
    exact (RowWrites.stuffLoop 8 s).writes.settle
  iterate 3 exact .of_memory (misplaced_memory h)

theorem execDiff_writes {code extra : List Bool} (h : execDiff code extra s = .next t) : Writes s.rowCells s t := by
  unfold execDiff at h
  split at h
  · rename_i row bits hp
    split at h <;> cases h
    exact (RowWrites.diffBody _ code extra hp).writes.settle
  iterate 3 cases h

/-! ## Every instruction -/

/-- The samples that an instruction may write: DIAGRS fills the other bank, LJROW and its elements write a row, the header and EXPSETUP no sample, and the
other commands the declared image (20_memory R66). -/
def State.cellsOf (s : State) : Instr → Cells
  | .bilin => s.imageCells
  | .vngref => s.imageCells
  | .expapply => s.imageCells
  | .cmatrix => s.imageCells
  | .permute => s.imageCells
  | .diagrs => s.otherCells
  | .ljrow => s.rowCells
  | .stuff => s.rowCells
  | .diff _ _ => s.rowCells
  | .ljstart => .none
  | .expsetup => .none
  | .init => .none
  | .soi => .none
  | .sof3 _ _ => .none
  | .dht _ _ => .none
  | .sos _ _ => .none

/-- Every instruction writes at most its own samples. -/
theorem exec_writes (h : exec i s = .next t) : Writes (s.cellsOf i) s t := by
  cases i with
  | ljstart =>
    cases h
    exact .command 0x01 (.of_memory (ljstartBody_memory _))
  | ljrow =>
    cases h
    exact .command 0x02 (ljrowBody_writes (s.begin 0x02))
  | bilin =>
    cases h
    exact .command 0x10 (.checked (.rewriteImage (s.begin 0x10) _))
  | vngref =>
    cases h
    refine .command 0x11 (.checked ?_)
    split
    · exact .refl _ _
    · exact .rewriteImage (s.begin 0x11) _
  | expsetup =>
    cases h
    exact .command 0x20 (.of_memory (expsetupBody_memory _))
  | expapply =>
    cases h
    exact .command 0x21 (.checked (.rewriteImage (s.begin 0x21) _))
  | cmatrix =>
    cases h
    exact .command 0x22 (.checked (.rewriteImage (s.begin 0x22) _))
  | diagrs =>
    cases h
    refine .command 0x30 (.checked ?_)
    split
    · exact .resample (s.begin 0x30)
    · exact .refl _ _
  | permute =>
    cases h
    exact .command 0x31 (.checked ((Writes.rewriteImage (s.begin 0x31) _).trans (.of_memory (finalise_memory _))))
  | init =>
    cases h
    split
    · exact .refl _ s
    · exact .of_memory rfl
  | soi => exact .of_memory (exec_headerElement_memory .soi h)
  | sof3 len payload => exact .of_memory (exec_headerElement_memory (.sof3 len payload) h)
  | dht len payload => exact .of_memory (exec_headerElement_memory (.dht len payload) h)
  | sos len payload => exact .of_memory (exec_headerElement_memory (.sos len payload) h)
  | stuff => exact execStuff_writes h
  | diff code extra => exact execDiff_writes h

/-- Only DIAGRS writes outside the selected bank. -/
theorem State.cellsOf_active {b : Bank} {a : Nat} (hi : i ≠ .diagrs) (h : s.cellsOf i b a) : b = s.activeBank := by
  cases i with
  | bilin | vngref | expapply | cmatrix | permute => exact h.1
  | ljrow | stuff | diff => exact h.1
  | diagrs => exact absurd rfl hi
  | ljstart | expsetup | init | soi | sof3 | dht | sos => exact h.elim

/-- None but DIAGRS writes beyond the declared image while the row that LJROW is at lies in it. -/
theorem State.cellsOf_inside {b : Bank} {a : Nat} (hi : i ≠ .diagrs)
    (hr : i = .ljrow ∨ i = .stuff ∨ (∃ code extra, i = .diff code extra) → s.ljRow.toNat < s.height.toNat) (h : s.cellsOf i b a) :
    a < 4 * s.pixels := by
  cases i with
  | bilin | vngref | expapply | cmatrix | permute => exact h.2
  | ljrow => exact State.rowCells_inside (hr (.inl rfl)) h
  | stuff => exact State.rowCells_inside (hr (.inr (.inl rfl))) h
  | diff code extra => exact State.rowCells_inside (hr (.inr (.inr ⟨code, extra, rfl⟩))) h
  | diagrs => exact absurd rfl hi
  | ljstart | expsetup | init | soi | sof3 | dht | sos => exact h.elim

/-! ## A latched fault -/

theorem settle_keeps_fault {r : State × Option Raised} (h : r.1.faulted = true) : (settle r).faulted = true := by
  obtain ⟨f, -, hs⟩ | ⟨-, -, hs⟩ | ⟨-, -, hs⟩ := settle_cases r <;> rw [hs]
  · exact raise_faulted r.1 f
  · exact (State.complete_faulted r.1).trans h
  · exact h

theorem keptByLj_faulted : KeptByLj (fun s => s.faulted = true) := by
  refine .of_beyondLj (fun hq h => ?_)
  simp only [State.beyondLj, State.reports, Prod.mk.injEq] at h
  obtain ⟨-, -, -, -, -, -, -, hfaulted, -⟩ := h
  exact hfaulted.trans hq

theorem ElementResult.keeps_fault (h : ElementResult s t) (hf : s.faulted = true) : t.faulted = true := by
  cases h with
  | raised f => exact raise_faulted s f
  | header j => exact settle_keeps_fault (keptByLj_faulted.headerBody j hf)
  | stuff => exact settle_keeps_fault (keptByLj_faulted.stuffLoop 8 hf)
  | diff row bits code extra n hp => exact settle_keeps_fault (keptByLj_faulted.diffBody n code extra hf hp)

/-- A command is not accepted while a fault is latched, and an element leaves it latched. -/
theorem exec_keeps_fault (hi : i ≠ .init) (h : exec i s = .next t) (hf : s.faulted = true) : t.faulted = true := by
  by_cases hc : isLjInstr i = false ∨ i = .ljstart ∨ i = .ljrow
  · obtain ⟨w, hw⟩ := exists_commandWord hc
    rw [exec_command hw hi, command_of_faulted w _ hf] at h
    cases h
    exact hf
  · simp only [not_or, Bool.not_eq_false] at hc
    obtain ⟨hlj, h1, h2⟩ := hc
    exact (exec_element_result hlj h1 h2 h).keeps_fault hf

/-- Settles O58: what an instruction may write is its region, which lies in the other bank for DIAGRS, and in the declared image for the others. -/
theorem writersOfMemory : Obligations.WritersOfMemory := by
  intro i s t h
  have hw := exec_writes h
  refine ⟨hw.strByte, congrArg (·.2.2) hw.fixed, fun hi hf => exec_keeps_fault hi h hf, fun hi a => ?_, fun hi b a => ?_,
    fun hi hr a ha => ?_⟩
  · exact hw.kept _ _ (fun hc => Bank.other_ne _ (State.cellsOf_active hi hc))
  · refine hw.kept b a (fun hc => ?_)
    obtain rfl | rfl | rfl | rfl | ⟨_, _, rfl⟩ | ⟨_, _, rfl⟩ | ⟨_, _, rfl⟩ := hi <;> exact hc
  · exact hw.kept _ _ (fun hc => absurd (State.cellsOf_inside hi hr hc) (Nat.not_lt.2 ha))

end Sys2Proof.Machine
end

section
/-! PROOFS of the family 20_memory, continued: the memories stay in canonical form. An instruction rewrites cells of a bank, and the host writes single cells. -/

namespace Sys2Proof.Machine

variable {s t : State}

theorem State.memoryWf.of_memory (hs : s.memoryWf) (h : t.memory = s.memory) : t.memoryWf :=
  (Writes.of_memory (R := .none) h).memoryWf hs

theorem State.memoryWf_bank (hs : s.memoryWf) (b : Bank) : Memory.wf (s.bank b) = true := by
  obtain ⟨-, h0, h1⟩ := hs
  cases b with
  | bank0 => exact h0
  | bank1 => exact h1

theorem State.memoryWf_setBank (hs : s.memoryWf) (b : Bank) {m : Memory Sample} (hm : Memory.wf m = true) : (s.setBank b m).memoryWf := by
  obtain ⟨hstr, h0, h1⟩ := hs
  cases b with
  | bank0 => exact ⟨hstr, hm, h1⟩
  | bank1 => exact ⟨hstr, h0, hm⟩

theorem writeRegister_memory (s : State) (n : Nat) (v : BitVec 32) : (writeRegister s n v).memory = s.memory := by
  have h := writeRegister_beyondRegisters s n v
  simp only [State.beyondRegisters, Prod.mk.injEq] at h
  obtain ⟨-, -, -, hstr, h0, h1, -, -, hepoch, -, hparams⟩ := h
  rw [State.memory, State.fixed, hstr, h0, h1, hepoch, hparams]
  rfl

theorem State.answer_memory (s : State) (v : BitVec 48) : (s.answer v).memory = s.memory := by
  unfold State.answer
  split <;> rfl

/-- Whatever the host does, it keeps the memories in canonical form. -/
theorem hostAct_memoryWf {op : HostOp} (hs : s.memoryWf) (h : hostAct op s = .next t) : t.memoryWf := by
  cases op with
  | writeReg n v =>
    cases h
    split
    · exact hs
    · exact hs.of_memory (writeRegister_memory s n v)
  | readReg n =>
    cases h
    split
    · exact hs
    · exact hs.of_memory (s.answer_memory _)
  | writeByte a v =>
    rw [hostAct] at h
    split at h <;> cases h
    split
    · exact hs
    · obtain ⟨hstr, h0, h1⟩ := hs
      exact ⟨Memory.wf_write _ a v hstr, h0, h1⟩
  | readByte a =>
    rw [hostAct] at h
    split at h <;> cases h
    exact hs.of_memory (s.answer_memory _)
  | writeSample a v =>
    rw [hostAct] at h
    split at h <;> cases h
    split
    · exact hs
    · exact State.memoryWf_setBank hs _ (Memory.wf_write _ a v (State.memoryWf_bank hs _))
  | readSample a =>
    rw [hostAct] at h
    split at h <;> cases h
    exact hs.of_memory (s.answer_memory _)
  | hardwareReset =>
    cases h
    exact ⟨rfl, rfl, rfl⟩

theorem illegalCommand_memory (w : BitVec 8) (s : State) : (illegalCommand w s).memory = s.memory := by
  obtain ⟨-, hc⟩ | ⟨-, hc⟩ := command_cases w (fun t => (t, some ⟨.eIllcmd, w.toNat⟩)) s <;> rw [illegalCommand, hc]
  rfl

/-- Settles O52: of everything a step can do, only instructions and the host's writes write memory, and both keep its form (the model's own,
notes/assumptions/1.md). -/
theorem stepKeepsMemoryCanonical : Obligations.StepKeepsMemoryCanonical := by
  intro s t hs h
  cases step_cases h with
  | idle hi hn ht => exact ht ▸ hs
  | command hi v rest i hn hw ht => exact (exec_writes ht).memoryWf hs
  | illegal hi v rest hn hw ht => exact hs.of_memory (ht ▸ illegalCommand_memory _ { s with inputs := rest })
  | host hi op rest hn hop ht => exact hostAct_memoryWf (s := { s with inputs := rest }) hs ht
  | header i hf hi ht => exact (exec_writes ht).memoryWf hs
  | headerFault f hf hi ht => exact hs.of_memory (ht ▸ rfl)
  | stuff row bits hi ha ht => exact (exec_writes ht).memoryWf hs
  | diff row bits code extra s1 hi hr ht => exact (exec_writes ht).memoryWf hs
  | scanFault row bits f s1 hi hr ht =>
    have hmove : OnlyCursorMoves s s1 := by simpa [hr] using readDiff_onlyCursorMoves row.length diffFuel bits s
    exact hs.of_memory (by rw [ht, hmove]; rfl)

end Sys2Proof.Machine
end

section
/-! PROOFS of the family 20_memory, continued: what ends a header between its elements. LJSTART looks at a window onto the stream, which ends where the stream
does (20_memory R60); what the decoder misses in it, or finds wrong, is the fault. -/

namespace Sys2Proof.Machine

variable {s : State}

/-! ## Windows that the stream cuts short -/

/-- A window onto bytes that the stream holds begins with them. -/
theorem State.streamWindow_append (s : State) {a : Nat} {l : List Byte} (h : s.holdsAt a l) {n : Nat} (hn : l.length ≤ n) :
    s.streamWindow a n = l ++ s.streamWindow (a + l.length) (n - l.length) := by
  induction l generalizing a n with
  | nil => rfl
  | cons b l ih =>
    obtain ⟨hb, hl⟩ := (s.holdsAt_cons a b l).1 h
    rw [List.length_cons] at hn ⊢
    obtain ⟨n, rfl⟩ : ∃ m, n = m + 1 := ⟨n - 1, by omega⟩
    simp only [State.streamWindow, hb, List.cons_append]
    rw [ih hl (by omega), Nat.add_sub_add_right, Nat.add_right_comm, Nat.add_assoc]

theorem State.streamWindow_of_none (s : State) {a : Nat} (h : s.streamByte a = none) (n : Nat) : s.streamWindow a n = [] := by
  cases n with
  | zero => rfl
  | succ n => simp only [State.streamWindow, h]

/-- A window onto bytes after which the stream has none is those bytes. -/
theorem State.streamWindow_cut (s : State) {a : Nat} {l : List Byte} (h : s.holdsAt a l) (hnone : s.streamByte (a + l.length) = none)
    {n : Nat} (hn : l.length ≤ n) : s.streamWindow a n = l := by
  rw [s.streamWindow_append h hn, s.streamWindow_of_none hnone, List.append_nil]

/-- A window does not reach over a missing byte. -/
theorem State.length_streamWindow_le (s : State) {a k : Nat} (h : s.streamByte (a + k) = none) (n : Nat) :
    (s.streamWindow a n).length ≤ k := by
  by_contra hlong
  have hbyte := s.holdsAt_streamWindow a n k _ (List.getElem?_eq_getElem (Nat.lt_of_not_le hlong))
  rw [h] at hbyte
  cases hbyte

theorem State.holdsAt_singleton {a : Nat} {b : Byte} (h : s.streamByte a = some b) : s.holdsAt a [b] :=
  (s.holdsAt_cons a b []).2 ⟨h, s.holdsAt_nil _⟩

/-! ## What the decoders reject -/

theorem decodeStart_short {l : List Byte} (h : l.length < 2) : decodeStart l = .error (.truncated l.length) := by
  match l with
  | [] | [_] => rfl
  | _ :: _ :: _ => simp at h

theorem decodeStart_badMarker {m0 m1 : Byte} (h : ¬(m0 = 0xFF ∧ m1 = 0xD8)) (rest : List Byte) :
    decodeStart (m0 :: m1 :: rest) = .error (.badMarker (m0.toNat * 256 + m1.toNat)) := by
  rw [decodeStart, if_neg h, bigEndian_toNat]

theorem decodeSegment_short {l : List Byte} (h : l.length < 2) : decodeSegment l = .error (.truncated l.length) := by
  match l with
  | [] | [_] => rfl
  | _ :: _ :: _ => simp at h

/-- The second bytes of the markers that a header accepts (30_encoding R97). -/
def SegmentMarker (m1 : Byte) : Prop := m1 = 0xC3 ∨ m1 = 0xC4 ∨ m1 = 0xDA

theorem segmentOf_isSome_iff (m1 : Byte) : (segmentOf m1 0 []).isSome = true ↔ SegmentMarker m1 := by
  unfold SegmentMarker segmentOf
  simp only [← BitVec.toNat_inj]
  split <;> simp_all

theorem decodeSegment_badMarker {m0 m1 : Byte} (h : ¬(m0 = 0xFF ∧ SegmentMarker m1)) (rest : List Byte) :
    decodeSegment (m0 :: m1 :: rest) = .error (.badMarker (m0.toNat * 256 + m1.toNat)) := by
  rw [← segmentOf_isSome_iff] at h
  simp only [decodeSegment, if_neg h, bigEndian_toNat]

theorem decodeSegment_shortLength {m1 : Byte} (hm : SegmentMarker m1) {l : List Byte} (h : l.length < 2) :
    decodeSegment (0xFF :: m1 :: l) = .error (.truncated (l.length + 2)) := by
  match l with
  | [] | [_] => simp only [decodeSegment, (segmentOf_isSome_iff m1).2 hm, true_and, if_true]
  | _ :: _ :: _ => simp at h

theorem decodeSegment_shortPayload {m1 l0 l1 : Byte} (hm : SegmentMarker m1) {rest : List Byte}
    (h : rest.length + 4 < (bigEndian l0 l1).toNat + 2) :
    decodeSegment (0xFF :: m1 :: l0 :: l1 :: rest) = .error (.truncated ((bigEndian l0 l1).toNat + 1)) := by
  simp only [decodeSegment, (segmentOf_isSome_iff m1).2 hm, true_and, if_true, takePayload, if_pos h]

/-- A segment whose length field does not even count itself has no payload. -/
theorem decodeSegment_noPayload {m1 l0 l1 : Byte} (hm : SegmentMarker m1) (h : (bigEndian l0 l1).toNat < 2) :
    ∃ i, segmentOf m1 (bigEndian l0 l1) [] = some i ∧ decodeSegment [0xFF, m1, l0, l1] = .ok (i, []) := by
  have hpayload : takePayload (bigEndian l0 l1) [] = .ok ([], []) := by
    rw [takePayload, if_neg (by simp; omega), List.take_nil, List.drop_nil]
  have hseg : ∃ i, segmentOf m1 (bigEndian l0 l1) [] = some i := by
    obtain rfl | rfl | rfl := hm <;> exact ⟨_, rfl⟩
  obtain ⟨i, hi⟩ := hseg
  exact ⟨i, hi, by simp only [decodeSegment, (segmentOf_isSome_iff m1).2 hm, true_and, if_true, hpayload, hi]⟩

/-! ## The fault of a header element that is not fetched -/

/-- The bytes that LJSTART looks at for a segment: its marker and length, then as many as the length says. -/
def State.segmentWindow (s : State) : List Byte :=
  s.streamWindow s.spos.toNat (max 4 (segmentLength (s.streamWindow s.spos.toNat 4) + 2))

theorem fetchHeader_start_error {loaded : Cursor} {e : DecodeError} (hp : s.phase = .start loaded)
    (h : decodeStart (s.streamWindow s.spos.toNat 2) = .error e) : fetchHeader s = .error (headerFault s.spos.toNat e) := by
  simp only [fetchHeader, hp, h]

theorem fetchHeader_segment_error {loaded : Cursor} {sof : Bool} {e : DecodeError} (hp : s.phase = .header loaded sof)
    (h : decodeSegment s.segmentWindow = .error e) : fetchHeader s = .error (headerFault s.spos.toNat e) := by
  rw [State.segmentWindow] at h
  simp only [fetchHeader, hp, h]

theorem fetchHeader_segment_ok {loaded : Cursor} {sof : Bool} {i : Instr} {rest : List Byte} (hp : s.phase = .header loaded sof)
    (h : decodeSegment s.segmentWindow = .ok (i, rest)) : fetchHeader s = .ok i := by
  rw [State.segmentWindow] at h
  simp only [fetchHeader, hp, h]

theorem State.segmentWindow_append {l : List Byte} (h : s.holdsAt s.spos.toNat l) (hl : l.length ≤ 4) :
    ∃ rest, s.segmentWindow = l ++ rest :=
  ⟨_, s.streamWindow_append h (hl.trans (Nat.le_max_left _ _))⟩

theorem State.segmentWindow_cut {l : List Byte} (h : s.holdsAt s.spos.toNat l) (hnone : s.streamByte (s.spos.toNat + l.length) = none)
    (hl : l.length ≤ 4) : s.segmentWindow = l :=
  s.streamWindow_cut h hnone (hl.trans (Nat.le_max_left _ _))

/-- Where the whole length field is there, the window is as long as it says. -/
theorem State.segmentWindow_eq {m0 m1 l0 l1 : Byte} (h : s.holdsAt s.spos.toNat [m0, m1, l0, l1]) :
    s.segmentWindow = s.streamWindow s.spos.toNat (max 4 ((bigEndian l0 l1).toNat + 2)) := by
  rw [State.segmentWindow, s.streamWindow_of_holdsAt h 4 (le_refl 4)]
  rfl

/-- A fault of the fetch is taken with the cursor that LJSTART was started with. -/
theorem elementFaults_of_fetchHeader {loaded : Cursor} {f : Raised} (hw : s.params.wf = true)
    (hp : s.phase = .start loaded ∨ ∃ sof, s.phase = .header loaded sof) (h : fetchHeader s = .error f) :
    ElementFaults (step s) f.cause.code.toNat f.info (s.setCursor loaded) := by
  have hin : s.inHeader := hp.imp (fun hq => ⟨loaded, hq⟩) (fun ⟨sof, hq⟩ => ⟨loaded, sof, hq⟩)
  have hcursor : s.faultCursor = loaded := by
    obtain hq | ⟨sof, hq⟩ := hp
    · exact s.faultCursor_of_start hq
    · exact s.faultCursor_of_header hq
  have hstep : step s = .next (raise f s) := by rw [step_header hw hin, h]
  exact hcursor ▸ elementFaults_of_raise f s hstep

theorem start_faults {loaded : Cursor} {e : DecodeError} (hw : s.params.wf = true) (hp : s.phase = .start loaded)
    (h : decodeStart (s.streamWindow s.spos.toNat 2) = .error e) :
    ElementFaults (step s) (headerFault s.spos.toNat e).cause.code.toNat (headerFault s.spos.toNat e).info (s.setCursor loaded) :=
  elementFaults_of_fetchHeader hw (.inl hp) (fetchHeader_start_error hp h)

theorem segment_faults {loaded : Cursor} {sof : Bool} {e : DecodeError} (hw : s.params.wf = true) (hp : s.phase = .header loaded sof)
    (h : decodeSegment s.segmentWindow = .error e) :
    ElementFaults (step s) (headerFault s.spos.toNat e).cause.code.toNat (headerFault s.spos.toNat e).info (s.setCursor loaded) :=
  elementFaults_of_fetchHeader hw (.inr ⟨sof, hp⟩) (fetchHeader_segment_error hp h)

/-! ## The stops, in the order the bytes are read -/

theorem headerBody_shortLength {loaded : Cursor} {sof : Bool} {m1 : Byte} {len : BitVec 16} {i : Instr} (hp : s.phase = .header loaded sof)
    (hi : segmentOf m1 len [] = some i) (hl : len.toNat < 2) : headerBody i s = (s, some ⟨.eMarker, len.toNat⟩) := by
  unfold segmentOf at hi
  split at hi <;> cases hi
  · simp only [headerBody, sof3Body, hp, if_pos hl]
  · simp only [headerBody, dhtBody, hp, if_pos hl]
  · simp only [headerBody, sosBody, hp, if_pos hl]

/-- A length below 2 is decoded, and the segment's own rule raises the fault. -/
theorem segment_faults_of_shortLength {loaded : Cursor} {sof : Bool} {m1 l0 l1 : Byte} (hw : s.params.wf = true)
    (hp : s.phase = .header loaded sof) (hm : SegmentMarker m1) (h : s.holdsAt s.spos.toNat [0xFF, m1, l0, l1])
    (hl : (bigEndian l0 l1).toNat < 2) : ElementFaults (step s) 1 (bigEndian l0 l1).toNat (s.setCursor loaded) := by
  obtain ⟨i, hi, hdecode⟩ := decodeSegment_noPayload hm hl
  have hwindow : s.segmentWindow = [0xFF, m1, l0, l1] := by
    rw [State.segmentWindow_eq h, Nat.max_eq_left (by omega)]
    exact s.streamWindow_of_holdsAt h 4 (le_refl 4)
  have hfetch : fetchHeader s = .ok i := fetchHeader_segment_ok hp (hwindow ▸ hdecode)
  refine elementFaults_of_raise_header ⟨.eMarker, (bigEndian l0 l1).toNat⟩ s hp ?_
  rw [step_of_fetchHeader hw (.inr ⟨loaded, sof, hp⟩) hfetch, exec_of_fetchHeader hfetch, headerBody_shortLength hp hi hl, settle_some]

/-- A segment that runs past the stream is missed at its last byte. -/
theorem segment_faults_of_shortPayload {loaded : Cursor} {sof : Bool} {m1 l0 l1 : Byte} (hw : s.params.wf = true)
    (hp : s.phase = .header loaded sof) (hm : SegmentMarker m1) (h : s.holdsAt s.spos.toNat [0xFF, m1, l0, l1])
    (hnone : s.streamByte (s.spos.toNat + ((bigEndian l0 l1).toNat + 1)) = none) :
    ElementFaults (step s) 5 (s.spos.toNat + ((bigEndian l0 l1).toNat + 1) : Nat) (s.setCursor loaded) := by
  obtain ⟨rest, hrest⟩ : ∃ rest, s.segmentWindow = 0xFF :: m1 :: l0 :: l1 :: rest := State.segmentWindow_append h (le_refl 4)
  have hshort : s.segmentWindow.length ≤ (bigEndian l0 l1).toNat + 1 := s.length_streamWindow_le hnone _
  simp only [hrest, List.length_cons] at hshort
  refine segment_faults hw hp (e := .truncated ((bigEndian l0 l1).toNat + 1)) ?_
  rw [hrest]
  exact decodeSegment_shortPayload hm (by omega)

/-- Settles O29: the window ends at the first missing byte, and the decoder of the place reports that byte or the marker it finds; the fault takes the cursor
back to where LJSTART was started (95_test_vectors V20, notes/assumptions/6.md). -/
theorem headerStops : Obligations.HeaderStops := by
  refine ⟨fun s loaded a hw hp ha => ?_, fun s loaded sof a hw hp ha => ?_⟩ <;> subst ha
  · refine ⟨fun h0 => ?_, fun h0 h1 => ?_, fun m0 m1 h hm => ?_⟩
    · have hwindow := s.streamWindow_of_none h0 2
      exact start_faults hw hp (e := .truncated 0) (by rw [hwindow]; rfl)
    · obtain ⟨b, hb⟩ := Option.ne_none_iff_exists'.1 h0
      have hwindow := s.streamWindow_cut (State.holdsAt_singleton hb) h1 (n := 2) (by simp)
      exact start_faults hw hp (e := .truncated 1) (by rw [hwindow]; rfl)
    · have hwindow := s.streamWindow_of_holdsAt h 2 (le_refl 2)
      exact start_faults hw hp (e := .badMarker (m0.toNat * 256 + m1.toNat)) (by rw [hwindow]; exact decodeStart_badMarker hm [])
  · refine ⟨fun h0 => ?_, fun h0 h1 => ?_, fun m0 m1 h hm => ?_, fun m1 h hm => ⟨fun h2 => ?_, fun h2 h3 => ?_, fun l0 l1 hl => ?_⟩⟩
    · have hwindow := State.segmentWindow_cut (s.holdsAt_nil s.spos.toNat) h0 (by simp)
      exact segment_faults hw hp (e := .truncated 0) (by rw [hwindow]; rfl)
    · obtain ⟨b, hb⟩ := Option.ne_none_iff_exists'.1 h0
      have hwindow := State.segmentWindow_cut (State.holdsAt_singleton hb) h1 (by simp)
      exact segment_faults hw hp (e := .truncated 1) (by rw [hwindow]; rfl)
    · obtain ⟨rest, hwindow⟩ := State.segmentWindow_append h (by simp)
      exact segment_faults hw hp (e := .badMarker (m0.toNat * 256 + m1.toNat)) (by rw [hwindow]; exact decodeSegment_badMarker hm rest)
    · have hwindow := State.segmentWindow_cut h h2 (by simp)
      exact segment_faults hw hp (e := .truncated 2) (by rw [hwindow]; exact decodeSegment_shortLength hm (l := []) (by simp))
    · obtain ⟨l0, hb⟩ := Option.ne_none_iff_exists'.1 h2
      have hthree : s.holdsAt s.spos.toNat [0xFF, m1, l0] := (s.holdsAt_append _ [0xFF, m1] [l0]).2 ⟨h, State.holdsAt_singleton hb⟩
      have hwindow := State.segmentWindow_cut hthree h3 (by simp)
      exact segment_faults hw hp (e := .truncated 3) (by rw [hwindow]; exact decodeSegment_shortLength hm (l := [l0]) (by simp))
    · rw [← bigEndian_toNat]
      refine ⟨fun hlt => segment_faults_of_shortLength hw hp hm hl hlt, fun hle hnone => ?_⟩
      have haddr : s.spos.toNat + 2 + (bigEndian l0 l1).toNat - 1 = s.spos.toNat + ((bigEndian l0 l1).toNat + 1) := by omega
      rw [haddr] at hnone ⊢
      exact segment_faults_of_shortPayload hw hp hm hl hnone

end Sys2Proof.Machine
end

section
/-! PROOFS of the family 30_encoding: decoder and encoder. The encoding of an instruction is read back as that instruction, and a byte-aligned element is spelled by
the bytes it was read from (30_encoding R80, R86 to R95). -/

namespace Sys2Proof.Machine

/-! ## Decoding what was encoded -/

/-- The markers of the header segments open neither the stream nor a stuffed pair, so the segment decoder reads them. -/
theorem decodeElement_segment {m1 : Byte} (hm : SegmentMarker m1) (l : List Byte) :
    decodeElement (0xFF :: m1 :: l) = decodeSegment (0xFF :: m1 :: l) := by
  obtain rfl | rfl | rfl := hm <;> rfl

theorem decodeElement_encodeSegment {m1 : Byte} {len : BitVec 16} {payload : List Byte} {i : Instr} (hm : SegmentMarker m1)
    (hw : segmentWellFormed len payload = true) (hi : segmentOf m1 len payload = some i) :
    decodeElement (encodeSegment m1 len payload) = .ok (i, []) :=
  (decodeElement_segment hm _).trans (decodeSegment_encodeSegment hw ((segmentOf_isSome_iff m1).2 hm) hi)

theorem decode_segment {m1 : Byte} {len : BitVec 16} {payload : List Byte} {i : Instr} (t : HuffTable) (maxBits : Nat) (hm : SegmentMarker m1)
    (hw : segmentWellFormed len payload = true) (hi : segmentOf m1 len payload = some i) :
    decode t maxBits (.bytes (encodeSegment m1 len payload)) = .ok i := by
  rw [decode, decodeElement_encodeSegment hm hw hi]
  rfl

/-- The bits of a DIFF are all its own. -/
theorem decode_diff {t : HuffTable} {maxBits n : Nat} {code extra : List Bool} (hl : leafAt t code n) (hn : n ≤ maxBits) (he : extra.length = n) :
    decode t maxBits (.bits (code ++ extra)) = .ok (.diff code extra) := by
  rw [decode, decodeDiff, scanDiff_of_leafAt hl hn he]
  rfl

/-- Settles O1: the word, the marker or the leaf at the head of an encoding tells which instruction it is, and the length field or the leaf's value where it ends. -/
theorem decodeInvertsEncode : Obligations.DecodeInvertsEncode := by
  intro t maxBits i hw hdiff
  cases i with
  | ljstart | ljrow | bilin | vngref | expsetup => rfl
  | expapply | cmatrix | diagrs | permute | init => rfl
  | soi | stuff => rfl
  | sof3 len payload => exact decode_segment t maxBits (.inl rfl) hw rfl
  | dht len payload => exact decode_segment t maxBits (.inr (.inl rfl)) hw rfl
  | sos len payload => exact decode_segment t maxBits (.inr (.inr rfl)) hw rfl
  | diff code extra =>
    obtain ⟨hleaf, hdepth⟩ := hdiff code extra rfl
    exact decode_diff hleaf hdepth rfl

/-! ## Encoding what was decoded -/

theorem decodeStart_ok {bytes rest : List Byte} {i : Instr} (h : decodeStart bytes = .ok (i, rest)) :
    i = .soi ∧ bytes = [0xFF, 0xD8] ++ rest := by
  unfold decodeStart at h
  split at h
  · split at h
    · rename_i hm
      obtain ⟨rfl, rfl⟩ := hm
      cases h
      exact ⟨rfl, rfl⟩
    · cases h
  · cases h

theorem decodeStuff_ok {bytes rest : List Byte} {i : Instr} (h : decodeStuff bytes = .ok (i, rest)) :
    i = .stuff ∧ bytes = [0xFF, 0x00] ++ rest := by
  unfold decodeStuff at h
  split at h
  · split at h
    · rename_i hm
      obtain ⟨rfl, rfl⟩ := hm
      cases h
      exact ⟨rfl, rfl⟩
    · cases h
  · cases h

/-- The payload and what is left are the bytes after the length field. -/
theorem takePayload_ok {len : BitVec 16} {rest payload tail : List Byte} (h : takePayload len rest = .ok (payload, tail)) :
    rest = payload ++ tail := by
  unfold takePayload at h
  split at h <;> cases h
  exact (List.take_append_drop _ _).symm

/-- A decoded segment has one of the header's markers, its length field, and a payload of the bytes that follow. -/
theorem decodeSegment_ok {bytes rest : List Byte} {i : Instr} (h : decodeSegment bytes = .ok (i, rest)) :
    ∃ m1 len payload, segmentOf m1 len payload = some i ∧ bytes = encodeSegment m1 len payload ++ rest := by
  unfold decodeSegment at h
  split at h
  · rename_i m0 m1 afterMarker
    split at h
    · rename_i hm
      obtain ⟨rfl, -⟩ := hm
      split at h
      · rename_i l0 l1 bytes
        split at h
        · rename_i payload tail hpayload
          split at h
          · rename_i j hj
            cases h
            refine ⟨m1, bigEndian l0 l1, payload, hj, ?_⟩
            rw [takePayload_ok hpayload, encodeSegment, extract_bigEndian_hi, extract_bigEndian_lo]
            rfl
          · cases h
        · cases h
      · cases h
    · cases h
  · cases h

theorem encode_of_segmentOf {m1 : Byte} {len : BitVec 16} {payload : List Byte} {i : Instr} (h : segmentOf m1 len payload = some i) :
    encode i = .bytes (encodeSegment m1 len payload) := by
  have hm : SegmentMarker m1 := by
    unfold segmentOf at h
    split at h
    · rename_i hb
      exact .inl (BitVec.eq_of_toNat_eq hb)
    · rename_i hb
      exact .inr (.inl (BitVec.eq_of_toNat_eq hb))
    · rename_i hb
      exact .inr (.inr (BitVec.eq_of_toNat_eq hb))
    · cases h
  obtain rfl | rfl | rfl := hm <;> cases h <;> rfl

/-- What reads an element is one of the three decoders. -/
theorem decodeElement_ok {bytes rest : List Byte} {i : Instr} (h : decodeElement bytes = .ok (i, rest)) :
    decodeStart bytes = .ok (i, rest) ∨ decodeStuff bytes = .ok (i, rest) ∨ decodeSegment bytes = .ok (i, rest) := by
  unfold decodeElement at h
  split at h
  · rename_i hd
    exact .inl (hd.trans h)
  · split at h
    · rename_i hd
      exact .inr (.inl (hd.trans h))
    · exact .inr (.inr h)

/-- Settles O2: each of the three decoders takes its element's bytes from the head and leaves the others. -/
theorem decodedElementReencodes : Obligations.DecodedElementReencodes := by
  intro bytes i rest h
  obtain h | h | h := decodeElement_ok h
  · obtain ⟨rfl, hbytes⟩ := decodeStart_ok h
    exact ⟨_, rfl, hbytes⟩
  · obtain ⟨rfl, hbytes⟩ := decodeStuff_ok h
    exact ⟨_, rfl, hbytes⟩
  · obtain ⟨m1, len, payload, hi, hbytes⟩ := decodeSegment_ok h
    exact ⟨_, encode_of_segmentOf hi, hbytes⟩

/-- Settles O3: each word is decoded by evaluation. -/
theorem knownWordsDecode : Obligations.KnownWordsDecode :=
  ⟨rfl, rfl, rfl, rfl, rfl, rfl, rfl, rfl, rfl⟩

/-! ## Differences -/

/-- The top bit of `n + 1` bits tells whether their number is in the upper half (30_encoding R96). -/
theorem testBit_top_iff {n raw : Nat} (h : raw < 2 ^ (n + 1)) : raw.testBit n = true ↔ 2 ^ n ≤ raw := by
  refine ⟨fun ht => Nat.ge_two_pow_of_testBit ht, fun hle => ?_⟩
  exact Nat.testBit_of_two_pow_le_and_two_pow_add_one_gt hle h

theorem diffValue_upper {n raw : Nat} (h : raw < 2 ^ (n + 1)) (hle : 2 ^ n ≤ raw) : diffValue (n + 1) raw = raw := by
  rw [diffValue, if_neg (Nat.succ_ne_zero n), Nat.add_sub_cancel, if_pos ((testBit_top_iff h).2 hle)]

theorem diffValue_lower {n raw : Nat} (hlt : raw < 2 ^ n) : diffValue (n + 1) raw = (raw : Int) - (2 ^ (n + 1) - 1) := by
  rw [diffValue, if_neg (Nat.succ_ne_zero n), Nat.add_sub_cancel, Nat.testBit_lt_two_pow hlt, if_neg (by decide)]

/-- Settles O4: the top bit of the raw value tells its half, and the two halves are moved to the two ends of the range. -/
theorem differenceValueRanges : Obligations.DifferenceValueRanges := by
  refine ⟨fun raw => rfl, fun n raw h1 _ hraw => ?_⟩
  obtain ⟨m, rfl⟩ : ∃ m, n = m + 1 := ⟨n - 1, by omega⟩
  have hrange : (raw : Int) < 2 ^ (m + 1) := by exact_mod_cast hraw
  have hdouble : (2 : Int) ^ (m + 1) = 2 ^ m + 2 ^ m := by ring
  rw [Nat.add_sub_cancel]
  refine ⟨fun hle => ?_, fun hlt => ?_⟩
  · have hle' : (2 : Int) ^ m ≤ raw := by exact_mod_cast hle
    rw [diffValue_upper hraw hle]
    exact ⟨rfl, hle', by omega⟩
  · have hlt' : (raw : Int) < 2 ^ m := by exact_mod_cast hlt
    rw [diffValue_lower hlt]
    exact ⟨rfl, by omega, by omega⟩

end Sys2Proof.Machine
end

section
/-! PROOFS of the family 30_encoding, continued: canonical code assignment (30_encoding R92). What a length takes over from the one before is the number of codes that
have been asked for, counted at its own length (`codesAsked`); the table is laid out from there (`LaidOut`). -/

namespace Sys2Proof.Machine

/-- Settles O5: the codes of a table are assigned from below (10_state R41). -/
theorem builtTablesArePrefixFree : Obligations.BuiltTablesArePrefixFree :=
  fun _ _ _ hc hv h => buildTable_wf (le_of_eq hc) hv h

/-! ## The codes of one length -/

/-- The triples of one length: its values in stream order, the codes counting up from `code`. -/
def codesOfLength (len code : Nat) (vals : List Byte) : HuffTable := (vals.zipIdx code).map (fun v => ⟨len, v.2, v.1.toNat⟩)

theorem codesOfLength_cons (len code : Nat) (v : Byte) (vals : List Byte) :
    codesOfLength len code (v :: vals) = ⟨len, code, v.toNat⟩ :: codesOfLength len (code + 1) vals := rfl

theorem codesOfLength_map_len (len code : Nat) (vals : List Byte) : (codesOfLength len code vals).map (·.len) = List.replicate vals.length len := by
  simp [codesOfLength, Function.comp_def, List.map_const']

theorem codesOfLength_map_value (len code : Nat) (vals : List Byte) : (codesOfLength len code vals).map (·.value) = vals.map (·.toNat) := by
  induction vals generalizing code with
  | nil => rfl
  | cons v vals ih => rw [codesOfLength_cons, List.map_cons, ih, List.map_cons]

/-- From a code that exists, a length takes its values, or is over-subscribed where its codes run out. -/
theorem assignLength_eq {len count code : Nat} {vals : List Byte} (t : HuffTable) (hc : code ≤ 2 ^ len) (hv : count ≤ vals.length) :
    assignLength len count code vals t =
      if code + count ≤ 2 ^ len then
        .ok (code + count, vals.drop count, (codesOfLength len code (vals.take count)).reverse ++ t)
      else .error len := by
  induction count generalizing code vals t with
  | zero =>
    rw [Nat.add_zero, if_pos hc]
    rfl
  | succ n ih =>
    obtain ⟨v, vals, rfl⟩ := List.exists_cons_of_length_pos (show 0 < vals.length by omega)
    rw [List.length_cons] at hv
    rw [assignLength]
    by_cases hfull : 2 ^ len ≤ code
    · rw [if_pos hfull, if_neg (by omega)]
    · rw [if_neg hfull, List.tail_cons, List.headD_cons, ih _ (by omega) (by omega), List.take_succ_cons, codesOfLength_cons,
        List.reverse_cons, List.append_assoc, List.singleton_append, List.drop_succ_cons, Nat.add_right_comm, Nat.add_assoc]

/-! ## The lengths together -/

/-- The codes that a length vector asks for, counted at its last length, where `asked` codes have been counted at the length before its first. -/
def codesAsked (counts : List Byte) (asked : Nat) : Nat := counts.foldl (fun a n => 2 * a + n.toNat) asked

theorem codesAsked_cons (n : Byte) (counts : List Byte) (asked : Nat) :
    codesAsked (n :: counts) asked = codesAsked counts (2 * asked + n.toNat) := rfl

/-- Counted at the last length, a code of an earlier one is as many as it starts there. -/
theorem codesAsked_eq_sum (counts : List Byte) :
    codesAsked counts 0 = ((counts.zipIdx).map (fun n => n.1.toNat * 2 ^ (counts.length - (n.2 + 1)))).sum := by
  induction counts using List.reverseRecOn with
  | nil => rfl
  | append_singleton counts n ih =>
    have hdouble : ∀ p ∈ counts.zipIdx, p.1.toNat * 2 ^ (counts.length + 1 - (p.2 + 1)) =
        2 * (p.1.toNat * 2 ^ (counts.length - (p.2 + 1))) := by
      intro p hp
      have hlt : p.2 < counts.length := by
        have := List.snd_lt_add_of_mem_zipIdx hp
        omega
      rw [show counts.length + 1 - (p.2 + 1) = counts.length - (p.2 + 1) + 1 by omega, pow_succ]
      ring
    calc codesAsked (counts ++ [n]) 0
      _ = 2 * codesAsked counts 0 + n.toNat := by rw [codesAsked, List.foldl_append]; rfl
      _ = _ := by
        rw [ih, List.zipIdx_append, List.map_append, List.sum_append, List.length_append, List.length_singleton,
          List.map_congr_left hdouble, List.sum_map_mul_left]
        simp

/-- The table goes on at length `len` with the code `code`: each code is the next one, shifted to its length. -/
def LaidOut : (len code : Nat) → HuffTable → Prop
  | _, _, [] => True
  | len, code, e :: t => len ≤ e.len ∧ e.code = code * 2 ^ (e.len - len) ∧ LaidOut e.len (e.code + 1) t

theorem LaidOut.next_length {len code : Nat} {t : HuffTable} (h : LaidOut (len + 1) (2 * code) t) : LaidOut len code t := by
  cases t with
  | nil => trivial
  | cons e t =>
    obtain ⟨hlen, hcode, ht⟩ := h
    refine ⟨by omega, ?_, ht⟩
    rw [hcode, show e.len - len = e.len - (len + 1) + 1 by omega, pow_succ]
    ring

theorem LaidOut.codesOfLength_append {len code : Nat} {t : HuffTable} (vals : List Byte) (h : LaidOut len (code + vals.length) t) :
    LaidOut len code (codesOfLength len code vals ++ t) := by
  induction vals generalizing code with
  | nil => exact h
  | cons v vals ih =>
    refine ⟨le_refl len, by simp, ih ?_⟩
    rwa [List.length_cons, ← Nat.add_assoc, Nat.add_right_comm] at h

theorem LaidOut.first_code {len code : Nat} {t : HuffTable} {e : HuffEntry} (h : LaidOut len code t) (he : t[0]? = some e) :
    e.code = code * 2 ^ (e.len - len) := by
  cases t with
  | nil => cases he
  | cons f t =>
    cases he
    exact h.2.1

theorem LaidOut.next_code {len code k : Nat} {t : HuffTable} {e f : HuffEntry} (h : LaidOut len code t) (he : t[k]? = some e)
    (hf : t[k + 1]? = some f) : f.code = (e.code + 1) * 2 ^ (f.len - e.len) := by
  induction t generalizing len code k with
  | nil => cases he
  | cons g t ih =>
    obtain ⟨-, -, ht⟩ := h
    cases k with
    | zero =>
      cases he
      exact ht.first_code hf
    | succ k => exact ih ht he hf

/-- What code assignment adds to the triples `t` of the lengths up to `k`: the lengths of `counts` from `k + 1` on, and `vals`. -/
structure Assigns (counts : List Byte) (k code : Nat) (vals : List Byte) (added : HuffTable) : Prop where
  values : added.map (·.value) = vals.map (·.toNat)
  lengths : added.map (·.len) = (counts.zipIdx k).flatMap (fun n => List.replicate n.1.toNat (n.2 + 1))
  codes : LaidOut (k + 1) code added

/-- While the codes asked for exist, one length's codes are laid out and the others follow. -/
theorem assignCodes_cons {n : Byte} {counts vals : List Byte} {k asked : Nat} (t : HuffTable) (ha : asked ≤ 2 ^ k) (hv : n.toNat ≤ vals.length) :
    assignCodes (n :: counts) (k + 1) (2 * asked) vals t =
      if 2 * asked + n.toNat ≤ 2 ^ (k + 1) then
        assignCodes counts (k + 2) (2 * (2 * asked + n.toNat)) (vals.drop n.toNat)
          ((codesOfLength (k + 1) (2 * asked) (vals.take n.toNat)).reverse ++ t)
      else .error (k + 1) := by
  have hcode : 2 * asked ≤ 2 ^ (k + 1) := by
    rw [pow_succ]
    omega
  rw [assignCodes, assignLength_eq t hcode hv]
  split_ifs
  · dsimp only
    rw [Nat.shiftLeft_eq, pow_one, Nat.mul_comm]
  · rfl

theorem assignCodes_ok {counts vals : List Byte} {k asked : Nat} {t t' : HuffTable} (ha : asked ≤ 2 ^ k)
    (hv : vals.length = (counts.map (·.toNat)).sum) (h : assignCodes counts (k + 1) (2 * asked) vals t = .ok t') :
    ∃ added, t' = t.reverse ++ added ∧ Assigns counts k (2 * asked) vals added := by
  induction counts generalizing k asked vals t with
  | nil =>
    cases h
    rw [List.map_nil, List.sum_nil, List.length_eq_zero_iff] at hv
    subst hv
    exact ⟨[], (List.append_nil _).symm, rfl, rfl, trivial⟩
  | cons n counts ih =>
    rw [List.map_cons, List.sum_cons] at hv
    rw [assignCodes_cons t ha (by omega)] at h
    split_ifs at h with hroom
    obtain ⟨added, rfl, hvalues, hlengths, hcodes⟩ := ih hroom (by rw [List.length_drop]; omega) h
    have htake : (vals.take n.toNat).length = n.toNat := by rw [List.length_take]; omega
    refine ⟨codesOfLength (k + 1) (2 * asked) (vals.take n.toNat) ++ added, ?_, ?_, ?_, ?_⟩
    · rw [List.reverse_append, List.reverse_reverse, List.append_assoc]
    · rw [List.map_append, codesOfLength_map_value, hvalues, ← List.map_append, List.take_append_drop]
    · rw [List.map_append, codesOfLength_map_len, htake, hlengths]
      rfl
    · refine .codesOfLength_append _ ?_
      rw [htake]
      exact hcodes.next_length

/-- The building fails at the first length at which more codes have been asked for than there are. -/
theorem assignCodes_error_iff {counts vals : List Byte} {k asked : Nat} (t : HuffTable) (ha : asked ≤ 2 ^ k)
    (hv : vals.length = (counts.map (·.toNat)).sum) (l : Nat) :
    assignCodes counts (k + 1) (2 * asked) vals t = .error l ↔
      (k < l ∧ l ≤ k + counts.length ∧ 2 ^ l < codesAsked (counts.take (l - k)) asked ∧
        ∀ m, k < m → m < l → codesAsked (counts.take (m - k)) asked ≤ 2 ^ m) := by
  induction counts generalizing k asked vals t with
  | nil =>
    refine ⟨(nomatch ·), fun ⟨h1, h2, _⟩ => ?_⟩
    rw [List.length_nil] at h2
    omega
  | cons n counts ih =>
    rw [List.map_cons, List.sum_cons] at hv
    have hfirst : codesAsked ((n :: counts).take (k + 1 - k)) asked = 2 * asked + n.toNat := by
      rw [Nat.add_sub_cancel_left]
      rfl
    have hlater : ∀ m, k + 1 < m → codesAsked ((n :: counts).take (m - k)) asked =
        codesAsked (counts.take (m - (k + 1))) (2 * asked + n.toNat) := by
      intro m hm
      rw [show m - k = m - (k + 1) + 1 by omega]
      rfl
    rw [assignCodes_cons t ha (by omega)]
    by_cases hroom : 2 * asked + n.toNat ≤ 2 ^ (k + 1)
    · rw [if_pos hroom, ih _ hroom (by rw [List.length_drop]; omega), List.length_cons]
      constructor
      · rintro ⟨h1, h2, h3, h4⟩
        refine ⟨by omega, by omega, by rwa [hlater l h1], fun m hm hml => ?_⟩
        obtain rfl | hm : m = k + 1 ∨ k + 1 < m := by omega
        · rwa [hfirst]
        · rw [hlater m hm]
          exact h4 m hm hml
      · rintro ⟨h1, h2, h3, h4⟩
        obtain rfl | h1 : l = k + 1 ∨ k + 1 < l := by omega
        · rw [hfirst] at h3
          omega
        · refine ⟨h1, by omega, by rwa [hlater l h1] at h3, fun m hm hml => ?_⟩
          rw [← hlater m hm]
          exact h4 m (by omega) hml
    · rw [if_neg hroom, List.length_cons]
      constructor
      · intro h
        cases h
        exact ⟨by omega, by omega, by rw [hfirst]; omega, fun m hm hml => by omega⟩
      · rintro ⟨h1, -, -, h4⟩
        obtain rfl | h1 : l = k + 1 ∨ k + 1 < l := by omega
        · rfl
        · have := h4 (k + 1) (by omega) h1
          rw [hfirst] at this
          exact absurd this hroom

/-- Settles O6: each length's codes go on where the length before stopped, and the building fails where they run out. -/
theorem canonicalCodeAssignment : Obligations.CanonicalCodeAssignment := by
  intro counts vals hc hv
  have hsum : ∀ m, m ≤ 16 → codesAsked (counts.take (m - 0)) 0 =
      (((counts.take m).zipIdx).map (fun n => n.1.toNat * 2 ^ (m - (n.2 + 1)))).sum := by
    intro m hm
    rw [codesAsked_eq_sum, Nat.sub_zero, List.length_take, Nat.min_eq_left (by omega)]
  refine ⟨fun t h => ?_, fun l => ?_⟩
  · obtain ⟨added, rfl, hvalues, hlengths, hcodes⟩ := assignCodes_ok (k := 0) (asked := 0) (by decide) hv h
    refine ⟨hvalues, hlengths, fun e he => ?_, fun k e f he hf => hcodes.next_code he hf⟩
    rw [hcodes.first_code he, Nat.mul_zero, Nat.zero_mul]
  · rw [show buildTable counts vals = assignCodes counts (0 + 1) (2 * 0) vals [] from rfl,
      assignCodes_error_iff (k := 0) (asked := 0) [] (by decide) hv, hc]
    constructor
    · rintro ⟨h1, h2, h3, h4⟩
      exact ⟨h1, by omega, by rwa [← hsum l (by omega)], fun m hm hml => by rw [← hsum m (by omega)]; exact h4 m hm hml⟩
    · rintro ⟨h1, h2, h3, h4⟩
      exact ⟨h1, by omega, by rwa [hsum l h2], fun m hm hml => by rw [hsum m (by omega)]; exact h4 m hm hml⟩

end Sys2Proof.Machine
end

section
/-! PROOFS of the family 30_encoding, continued: the words written to CMD (30_encoding R81, R82), and elements executed out of their place (30_encoding R97;
notes/assumptions/7.md). -/

namespace Sys2Proof.Machine

variable {s : State}

/-- Settles O7. -/
theorem stepRunsCommandWord : Obligations.StepRunsCommandWord :=
  ⟨fun _ _ _ _ hw hp hin hword => step_defined_word hw hp hin hword, fun _ hw hp hin => step_idle hw hp hin⟩

theorem illegalCommand_of_accepting (w : BitVec 8) (ha : s.accepting) :
    illegalCommand w s = raise ⟨.eIllcmd, w.toNat⟩ (s.begin w) :=
  command_check_fails ha rfl

/-- Settles O9: an accepted word begins a command, and the undefined one ends at once in its fault. -/
theorem illegalWordFaults : Obligations.IllegalWordFaults := by
  intro s v rest hw hp ha hin hundefined
  have hstep := step_undefined_word hw hp hin hundefined
  rw [illegalCommand_of_accepting (s := { s with inputs := rest }) _ ha] at hstep
  exact ⟨_, hstep, by simp, faultTaken_raise_begin _ _ _⟩

/-! ## Elements out of their place -/

theorem misplaced_idle (h : s.phase = .idle) (marker : Nat) : misplaced marker s = .refused .elementOutOfPlace := by
  rw [misplaced, h]

theorem misplaced_unstuffed {row : List Sample} {bits : List Bool} (h : s.phase = .scan row bits) (hm : s.stuffed = false) (marker : Nat) :
    misplaced marker s = .refused .elementOutOfPlace := by
  simp [misplaced, h, hm]

/-- Inside LJSTART an element of another kind is the unexpected marker. -/
theorem misplaced_faults {loaded : Cursor} {o : Host.Outcome State Fault Refusal} {marker : Nat}
    (hp : s.phase = .start loaded ∨ ∃ sof, s.phase = .header loaded sof) (ho : o = misplaced marker s) :
    ElementFaults o 1 marker (s.setCursor loaded) := by
  have hraise : misplaced marker s = .next (raise ⟨.eMarker, marker⟩ s) := by
    obtain h | ⟨sof, h⟩ := hp <;> rw [misplaced, h]
  have hcursor : s.faultCursor = loaded := by
    obtain h | ⟨sof, h⟩ := hp
    · exact s.faultCursor_of_start h
    · exact s.faultCursor_of_header h
  exact hcursor ▸ elementFaults_of_raise ⟨.eMarker, marker⟩ s (ho.trans hraise)

theorem exec_element_idle {i : Instr} (hp : s.phase = .idle) (hi : isLjInstr i = true) (h1 : i ≠ .ljstart) (h2 : i ≠ .ljrow) :
    exec i s = .refused .elementOutOfPlace := by
  cases i with
  | soi => rw [exec, execSoi, hp]; exact misplaced_idle hp _
  | sof3 len payload => rw [exec, execSof3, hp]; exact misplaced_idle hp _
  | dht len payload => rw [exec, execDht, hp]; exact misplaced_idle hp _
  | sos len payload => rw [exec, execSos, hp]; exact misplaced_idle hp _
  | stuff => rw [exec, execStuff, hp]; exact misplaced_idle hp _
  | diff code extra => rw [exec, execDiff, hp]
  | ljstart => exact absurd rfl h1
  | ljrow => exact absurd rfl h2
  | bilin | vngref | expsetup | expapply | cmatrix | diagrs | permute | init => cases hi

/-- In a scan a marker element is out of place. -/
theorem exec_headerElement_scan {i : Instr} {row : List Sample} {bits : List Bool} (hp : s.phase = .scan row bits) (hi : HeaderElement i) :
    ∃ marker, exec i s = misplaced marker s := by
  cases hi with
  | soi => exact ⟨_, by rw [exec, execSoi, hp]⟩
  | sof3 len payload => exact ⟨_, by rw [exec, execSof3, hp]⟩
  | dht len payload => exact ⟨_, by rw [exec, execDht, hp]⟩
  | sos len payload => exact ⟨_, by rw [exec, execSos, hp]⟩

theorem exec_headerElement_unstuffed {i : Instr} {row : List Sample} {bits : List Bool} (hp : s.phase = .scan row bits)
    (hm : s.stuffed = false) (hi : HeaderElement i) : exec i s = .refused .elementOutOfPlace := by
  obtain ⟨marker, h⟩ := exec_headerElement_scan hp hi
  rw [h, misplaced_unstuffed hp hm]

/-- Settles O40: the place decides what a misplaced element is (the model's choice, notes/assumptions/7.md). -/
theorem misplacedElements : Obligations.MisplacedElements := by
  refine ⟨fun s i hp hi h1 h2 => exec_element_idle hp hi h1 h2, fun s loaded sof hp => ⟨?_, ?_⟩,
    fun s loaded len payload hp => ⟨?_, ?_, ?_⟩, fun s row bits len payload hp hm => ⟨?_, ?_, ?_, ?_, ?_⟩⟩
  · exact misplaced_faults (.inr ⟨sof, hp⟩) (by rw [exec, execSoi, hp])
  · exact misplaced_faults (.inr ⟨sof, hp⟩) (by rw [exec, execStuff, hp])
  · exact misplaced_faults (.inl hp) (by rw [exec, execSof3, hp])
  · exact misplaced_faults (.inl hp) (by rw [exec, execDht, hp])
  · exact misplaced_faults (.inl hp) (by rw [exec, execSos, hp])
  · exact exec_headerElement_unstuffed hp hm .soi
  · exact exec_headerElement_unstuffed hp hm (.sof3 len payload)
  · exact exec_headerElement_unstuffed hp hm (.dht len payload)
  · exact exec_headerElement_unstuffed hp hm (.sos len payload)
  · simp [exec, execStuff, hp, hm]

end Sys2Proof.Machine
end

section
/-! PROOFS of the family 30_encoding, continued: what SOF3, DHT and SOS do with a well-formed segment (30_encoding R90 to R93). A fault of theirs takes the cursor back
to where LJSTART was started (95_test_vectors V20, notes/assumptions/6.md). -/

namespace Sys2Proof.Machine

variable {s : State} {loaded : Cursor} {sof : Bool} {len : BitVec 16} {payload : List Byte}

theorem segmentWellFormed_iff : segmentWellFormed len payload = true ↔ 2 ≤ len.toNat ∧ payload.length + 2 = len.toNat := by
  simp [segmentWellFormed]

/-- A length field that counts itself and a payload that fits. -/
theorem toNat_ofNat_of_fitsSegment (h : fitsSegment payload) : (BitVec.ofNat 16 (payload.length + 2)).toNat = payload.length + 2 := by
  rw [BitVec.toNat_ofNat, Nat.mod_eq_of_lt h]

/-! ## SOF3 -/

theorem exec_sof3_faults {f : Raised} (hp : s.phase = .header loaded sof) (h : sof3Body len payload s = (s, some f)) :
    ElementFaults (exec (.sof3 len payload) s) f.cause.code.toNat f.info (s.setCursor loaded) :=
  elementFaults_of_raise_header f s hp (by rw [exec, execSof3_of_header hp, h, settle_some])

theorem sof3Body_second (hp : s.phase = .header loaded true) (hl : 2 ≤ len.toNat) :
    sof3Body len payload s = (s, some ⟨.eMarker, 0xFFC3⟩) := by
  simp only [sof3Body, hp]
  rw [if_neg (by omega), if_pos trivial]

theorem sof3Body_short (hp : s.phase = .header loaded false) (hl : 2 ≤ len.toNat) (h8 : len.toNat < 8) :
    sof3Body len payload s = (s, some ⟨.eSof, len.toNat⟩) := by
  simp only [sof3Body, hp]
  rw [if_neg (by omega), if_neg Bool.false_ne_true, if_pos h8]

/-- The checks of the first SOF3 with a whole frame header, in their order (30_encoding R90). -/
theorem sof3Body_of_frame {p y1 y0 x1 x0 nf : Byte} {comps : List Byte} (hp : s.phase = .header loaded false) (hl : 8 ≤ len.toNat)
    (hf : payload = p :: y1 :: y0 :: x1 :: x0 :: nf :: comps) :
    (len.toNat ≠ 8 + 3 * nf.toNat → sof3Body len payload s = (s, some ⟨.eSof, len.toNat⟩)) ∧
    (len.toNat = 8 + 3 * nf.toNat →
      (p.toNat < 2 ∨ 16 < p.toNat → sof3Body len payload s = (s, some ⟨.eSof, p.toNat⟩)) ∧
      (2 ≤ p.toNat → p.toNat ≤ 16 →
        (nf.toNat < 1 ∨ 4 < nf.toNat → sof3Body len payload s = (s, some ⟨.eSof, nf.toNat⟩)) ∧
        (1 ≤ nf.toNat → nf.toNat ≤ 4 → bigEndian y1 y0 = 0 ∨ bigEndian x1 x0 = 0 → sof3Body len payload s = (s, some ⟨.eSof, 0⟩)))) := by
  have h0 : payloadByte payload 0 = p := hf ▸ rfl
  have h1 : payloadByte payload 1 = y1 := hf ▸ rfl
  have h2 : payloadByte payload 2 = y0 := hf ▸ rfl
  have h3 : payloadByte payload 3 = x1 := hf ▸ rfl
  have h4 : payloadByte payload 4 = x0 := hf ▸ rfl
  have h5 : payloadByte payload 5 = nf := hf ▸ rfl
  simp only [sof3Body, hp, h0, h1, h2, h3, h4, h5]
  rw [if_neg (show ¬len.toNat < 2 by omega), if_neg Bool.false_ne_true, if_neg (show ¬len.toNat < 8 by omega)]
  refine ⟨fun hn => if_pos hn, fun hn => ⟨fun hd => ?_, fun hd1 hd2 => ⟨fun hc => ?_, fun hc1 hc2 hz => ?_⟩⟩⟩
  · rw [if_neg (not_not.2 hn), if_pos hd]
  · rw [if_neg (not_not.2 hn), if_neg (by omega), if_pos hc]
  · rw [if_neg (not_not.2 hn), if_neg (by omega), if_neg (by omega), if_pos hz]

/-- Settles O32: SOF3 raises the fault of the first check that fails, with nothing written. -/
theorem sof3Faults : Obligations.Sof3Faults := by
  intro s loaded len payload hw
  obtain ⟨h2, hlen⟩ := segmentWellFormed_iff.1 hw
  refine ⟨fun hp => exec_sof3_faults hp (sof3Body_second hp h2), fun hp => ⟨fun h8 => exec_sof3_faults hp (sof3Body_short hp h2 h8), ?_⟩⟩
  intro p y1 y0 x1 x0 nf comps hf
  have h8 : 8 ≤ len.toNat := by
    rw [hf] at hlen
    simp only [List.length_cons] at hlen
    omega
  obtain ⟨hlength, hchecks⟩ := sof3Body_of_frame hp h8 hf
  refine ⟨fun hn => exec_sof3_faults hp (hlength hn), fun hn => ?_⟩
  obtain ⟨hdepth, hchecks⟩ := hchecks hn
  refine ⟨fun hd => exec_sof3_faults hp (hdepth hd), fun hd1 hd2 => ?_⟩
  obtain ⟨hchannels, hzero⟩ := hchecks hd1 hd2
  have hnf : nf = 0 ↔ nf.toNat < 1 := by
    rw [← BitVec.toNat_inj]
    simp
  refine ⟨fun hc => exec_sof3_faults hp (hchannels (hc.imp_left hnf.1)), fun hc1 hc2 hz => exec_sof3_faults hp (hzero ?_ hc2 (hz.imp ?_ ?_))⟩
  · exact Nat.not_lt.1 (fun hlt => hc1 (hnf.2 hlt))
  · rintro ⟨rfl, rfl⟩
    rfl
  · rintro ⟨rfl, rfl⟩
    rfl

/-! ## DHT -/

theorem exec_dht_faults {ht : Quad (Option HuffTable)} {f : Raised} (hp : s.phase = .header loaded sof) (hl : 2 ≤ len.toNat)
    (h : storeDefinitions len (payload.length + 1) payload s.ht = (ht, some f)) :
    ElementFaults (exec (.dht len payload) s) f.cause.code.toNat f.info { s.setCursor loaded with ht := ht } :=
  elementFaults_of_raise_header f { s with ht := ht } hp
    (by rw [exec, execDht_of_header hp, dhtBody_of_fault hp hl h, settle_some])

theorem storeDefinitions_of_error {f : Raised} (h : parseDefinition len payload = .error f) (fuel : Nat) (ht : Quad (Option HuffTable)) :
    storeDefinitions len (fuel + 1) payload ht = (ht, some f) := by
  rw [storeDefinitions, h]

/-- A definition that is refused is met after the legal ones before it have been stored. -/
theorem storeDefinitions_of_legal_error {ds : List TableDefinition} {tail : List Byte} {f : Raised} (hd : ∀ d ∈ ds, d.legal) (hne : tail ≠ [])
    (h : parseDefinition len tail = .error f) (ht : Quad (Option HuffTable)) :
    storeDefinitions len ((definitionsBytes ds ++ tail).length + 1) (definitionsBytes ds ++ tail) ht = (storeAll ds ht, some f) := by
  have hcount := length_le_definitionsBytes ds
  have hfuel : (definitionsBytes ds ++ tail).length + 1 = (definitionsBytes ds ++ tail).length - ds.length + 1 + ds.length := by
    rw [List.length_append]
    omega
  rw [hfuel, storeDefinitions_of_legal len ds tail ht _ hd hne, storeDefinitions_of_error h]

theorem parseDefinition_badId {b : Byte} (h : 3 < b.toNat) (rest : List Byte) :
    parseDefinition len (b :: rest) = .error ⟨.eHufftab, b.toNat⟩ := by
  rw [parseDefinition, if_pos h]

theorem parseDefinition_short {b : Byte} {rest : List Byte} (hb : b.toNat ≤ 3) (h : rest.length < 16 + ((rest.take 16).map (·.toNat)).sum) :
    parseDefinition len (b :: rest) = .error ⟨.eHufftab, len.toNat⟩ := by
  rw [parseDefinition, if_neg (Nat.not_lt.2 hb)]
  exact if_pos h

/-- The first value above the alphabet (30_encoding R91). -/
def firstAboveAlphabet (vals : List Byte) : Option Byte := vals.find? (fun v => decide (Config.maxSymbol < v.toNat))

/-- Of a definition that is all there the values are checked first, then the length vector. -/
theorem parseDefinition_of_whole {b : Byte} {counts vals : List Byte} (more : List Byte) (hb : b.toNat ≤ 3) (hc : counts.length = 16)
    (hv : vals.length = (counts.map (·.toNat)).sum) :
    (∀ v, firstAboveAlphabet vals = some v →
      parseDefinition len (b :: (counts ++ vals ++ more)) = .error ⟨.eHufftab, v.toNat⟩) ∧
    (∀ l, firstAboveAlphabet vals = none → buildTable counts vals = .error l →
      parseDefinition len (b :: (counts ++ vals ++ more)) = .error ⟨.eHufftab, l⟩) := by
  have htake : (counts ++ vals ++ more).take 16 = counts := by rw [List.append_assoc, ← hc, List.take_left]
  have hdrop : (counts ++ vals ++ more).drop 16 = vals ++ more := by rw [List.append_assoc, ← hc, List.drop_left]
  rw [parseDefinition, if_neg (Nat.not_lt.2 hb)]
  simp only [htake, hdrop]
  rw [if_neg (by simp only [List.length_append]; omega), ← hv, List.take_left]
  refine ⟨fun v hfind => ?_, fun l hfind hbuild => ?_⟩ <;> rw [firstAboveAlphabet] at hfind <;> rw [hfind]
  simp only [hbuild]

theorem firstAboveAlphabet_eq_some {vals : List Byte} {k : Nat} {v : Byte} (hk : vals[k]? = some v) (hv : 16 < v.toNat)
    (hbefore : ∀ (j : Nat) (w : Byte), j < k → vals[j]? = some w → w.toNat ≤ 16) :
    firstAboveAlphabet vals = some v := by
  obtain ⟨hlt, hget⟩ := List.getElem?_eq_some_iff.1 hk
  refine List.find?_eq_some_iff_getElem.2 ⟨decide_eq_true hv, k, hlt, hget, fun j hj => ?_⟩
  have hle : vals[j].toNat ≤ Config.maxSymbol := hbefore j _ hj (List.getElem?_eq_getElem _)
  simpa using hle

theorem firstAboveAlphabet_eq_none {vals : List Byte} (h : ∀ v ∈ vals, v.toNat ≤ 16) :
    firstAboveAlphabet vals = none := by
  refine List.find?_eq_none.2 (fun v hv hlt => ?_)
  exact absurd (h v hv) (Nat.not_le.2 (of_decide_eq_true hlt))

/-- Settles O34: the definitions are parsed in turn, and the fault of one leaves the tables of those before it stored. -/
theorem dhtFaults : Obligations.DhtFaults := by
  intro s loaded sof ds tail hp hd hfit payload len stored
  have hlen : len.toNat = payload.length + 2 := toNat_ofNat_of_fitsSegment hfit
  have hfaults : ∀ f, tail ≠ [] → parseDefinition len tail = .error f →
      ElementFaults (exec (.dht len payload) s) f.cause.code.toNat f.info stored :=
    fun f hne h => exec_dht_faults hp (by omega) (storeDefinitions_of_legal_error hd hne h s.ht)
  refine ⟨fun hempty => ?_, fun b rest htail => ?_⟩
  · have hds : ds = [] := by
      have hcount := length_le_definitionsBytes ds
      rw [List.append_eq_nil_iff.1 hempty |>.1] at hcount
      exact List.length_eq_zero_iff.1 (Nat.le_zero.1 hcount)
    have hempty' : parseDefinition len payload = .error ⟨.eHufftab, (payload.length + 2 : Nat)⟩ := by
      rw [← hlen, hempty]
      rfl
    have := exec_dht_faults hp (by omega) (storeDefinitions_of_error hempty' payload.length s.ht)
    rwa [show s.ht = storeAll ds s.ht by rw [hds]; rfl] at this
  · subst htail
    have hne : b :: rest ≠ [] := List.cons_ne_nil b rest
    refine ⟨fun hb => hfaults _ hne (parseDefinition_badId hb rest), fun hb hshort => ?_, fun counts vals more hrest hb hc hv => ?_⟩
    · rw [← hlen]
      exact hfaults _ hne (parseDefinition_short hb hshort)
    · subst hrest
      obtain ⟨hvalue, hlengths⟩ := parseDefinition_of_whole (len := len) more hb hc hv
      refine ⟨fun k v hk hlt hbefore => ?_, fun l hall hbuild => ?_⟩
      · exact hfaults _ hne (hvalue v (firstAboveAlphabet_eq_some hk hlt hbefore))
      · exact hfaults _ hne (hlengths l (firstAboveAlphabet_eq_none hall) hbuild)

/-! ## SOS -/

theorem exec_sos_faults {f : Raised} (hp : s.phase = .header loaded sof) (h : sosBody len s = (s, some f)) (payload : List Byte) :
    ElementFaults (exec (.sos len payload) s) f.cause.code.toNat f.info (s.setCursor loaded) :=
  elementFaults_of_raise_header f s hp (by rw [exec, execSos_of_header hp, h, settle_some])

theorem sosBody_before_sof3 (hp : s.phase = .header loaded false) (hl : 2 ≤ len.toNat) :
    sosBody len s = (s, some ⟨.eMarker, 0xFFDA⟩) := by
  simp only [sosBody, hp]
  rw [if_neg (by omega), if_pos trivial]

/-- After SOF3 the tables are checked first, then the frame (30_encoding R93; 40_ljpeg R113). -/
theorem sosBody_after_sof3 (hp : s.phase = .header loaded true) (hl : 2 ≤ len.toNat) :
    (∀ c, missingTable s = some c → sosBody len s = (s, some ⟨.eHufftab, c⟩)) ∧
    (∀ f, missingTable s = none → frameFault s = some f → sosBody len s = (s, some f)) ∧
    (missingTable s = none → frameFault s = none →
      sosBody len s = (finishStart { s.skip (2 + len.toNat) with sbit := 0 }, none)) := by
  simp only [sosBody, hp]
  rw [if_neg (by omega), if_neg (by decide)]
  refine ⟨fun c hm => ?_, fun f hm hf => ?_, fun hm hf => ?_⟩ <;> simp only [hm]
  · simp only [hf]
  · simp only [hf]

theorem laneOf_val (c : Lane) : laneOf c.val = c := Fin.ext (by simp [laneOf])

/-- The lowest channel of the frame without a table. -/
theorem missingTable_eq_some {c : Lane} (hc : c.val < s.ljClrs.toNat) (hnone : s.ht.get c = none)
    (hbelow : ∀ d : Lane, d.val < c.val → (s.ht.get d).isSome = true) : missingTable s = some c.val := by
  unfold missingTable
  rw [List.find?_range_eq_some]
  refine ⟨by rw [laneOf_val, hnone]; rfl, List.mem_range.2 hc, fun j hj => ?_⟩
  have hd := hbelow ⟨j, by omega⟩ hj
  rw [show laneOf j = ⟨j, by omega⟩ from laneOf_val ⟨j, by omega⟩]
  simpa using hd

theorem frameFault_of_not_frameMatches (h : ¬s.frameMatches) :
    frameFault s = some ⟨.eMeta, (s.ljWide.toNat * s.ljClrs.toNat : Nat)⟩ := by
  unfold frameFault
  refine if_pos ?_
  by_contra hc
  obtain ⟨h1, h2⟩ := not_or.1 hc
  exact h ⟨not_not.1 h1, not_not.1 h2⟩

/-- Settles O36: SOS raises the fault of the first check that fails, with nothing written. -/
theorem sosFaults : Obligations.SosFaults := by
  intro s loaded len payload hw
  obtain ⟨h2, -⟩ := segmentWellFormed_iff.1 hw
  refine ⟨fun hp => exec_sos_faults hp (sosBody_before_sof3 hp h2) payload, fun hp hl => ?_⟩
  obtain ⟨htable, hframe, -⟩ := sosBody_after_sof3 hp h2
  obtain ⟨-, -, -, hclrs, -, -⟩ := hl
  refine ⟨fun c hc hnone hbelow => ?_, fun hall hmatch => ?_⟩
  · exact exec_sos_faults hp (htable _ (missingTable_eq_some hc hnone hbelow)) payload
  · exact exec_sos_faults hp (hframe _ ((missingTable_eq_none_iff hclrs).2 hall) (frameFault_of_not_frameMatches hmatch)) payload

/-- Settles O35: SOS whose checks pass ends LJSTART with the scan opened. -/
theorem sosOpensScan : Obligations.SosOpensScan := by
  intro s loaded len payload hp hw hall hl hmatch
  obtain ⟨h2, -⟩ := segmentWellFormed_iff.1 hw
  obtain ⟨-, -, hopens⟩ := sosBody_after_sof3 hp h2
  obtain ⟨-, -, -, hclrs, -, -⟩ := hl
  have hbody := hopens ((missingTable_eq_none_iff hclrs).2 hall) ((frameFault_eq_none_iff s).2 hmatch)
  refine ⟨(finishStart { s.skip (2 + len.toNat) with sbit := 0 }).complete, ?_, by simp, by simp, ?_, ?_, ?_, ?_⟩
  · rw [exec, execSos_of_header hp, hbody, settle_idle rfl]
  · rw [State.complete_ljReady]
    exact State.setLjReady_ljReady _ _
  · rw [State.complete_faulted]
    exact State.setLjReady_faulted _ _
  · rw [State.complete_warned]
    exact State.setLjReady_warned _ _
  · rw [← Nat.one_shiftLeft]
    rfl

end Sys2Proof.Machine
end

section
/-! PROOFS of the family 30_encoding, continued: DIFF as an instruction (30_encoding R94 to R97; 40_ljpeg R116 to R124). Taking its bits moves the cursor alone; then
its code's leaf and the sample it gives decide what happens. -/

namespace Sys2Proof.Machine

variable {s s1 : State} {row : List Sample} {bits more code extra : List Bool} {k n : Nat}

theorem OnlyCursorMoves.of_takeBits (h : takeBits k s = (s1, .ok more)) : OnlyCursorMoves s s1 := by
  simpa [h] using takeBits_onlyCursorMoves k s

/-! ## Where a needed bit is missing -/

theorem nextBit_of_no_byte (h : s.streamByte s.spos.toNat = none) : nextBit s = .error ⟨.eEos, s.spos.toNat⟩ := by
  simp only [nextBit, h]

/-- At the start of an FF in stuffed mode the byte after it is looked at first (40_ljpeg R116). -/
theorem nextBit_at_FF (hm : s.stuffed = true) (hb : s.sbit = 0) (h : s.streamByte s.spos.toNat = some 0xFF) :
    (s.streamByte (s.spos.toNat + 1) = none → nextBit s = .error ⟨.eEos, (s.spos.toNat + 1 : Nat)⟩) ∧
    (∀ b, s.streamByte (s.spos.toNat + 1) = some b → b ≠ 0 → nextBit s = .error ⟨.eMarker, (0xFF00 + b.toNat : Nat)⟩) := by
  refine ⟨fun hnone => ?_, fun b hsome hne => ?_⟩
  · simp [nextBit, h, hm, hb, hnone]
  · simpa [nextBit, h, hm, hb, hsome] using hne

/-- A step in a scan ends in the fault of the bit that it cannot take, the cursor after the bits taken. -/
theorem step_faults_of_nextBit {f : Raised} (hw : s.params.wf = true) (hp : s.phase = .scan row bits) (ha : atStuff s ≠ true)
    (ht : takeBits k s = (s1, .ok more)) (hm : ∀ j, j ≤ k → s.scanDiff row.length (bits ++ more.take j) = .more)
    (hn : nextBit s1 = .error f) : ElementFaults (step s) f.cause.code.toNat f.info s1 := by
  have hk : k < diffFuel := by
    have hlen := State.length_le_of_scanDiff_more (hm k (le_refl k))
    rw [List.length_append, List.length_take, takeBits_length ht, Nat.min_self] at hlen
    unfold diffFuel
    omega
  have hp1 : s1.phase = .scan row bits := by
    rw [OnlyCursorMoves.of_takeBits ht]
    exact hp
  refine elementFaults_of_raise_scan f s1 hp1 ?_
  rw [step_scan hw hp, if_neg ha, readDiff_stops ht hk hm hn]

/-- Settles O28: the DIFF is read until a bit is missing, and that is the step's fault. -/
theorem entropyDataStops : Obligations.EntropyDataStops := by
  intro s row bits k s1 more hw hp hns ht hm moved
  have hmoved : s1 = moved := OnlyCursorMoves.of_takeBits ht
  have hfaults : ∀ f, nextBit s1 = .error f → ElementFaults (step s) f.cause.code.toNat f.info moved :=
    fun f hf => hmoved ▸ step_faults_of_nextBit hw hp (fun ha => hns ((atStuff_iff s).1 ha)) ht hm hf
  have hbyte : ∀ a, s1.streamByte a = s.streamByte a := fun a => by rw [hmoved]; rfl
  have hmode : s1.stuffed = s.stuffed := by rw [hmoved]; rfl
  simp only [← hbyte, ← hmode]
  refine ⟨fun hnone => hfaults _ (nextBit_of_no_byte hnone), fun hs hb hff => ?_⟩
  obtain ⟨hnone, hmarker⟩ := nextBit_at_FF hs hb hff
  exact ⟨fun h => hfaults _ (hnone h), fun b h hne => hfaults _ (hmarker b h hne)⟩

/-! ## What a DIFF does with its leaf -/

theorem applyDiff_no_leaf (hp : s.phase = .scan row bits) (h : (s.table (s.diffChannel row.length)).lookup code = none) :
    applyDiff code extra s = (s, some ⟨.eHuffcode, bitsValue code⟩) := by
  simp only [applyDiff, hp, h]

theorem applyDiff_above_depth (hp : s.phase = .scan row bits) (h : (s.table (s.diffChannel row.length)).lookup code = some n)
    (hn : s.ljBits.toNat < n) : applyDiff code extra s = (s, some ⟨.eBitlen, n⟩) := by
  simp only [applyDiff, hp, h, if_pos hn]

theorem applyDiff_out_of_range {v : Int} (hp : s.phase = .scan row bits) (h : (s.table (s.diffChannel row.length)).lookup code = some n)
    (hn : n ≤ s.ljBits.toNat) (hv : v = predictor s row + diffValue n (bitsValue extra)) (hr : v < 0 ∨ 2 ^ s.ljBits.toNat ≤ v) :
    applyDiff code extra s = (s, some ⟨.eSample, v⟩) := by
  subst hv
  simp only [applyDiff, hp, h, if_neg (Nat.not_lt.2 hn), if_pos hr]

/-- The sample of a DIFF is kept, and the row's last one ends the row. -/
theorem applyDiff_of_sample {v : Int} (hp : s.phase = .scan row bits) (h : (s.table (s.diffChannel row.length)).lookup code = some n)
    (hn : n ≤ s.ljBits.toNat) (hv : v = predictor s row + diffValue n (bitsValue extra)) (h0 : 0 ≤ v) (h1 : v < 2 ^ s.ljBits.toNat) :
    applyDiff code extra s =
      (if row.length + 1 = s.ljWide.toNat * s.ljClrs.toNat then
          finishRow (BitVec.ofInt 16 v :: row) (keepSample row (BitVec.ofInt 16 v) s)
        else keepSample row (BitVec.ofInt 16 v) s, none) := by
  obtain ⟨f, hf⟩ | ⟨m, w, hm, -, hw, -, -, happly⟩ := applyDiff_cases code extra hp
  · exfalso
    simp only [applyDiff, hp, h, if_neg (Nat.not_lt.2 hn), ← hv, if_neg (show ¬(v < 0 ∨ 2 ^ s.ljBits.toNat ≤ v) by omega)] at hf
    split at hf <;> exact absurd (congrArg Prod.snd hf) (by simp)
  · obtain rfl : n = m := Option.some.inj (h.symm.trans hm)
    rw [happly, hv, hw]

/-! ## DIFF as an instruction -/

/-- The bits that are taken are those of the operands which have not been read yet. -/
theorem exec_diff_of_takeBits (hp : s.phase = .scan row bits) (ht : takeBits k s = (s1, .ok more)) (hb : bits ++ more = code ++ extra)
    (hd : s.scanDiff row.length (code ++ extra) = .found code extra) :
    exec (.diff code extra) s = .next (settle (applyDiff code extra s1)) := by
  have hlen : code.length + extra.length - bits.length = k := by
    have hcount := congrArg List.length hb
    simp only [List.length_append, takeBits_length ht] at hcount
    omega
  have hnext : isNextDiff s row.length bits code extra = true := by
    rw [isNextDiff, hd, ← hb]
    simp
  have hbody : diffBody k code extra s = applyDiff code extra s1 := by simp only [diffBody, ht]
  rw [exec, execDiff]
  simp only [hp, hnext, if_true, hlen, hbody]

theorem exec_diff_faults {f : Raised} (hp : s.phase = .scan row bits) (ht : takeBits k s = (s1, .ok more)) (hb : bits ++ more = code ++ extra)
    (hd : s.scanDiff row.length (code ++ extra) = .found code extra) (hf : applyDiff code extra s1 = (s1, some f)) :
    ElementFaults (exec (.diff code extra) s) f.cause.code.toNat f.info s1 := by
  have hp1 : s1.phase = .scan row bits := by
    rw [OnlyCursorMoves.of_takeBits ht]
    exact hp
  exact elementFaults_of_raise_scan f s1 hp1 (by rw [exec_diff_of_takeBits hp ht hb hd, hf, settle_some])

/-- Settles O39: the decoder has taken just the bits that tell the fault, and executing them raises it. -/
theorem diffFaults : Obligations.DiffFaults := by
  intro s row bits code extra k s1 more hp ht hb moved
  have hmoved : s1 = moved := OnlyCursorMoves.of_takeBits ht
  have hp1 : s1.phase = .scan row bits := by rw [hmoved]; exact hp
  have htable : s1.table (s1.diffChannel row.length) = s.table (s.diffChannel row.length) := by rw [hmoved]; rfl
  have hdepth : s1.ljBits = s.ljBits := by rw [hmoved]
  have hpred : predictor s1 row = predictor s row := by rw [hmoved]; rfl
  rw [← hmoved]
  refine ⟨fun hlen hextra hnone => ?_, fun n hl => ⟨fun hn hextra => ?_, fun hn he v hv hr => ?_⟩⟩
  · subst hextra
    have hlookup := hnone 16 (by omega) (le_refl 16)
    rw [List.take_of_length_le (le_of_eq hlen), ← htable] at hlookup
    refine exec_diff_faults hp ht hb ?_ (applyDiff_no_leaf hp1 hlookup)
    rw [List.append_nil]
    exact scanDiff_of_no_leaf hlen hnone
  · subst hextra
    obtain ⟨-, -, hlookup, -⟩ := id hl
    rw [← htable] at hlookup
    refine exec_diff_faults hp ht hb ?_ (applyDiff_above_depth hp1 hlookup (hdepth ▸ hn))
    rw [List.append_nil]
    exact scanDiff_of_leafAt_above hl hn
  · obtain ⟨-, -, hlookup, -⟩ := id hl
    rw [← htable] at hlookup
    exact exec_diff_faults hp ht hb (scanDiff_of_leafAt hl hn he)
      (applyDiff_out_of_range hp1 hlookup (hdepth ▸ hn) (hpred ▸ hv) (hdepth ▸ hr))

/-! ## The end of a row -/

theorem finishRow_sampleIn (samples : List Sample) (s : State) (b : Bank) (a : Nat) :
    (finishRow samples s).sampleIn b a = (rowWritten samples s).sampleIn b a := by
  cases b <;> rfl

theorem finishRow_activeBank (samples : List Sample) (s : State) : (finishRow samples s).activeBank = s.activeBank :=
  State.rewriteBank_activeBank s _ _ _ _

/-- A sample of the mosaic row after LJROW has written it (40_ljpeg R123). -/
theorem rowWritten_sampleIn_row (samples : List Sample) (s : State) {j : Nat} (hj : j < s.width.toNat) (c : Lane) :
    (rowWritten samples s).sampleIn s.activeBank (s.pixAddr s.ljRow.toNat j c) =
      if c = s.fc s.ljRow.toNat j then rowSample samples j else 0 := by
  have hc := c.isLt
  have haddr : s.pixAddr s.ljRow.toNat j c - 4 * (s.ljRow.toNat * s.width.toNat) = 4 * j + c.val := by
    unfold State.pixAddr
    omega
  rw [rowWritten, State.sampleIn_rewriteBank, if_pos ⟨rfl, by unfold State.pixAddr; omega, by unfold State.pixAddr; omega⟩, haddr,
    show (4 * j + c.val) / 4 = j by omega, show (4 * j + c.val) % 4 = c.val by omega, laneOf_val, Option.getD_some]
  simp only [eq_comm]

theorem rowWritten_sampleIn_beyond (samples : List Sample) (s : State) {b : Bank} {a : Nat}
    (h : b ≠ s.activeBank ∨ a < s.pixAddr s.ljRow.toNat 0 0 ∨ s.pixAddr s.ljRow.toNat s.width.toNat 0 ≤ a) :
    (rowWritten samples s).sampleIn b a = s.sampleIn b a := by
  rw [rowWritten, State.sampleIn_rewriteBank, if_neg]
  rintro ⟨hb, hlow, hhigh⟩
  simp only [State.pixAddr, Fin.val_zero, Nat.add_zero] at h
  obtain h | h | h := h
  · exact h hb
  · omega
  · omega

/-- What the end of a row has done is what 40_ljpeg R123 and R124 say. -/
theorem rowWritten_finishRow (samples : List Sample) (s : State) : RowWritten s samples.reverse (finishRow samples s) := by
  refine ⟨fun j hj c => ?_, fun a ha => ?_, fun a => ?_, rfl, finishRow_ljReady samples s⟩
  · rw [State.sample, finishRow_activeBank, finishRow_sampleIn, rowWritten_sampleIn_row samples s hj, rowSample]
  · rw [State.sample, finishRow_activeBank, finishRow_sampleIn, rowWritten_sampleIn_beyond samples s (.inr ha), State.sample]
  · rw [finishRow_sampleIn, rowWritten_sampleIn_beyond samples s (.inl (Bank.other_ne _))]

/-- Nothing but the image, the row counter, STATUS and the place changes at the end of a row. -/
theorem finishRow_frame (samples : List Sample) (s : State) :
    finishRow samples s =
      { s with
        status := (finishRow samples s).status, phase := .idle, img0 := (finishRow samples s).img0, img1 := (finishRow samples s).img1
        ljRow := (finishRow samples s).ljRow } := by
  unfold finishRow State.rewriteBank
  cases s.activeBank <;> rfl

/-- A whole DIFF whose sum is in range gives a sample (40_ljpeg R118, R120). -/
theorem exec_diff_of_leafAt {v : Int} (hp : s.phase = .scan row bits) (ht : takeBits k s = (s1, .ok more)) (hb : bits ++ more = code ++ extra)
    (hl : leafAt (s.table (s.diffChannel row.length)) code n) (he : extra.length = n) (hn : n ≤ s.ljBits.toNat)
    (hv : v = predictor s row + diffValue n (bitsValue extra)) (h0 : 0 ≤ v) (h1 : v < 2 ^ s.ljBits.toNat) :
    exec (.diff code extra) s =
      .next (settle (if row.length + 1 = s.ljWide.toNat * s.ljClrs.toNat then
          finishRow (BitVec.ofInt 16 v :: row) (keepSample row (BitVec.ofInt 16 v) s1)
        else keepSample row (BitVec.ofInt 16 v) s1, none)) := by
  have hmove := OnlyCursorMoves.of_takeBits ht
  have hp1 : s1.phase = .scan row bits := by rw [hmove]; exact hp
  have htable : s1.table (s1.diffChannel row.length) = s.table (s.diffChannel row.length) := by rw [hmove]; rfl
  have hdepth : s1.ljBits = s.ljBits := by rw [hmove]
  have hpred : predictor s1 row = predictor s row := by rw [hmove]; rfl
  have hsize : s1.ljWide.toNat * s1.ljClrs.toNat = s.ljWide.toNat * s.ljClrs.toNat := by rw [hmove]
  obtain ⟨-, -, hlookup, -⟩ := id hl
  rw [← htable] at hlookup
  rw [exec_diff_of_takeBits hp ht hb (scanDiff_of_leafAt hl hn he),
    applyDiff_of_sample hp1 hlookup (hdepth ▸ hn) (hpred ▸ hv) h0 (hdepth ▸ h1), hsize]

/-- What the last sample of a row has done when LJROW completes (40_ljpeg R123, R124). -/
theorem rowWritten_complete (row : List Sample) (v : Sample) (s : State) :
    RowWritten s (row.reverse ++ [v]) (finishRow (v :: row) (keepSample row v s)).complete := by
  rw [← List.reverse_cons]
  obtain ⟨hwritten, hbeyond, hother, hcount, hready⟩ := rowWritten_finishRow (v :: row) (keepSample row v s)
  exact ⟨hwritten, hbeyond, hother, hcount, (State.complete_ljReady _).trans hready⟩

theorem finishRow_flags (samples : List Sample) (s : State) :
    (finishRow samples s).faulted = s.faulted ∧ (finishRow samples s).warned = s.warned := by
  have h := finishRow_beyondLj samples s
  simp only [State.beyondLj, State.exposureRegisters, State.reports, Prod.mk.injEq] at h
  obtain ⟨-, ⟨hwarned, -⟩, -, -, -, -, -, hfaulted, -⟩ := h
  exact ⟨hfaulted, hwarned⟩

/-- Settles O38: the sample is kept, and the last one of the row ends LJROW with the row written. -/
theorem diffReconstructsSample : Obligations.DiffReconstructsSample := by
  intro s row bits code extra n k s1 more hp ht hb hl he hn v hv h0 h1
  have hexec := exec_diff_of_leafAt hp ht hb hl he hn hv h0 h1
  obtain ⟨spos, sbit, rfl⟩ : ∃ spos sbit, s1 = { s with spos := spos, sbit := sbit } := ⟨_, _, OnlyCursorMoves.of_takeBits ht⟩
  refine ⟨fun hmore => ?_, fun hlast => ?_⟩
  · rw [hexec, if_neg hmore, settle_running Phase.noConfusion]
    rfl
  · rw [if_pos hlast, settle_idle rfl] at hexec
    obtain ⟨hfaulted, hwarned⟩ := finishRow_flags (BitVec.ofInt 16 v :: row)
      (keepSample row (BitVec.ofInt 16 v) { s with spos := spos, sbit := sbit })
    refine ⟨_, hexec, State.complete_busy _, State.complete_done _, (State.complete_faulted _).trans hfaulted,
      (State.complete_warned _).trans hwarned, rowWritten_complete row _ { s with spos := spos, sbit := sbit }, ?_⟩
    exact congrArg State.complete (finishRow_frame _ _)

end Sys2Proof.Machine
end

section
/-! PROOFS of the family 30_encoding, continued: STUFF as an instruction (30_encoding R94). Its eight ones are taken one by one, so what they do to the cursor is said
for any number of them (`advanceOnes`), and commutes with what they do to the row (notes/assumptions/8.md). -/

namespace Sys2Proof.Machine

variable {s : State} {row : List Sample} {bits code extra : List Bool} {k n : Nat}

/-! ## The cursor within the pair -/

/-- The cursor moved over ones of a stuffed FF. -/
def State.advanceOnes (s : State) : Nat → State
  | 0 => s
  | n + 1 => (s.advance true).advanceOnes n

theorem State.advanceOnes_add (s : State) (m n : Nat) : s.advanceOnes (m + n) = (s.advanceOnes m).advanceOnes n := by
  induction m generalizing s with
  | zero => rw [Nat.zero_add]; rfl
  | succ m ih => rw [Nat.add_right_comm]; exact ih (s.advance true)

theorem State.advanceOnes_one (s : State) : s.advanceOnes 1 = s.advance true := rfl

theorem onlyCursorMoves_advanceOnes (s : State) (n : Nat) : OnlyCursorMoves s (s.advanceOnes n) := by
  induction n generalizing s with
  | zero => exact onlyCursorMoves_refl s
  | succ n ih => exact (onlyCursorMoves_advance s true).trans (ih _)

theorem State.advanceOnes_atPlace (p : Phase) (s : State) (n : Nat) : (s.atPlace p).advanceOnes n = (s.advanceOnes n).atPlace p := by
  induction n generalizing s with
  | zero => rfl
  | succ n ih => rw [State.advanceOnes, State.atPlace_advance, ih]; rfl

theorem keepSample_advance (row : List Sample) (v : Sample) (s : State) :
    keepSample row v (s.advance true) = (keepSample row v s).advance true := by
  by_cases h : s.sbit.toNat < 7
  · have h' : (keepSample row v s).sbit.toNat < 7 := h
    rw [State.advance, if_pos h, State.advance, if_pos h']
    rfl
  · have h' : ¬(keepSample row v s).sbit.toNat < 7 := h
    rw [State.advance, if_neg h, State.advance, if_neg h']
    rfl

theorem keepSample_advanceOnes (row : List Sample) (v : Sample) (s : State) (n : Nat) :
    keepSample row v (s.advanceOnes n) = (keepSample row v s).advanceOnes n := by
  induction n generalizing s with
  | zero => rfl
  | succ n ih => rw [State.advanceOnes, State.advanceOnes, ih, keepSample_advance]

theorem State.advanceOnes_inside (h : s.sbit = 0) (hn : n ≤ 7) : s.advanceOnes n = { s with sbit := BitVec.ofNat 3 n } := by
  induction n with
  | zero => rw [State.advanceOnes, show BitVec.ofNat 3 0 = s.sbit from h.symm]
  | succ n ih =>
    have hinside : (BitVec.ofNat 3 n).toNat < 7 := by
      rw [BitVec.toNat_ofNat]
      omega
    rw [s.advanceOnes_add n 1, State.advanceOnes_one, ih (by omega), State.advance, if_pos hinside, BitVec.ofNat_add]
    rfl

/-- After its eight ones the cursor stands after the pair. -/
theorem State.advanceOnes_eight (h : s.sbit = 0) : s.advanceOnes 8 = { s with spos := s.spos + 2 } := by
  have hinside : ¬(BitVec.ofNat 3 7).toNat < 7 := by decide
  rw [s.advanceOnes_add 7 1, State.advanceOnes_one, State.advanceOnes_inside h (le_refl 7), State.advance, if_neg hinside, if_pos rfl, ← h]

/-! ## The ones of the pair -/

/-- Ones that complete no DIFF are kept. -/
theorem stuffLoop_keeps_ones (m n : Nat) (hp : s.phase = .scan row bits)
    (hm : ∀ j, j ≤ m → s.scanDiff row.length (bits ++ List.replicate j true) = .more) :
    stuffLoop (m + n) s = stuffLoop n ((s.advanceOnes m).atPlace (.scan row (bits ++ List.replicate m true))) := by
  induction m generalizing s bits with
  | zero =>
    rw [Nat.zero_add, List.replicate_zero, List.append_nil, ← hp]
    rfl
  | succ m ih =>
    have hmove := onlyCursorMoves_advance s true
    have hp1 : (s.advance true).phase = .scan row bits := by rw [State.advance_phase, hp]
    have hone : (s.advance true).scanDiff row.length (bits ++ [true]) = .more := by
      rw [scanDiff_onlyCursorMoves hmove]
      exact hm 1 (by omega)
    have hbits : ∀ j, bits ++ [true] ++ List.replicate j true = bits ++ List.replicate (j + 1) true := fun j => by
      rw [List.append_assoc]
      rfl
    rw [Nat.add_right_comm, stuffLoop_of_bit hp (acceptBit_of_more hp1 hone),
      ih (s := (s.advance true).atPlace _) (bits := bits ++ [true]) rfl (fun j hj => ?_), hbits, State.advanceOnes_atPlace]
    · rfl
    · rw [hbits]
      exact (scanDiff_onlyCursorMoves hmove row.length _).trans (hm (j + 1) (by omega))

/-- A bit that completes a DIFF, not the row's last, gives its sample. -/
theorem acceptBit_of_sample {b : Bool} {v : Int} (hp : s.phase = .scan row bits) (hb : bits ++ [b] = code ++ extra)
    (hl : leafAt (s.table (s.diffChannel row.length)) code n) (he : extra.length = n) (hn : n ≤ s.ljBits.toNat)
    (hv : v = predictor s row + diffValue n (bitsValue extra)) (h0 : 0 ≤ v) (h1 : v < 2 ^ s.ljBits.toNat)
    (hmore : row.length + 1 ≠ s.ljWide.toNat * s.ljClrs.toNat) :
    acceptBit b s = (keepSample row (BitVec.ofInt 16 v) s, none) := by
  obtain ⟨-, -, hlookup, -⟩ := id hl
  rw [acceptBit_of_found hp (hb ▸ scanDiff_of_leafAt hl hn he), applyDiff_of_sample hp hlookup hn hv h0 h1, if_neg hmore]

/-- The one that completes a DIFF executes it, and the rest begin the next. -/
theorem stuffLoop_of_diff {v : Int} (m : Nat) (hp : s.phase = .scan row bits) (hb : bits ++ List.replicate (k + 1) true = code ++ extra)
    (hl : leafAt (s.table (s.diffChannel row.length)) code n) (he : extra.length = n) (hn : n ≤ s.ljBits.toNat)
    (hv : v = predictor s row + diffValue n (bitsValue extra)) (h0 : 0 ≤ v) (h1 : v < 2 ^ s.ljBits.toNat)
    (hmore : row.length + 1 ≠ s.ljWide.toNat * s.ljClrs.toNat) :
    stuffLoop (k + (m + 1)) s = stuffLoop m ((keepSample row (BitVec.ofInt 16 v) s).advanceOnes (k + 1)) := by
  have hunfinished : ∀ j, j ≤ k → s.scanDiff row.length (bits ++ List.replicate j true) = .more := fun j hj => by
    refine scanDiff_of_proper_prefix (more := List.replicate (k + 1 - j) true) hl hn he ?_ (by simp; omega)
    rw [List.append_assoc, List.replicate_append_replicate, show j + (k + 1 - j) = k + 1 by omega, hb]
  have hlast : bits ++ List.replicate k true ++ [true] = code ++ extra := by
    rw [List.append_assoc, ← List.replicate_succ', hb]
  have hcursor : ((s.advanceOnes k).atPlace (.scan row (bits ++ List.replicate k true))).advance true =
      (s.advanceOnes (k + 1)).atPlace (.scan row (bits ++ List.replicate k true)) := by
    rw [State.atPlace_advance, ← State.advanceOnes_one, ← State.advanceOnes_add]
  obtain ⟨spos, sbit, hmoved⟩ : ∃ spos sbit, s.advanceOnes (k + 1) = { s with spos := spos, sbit := sbit } :=
    ⟨_, _, onlyCursorMoves_advanceOnes s (k + 1)⟩
  have haccept := acceptBit_of_sample (s := ({ s with spos := spos, sbit := sbit } : State).atPlace (.scan row (bits ++ List.replicate k true)))
    rfl hlast hl he hn hv h0 h1 hmore
  rw [← hmoved, ← hcursor] at haccept
  rw [stuffLoop_keeps_ones k (m + 1) hp hunfinished, stuffLoop_of_bit rfl haccept, hcursor, ← keepSample_advanceOnes]
  rfl

theorem exec_stuff (hp : s.phase = .scan row bits) (hm : s.stuffed = true) (hb : s.sbit = 0) :
    exec .stuff s = .next (settle (stuffLoop 8 s)) := by
  rw [exec, execStuff]
  simp only [hp]
  rw [if_pos ⟨hm, hb⟩]

/-- Settles O37: the ones are taken one by one, those before a DIFF's last bit are kept, and so are those after it. -/
theorem stuffDeliversOnes : Obligations.StuffDeliversOnes := by
  intro s row bits hp hm hb
  have hexec := exec_stuff hp hm hb
  refine ⟨fun hmore => ?_, fun k code extra n h1 h8 hbits hl he hn v hv h0 hr hmore hrest => ?_⟩
  · rw [hexec, stuffLoop_keeps_ones 8 0 hp hmore, State.advanceOnes_eight hb]
    exact congrArg _ (settle_running Phase.noConfusion)
  · obtain ⟨k, rfl⟩ : ∃ j, k = j + 1 := ⟨k - 1, by omega⟩
    obtain ⟨m, hcount⟩ : ∃ m, 8 = k + (m + 1) := ⟨7 - k, by omega⟩
    rw [show 8 - (k + 1) = m by omega] at hrest ⊢
    have hkept : stuffLoop 8 s = stuffLoop m ((keepSample row (BitVec.ofInt 16 v) s).advanceOnes (k + 1)) := by
      rw [hcount]
      exact stuffLoop_of_diff m hp hbits hl he hn hv h0 hr hmore
    have hmove := onlyCursorMoves_advanceOnes (keepSample row (BitVec.ofInt 16 v) s) (k + 1)
    have hplace : ((keepSample row (BitVec.ofInt 16 v) s).advanceOnes (k + 1)).phase = .scan (BitVec.ofInt 16 v :: row) [] := by
      rw [hmove]
      rfl
    rw [hexec, hkept, ← Nat.add_zero m, stuffLoop_keeps_ones m 0 hplace (fun j hj => (scanDiff_onlyCursorMoves hmove _ _).trans (hrest j hj)),
      ← State.advanceOnes_add, show k + 1 + m = 8 by omega, State.advanceOnes_eight (show (keepSample row _ s).sbit = 0 from hb)]
    exact congrArg _ (settle_running Phase.noConfusion)

end Sys2Proof.Machine
end

section
/-! PROOFS of the family 40_ljpeg: the checks that LJSTART and LJROW begin with (40_ljpeg R113, R118; 60_exceptions R207). -/

namespace Sys2Proof.Machine

variable {s : State} {w : BitVec 8} {i : Instr}

/-! ## The checks of the LJ commands -/

/-- A command of the LJ unit whose body raises a fault before it writes anything ends in that fault. -/
theorem ljCommand_faults {f : Raised} (hw : (w, i) ∈ commandWords) (hi : i = .ljstart ∨ i = .ljrow) (ha : s.accepting)
    (hb : commandBody i (s.begin w) = (s.begin w, some f)) : CommandFaults i w f.cause.code.toNat f.info s := by
  have hinit : i ≠ .init := by rintro rfl; simp at hi
  exact commandFaults_of_check ha (exec_command hw hinit s) hb

theorem streamFault_of_long (h : s.params.strCap < s.streamLen.toNat) : streamFault s = some ⟨.eResource, s.streamLen.toNat⟩ :=
  if_pos h

/-- The two LJ commands raise the fault of the stream's length third (40_ljpeg R112, R118). -/
theorem commandBody_streamFault {f : Raised} (hi : i = .ljstart ∨ i = .ljrow) (h1 : imageRegsFault s = none) (h2 : cfaFault s = none)
    (hf : streamFault s = some f) (hr : i = .ljrow → s.ljReady = true) : commandBody i s = (s, some f) := by
  obtain rfl | rfl := hi
  · simp [commandBody, ljstartBody, startFault, h1, h2, hf]
  · simp [commandBody, ljrowBody, rowFault, h1, h2, hf, hr rfl]

theorem ljrowBody_not_ready (h : s.ljReady = false) : ljrowBody s = (s, some ⟨.eSeq, s.ljRow.toNat⟩) := by
  simp [ljrowBody, rowFault, h]

/-- LJROW raises the fault of the frame last (40_ljpeg R118). -/
theorem ljrowBody_frameFault {f : Raised} (hr : s.ljReady = true) (h1 : imageRegsFault s = none) (h2 : cfaFault s = none)
    (h3 : streamFault s = none) (hf : frameFault s = some f) : ljrowBody s = (s, some f) := by
  simp [ljrowBody, rowFault, hr, h1, h2, h3, hf]

/-- Settles O18: each check is reached when those before it pass, and its fault is the command's. -/
theorem ljCommandChecks : Obligations.LjCommandChecks := by
  have hword : ((0x02 : BitVec 8), Instr.ljrow) ∈ commandWords := by decide
  refine ⟨fun s ha hr => ?_, fun s w i hw hi ha hr himg hcfa hlong => ?_, fun s ha hr himg hcfa hst hframe => ?_⟩
  · have hnot : (s.begin 0x02).ljReady = false := (State.begin_ljReady s 0x02).trans hr
    exact ljCommand_faults hword (.inr rfl) ha (ljrowBody_not_ready hnot)
  · have hready : i = .ljrow → (s.begin w).ljReady = true := fun h => (State.begin_ljReady s w).trans (hr h)
    have h1 : imageRegsFault (s.begin w) = none := (imageRegsFault_eq_none_iff _).2 himg
    have h2 : cfaFault (s.begin w) = none := (cfaFault_eq_none_iff _).2 hcfa
    exact ljCommand_faults hw hi ha (commandBody_streamFault hi h1 h2 (streamFault_of_long hlong) hready)
  · have hready : (s.begin 0x02).ljReady = true := (State.begin_ljReady s 0x02).trans hr
    have h1 : imageRegsFault (s.begin 0x02) = none := (imageRegsFault_eq_none_iff _).2 himg
    have h2 : cfaFault (s.begin 0x02) = none := (cfaFault_eq_none_iff _).2 hcfa
    have h3 : streamFault (s.begin 0x02) = none := (streamFault_eq_none_iff _).2 hst
    exact ljCommand_faults hword (.inr rfl) ha (ljrowBody_frameFault hready h1 h2 h3 (frameFault_of_not_frameMatches hframe))

end Sys2Proof.Machine
end

section
/-! PROOFS of the family 40_ljpeg, continued: a faulted LJROW (40_ljpeg R123, R125). The row is written after its last DIFF, and no fault comes after that. -/

namespace Sys2Proof.Machine

variable {s t u : State}

/-! ## A faulted LJROW -/

/-- `t` is `s` but for what DIFFs before the end of a row write: the cursor, VPRED and the place. -/
def OnlyScanMoves (s t : State) : Prop := t = { s with spos := t.spos, sbit := t.sbit, vpred := t.vpred, phase := t.phase }

theorem onlyScanMoves_refl (s : State) : OnlyScanMoves s s := rfl

theorem OnlyScanMoves.trans (h : OnlyScanMoves s t) (k : OnlyScanMoves t u) : OnlyScanMoves s u := by
  unfold OnlyScanMoves at *
  rw [h] at k
  exact k

theorem OnlyCursorMoves.onlyScanMoves (h : OnlyCursorMoves s t) : OnlyScanMoves s t := by
  rw [h]
  rfl

theorem onlyScanMoves_atPlace (p : Phase) (s : State) : OnlyScanMoves s (s.atPlace p) := rfl

theorem onlyScanMoves_keepSample (row : List Sample) (v : Sample) (s : State) : OnlyScanMoves s (keepSample row v s) := rfl

/-- A DIFF that does not end its row writes no sample to the image. -/
theorem applyDiff_onlyScanMoves {row : List Sample} {bits code extra : List Bool} {o : Option Raised} (hp : s.phase = .scan row bits)
    (h : applyDiff code extra s = (t, o)) : t.phase = .idle ∧ o = none ∨ OnlyScanMoves s t := by
  obtain ⟨f, hc⟩ | ⟨n, v, -, -, -, -, -, hc⟩ := applyDiff_cases code extra hp <;> rw [hc] at h
  · cases h
    exact .inr (onlyScanMoves_refl s)
  · split at h <;> cases h
    · exact .inl ⟨rfl, rfl⟩
    · exact .inr (onlyScanMoves_keepSample row _ s)

/-- The row is written only when its last DIFF has been decoded, after which no fault is left to raise (40_ljpeg R123, R125). -/
theorem rowLoop_fault_onlyScanMoves {n : Nat} {f : Raised} (h : rowLoop n s = (t, some f)) : OnlyScanMoves s t := by
  induction n generalizing s with
  | zero => cases h
  | succ n ih =>
    unfold rowLoop at h
    split at h
    · rename_i row bits hp
      have hmove := readDiff_onlyCursorMoves row.length diffFuel bits s
      split at h <;> rename_i hread <;> rw [hread] at hmove
      · cases h
        exact hmove.onlyScanMoves
      · rename_i s1 code extra
        have hp1 : s1.phase = .scan row bits := (congrArg State.phase hmove).trans hp
        split at h <;> rename_i happly
        · cases h
          obtain ⟨-, hnone⟩ | hscan := applyDiff_onlyScanMoves hp1 happly
          · cases hnone
          · exact hmove.onlyScanMoves.trans hscan
        · obtain ⟨hidle, -⟩ | hscan := applyDiff_onlyScanMoves hp1 happly
          · rw [rowLoop_idle hidle] at h
            cases h
          · exact hmove.onlyScanMoves.trans (hscan.trans (ih h))
    · cases h

theorem ljrowBody_fault_onlyScanMoves {f : Raised} (h : ljrowBody s = (t, some f)) : OnlyScanMoves s t := by
  unfold ljrowBody at h
  split at h
  · cases h
    exact onlyScanMoves_refl s
  · exact (onlyScanMoves_atPlace (.scan [] []) s).trans (rowLoop_fault_onlyScanMoves h)

theorem flags_of_beyondLj (h : t.beyondLj = s.beyondLj) : t.done = s.done ∧ t.faulted = s.faulted ∧ t.warned = s.warned := by
  simp only [State.beyondLj, State.exposureRegisters, State.reports, Prod.mk.injEq] at h
  obtain ⟨-, ⟨hwarned, -⟩, -, -, -, -, hdone, hfaulted, -⟩ := h
  exact ⟨hdone, hfaulted, hwarned⟩

/-- A body of the LJ unit keeps FAULT, so an accepted command ends with FAULT = 1 only by the fault that its body raised. -/
theorem ljCommand_fault_raised {body : Body} {w : BitVec 8} (ha : s.accepting) (hb : (body (s.begin w)).1.beyondLj = (s.begin w).beyondLj)
    (hf : (command w body s).faulted = true) : ∃ u f, body (s.begin w) = (u, some f) ∧ command w body s = raise f u := by
  have hclear : (body (s.begin w)).1.faulted = false := by
    obtain ⟨-, hfaulted, -⟩ := flags_of_beyondLj hb
    exact hfaulted.trans ((State.begin_faulted s w).trans ha.2)
  rw [command_of_accepting w body ha] at hf ⊢
  obtain ⟨f, hr, hs⟩ | ⟨-, -, hs⟩ | ⟨-, -, hs⟩ := settle_cases (body (s.begin w))
  · exact ⟨_, f, by rw [← hr], hs⟩
  · rw [hs, State.complete_faulted, hclear] at hf
    cases hf
  · rw [hs, hclear] at hf
    cases hf

theorem ljrowBody_beyondLj (s : State) : (ljrowBody s).1.beyondLj = s.beyondLj := (keptByLj_beyondLj s).ljrowBody rfl

/-- Settles O25: the fault was raised before the row was written, and taking it writes only STATUS and ERR_*. -/
theorem ljrowFaultLeavesImage : Obligations.LjrowFaultLeavesImage := by
  intro s t ha he hf
  obtain rfl : command 0x02 ljrowBody s = t := Host.Outcome.next.inj he
  obtain ⟨u, f, hbody, hraise⟩ := ljCommand_fault_raised ha (ljrowBody_beyondLj _) hf
  have hmoves := ljrowBody_fault_onlyScanMoves hbody
  have hdone : u.done = false := by
    rw [hmoves]
    exact State.begin_done s 0x02
  have hwarned : u.warned = s.warned := by
    rw [hmoves]
    exact State.begin_warned s 0x02
  rw [hraise]
  refine ⟨?_, raise_busy u f, (raise_done u f).trans hdone, raise_ljReady u f, (raise_warned u f).trans hwarned⟩
  rw [hmoves]
  rfl

end Sys2Proof.Machine
end

section
/-! PROOFS of the family 40_ljpeg, continued: the bit reader over whole bytes (40_ljpeg R116). A data byte is one or two bytes of the stream; its bits are taken from
wherever in it the cursor stands. -/

namespace Sys2Proof.Machine

variable {s s1 s2 : State}

/-! ## Runs of bits -/

/-- Taking bits and then more bits is taking them together. -/
theorem takeBits_add {m n : Nat} {first rest : List Bool} (h1 : takeBits m s = (s1, .ok first)) (h2 : takeBits n s1 = (s2, .ok rest)) :
    takeBits (m + n) s = (s2, .ok (first ++ rest)) := by
  induction m generalizing s first with
  | zero =>
    cases h1
    rw [Nat.zero_add]
    exact h2
  | succ m ih =>
    cases hb : nextBit s with
    | error f =>
      simp only [takeBits, hb] at h1
      cases h1
    | ok r =>
      obtain ⟨b, t⟩ := r
      simp only [takeBits, hb] at h1
      split at h1 <;> rename_i hr <;> cases h1
      rw [Nat.add_right_comm]
      exact takeBits_of_bit hb (ih hr)

/-! ## The bytes of a stream -/

/-- A byte that the stream holds stands below STREAM_LEN (20_memory R60). -/
theorem State.holdsAt_end_le {a : Nat} {l : List Byte} (h : s.holdsAt a l) (hl : l ≠ []) : a + l.length ≤ s.streamLen.toNat := by
  have hpos : 0 < l.length := List.length_pos_iff.2 hl
  have hlast := h (l.length - 1) _ (List.getElem?_eq_getElem (by omega))
  rw [State.streamByte_eq_some_iff] at hlast
  omega

/-- A data byte as it stands in the stream: an FF of stuffed data with the 00 after it (30_encoding R94). -/
def codedByte (stuffed : Bool) (b : Byte) : List Byte := if stuffed && b == 0xFF then [b, 0x00] else [b]

theorem codedByte_ne_nil (stuffed : Bool) (b : Byte) : codedByte stuffed b ≠ [] := by
  unfold codedByte
  split <;> simp

theorem length_codedByte (stuffed : Bool) (b : Byte) : (codedByte stuffed b).length = if stuffed && b == 0xFF then 2 else 1 := by
  unfold codedByte
  split <;> rfl

theorem flatMap_codedByte (stuffed : Bool) (data : List Byte) :
    data.flatMap (codedByte stuffed) = if stuffed then stuffBytes data else data := by
  cases stuffed with
  | true =>
    have hcoded : codedByte true = fun b => if b = 0xFF then [b, 0x00] else [b] := by
      funext b
      simp [codedByte]
    rw [hcoded]
    rfl
  | false => exact List.flatMap_singleton' data

/-- At a data byte the bit at the cursor can be taken: in stuffed data the 00 that has to follow an FF is there. -/
theorem nextBit_of_codedByte {b : Byte} (h : s.holdsAt s.spos.toNat (codedByte s.stuffed b)) :
    nextBit s = .ok (b.getLsbD (7 - s.sbit.toNat), s.advance (s.stuffed && b == 0xFF)) := by
  unfold codedByte at h
  unfold nextBit
  split at h <;> rename_i hpair <;> rw [State.holdsAt_cons] at h <;> obtain ⟨hbyte, hrest⟩ := h <;> simp only [hbyte, hpair]
  · obtain ⟨hfollow, -⟩ := (State.holdsAt_cons ..).1 hrest
    simp only [hfollow]
    split <;> rfl
  · rfl

/-- What is left of a data byte is taken most significant bit first, and the cursor passes the 00 of a stuffed FF (40_ljpeg R116). -/
theorem takeBits_of_codedByte {b : Byte} {n : Nat} (h : s.holdsAt s.spos.toNat (codedByte s.stuffed b)) (hn : s.sbit.toNat + n = 7) :
    takeBits (n + 1) s =
      (s.setCursor ⟨s.spos + BitVec.ofNat 32 (codedByte s.stuffed b).length, 0⟩,
        .ok ((List.range (n + 1)).map (fun k => b.getLsbD (n - k)))) := by
  induction n generalizing s with
  | zero =>
    have hadv : s.advance (s.stuffed && b == 0xFF) =
        s.setCursor ⟨s.spos + BitVec.ofNat 32 (codedByte s.stuffed b).length, 0⟩ := by
      rw [State.advance, if_neg (by omega), length_codedByte]
      split <;> rfl
    have hbit := nextBit_of_codedByte h
    rw [show 7 - s.sbit.toNat = 0 by omega] at hbit
    rw [← hadv]
    exact takeBits_of_bit (n := 0) hbit rfl
  | succ n ih =>
    have hadv : s.advance (s.stuffed && b == 0xFF) = { s with sbit := s.sbit + 1 } := by
      rw [State.advance, if_pos (by omega)]
    have hsbit : (s.sbit + 1).toNat = s.sbit.toNat + 1 := by
      rw [BitVec.toNat_add]
      exact Nat.mod_eq_of_lt (by simp; omega)
    have hbit := nextBit_of_codedByte h
    rw [hadv, show 7 - s.sbit.toNat = n + 1 by omega] at hbit
    have hrest := ih (s := { s with sbit := s.sbit + 1 }) h (by show (s.sbit + 1).toNat + n = 7; omega)
    rw [takeBits_of_bit hbit hrest, List.range_succ_eq_map (n := n + 1), List.map_cons, List.map_map]
    simp only [Function.comp_def, Nat.succ_eq_add_one, Nat.add_sub_add_right, Nat.sub_zero]
    rfl

/-- The bytes of the data one after the other (20_memory R62). -/
theorem takeBits_of_codedBytes {data : List Byte} (hb : s.sbit = 0) (h : s.holdsAt s.spos.toNat (data.flatMap (codedByte s.stuffed))) :
    takeBits (8 * data.length) s =
      ({ s with spos := BitVec.ofNat 32 (s.spos.toNat + (data.flatMap (codedByte s.stuffed)).length) }, .ok (bitsOfBytes data)) := by
  induction data generalizing s with
  | nil => simp [takeBits, bitsOfBytes]
  | cons b data ih =>
    rw [List.flatMap_cons, State.holdsAt_append] at h
    obtain ⟨hbyte, hdata⟩ := h
    have hend := State.holdsAt_end_le hbyte (codedByte_ne_nil _ _)
    have hspos : (s.spos + BitVec.ofNat 32 (codedByte s.stuffed b).length).toNat = s.spos.toNat + (codedByte s.stuffed b).length := by
      have hlen : (codedByte s.stuffed b).length ≤ 2 := by
        rw [length_codedByte]
        split <;> omega
      by_cases hfits : s.spos.toNat + (codedByte s.stuffed b).length < 2 ^ 32
      · rw [BitVec.toNat_add, BitVec.toNat_ofNat, Nat.mod_eq_of_lt (by omega : (codedByte s.stuffed b).length < 2 ^ 32), Nat.mod_eq_of_lt hfits]
      · exact absurd (lt_of_le_of_lt hend s.streamLen.isLt) hfits
    have hfirst := takeBits_of_codedByte (n := 7) hbyte (by rw [hb]; rfl)
    have hrest := ih (s := s.setCursor ⟨s.spos + BitVec.ofNat 32 (codedByte s.stuffed b).length, 0⟩) rfl
      (by rw [State.setCursor_spos, hspos]; exact hdata)
    rw [List.length_cons, Nat.mul_succ, Nat.add_comm, takeBits_add hfirst hrest, List.flatMap_cons, List.length_append, ← Nat.add_assoc,
      State.setCursor_spos, hspos, ← hb]
    rfl

/-- Settles O27: each data byte gives its eight bits and moves the cursor to the next one. -/
theorem bitReaderDeliversBytes : Obligations.BitReaderDeliversBytes := by
  intro s data hb h
  rw [← flatMap_codedByte] at h ⊢
  exact takeBits_of_codedBytes hb h

end Sys2Proof.Machine
end

section
/-! PROOFS of the family 40_ljpeg, continued: the numbers of a coded difference (40_ljpeg R126). The bit length and the raw value of a difference are what
30_encoding R96 turns back into it. -/

namespace Sys2Proof.Machine

/-! ## Bits of a number -/

theorem length_bitsOf (n v : Nat) : (bitsOf n v).length = n := by
  simp [bitsOf]

theorem bitsOf_succ (n v : Nat) : bitsOf (n + 1) v = v.testBit n :: bitsOf n v := by
  unfold bitsOf
  rw [List.range_succ_eq_map, List.map_cons, List.map_map]
  simp only [Function.comp_def, Nat.succ_eq_add_one, Nat.add_sub_cancel, Nat.sub_zero, Nat.sub_add_eq, Nat.sub_right_comm]

/-- Bits that follow a number double it once each. -/
theorem foldl_bitsOf (n v a : Nat) : (bitsOf n v).foldl (fun w b => 2 * w + b.toNat) a = a * 2 ^ n + v % 2 ^ n := by
  induction n generalizing a with
  | zero => simp [bitsOf, Nat.mod_one]
  | succ n ih =>
    rw [bitsOf_succ, List.foldl_cons, ih, Nat.toNat_testBit, Nat.mod_pow_succ, pow_succ]
    ring

theorem bitsValue_bitsOf {n v : Nat} (h : v < 2 ^ n) : bitsValue (bitsOf n v) = v := by
  rw [bitsValue, foldl_bitsOf, Nat.zero_mul, Nat.zero_add, Nat.mod_eq_of_lt h]

/-! ## The difference back from its bits -/

theorem bitLength_zero : bitLength 0 = 0 := rfl

/-- A difference that is not 0 lies between the powers of two of its bit length (40_ljpeg R126). -/
theorem bitLength_spec {d : Int} (hd : d ≠ 0) : ∃ m, bitLength d = m + 1 ∧ 2 ^ m ≤ d.natAbs ∧ d.natAbs < 2 ^ (m + 1) :=
  ⟨Nat.log2 d.natAbs, if_neg hd, Nat.log2_self_le (Int.natAbs_ne_zero.2 hd), Nat.lt_log2_self⟩

/-- A difference of two numbers of a depth has a bit length of at most the depth. -/
theorem bitLength_le {d : Int} {depth : Nat} (h : d.natAbs < 2 ^ depth) : bitLength d ≤ depth := by
  by_cases hd : d = 0
  · rw [hd, bitLength_zero]
    exact Nat.zero_le depth
  · obtain ⟨m, hm, hlow, -⟩ := bitLength_spec hd
    rw [hm]
    exact (Nat.pow_lt_pow_iff_right (by decide)).1 (lt_of_le_of_lt hlow h)

/-- The raw value of a positive difference is the difference, in the upper half of its bit length; that of a negative one is in the lower half. -/
theorem rawOf_cases {d : Int} {m : Nat} (hm : bitLength d = m + 1) (hlow : 2 ^ m ≤ d.natAbs) (hhigh : d.natAbs < 2 ^ (m + 1)) :
    ((rawOf d : Int) = d ∧ 2 ^ m ≤ rawOf d ∧ rawOf d < 2 ^ (m + 1)) ∨ ((rawOf d : Int) = d + (2 ^ (m + 1) - 1) ∧ rawOf d < 2 ^ m) := by
  have hlow' : (2 : Int) ^ m ≤ d.natAbs := by exact_mod_cast hlow
  have hhigh' : (d.natAbs : Int) < 2 ^ (m + 1) := by exact_mod_cast hhigh
  have hdouble : (2 : Int) ^ (m + 1) = 2 ^ m + 2 ^ m := by ring
  by_cases hpos : 0 < d
  · have hraw : rawOf d = d.natAbs := by
      rw [rawOf, if_pos hpos]
      omega
    exact .inl ⟨by omega, by omega, by omega⟩
  · have hraw : (rawOf d : Int) = d + (2 ^ (m + 1) - 1) := by
      rw [rawOf, if_neg hpos, hm]
      omega
    have hlt : (rawOf d : Int) < 2 ^ m := by omega
    exact .inr ⟨hraw, by exact_mod_cast hlt⟩

theorem rawOf_lt (d : Int) : rawOf d < 2 ^ bitLength d := by
  by_cases hd : d = 0
  · subst hd
    decide
  · obtain ⟨m, hm, hlow, hhigh⟩ := bitLength_spec hd
    rw [hm, pow_succ]
    obtain ⟨-, -, h⟩ | ⟨-, h⟩ := rawOf_cases hm hlow hhigh <;> omega

/-- The bits of a difference give it back (30_encoding R96, 40_ljpeg R126). -/
theorem diffValue_of_difference (d : Int) : diffValue (bitLength d) (bitsValue (bitsOf (bitLength d) (rawOf d))) = d := by
  rw [bitsValue_bitsOf (rawOf_lt d)]
  by_cases hd : d = 0
  · subst hd
    rfl
  · obtain ⟨m, hm, hlow, hhigh⟩ := bitLength_spec hd
    rw [hm]
    obtain ⟨hraw, hle, hlt⟩ | ⟨hraw, hlt⟩ := rawOf_cases hm hlow hhigh
    · rw [diffValue_upper hlt hle, hraw]
    · rw [diffValue_lower hlt, hraw]
      omega

end Sys2Proof.Machine
end

section
/-! PROOFS of the family 40_ljpeg, continued: LJROW on the coded differences of a row (40_ljpeg R118 to R126). The state between two DIFFs is written down once
(`midRow`): it follows from the samples decoded so far and from where the bit reader stands. -/

namespace Sys2Proof

theorem Quad.get_ofFn {α : Type} (f : Lane → α) (c : Lane) : (Quad.ofFn f).get c = f c := by
  fin_cases c <;> rfl

theorem Quad.ofFn_get {α : Type} (q : Quad α) : Quad.ofFn q.get = q := rfl

theorem Quad.set_ofFn {α : Type} (f : Lane → α) (k : Lane) (v : α) :
    (Quad.ofFn f).set k v = Quad.ofFn (fun c => if c = k then v else f c) := by
  fin_cases k <;> rfl

end Sys2Proof

namespace Sys2Proof.Machine

variable {s s1 r r1 t : State} {samples : List Sample} {codes : Nat → Nat → List Bool} {j k m n : Nat}

/-! ## Splitting a run of bits -/

/-- The first of a run of bits, and then the rest. -/
theorem takeBits_append {first rest : List Bool} (h : takeBits (first.length + n) s = (t, .ok (first ++ rest))) :
    ∃ u, takeBits first.length s = (u, .ok first) ∧ takeBits n u = (t, .ok rest) := by
  induction first generalizing s with
  | nil =>
    rw [List.length_nil, Nat.zero_add] at h
    exact ⟨s, rfl, h⟩
  | cons b first ih =>
    rw [List.length_cons, Nat.add_right_comm] at h
    cases hb : nextBit s with
    | error f =>
      simp only [takeBits, hb] at h
      cases h
    | ok p =>
      obtain ⟨c, u⟩ := p
      simp only [takeBits, hb] at h
      split at h <;> rename_i hr <;> cases h
      obtain ⟨v, hfirst, hrest⟩ := ih hr
      exact ⟨v, takeBits_of_bit hb hfirst, hrest⟩

/-- The same bits are taken from the same stream, and the cursor moves to the same place. -/
theorem takeBits_ok_of_sameStream {bits : List Bool} (hs : SameStream s t) (h : takeBits n s = (s1, .ok bits)) :
    takeBits n t = (t.setCursor ⟨s1.spos, s1.sbit⟩, .ok bits) := by
  obtain ⟨hbits, hstream⟩ := takeBits_sameStream n hs
  have hmove := takeBits_onlyCursorMoves n t
  rw [h] at hbits hstream
  obtain ⟨-, -, -, -, hspos, hsbit⟩ := hstream
  refine Prod.ext ?_ hbits.symm
  rw [hmove, ← hspos, ← hsbit]
  rfl

/-! ## Between two DIFFs of a row -/

/-- VPRED when the first `j` of these samples of a row have been decoded: those of column 0 among them (40_ljpeg R122). -/
def State.vpredUpTo (s : State) (samples : List Sample) (j : Nat) : Quad (BitVec 16) :=
  Quad.ofFn (fun c => if c.val < s.ljClrs.toNat ∧ c.val < j then samples.getD c.val 0 else s.vpred.get c)

/-- The state `r` of the bit reader inside LJROW, the first `j` of these samples decoded. -/
def State.midRow (r : State) (samples : List Sample) (j : Nat) : State :=
  { r with vpred := r.vpredUpTo samples j, phase := .scan (samples.take j).reverse [] }

theorem State.midRow_ljClrs (r : State) (samples : List Sample) (j : Nat) : (r.midRow samples j).ljClrs = r.ljClrs := rfl

theorem State.midRow_vpred (r : State) (samples : List Sample) (j : Nat) : (r.midRow samples j).vpred = r.vpredUpTo samples j := rfl

theorem length_take_reverse (hj : j ≤ samples.length) : (samples.take j).reverse.length = j := by
  rw [List.length_reverse, List.length_take, Nat.min_eq_left hj]

theorem State.vpredUpTo_zero (s : State) (samples : List Sample) : s.vpredUpTo samples 0 = s.vpred := by
  simp only [State.vpredUpTo, Nat.not_lt_zero, and_false, if_false]
  exact Quad.ofFn_get s.vpred

/-- Once all of column 0 has been decoded VPRED holds it. -/
theorem State.vpredUpTo_of_le (h : s.ljClrs.toNat ≤ j) :
    s.vpredUpTo samples j = Quad.ofFn (fun c => if c.val < s.ljClrs.toNat then samples.getD c.val 0 else s.vpred.get c) := by
  have hboth : ∀ c : Lane, (c.val < s.ljClrs.toNat ∧ c.val < j) = (c.val < s.ljClrs.toNat) := fun c =>
    propext ⟨And.left, fun hc => ⟨hc, by omega⟩⟩
  simp only [State.vpredUpTo, hboth]

theorem State.midRow_zero (r : State) (samples : List Sample) : r.midRow samples 0 = r.atPlace (.scan [] []) := by
  rw [State.midRow, State.vpredUpTo_zero]
  rfl

theorem laneOf_eq_iff {c : Lane} (hj : j < 4) : c = laneOf j ↔ c.val = j := by
  rw [Fin.ext_iff, show (laneOf j).val = j from Nat.mod_eq_of_lt hj]

/-- A sample of column 0 is kept as the next VPRED (40_ljpeg R122). -/
theorem vpredAfter_midRow (hc : r.ljClrs.toNat ≤ 4) {row : List Sample} (hrow : row.length = j) :
    (r.midRow samples j).vpredAfter row (samples.getD j 0) = r.vpredUpTo samples (j + 1) := by
  subst hrow
  rw [State.vpredAfter, State.midRow_ljClrs, State.midRow_vpred, State.vpredUpTo, State.vpredUpTo]
  split <;> rename_i hlt
  · rw [Quad.set_ofFn]
    congr 1
    funext c
    by_cases heq : c.val = row.length
    · rw [if_pos ((laneOf_eq_iff (by omega)).2 heq), if_pos (by omega), heq]
    · rw [if_neg (fun hc => heq ((laneOf_eq_iff (by omega)).1 hc))]
      exact if_congr (by omega) rfl rfl
  · congr 1
    funext c
    exact if_congr (by omega) rfl rfl

/-- The predictor that LJROW uses is the one of 40_ljpeg R121. -/
theorem predictor_midRow (h1 : 1 ≤ r.ljClrs.toNat) (h4 : r.ljClrs.toNat ≤ 4) (hj : j ≤ samples.length) :
    predictor (r.midRow samples j) (samples.take j).reverse = r.predictorOf samples j := by
  rw [predictor, State.predictorOf, length_take_reverse hj, State.midRow_ljClrs, State.midRow_vpred]
  split <;> rename_i hlt
  · have hchannel : (r.midRow samples j).diffChannel j = laneOf j := by
      rw [State.diffChannel, State.midRow_ljClrs, Nat.mod_eq_of_lt hlt]
    have hval : (laneOf j).val = j := Nat.mod_eq_of_lt (by omega)
    rw [hchannel, State.vpredUpTo, Quad.get_ofFn, if_neg (by omega)]
  · rw [List.getD_eq_getElem?_getD, List.getElem?_reverse (by rw [List.length_take]; omega), List.length_take, Nat.min_eq_left hj,
      List.getElem?_take_of_lt (by omega), List.getD_eq_getElem?_getD, show j - 1 - (r.ljClrs.toNat - 1) = j - r.ljClrs.toNat by omega]

theorem take_succ_reverse (hj : j < samples.length) : (samples.take (j + 1)).reverse = samples.getD j 0 :: (samples.take j).reverse := by
  rw [List.take_succ_eq_append_getElem hj, List.reverse_append, List.getD_eq_getElem _ _ hj]
  rfl

theorem keepSample_midRow (hc : r.ljClrs.toNat ≤ 4) (hj : j < samples.length) :
    keepSample (samples.take j).reverse (samples.getD j 0) (r.midRow samples j) = r.midRow samples (j + 1) := by
  rw [keepSample, vpredAfter_midRow hc (length_take_reverse hj.le), ← take_succ_reverse hj]
  rfl

/-! ## The coded row -/

/-- A row of samples that the tables can code: the hypotheses of O24 that concern the frame, the tables and the samples. -/
structure CodedRow (s : State) (samples : List Sample) (codes : Nat → Nat → List Bool) : Prop where
  frame : s.frameLegal
  predictors : s.predictorsLegal
  size : samples.length = s.rowSize
  range : ∀ v ∈ samples, v.toNat < 2 ^ s.ljBits.toNat
  leaves : ∀ j, j < samples.length →
    leafAt (s.table (s.diffChannel j)) (codes (j % s.ljClrs.toNat) (bitLength (s.differenceOf samples j))) (bitLength (s.differenceOf samples j))

theorem CodedRow.of_onlyCursorMoves (h : CodedRow r samples codes) (hm : OnlyCursorMoves r r1) : CodedRow r1 samples codes := by
  rw [hm]
  exact ⟨h.frame, h.predictors, h.size, h.range, h.leaves⟩

theorem CodedRow.sample_lt (h : CodedRow s samples codes) (j : Nat) : (samples.getD j 0).toNat < 2 ^ s.ljBits.toNat := by
  by_cases hj : j < samples.length
  · rw [List.getD_eq_getElem _ _ hj]
    exact h.range _ (List.getElem_mem hj)
  · rw [List.getD_eq_default _ _ (Nat.not_lt.1 hj)]
    exact Nat.two_pow_pos _

theorem CodedRow.predictor_lt (h : CodedRow s samples codes) (j : Nat) : s.predictorOf samples j < 2 ^ s.ljBits.toNat := by
  unfold State.predictorOf
  split
  · exact h.predictors _
  · exact h.sample_lt _

theorem CodedRow.bitLength_le_depth (h : CodedRow s samples codes) (j : Nat) : bitLength (s.differenceOf samples j) ≤ s.ljBits.toNat := by
  have hsample := h.sample_lt j
  have hpredictor := h.predictor_lt j
  refine bitLength_le ?_
  unfold State.differenceOf
  omega

/-- The code of sample `j`'s difference. -/
def State.codeOf (s : State) (codes : Nat → Nat → List Bool) (samples : List Sample) (j : Nat) : List Bool :=
  codes (j % s.ljClrs.toNat) (bitLength (s.differenceOf samples j))

/-- The extra bits of sample `j`'s difference. -/
def State.extraOf (s : State) (samples : List Sample) (j : Nat) : List Bool :=
  bitsOf (bitLength (s.differenceOf samples j)) (rawOf (s.differenceOf samples j))

/-- The bits of the samples from `j` on, `n` of them. -/
def State.bitsFrom (s : State) (codes : Nat → Nat → List Bool) (samples : List Sample) (j n : Nat) : List Bool :=
  (List.range' j n).flatMap (fun i => s.codeOf codes samples i ++ s.extraOf samples i)

theorem State.rowBits_eq (s : State) (codes : Nat → Nat → List Bool) (samples : List Sample) :
    s.rowBits codes samples = s.bitsFrom codes samples 0 samples.length := by
  rw [State.bitsFrom, ← List.range_eq_range']
  rfl

theorem State.bitsFrom_succ (s : State) (codes : Nat → Nat → List Bool) (samples : List Sample) (j n : Nat) :
    s.bitsFrom codes samples j (n + 1) = (s.codeOf codes samples j ++ s.extraOf samples j) ++ s.bitsFrom codes samples (j + 1) n := rfl

theorem bitsFrom_onlyCursorMoves (hm : OnlyCursorMoves r r1) : r1.bitsFrom codes samples j n = r.bitsFrom codes samples j n := by
  rw [hm]
  rfl

theorem takeBits_midRow {bits : List Bool} (h : takeBits k r = (r1, .ok bits)) :
    takeBits k (r.midRow samples j) = (r1.midRow samples j, .ok bits) := by
  have hmove := OnlyCursorMoves.of_takeBits h
  have hsame : SameStream r (r.midRow samples j) := ⟨rfl, rfl, rfl, rfl, rfl, rfl⟩
  rw [takeBits_ok_of_sameStream hsame h, hmove]
  rfl

/-- The bits of sample `j`'s difference are read as its DIFF. -/
theorem readDiff_midRow (h : CodedRow r samples codes) (hj : j < samples.length)
    (ht : takeBits (r.codeOf codes samples j ++ r.extraOf samples j).length r = (r1, .ok (r.codeOf codes samples j ++ r.extraOf samples j))) :
    readDiff j diffFuel [] (r.midRow samples j) = (r1.midRow samples j, .ok (r.codeOf codes samples j, r.extraOf samples j)) := by
  obtain ⟨-, hdepth, -⟩ := h.frame
  have hlen := h.bitLength_le_depth j
  have hleaf := h.leaves j hj
  obtain ⟨-, hcode, -⟩ := id hleaf
  have hextra : (r.extraOf samples j).length = bitLength (r.differenceOf samples j) := length_bitsOf _ _
  refine readDiff_of_leafAt (takeBits_midRow ht) rfl hleaf hlen hextra ?_
  rw [List.length_append, hextra, State.codeOf, diffFuel]
  omega

/-- Decoding sample `j`: the predictor and the difference give the sample back (40_ljpeg R120, R126), and the last one ends the row. -/
theorem applyDiff_midRow (h : CodedRow r samples codes) (hj : j < samples.length) :
    applyDiff (r.codeOf codes samples j) (r.extraOf samples j) (r.midRow samples j) =
      (if j + 1 = r.rowSize then finishRow (samples.take (j + 1)).reverse (r.midRow samples (j + 1)) else r.midRow samples (j + 1), none) := by
  obtain ⟨-, -, h1, h4, -⟩ := h.frame
  have hsample := h.sample_lt j
  have hlen : (samples.take j).reverse.length = j := length_take_reverse hj.le
  have hleaf := h.leaves j hj
  obtain ⟨-, -, hlookup, -⟩ := id hleaf
  have hsum : ((samples.getD j 0).toNat : Int) = predictor (r.midRow samples j) (samples.take j).reverse +
      diffValue (bitLength (r.differenceOf samples j)) (bitsValue (r.extraOf samples j)) := by
    rw [predictor_midRow h1 h4 (by omega), State.extraOf, diffValue_of_difference, State.differenceOf]
    omega
  have hkept : BitVec.ofInt 16 ((samples.getD j 0).toNat : Int) = samples.getD j 0 := by
    rw [BitVec.ofInt_natCast, BitVec.ofNat_toNat, BitVec.setWidth_eq]
  rw [applyDiff_of_sample (s := r.midRow samples j) (bits := []) rfl (by rw [hlen]; exact hlookup) (h.bitLength_le_depth j) hsum (by omega)
      (by exact_mod_cast hsample), hkept, hlen, keepSample_midRow h4 hj, ← take_succ_reverse hj]
  rfl

/-- One turn of LJROW's loop decodes one sample. -/
theorem rowLoop_midRow_succ (h : CodedRow r samples codes) (hj : j < samples.length)
    (ht : takeBits (r.codeOf codes samples j ++ r.extraOf samples j).length r = (r1, .ok (r.codeOf codes samples j ++ r.extraOf samples j))) :
    rowLoop (n + 1) (r.midRow samples j) =
      if j + 1 = r.rowSize then (finishRow (samples.take (j + 1)).reverse (r1.midRow samples (j + 1)), none)
      else rowLoop n (r1.midRow samples (j + 1)) := by
  have hlen : (samples.take j).reverse.length = j := length_take_reverse hj.le
  have hmove := OnlyCursorMoves.of_takeBits ht
  have happly : applyDiff (r.codeOf codes samples j) (r.extraOf samples j) (r1.midRow samples j) =
      (if j + 1 = r.rowSize then finishRow (samples.take (j + 1)).reverse (r1.midRow samples (j + 1)) else r1.midRow samples (j + 1), none) := by
    have happly1 := applyDiff_midRow (h.of_onlyCursorMoves hmove) hj
    rw [hmove] at happly1 ⊢
    exact happly1
  rw [rowLoop]
  simp only [show (r.midRow samples j).phase = .scan (samples.take j).reverse [] from rfl, hlen, readDiff_midRow h hj ht, happly]
  split
  · exact rowLoop_idle rfl n
  · rfl

/-- LJROW's loop over the samples from `j` on decodes them all and writes the row. -/
theorem rowLoop_midRow (h : CodedRow r samples codes) (hn : j + (n + 1) = samples.length)
    (ht : takeBits (r.bitsFrom codes samples j (n + 1)).length r = (r1, .ok (r.bitsFrom codes samples j (n + 1)))) :
    rowLoop (n + 1) (r.midRow samples j) = (finishRow samples.reverse (r1.midRow samples samples.length), none) := by
  induction n generalizing j r with
  | zero =>
    rw [State.bitsFrom_succ, show r.bitsFrom codes samples (j + 1) 0 = [] from rfl, List.append_nil] at ht
    rw [rowLoop_midRow_succ h (by omega) ht, if_pos (hn.trans h.size), show j + 1 = samples.length from hn, List.take_length]
  | succ n ih =>
    rw [State.bitsFrom_succ, List.length_append] at ht
    obtain ⟨u, hfirst, hrest⟩ := takeBits_append ht
    have hmove := OnlyCursorMoves.of_takeBits hfirst
    have hmore : j + 1 ≠ r.rowSize := by
      rw [← h.size]
      omega
    rw [rowLoop_midRow_succ h (by omega) hfirst, if_neg hmore]
    refine ih (h.of_onlyCursorMoves hmove) (by omega) ?_
    rw [bitsFrom_onlyCursorMoves hmove]
    exact hrest

/-! ## LJROW -/

/-- The state of an LJROW with all the samples decoded and the bit reader at `c`. -/
def State.rowDecoded (s : State) (c : Cursor) (samples : List Sample) : State := ((s.begin 0x02).setCursor c).midRow samples samples.length

/-- What the end of the row leaves is the row of 40_ljpeg R123 and R124 in the state that LJROW was started in. -/
theorem rowWritten_rowDecoded (s : State) (c : Cursor) (samples : List Sample) :
    RowWritten s samples (finishRow samples.reverse (s.rowDecoded c samples)).complete := by
  have hrow := rowWritten_finishRow samples.reverse (s.rowDecoded c samples)
  rw [List.reverse_reverse] at hrow
  obtain ⟨hwritten, hbeyond, hother, hcount, hready⟩ := hrow
  refine ⟨hwritten, hbeyond, hother, hcount, (State.complete_ljReady _).trans (hready.trans ?_)⟩
  rw [show (s.rowDecoded c samples).ljReady = (s.begin 0x02).ljReady from rfl, State.begin_ljReady]
  rfl

/-- An accepted LJROW on the bits of a coded row ends with the row written. -/
theorem exec_ljrow_of_codedRow (ha : s.accepting) (hr : s.ljReady = true) (hi : s.legalImage) (hc : s.legalCfa) (hst : s.legalStream)
    (hf : s.frameMatches) (h : CodedRow s samples codes)
    (ht : takeBits (s.rowBits codes samples).length s = (s1, .ok (s.rowBits codes samples))) :
    exec .ljrow s = .next (finishRow samples.reverse (s.rowDecoded ⟨s1.spos, s1.sbit⟩ samples)).complete := by
  obtain ⟨n, hn⟩ : ∃ n, samples.length = n + 1 := ⟨samples.length - 1, by
    have hwide := hi.1
    rw [h.size, State.rowSize, hf.1]
    omega⟩
  have hbegin : CodedRow (s.begin 0x02) samples codes := ⟨h.frame, h.predictors, h.size, h.range, h.leaves⟩
  have hsame : SameStream s (s.begin 0x02) := ⟨rfl, rfl, rfl, rfl, rfl, rfl⟩
  have hbits := takeBits_ok_of_sameStream hsame ht
  rw [State.rowBits_eq, hn] at hbits
  have hloop := rowLoop_midRow (j := 0) hbegin (by omega) hbits
  rw [exec_ljrow_of_legal ha hr hi hc hst hf, ← h.size, hn, ← State.midRow_zero _ samples, hloop, settle_idle rfl]
  rfl

/-- Settles O24: the loop decodes the samples in turn, and the last of them ends the row. -/
theorem ljrowDecodesRow : Obligations.LjrowDecodesRow := by
  intro s samples codes s1 ha hr hi hc hst hf hframe hpred hlen hrange hcodes ht
  have hsize : samples.length = s.rowSize := hlen.trans hf.1.symm
  have hcoded : CodedRow s samples codes := ⟨hframe, hpred, hsize, hrange, fun j hj => hcodes j _ hj rfl⟩
  have hcolumns : s.ljClrs.toNat ≤ samples.length := by
    obtain ⟨-, -, -, -, hwide, -⟩ := hframe
    rw [hsize]
    exact Nat.le_mul_of_pos_left _ hwide
  have hvpred : ((s.begin 0x02).setCursor ⟨s1.spos, s1.sbit⟩).vpredUpTo samples samples.length = _ := State.vpredUpTo_of_le hcolumns
  have hend := finishRow_frame samples.reverse (s.rowDecoded ⟨s1.spos, s1.sbit⟩ samples)
  have hcmd : (finishRow samples.reverse (s.rowDecoded ⟨s1.spos, s1.sbit⟩ samples)).complete.cmd = 0x02 :=
    (State.complete_cmd _).trans (congrArg State.cmd hend)
  obtain ⟨hfaulted, hwarned⟩ := finishRow_flags samples.reverse (s.rowDecoded ⟨s1.spos, s1.sbit⟩ samples)
  refine ⟨_, exec_ljrow_of_codedRow ha hr hi hc hst hf hcoded ht, ⟨hcmd, rfl, State.complete_busy _, State.complete_done _, ?_⟩, ?_,
    rowWritten_rowDecoded s _ samples, ?_⟩
  · exact (State.complete_faulted _).trans (hfaulted.trans ((State.begin_faulted s 0x02).trans ha.2))
  · exact (State.complete_warned _).trans (hwarned.trans (State.begin_warned s 0x02))
  · rw [hcmd]
    rw [State.rowDecoded, State.midRow, hvpred] at hend ⊢
    exact congrArg State.complete hend

end Sys2Proof.Machine
end

section
/-! PROOFS of the family 40_ljpeg, continued: what any LJSTART leaves (40_ljpeg R112 to R115). Inside the header nothing is written but the frame, the tables and
the cursor, which moves on with each element and stays within the stream; so the loop ends, by a fault or by SOS. -/

namespace Sys2Proof.Machine

variable {s t u : State} {loaded : Cursor} {sof : Bool} {i : Instr} {len : BitVec 16} {payload : List Byte}

/-! ## Segments within the stream -/

theorem segmentOf_eq_some {m1 : Byte} (h : segmentOf m1 len payload = some i) :
    SegmentMarker m1 ∧ (i = .sof3 len payload ∨ i = .dht len payload ∨ i = .sos len payload) := by
  unfold segmentOf at h
  split at h <;> rename_i hm
  · exact ⟨.inl (BitVec.eq_of_toNat_eq hm), .inl (Option.some.inj h).symm⟩
  · exact ⟨.inr (.inl (BitVec.eq_of_toNat_eq hm)), .inr (.inl (Option.some.inj h).symm)⟩
  · exact ⟨.inr (.inr (BitVec.eq_of_toNat_eq hm)), .inr (.inr (Option.some.inj h).symm)⟩
  · cases h

/-- A segment is decoded only when all of it is there (40_ljpeg R112). -/
theorem decodeSegment_fits {bytes rest : List Byte} (h : decodeSegment bytes = .ok (i, rest)) :
    ∃ len payload, (i = .sof3 len payload ∨ i = .dht len payload ∨ i = .sos len payload) ∧ 4 ≤ bytes.length ∧ len.toNat + 2 ≤ bytes.length := by
  obtain ⟨m1, len, payload, hseg, hbytes⟩ := decodeSegment_ok h
  obtain ⟨hm, hi⟩ := segmentOf_eq_some hseg
  refine ⟨len, payload, hi, by simp [hbytes, encodeSegment], ?_⟩
  by_contra hshort
  rw [hbytes, encodeSegment] at h hshort
  have hcount : (payload ++ rest).length + 4 < (bigEndian (len.extractLsb' 8 8) (len.extractLsb' 0 8)).toNat + 2 := by
    rw [bigEndian_extract]
    simp only [List.cons_append, List.length_cons] at hshort
    omega
  have herror := decodeSegment_shortPayload hm hcount
  exact absurd (h.symm.trans herror) (by simp)

theorem State.length_streamWindow_fits (s : State) {a n : Nat} (h : 0 < (s.streamWindow a n).length) :
    a + (s.streamWindow a n).length ≤ s.streamLen.toNat :=
  State.holdsAt_end_le (s.holdsAt_streamWindow a n) (List.length_pos_iff.1 h)

/-- The segment that LJSTART fetches lies within the stream. -/
theorem fetchHeader_fits (hp : s.phase = .header loaded sof) (h : fetchHeader s = .ok i) :
    ∃ len payload, (i = .sof3 len payload ∨ i = .dht len payload ∨ i = .sos len payload) ∧ s.spos.toNat + (2 + len.toNat) ≤ s.streamLen.toNat := by
  cases hd : decodeSegment s.segmentWindow with
  | error e =>
    rw [fetchHeader_segment_error hp hd] at h
    cases h
  | ok r =>
    obtain ⟨j, rest⟩ := r
    obtain rfl : j = i := Except.ok.inj ((fetchHeader_segment_ok hp hd).symm.trans h)
    obtain ⟨len, payload, hi, hfour, hlen⟩ := decodeSegment_fits hd
    have hfits : s.spos.toNat + s.segmentWindow.length ≤ s.streamLen.toNat := s.length_streamWindow_fits (by rw [State.segmentWindow] at hfour; omega)
    exact ⟨len, payload, hi, by omega⟩

theorem fetchHeader_start_fits (hp : s.phase = .start loaded) (h : fetchHeader s = .ok i) :
    i = .soi ∧ s.spos.toNat + 2 ≤ s.streamLen.toNat := by
  cases hd : decodeStart (s.streamWindow s.spos.toNat 2) with
  | error e =>
    rw [fetchHeader_start_error hp hd] at h
    cases h
  | ok r =>
    obtain ⟨j, rest⟩ := r
    obtain ⟨rfl, hbytes⟩ := decodeStart_ok hd
    simp only [fetchHeader, hp, hd] at h
    have hfits := s.length_streamWindow_fits (a := s.spos.toNat) (n := 2) (by rw [hbytes]; simp)
    rw [hbytes] at hfits
    simp only [List.length_append, List.length_cons, List.length_nil] at hfits
    exact ⟨(Except.ok.inj h).symm, by omega⟩

/-- The address after an element of the stream. -/
theorem State.toNat_skip_spos {n : Nat} (h : s.spos.toNat + n ≤ s.streamLen.toNat) : (s.skip n).spos.toNat = s.spos.toNat + n := by
  have hfits : s.spos.toNat + n < 2 ^ 32 := lt_of_le_of_lt h s.streamLen.isLt
  rw [State.skip_spos, BitVec.toNat_add, BitVec.toNat_ofNat, Nat.mod_eq_of_lt (by omega : n < 2 ^ 32), Nat.mod_eq_of_lt hfits]

/-! ## Inside the header -/

/-- `t` is `s` but for what LJSTART writes before SOS: STATUS, the tables, the frame, the cursor and the place. -/
def OnlyHeaderWrites (s t : State) : Prop :=
  t = { s with
        status := t.status, ht := t.ht, ljBits := t.ljBits, ljHigh := t.ljHigh, ljWide := t.ljWide, ljClrs := t.ljClrs
        spos := t.spos, sbit := t.sbit, phase := t.phase }

theorem OnlyHeaderWrites.trans (h : OnlyHeaderWrites s t) (k : OnlyHeaderWrites t u) : OnlyHeaderWrites s u := by
  unfold OnlyHeaderWrites at *
  rw [h] at k
  exact k

theorem OnlyHeaderWrites.keeps (h : OnlyHeaderWrites s t) : t.cmd = s.cmd ∧ t.vpred = s.vpred ∧ t.ljRow = s.ljRow := by
  rw [h]
  exact ⟨rfl, rfl, rfl⟩

/-- The state `u` is a place in the header of an LJSTART that opened in `s` with the cursor `loaded`. -/
structure Parsing (s : State) (loaded : Cursor) (u : State) : Prop where
  place : u.phase = .start loaded ∨ ∃ sof, u.phase = .header loaded sof
  writes : OnlyHeaderWrites s u
  wf : u.scanWf
  onward : s.spos.toNat ≤ u.spos.toNat

theorem Parsing.running (h : Parsing s loaded u) : u.phase ≠ .idle := by
  obtain hp | ⟨sof, hp⟩ := h.place <;> rw [hp] <;> exact Phase.noConfusion

theorem Parsing.faultCursor (h : Parsing s loaded u) : u.faultCursor = loaded := by
  obtain hp | ⟨sof, hp⟩ := h.place
  · exact u.faultCursor_of_start hp
  · exact u.faultCursor_of_header hp

theorem Parsing.streamLen (h : Parsing s loaded u) : u.streamLen = s.streamLen := by
  rw [h.writes]

/-- The state `u` in which an SOS of length `len` ends the header (40_ljpeg R112). -/
structure SosAccepted (s : State) (loaded : Cursor) (len : BitVec 16) (u : State) : Prop where
  parsing : Parsing s loaded u
  place : u.phase = .header loaded true
  tables : missingTable u = none
  frame : u.frameMatches
  inside : u.spos.toNat + (2 + len.toNat) ≤ u.streamLen.toNat

/-- What a header element or the whole loop from the address `a` on leads to. -/
inductive HeaderOutcome (s : State) (loaded : Cursor) : State × Option Raised → Prop
  | stopped (v : State) (f : Raised) (h : Parsing s loaded v) : HeaderOutcome s loaded (v, some f)
  | ended (v : State) (len : BitVec 16) (h : SosAccepted s loaded len v) :
      HeaderOutcome s loaded (finishStart { v.skip (2 + len.toNat) with sbit := 0 }, none)

theorem Parsing.of_result {v : State} (h : Parsing s loaded u) (hr : HeaderResult u v)
    (hp : v.phase = .start loaded ∨ ∃ sof, v.phase = .header loaded sof) (hw : OnlyHeaderWrites u v)
    (hle : u.spos.toNat ≤ v.spos.toNat) : Parsing s loaded v :=
  ⟨hp, h.writes.trans hw, hr.scanWf h.wf, h.onward.trans hle⟩

/-- LJSTART goes on from `u` at `v`, behind an element of the stream. -/
structure Advances (s : State) (loaded : Cursor) (u v : State) : Prop where
  parsing : Parsing s loaded v
  beyond : u.spos.toNat + 2 ≤ v.spos.toNat
  inside : v.spos.toNat ≤ s.streamLen.toNat

theorem Parsing.advances {v : State} {n : Nat} (h : Parsing s loaded u) (hr : HeaderResult u v) (hp : ∃ sof, v.phase = .header loaded sof)
    (hw : OnlyHeaderWrites u v) (h2 : 2 ≤ n) (hfits : u.spos.toNat + n ≤ u.streamLen.toNat) (hspos : v.spos = (u.skip n).spos) :
    Advances s loaded u v := by
  have hnext : v.spos.toNat = u.spos.toNat + n := by rw [hspos, State.toNat_skip_spos hfits]
  exact ⟨h.of_result hr (.inr hp) hw (by omega), by omega, by rw [hnext, ← h.streamLen]; exact hfits⟩

/-- An element that LJSTART fetches raises a fault, leads on, or is an SOS that ends the header. -/
theorem Parsing.headerBody_outcome (h : Parsing s loaded u) (hf : fetchHeader u = .ok i) :
    HeaderOutcome s loaded (headerBody i u) ∨ ∃ v, headerBody i u = (v, none) ∧ Advances s loaded u v := by
  have hresult := headerBody_result i u
  obtain hp | ⟨sof, hp⟩ := h.place
  · obtain ⟨rfl, hfits⟩ := fetchHeader_start_fits hp hf
    have hc := soiBody_of_start hp
    rw [headerBody, hc] at hresult ⊢
    exact .inr ⟨_, rfl, h.advances hresult ⟨_, rfl⟩ rfl (le_refl 2) hfits rfl⟩
  · obtain ⟨len, payload, hi, hfits⟩ := fetchHeader_fits hp hf
    obtain rfl | rfl | rfl := hi <;> rw [headerBody] at hresult ⊢
    · obtain ⟨f, hc⟩ | ⟨v, hc, -, -, -, hv⟩ := sof3Body_cases len payload hp <;> rw [hc] at hresult ⊢
      · exact .inl (.stopped u f h)
      · have hwrites : OnlyHeaderWrites u v := by
          rw [hv]
          rfl
        have hspos : v.spos = (u.skip (2 + len.toNat)).spos := by rw [hv]
        exact .inr ⟨v, rfl, h.advances hresult ⟨true, by rw [hv]⟩ hwrites (by omega) hfits hspos⟩
    · obtain ⟨f, hc⟩ | ⟨f, hc⟩ | ⟨-, hc⟩ := dhtBody_cases len payload hp <;> rw [hc] at hresult ⊢
      · exact .inl (.stopped u f h)
      · exact .inl (.stopped _ f (h.of_result hresult (.inr ⟨sof, hp⟩) rfl (le_refl _)))
      · exact .inr ⟨_, rfl, h.advances hresult ⟨sof, hp⟩ rfl (by omega) hfits rfl⟩
    · obtain ⟨f, hc⟩ | ⟨rfl, -, htables, hframe, hc⟩ := sosBody_cases len hp <;> rw [hc]
      · exact .inl (.stopped u f h)
      · exact .inl (.ended u len ⟨h, hp, htables, hframe, hfits⟩)

/-- With fuel for each byte left of the stream the loop ends by a fault or by SOS. -/
theorem headerLoop_outcome {fuel : Nat} (h : Parsing s loaded u) (hfuel : s.streamLen.toNat - u.spos.toNat < fuel) :
    HeaderOutcome s loaded (headerLoop fuel u) := by
  induction fuel generalizing u with
  | zero => omega
  | succ n ih =>
    rw [headerLoop, if_neg h.running]
    cases hf : fetchHeader u with
    | error f => exact .stopped u f h
    | ok i =>
      dsimp only
      obtain hout | ⟨v, hc, hv⟩ := h.headerBody_outcome hf
      · generalize headerBody i u = r at hout ⊢
        cases hout with
        | stopped v f hv => exact .stopped v f hv
        | ended v len hv =>
          have hidle : (finishStart { v.skip (2 + len.toNat) with sbit := 0 }).phase = .idle := rfl
          dsimp only
          rw [headerLoop_idle hidle]
          exact .ended v len hv
      · rw [hc]
        have hbeyond := hv.beyond
        have hinside := hv.inside
        exact ih hv.parsing (by omega)

/-! ## LJSTART -/

/-- An LJSTART raises a fault at the cursor it was started with, the predictors and the row counter as they were, or an SOS ends it. -/
inductive StartOutcome (s : State) : State × Option Raised → Prop
  | stopped (v : State) (f : Raised) (hw : OnlyHeaderWrites s v) (hc : v.faultCursor = ⟨s.spos, s.sbit⟩) : StartOutcome s (v, some f)
  | ended (v : State) (len : BitVec 16) (h : SosAccepted s ⟨s.spos, s.sbit⟩ len v) :
      StartOutcome s (finishStart { v.skip (2 + len.toNat) with sbit := 0 }, none)

theorem parsing_openHeader (s : State) : Parsing s ⟨s.spos, s.sbit⟩ (openHeader s) :=
  ⟨.inl rfl, rfl, .of_start rfl (State.setLjReady_ljReady _ _) rfl, le_refl _⟩

theorem ljstartBody_outcome (hp : s.phase = .idle) : StartOutcome s (ljstartBody s) := by
  unfold ljstartBody
  split
  · exact .stopped s _ rfl (s.faultCursor_of_idle hp)
  · have hfuel : s.streamLen.toNat - (openHeader s).spos.toNat < s.streamLen.toNat + 2 := by omega
    have hout := headerLoop_outcome (parsing_openHeader s) hfuel
    generalize headerLoop (s.streamLen.toNat + 2) (openHeader s) = r at hout ⊢
    cases hout with
    | stopped v f hv => exact .stopped v f hv.writes hv.faultCursor
    | ended v len hv => exact .ended v len hv

theorem ljstartBody_beyondLj (s : State) : (ljstartBody s).1.beyondLj = s.beyondLj := (keptByLj_beyondLj s).ljstartBody rfl

/-- What the SOS that ends an LJSTART leaves (40_ljpeg R112, R114, R115). -/
theorem SosAccepted.finishStart (h : SosAccepted s loaded len u) :
    let v := Machine.finishStart { u.skip (2 + len.toNat) with sbit := 0 }
    v.ljReady = true ∧ v.scanOpen ∧ v.frameMatches ∧ s.spos.toNat < v.spos.toNat ∧ v.spos.toNat ≤ s.streamLen.toNat := by
  have hnext : (u.skip (2 + len.toNat)).spos.toNat = u.spos.toNat + (2 + len.toNat) := State.toNat_skip_spos h.inside
  have hin := h.inside
  have honward := h.parsing.onward
  obtain ⟨-, -, hframe⟩ := h.parsing.wf.in_header h.place
  rw [h.parsing.streamLen] at hin
  refine ⟨State.setLjReady_ljReady _ _, scanOpen_finishStart (s := { u.skip (2 + len.toNat) with sbit := 0 }) (hframe rfl) h.tables,
    h.frame, ?_, ?_⟩
  · show _ < (u.skip (2 + len.toNat)).spos.toNat
    omega
  · show (u.skip (2 + len.toNat)).spos.toNat ≤ _
    omega

/-- Settles O22: the outcomes of the header loop, as the end of the command leaves them. -/
theorem ljstartOutcome : Obligations.LjstartOutcome := by
  intro s t ha he
  obtain rfl : command 0x01 ljstartBody s = t := Host.Outcome.next.inj he
  have hout := ljstartBody_outcome (s := s.begin 0x01) rfl
  obtain ⟨hdone, hfaulted, hwarned⟩ := flags_of_beyondLj (ljstartBody_beyondLj (s.begin 0x01))
  rw [State.begin_done] at hdone
  rw [State.begin_faulted, ha.2] at hfaulted
  rw [State.begin_warned] at hwarned
  rw [command_of_accepting _ _ ha]
  generalize ljstartBody (s.begin 0x01) = r at hout hdone hfaulted hwarned ⊢
  cases hout with
  | stopped v f hw hc =>
    rw [settle_some]
    have hspos : (raise f v).spos = s.spos := (raise_spos v f).trans (congrArg Cursor.spos hc)
    have hsbit : (raise f v).sbit = s.sbit := (raise_sbit v f).trans (congrArg Cursor.sbit hc)
    refine ⟨?_, raise_busy v f, (raise_warned v f).trans hwarned, fun hno => ?_, fun _ => ?_⟩
    · rw [hw]
      rfl
    · rw [raise_faulted] at hno
      cases hno
    · obtain ⟨hstage, hvpred, hrow⟩ := hw.keeps
      exact ⟨(raise_done v f).trans hdone, raise_ljReady v f, hspos, hsbit, hvpred, hrow, hspos, hstage⟩
  | ended v len hv =>
    rw [settle_idle rfl]
    obtain ⟨hready, hopen, hmatch, hlow, hhigh⟩ := hv.finishStart
    refine ⟨?_, State.complete_busy _, (State.complete_warned _).trans hwarned, fun _ => ?_, fun hyes => ?_⟩
    · have hw := hv.parsing.writes
      rw [hw]
      rfl
    · refine ⟨State.complete_done _, (State.complete_ljReady _).trans hready, hopen.frame, hmatch, hopen.tables, ?_, rfl, rfl, hlow, hhigh⟩
      rw [← Nat.one_shiftLeft]
      rfl
    · rw [State.complete_faulted, hfaulted] at hyes
      cases hyes

end Sys2Proof.Machine
end

section
/-! PROOFS of the family 40_ljpeg, continued: LJSTART on a whole legal header (40_ljpeg R112 to R115). Inside the header the state follows from how many bytes have
been parsed, the tables stored so far and the place (`parsed`), so each segment is one equation of the loop. -/

namespace Sys2Proof.Machine

variable {s u v : State} {loaded : Cursor} {sof : Bool} {i : Instr} {payload : List Byte} {fuel n : Nat} {ht : Quad (Option HuffTable)}

/-! ## One turn of the loop -/

theorem headerLoop_of_ok (hp : u.phase ≠ .idle) (hf : fetchHeader u = .ok i) (hb : headerBody i u = (v, none)) (fuel : Nat) :
    headerLoop (fuel + 1) u = headerLoop fuel v := by
  rw [headerLoop, if_neg hp, hf]
  dsimp only
  rw [hb]

theorem headerLoop_beyondLj (fuel : Nat) (s : State) : (headerLoop fuel s).1.beyondLj = s.beyondLj :=
  headerLoop_keeps (P := fun t => t.beyondLj = s.beyondLj) (fun i _ ht _ _ => (keptByLj_beyondLj s).headerBody i ht) fuel rfl

/-- `s` with `n` bytes of the header parsed and these tables stored. -/
def State.parsed (s : State) (n : Nat) (ht : Quad (Option HuffTable)) (p : Phase) : State := { s.skip n with ht := ht, phase := p }

/-- `s` with a frame in its registers (30_encoding R90). -/
def State.withFrame (s : State) (f : FrameHeader) : State :=
  { s with
    ljBits := BitVec.ofNat 5 f.bits
    ljHigh := BitVec.ofNat 16 f.rows
    ljWide := BitVec.ofNat 16 f.columns
    ljClrs := BitVec.ofNat 3 f.channels }

theorem State.skip_skip (s : State) (m n : Nat) : (s.skip m).skip n = s.skip (m + n) := by
  rw [State.skip, State.skip, State.skip, BitVec.ofNat_add, ← BitVec.add_assoc]

theorem State.parsed_skip (s : State) (m n : Nat) (ht : Quad (Option HuffTable)) (p : Phase) :
    (s.parsed m ht p).skip n = s.parsed (m + n) ht p := by
  rw [State.parsed, State.parsed, ← State.skip_skip]
  rfl

theorem length_segmentBytes (m1 : Byte) (payload : List Byte) : (segmentBytes m1 payload).length = payload.length + 4 := rfl

theorem segmentWellFormed_of_fits (h : fitsSegment payload) : segmentWellFormed (BitVec.ofNat 16 (payload.length + 2)) payload = true := by
  rw [segmentWellFormed_iff, toNat_ofNat_of_fitsSegment h]
  omega

/-- The segment at the parsed length of the header is fetched. -/
theorem fetchHeader_parsed {m1 : Byte} (hfit : fitsSegment payload) (hi : segmentOf m1 (BitVec.ofNat 16 (payload.length + 2)) payload = some i)
    (h : s.holdsAt (s.spos.toNat + n) (segmentBytes m1 payload)) : fetchHeader (s.parsed n ht (.header loaded sof)) = .ok i := by
  have hend := State.holdsAt_end_le h (List.cons_ne_nil _ _)
  rw [length_segmentBytes] at hend
  have hspos : (s.parsed n ht (.header loaded sof)).spos.toNat = s.spos.toNat + n := State.toNat_skip_spos (s := s) (by omega)
  obtain ⟨hm, -⟩ := segmentOf_eq_some hi
  refine fetchHeader_segment rfl (segmentWellFormed_of_fits hfit) ((segmentOf_isSome_iff m1).2 hm) hi ?_
  rw [hspos]
  exact h

/-- SOI opens the header. -/
theorem headerLoop_soi (hp : s.phase = .start loaded) (h : s.holdsAt s.spos.toNat [0xFF, 0xD8]) :
    headerLoop (fuel + 1) s = headerLoop fuel (s.parsed 2 s.ht (.header loaded false)) :=
  headerLoop_of_ok (by rw [hp]; exact Phase.noConfusion) (fetchHeader_start hp h) (soiBody_of_start hp) fuel

/-! ## DHT segments -/

theorem dhtBody_of_legal {ds : List TableDefinition} (hp : u.phase = .header loaded sof) (hne : ds ≠ []) (hd : ∀ d ∈ ds, d.legal)
    (hfit : fitsSegment (definitionsBytes ds)) :
    dhtBody (BitVec.ofNat 16 ((definitionsBytes ds).length + 2)) (definitionsBytes ds) u =
      ({ u.skip ((definitionsBytes ds).length + 4) with ht := storeAll ds u.ht }, none) := by
  have hlen := toNat_ofNat_of_fitsSegment hfit
  have hstored : storeDefinitions (BitVec.ofNat 16 ((definitionsBytes ds).length + 2)) ((definitionsBytes ds).length + 1)
      (definitionsBytes ds) u.ht = (storeAll ds u.ht, none) := by
    have hcount := length_le_definitionsBytes ds
    obtain ⟨fuel, hfuel⟩ : ∃ fuel, (definitionsBytes ds).length + 1 = fuel + ds.length :=
      Nat.exists_eq_add_of_le' (hcount.trans (Nat.le_succ _))
    rw [hfuel]
    exact storeDefinitions_all _ ds u.ht _ hd hne
  rw [dhtBody_of_stored hp (by omega) hstored, hlen, show 2 + ((definitionsBytes ds).length + 2) = (definitionsBytes ds).length + 4 by omega]

/-- The DHT segments that O21 allows: each with a definition, its definitions legal and short enough for a segment. -/
def LegalTables (dss : List (List TableDefinition)) : Prop :=
  ∀ ds ∈ dss, ds ≠ [] ∧ (∀ d ∈ ds, d.legal) ∧ fitsSegment (definitionsBytes ds)

/-- The bytes of DHT segments one after the other. -/
def tablesBytes (dss : List (List TableDefinition)) : List Byte := dss.flatMap (fun ds => segmentBytes 0xC4 (definitionsBytes ds))

theorem tablesBytes_cons (ds : List TableDefinition) (dss : List (List TableDefinition)) :
    tablesBytes (ds :: dss) = segmentBytes 0xC4 (definitionsBytes ds) ++ tablesBytes dss := rfl

theorem length_le_tablesBytes (dss : List (List TableDefinition)) : dss.length ≤ (tablesBytes dss).length := by
  induction dss with
  | nil => exact Nat.zero_le _
  | cons ds dss ih =>
    rw [tablesBytes_cons, List.length_append, List.length_cons, length_segmentBytes]
    omega

theorem storeAll_append (ds es : List TableDefinition) (ht : Quad (Option HuffTable)) :
    storeAll (ds ++ es) ht = storeAll es (storeAll ds ht) := List.foldl_append

/-- DHT segments store all their definitions in turn (30_encoding R91). -/
theorem headerLoop_tables {dss : List (List TableDefinition)} (hd : LegalTables dss) (h : s.holdsAt (s.spos.toNat + n) (tablesBytes dss)) :
    headerLoop (fuel + dss.length) (s.parsed n ht (.header loaded sof)) =
      headerLoop fuel (s.parsed (n + (tablesBytes dss).length) (storeAll dss.flatten ht) (.header loaded sof)) := by
  induction dss generalizing n ht with
  | nil => rfl
  | cons ds dss ih =>
    rw [tablesBytes_cons, State.holdsAt_append] at h
    obtain ⟨hfirst, hrest⟩ := h
    obtain ⟨hne, hlegal, hfit⟩ := hd ds List.mem_cons_self
    have hbody : headerBody (.dht (BitVec.ofNat 16 ((definitionsBytes ds).length + 2)) (definitionsBytes ds)) (s.parsed n ht (.header loaded sof)) =
        (s.parsed (n + (segmentBytes 0xC4 (definitionsBytes ds)).length) (storeAll ds ht) (.header loaded sof), none) := by
      rw [headerBody, dhtBody_of_legal rfl hne hlegal hfit, State.parsed_skip]
      rfl
    rw [Nat.add_assoc] at hrest
    rw [List.length_cons, ← Nat.add_assoc, headerLoop_of_ok Phase.noConfusion (fetchHeader_parsed hfit rfl hfirst) hbody, tablesBytes_cons,
      List.length_append, ← Nat.add_assoc, List.flatten_cons, storeAll_append]
    exact ih (fun es he => hd es (List.mem_cons_of_mem ds he)) hrest

/-! ## SOF3 and SOS -/

theorem headerLoop_frame {f : FrameHeader} (hf : f.legal) (h : s.holdsAt (s.spos.toNat + n) (segmentBytes 0xC3 f.payload)) :
    headerLoop (fuel + 1) (s.parsed n ht (.header loaded false)) =
      headerLoop fuel ((s.withFrame f).parsed (n + (segmentBytes 0xC3 f.payload).length) ht (.header loaded true)) := by
  have hfit : fitsSegment f.payload := by
    have hlen := FrameHeader.length_payload hf
    obtain ⟨-, -, -, -, -, -, -, hchannels, -⟩ := hf
    unfold fitsSegment
    omega
  have hbody : headerBody (.sof3 (BitVec.ofNat 16 (f.payload.length + 2)) f.payload) (s.parsed n ht (.header loaded false)) =
      ((s.withFrame f).parsed (n + (segmentBytes 0xC3 f.payload).length) ht (.header loaded true), none) := by
    rw [headerBody, sof3Body_of_legal rfl hf, State.parsed_skip, length_segmentBytes, show 2 + (f.payload.length + 2) = f.payload.length + 4 by omega]
    rfl
  exact headerLoop_of_ok Phase.noConfusion (fetchHeader_parsed hfit rfl h) hbody fuel

/-- SOS ends the header where no table is missing and the frame is the image (30_encoding R93; 40_ljpeg R113). -/
theorem headerLoop_sos {scan : List Byte} (hfit : fitsSegment scan) (h : s.holdsAt (s.spos.toNat + n) (segmentBytes 0xDA scan))
    (htables : missingTable (s.parsed n ht (.header loaded true)) = none) (hframe : s.frameMatches) :
    headerLoop (fuel + 1) (s.parsed n ht (.header loaded true)) =
      (finishStart { s.parsed (n + (segmentBytes 0xDA scan).length) ht (.header loaded true) with sbit := 0 }, none) := by
  have hlen := toNat_ofNat_of_fitsSegment hfit
  obtain ⟨-, -, hopens⟩ := sosBody_after_sof3 (s := s.parsed n ht (.header loaded true)) rfl (by omega : 2 ≤ (BitVec.ofNat 16 (scan.length + 2)).toNat)
  have hbody : headerBody (.sos (BitVec.ofNat 16 (scan.length + 2)) scan) (s.parsed n ht (.header loaded true)) =
      (finishStart { s.parsed (n + (segmentBytes 0xDA scan).length) ht (.header loaded true) with sbit := 0 }, none) := by
    rw [headerBody, hopens htables ((frameFault_eq_none_iff _).2 hframe), State.parsed_skip, hlen, length_segmentBytes,
      show 2 + (scan.length + 2) = scan.length + 4 by omega]
  rw [headerLoop_of_ok Phase.noConfusion (fetchHeader_parsed hfit rfl h) hbody]
  exact headerLoop_idle rfl fuel

/-! ## The whole header -/

theorem headerBytes_eq (before : List (List TableDefinition)) (f : FrameHeader) (after : List (List TableDefinition)) (scan : List Byte) :
    headerBytes before f after scan =
      [0xFF, 0xD8] ++ (tablesBytes before ++ (segmentBytes 0xC3 f.payload ++ (tablesBytes after ++ segmentBytes 0xDA scan))) := by
  simp only [headerBytes, tablesBytes, List.append_assoc]

/-- A legal frame in the registers, read back. -/
theorem State.withFrame_toNat {f : FrameHeader} (hf : f.legal) (s : State) :
    (s.withFrame f).ljBits.toNat = f.bits ∧ (s.withFrame f).ljHigh.toNat = f.rows ∧ (s.withFrame f).ljWide.toNat = f.columns ∧
      (s.withFrame f).ljClrs.toNat = f.channels := by
  obtain ⟨-, hbits, -, hrows, -, hcolumns, -, hchannels, -⟩ := hf
  simp only [State.withFrame, BitVec.toNat_ofNat]
  omega

/-- LJSTART's loop on a legal header whose tables cover the frame's channels and whose frame is the image ends with its SOS. -/
theorem headerLoop_of_header {before after : List (List TableDefinition)} {f : FrameHeader} {scan : List Byte} (hp : s.phase = .start loaded)
    (hbefore : LegalTables before) (hafter : LegalTables after) (hf : f.legal) (hfit : fitsSegment scan)
    (htables : ∀ c : Lane, c.val < f.channels → ((storeAll (before ++ after).flatten s.ht).get c).isSome = true)
    (hframe : (s.withFrame f).frameMatches) (h : s.holdsAt s.spos.toNat (headerBytes before f after scan)) :
    headerLoop (fuel + 1 + after.length + 1 + before.length + 1) s =
      (finishStart { (s.withFrame f).parsed (headerBytes before f after scan).length (storeAll (before ++ after).flatten s.ht)
        (.header loaded true) with sbit := 0 }, none) := by
  rw [headerBytes_eq] at h ⊢
  simp only [State.holdsAt_append, ← Nat.add_assoc, List.length_append] at h ⊢
  obtain ⟨hsoi, hdht1, hsof, hdht2, hsos⟩ := h
  obtain ⟨-, -, -, hclrs⟩ := s.withFrame_toNat hf
  obtain ⟨-, -, -, -, -, -, -, hchannels, -⟩ := id hf
  have hmissing : ∀ m, missingTable ((s.withFrame f).parsed m (storeAll (before ++ after).flatten s.ht) (.header loaded true)) = none := fun m =>
    (missingTable_eq_none_iff (s := (s.withFrame f).parsed m _ _) (hclrs.trans_le hchannels)).2 (fun c hc => htables c (hc.trans_eq hclrs))
  rw [List.flatten_append, storeAll_append] at hmissing ⊢
  rw [headerLoop_soi hp hsoi, headerLoop_tables (n := 2) hbefore hdht1, headerLoop_frame hf (by rw [← Nat.add_assoc]; exact hsof),
    headerLoop_tables (s := s.withFrame f) hafter (by simp only [← Nat.add_assoc]; exact hdht2),
    headerLoop_sos (s := s.withFrame f) hfit (by simp only [← Nat.add_assoc]; exact hsos) (hmissing _) hframe]
  rfl

/-- Settles O21: the segments in turn lead to the SOS, which opens the scan. -/
theorem ljstartParsesHeader : Obligations.LjstartParsesHeader := by
  intro s before after f scan ha hi hc hst hd hf hfit htables hwide hhigh h
  have hbefore : LegalTables before := fun ds hds => hd ds (List.mem_append_left after hds)
  have hafter : LegalTables after := fun ds hds => hd ds (List.mem_append_right before hds)
  obtain ⟨hbits, hrows, hcolumns, hclrs⟩ := State.withFrame_toNat hf (openHeader (s.begin 0x01))
  have hframe : ((openHeader (s.begin 0x01)).withFrame f).frameMatches :=
    ⟨by rw [hcolumns, hclrs]; exact hwide, BitVec.eq_of_toNat_eq (by rw [hrows]; exact hhigh)⟩
  have hfuel : ∃ fuel, s.streamLen.toNat + 2 = fuel + 1 + after.length + 1 + before.length + 1 := by
    have hend := State.holdsAt_end_le h (by simp [headerBytes])
    have h1 := length_le_tablesBytes before
    have h2 := length_le_tablesBytes after
    simp only [headerBytes_eq, List.length_append, List.length_cons] at hend
    exact ⟨s.streamLen.toNat - 1 - after.length - before.length, by omega⟩
  obtain ⟨fuel, hfuel⟩ := hfuel
  have hloop := headerLoop_of_header (s := openHeader (s.begin 0x01)) (fuel := fuel) rfl hbefore hafter hf hfit htables hframe h
  have hexec := exec_ljstart_of_legal ha hi hc hst
  rw [hfuel, hloop, settle_idle rfl] at hexec
  have hvpred : 2 ^ (f.bits - 1) = 1 <<< (((openHeader (s.begin 0x01)).withFrame f).ljBits.toNat - 1) := by rw [hbits, Nat.one_shiftLeft]
  have hspos : BitVec.ofNat 32 (s.spos.toNat + (headerBytes before f after scan).length) =
      s.spos + BitVec.ofNat 32 (headerBytes before f after scan).length := by rw [BitVec.ofNat_add, BitVec.ofNat_toNat, BitVec.setWidth_eq]
  have hkept := (headerLoop_beyondLj (fuel + 1 + after.length + 1 + before.length + 1) (openHeader (s.begin 0x01))).trans (openHeader_beyondLj _)
  rw [hloop] at hkept
  obtain ⟨-, hfaulted, hwarned⟩ := flags_of_beyondLj hkept
  refine ⟨_, hexec, ⟨rfl, rfl, State.complete_busy _, State.complete_done _, ?_⟩, ?_, ?_, ?_⟩
  · exact (State.complete_faulted _).trans (hfaulted.trans ((State.begin_faulted s 0x01).trans ha.2))
  · exact (State.complete_ljReady _).trans (State.setLjReady_ljReady _ _)
  · exact (State.complete_warned _).trans (hwarned.trans (State.begin_warned s 0x01))
  · rw [hvpred, hspos]
    rfl

end Sys2Proof.Machine
end

section
/-! PROOFS of the family 41_demosaic: the checks that VNGREF and the EX commands make after the image registers (41_demosaic R151, R152; 42_exposure R162,
R163, R170, R172), and the two commands that a control bit turns off. -/

namespace Sys2Proof.Machine

variable {s t : State} {w : BitVec 8} {i : Instr} {check : State → Option Raised} {effect : State → State}

/-! ## Commands that make their checks first -/

/-- A command whose checks pass has its effect and completes. -/
theorem exec_of_checks_pass (hw : (w, i) ∈ commandWords) (hi : i ≠ .init) (hb : commandBody i = checked check effect) (ha : s.accepting)
    (hc : check (s.begin w) = none) (he : effect (s.begin w) = t) (hp : t.phase = .idle) : exec i s = .next t.complete := by
  subst he
  rw [exec_command hw hi, hb, command_checks_pass ha hc hp]

/-- A command whose checks find a fault ends in it. -/
theorem commandFaults_of_checked {f : Raised} (hw : (w, i) ∈ commandWords) (hi : i ≠ .init) (hb : commandBody i = checked check effect)
    (ha : s.accepting) (hc : check (s.begin w) = some f) : CommandFaults i w f.cause.code.toNat f.info s :=
  commandFaults_of_check ha (exec_command hw hi s) (by rw [hb, checked_of_fault hc])

/-! ## The checks of VNGREF and the EX commands -/

theorem mosaicFault_of_legal (hi : s.legalImage) (hc : s.legalCfa) : mosaicFault s = none := by
  rw [mosaicFault, (imageRegsFault_eq_none_iff s).2 hi, (cfaFault_eq_none_iff s).2 hc, Option.or_none]

theorem clipFault_of_zero (h : s.clipMax = 0) : clipFault s = some ⟨.eMeta, 0⟩ := if_pos h

theorem correctFault_of_legal (hi : s.legalImage) : correctFault s = clipFault s := by
  rw [correctFault, (imageRegsFault_eq_none_iff s).2 hi, Option.none_or]

/-- After the registers and the CFA word, VNGREF examines CLIP_MAX, and in quick mode nothing (41_demosaic R151, R152). -/
theorem vngFault_of_legal (hi : s.legalImage) (hc : s.legalCfa) : vngFault s = if s.quick then none else clipFault s := by
  rw [vngFault, mosaicFault_of_legal hi hc, Option.none_or]

/-- The lowest used channel with a zero multiplier (42_exposure R163). -/
theorem zeroMultiplier_eq_some {c : Lane} (hc : c.val < s.colors.toNat) (hzero : s.camMul.get c = 0)
    (hbelow : ∀ d : Lane, d.val < c.val → s.camMul.get d ≠ 0) : zeroMultiplier s = some c.val := by
  unfold zeroMultiplier
  rw [List.find?_range_eq_some]
  refine ⟨by rw [laneOf_val, hzero]; rfl, List.mem_range.2 hc, fun j hj => ?_⟩
  have hd := hbelow ⟨j, by omega⟩ hj
  rw [show laneOf j = ⟨j, by omega⟩ from laneOf_val ⟨j, by omega⟩]
  simpa using hd

theorem expsetupFault_of_low_maximum (hi : s.legalImage) (h : s.maximum.toNat ≤ s.black.toNat) :
    expsetupFault s = some ⟨.eMeta, s.maximum.toNat⟩ := by
  rw [expsetupFault, (imageRegsFault_eq_none_iff s).2 hi, Option.none_or, if_pos h]

theorem expsetupFault_of_zeroMultiplier {n : Nat} (hi : s.legalImage) (h : s.black.toNat < s.maximum.toNat) (hg : s.grayWorld = false)
    (hz : zeroMultiplier s = some n) : expsetupFault s = some ⟨.eMeta, n⟩ := by
  rw [expsetupFault, (imageRegsFault_eq_none_iff s).2 hi, Option.none_or, if_neg (by omega), hg, hz]
  rfl

/-- Settles O19: the earlier checks of each command pass, so its own check finds the fault. -/
theorem exposureChecks : Obligations.ExposureChecks := by
  refine ⟨fun s ha hi hclip => ⟨?_, ?_, fun hc hq => ?_⟩, fun s ha hi hmax => ?_, fun s c ha hi hmax hg hc hzero hbelow => ?_⟩
  · have hfault : correctFault (s.begin 0x21) = some ⟨.eMeta, 0⟩ := (correctFault_of_legal hi).trans (clipFault_of_zero hclip)
    exact commandFaults_of_checked (by decide) Instr.noConfusion rfl ha hfault
  · have hfault : correctFault (s.begin 0x22) = some ⟨.eMeta, 0⟩ := (correctFault_of_legal hi).trans (clipFault_of_zero hclip)
    exact commandFaults_of_checked (by decide) Instr.noConfusion rfl ha hfault
  · have hfault : vngFault (s.begin 0x11) = some ⟨.eMeta, 0⟩ := by
      rw [vngFault_of_legal (s := s.begin 0x11) hi hc, State.begin_quick, hq]
      exact clipFault_of_zero hclip
    exact commandFaults_of_checked (by decide) Instr.noConfusion rfl ha hfault
  · have hfault : expsetupFault (s.begin 0x20) = some ⟨.eMeta, s.maximum.toNat⟩ := expsetupFault_of_low_maximum hi hmax
    exact commandFaults_of_checked (by decide) Instr.noConfusion rfl ha hfault
  · have hfirst : zeroMultiplier (s.begin 0x20) = some c.val := zeroMultiplier_eq_some hc hzero hbelow
    have hfault : expsetupFault (s.begin 0x20) = some ⟨.eMeta, c.val⟩ := expsetupFault_of_zeroMultiplier hi hmax hg hfirst
    exact commandFaults_of_checked (by decide) Instr.noConfusion rfl ha hfault

/-! ## Commands that are turned off -/

/-- A command that begins and completes with nothing between has changed CMD and STATUS only. -/
theorem completed_begin_complete (w : BitVec 8) (ha : s.accepting) :
    Completed w (s.begin w).complete ∧ (s.begin w).complete.warned = s.warned ∧ (s.begin w).complete.ljReady = s.ljReady ∧
      (s.begin w).complete = { s with
        cmd := (s.begin w).complete.cmd, status := (s.begin w).complete.status, phase := (s.begin w).complete.phase } := by
  refine ⟨⟨by simp, by simp, by simp, by simp, ?_⟩, by simp, by simp, rfl⟩
  rw [State.complete_faulted, State.begin_faulted, ha.2]

theorem exec_vngref_quick (ha : s.accepting) (hi : s.legalImage) (hc : s.legalCfa) (hq : s.quick = true) :
    exec .vngref s = .next (s.begin 0x11).complete := by
  have hfault : vngFault (s.begin 0x11) = none := (vngFault_of_legal hi hc).trans (if_pos hq)
  exact exec_of_checks_pass (by decide) Instr.noConfusion rfl ha hfault (if_pos hq) rfl

theorem exec_diagrs_disabled (ha : s.accepting) (hi : s.legalImage) (hd : s.diagEnabled = false) :
    exec .diagrs s = .next (s.begin 0x30).complete := by
  have hoff : ¬ (s.begin 0x30).diagEnabled = true := by rw [State.begin_diagEnabled, hd]; decide
  have hfault : diagrsFault (s.begin 0x30) = none := by
    rw [diagrsFault, if_neg hoff, Option.or_none]
    exact (imageRegsFault_eq_none_iff s).2 hi
  exact exec_of_checks_pass (by decide) Instr.noConfusion rfl ha hfault (if_neg hoff) rfl

/-- Settles O43: past their checks both commands have the identity as their effect. -/
theorem disabledCommandsChangeNothing : Obligations.DisabledCommandsChangeNothing :=
  ⟨fun _ ha hi hc hq => ⟨_, exec_vngref_quick ha hi hc hq, completed_begin_complete 0x11 ha⟩,
    fun _ ha hi hd => ⟨_, exec_diagrs_disabled ha hi hd, completed_begin_complete 0x30 ha⟩⟩

end Sys2Proof.Machine
end

section
/-! PROOFS of the family 41_demosaic, continued: BILIN (41_demosaic R141 to R143). The machine sums over the list of the neighbours of a channel and the statement over
all nine offsets, the others counting 0: `sum_windowOf` says that the two are one sum. -/

namespace Sys2Proof.Machine

variable {s : State} {row col : Nat}

/-! ## Lanes of an image rewritten by rows and columns -/

/-- Lane `c` of pixel (row, col) after the image has been rewritten by a rule on rows and columns. -/
theorem State.sample_rewriteImage_byCoordinates (rule : Nat → Nat → Lane → Option Sample) (hr : row < s.height.toNat)
    (hc : col < s.width.toNat) (c : Lane) :
    (s.rewriteImage (s.byCoordinates rule)).sample (s.pixAddr row col c) = (rule row col c).getD (s.sample (s.pixAddr row col c)) := by
  obtain ⟨hp, hdiv, hmod⟩ := s.linear_index hr hc
  rw [State.pixAddr, s.sample_rewriteImage_pixel _ _ c hp, State.byCoordinates, hdiv, hmod]

/-- The state in which a command that rewrites the image by a rule on rows and columns, and nothing else, ends. -/
def State.imageRewritten (s : State) (w : BitVec 8) (rule : Nat → Nat → Lane → Option Sample) : State :=
  ((s.begin w).rewriteImage (s.byCoordinates rule)).complete

theorem imageCommandDone_imageRewritten (w : BitVec 8) (rule : Nat → Nat → Lane → Option Sample) (ha : s.accepting) :
    ImageCommandDone w s (s.imageRewritten w rule) := imageCommandDone_rewriteImage w _ ha

theorem State.imageRewritten_sample (w : BitVec 8) (rule : Nat → Nat → Lane → Option Sample) (hr : row < s.height.toNat)
    (hc : col < s.width.toNat) (c : Lane) :
    (s.imageRewritten w rule).sample (s.pixAddr row col c) = (rule row col c).getD (s.sample (s.pixAddr row col c)) := by
  rw [State.imageRewritten, State.complete_sample, ← State.begin_sample s w]
  exact State.sample_rewriteImage_byCoordinates (s := s.begin w) rule hr hc c

theorem State.pix_le (s : State) (row col : Nat) (c : Lane) : s.pix row col c ≤ 65535 := by
  have := (s.sample (s.pixAddr row col c)).isLt
  unfold State.pix
  omega

/-! ## The window of BILIN -/

/-- A weighted sum over the neighbours of a channel is the one over all nine offsets in which the others count 0 (41_demosaic R141). -/
theorem sum_windowOf (s : State) (row col : Nat) (c : Lane) (value : Nat → Nat → Nat) :
    ((windowOf s row col c).map (fun n => value n.1 n.2.1 <<< n.2.2)).sum = neighbourSum s row col c value := by
  have hfilter : ∀ l : List (Nat × Nat), ∀ g : Nat × Nat → Nat,
      ((l.filter (fun o => s.fc (row + o.1 - 1) (col + o.2 - 1) == c)).map g).sum =
        (l.map (fun o => if s.fc (row + o.1 - 1) (col + o.2 - 1) = c then g o else 0)).sum := by
    intro l g
    rw [List.sum_map_ite, List.map_const', List.sum_replicate, smul_zero, Nat.add_zero]
    rfl
  rw [windowOf, List.map_map, hfilter]
  simp [windowOffsets, windowShift, neighbourSum, List.range_succ, Nat.shiftLeft_eq, Nat.add_assoc]

theorem windowSum_eq (s : State) (row col : Nat) (c : Lane) :
    windowSum s row col c = neighbourSum s row col c (fun y x => s.pix y x c) := sum_windowOf s row col c (fun y x => s.pix y x c)

theorem windowWeight_eq (s : State) (row col : Nat) (c : Lane) :
    windowWeight s row col c = neighbourSum s row col c (fun _ _ => 1) := sum_windowOf s row col c (fun _ _ => 1)

/-- A weighted sum of samples is at most the largest sample times the weights. -/
theorem windowSum_le (s : State) (row col : Nat) (c : Lane) : windowSum s row col c ≤ 65535 * windowWeight s row col c := by
  unfold windowSum windowWeight
  rw [← List.sum_map_mul_left]
  refine List.sum_le_sum fun n _ => ?_
  rw [Nat.shiftLeft_eq, Nat.shiftLeft_eq, Nat.one_mul]
  exact Nat.mul_le_mul_right _ (s.pix_le n.1 n.2.1 c)

/-- The mean of the window is a sample (41_demosaic R141). -/
theorem windowMean_lt (s : State) (row col : Nat) (c : Lane) : windowSum s row col c / windowWeight s row col c < 2 ^ 16 :=
  Nat.lt_succ_of_le (Nat.div_le_of_le_mul (Nat.mul_comm _ _ ▸ windowSum_le s row col c))

/-! ## BILIN -/

/-- The lanes that BILIN writes (41_demosaic R141 to R143). -/
def State.bilinWrites (s : State) (row col : Nat) (c : Lane) : Prop :=
  s.inside 1 row col ∧ c.val < s.colors.toNat ∧ c ≠ s.fc row col ∧ neighbourSum s row col c (fun _ _ => 1) ≠ 0

theorem bilinLane_of_writes {c : Lane} (h : s.bilinWrites row col c) :
    bilinLane s row col c = some (BitVec.ofNat 16 (windowSum s row col c / windowWeight s row col c)) := by
  obtain ⟨⟨hr, hr', hc, hc'⟩, hcol, hf, hw⟩ := h
  exact if_pos ⟨hr, by omega, hc, by omega, hcol, hf, by rwa [windowWeight_eq]⟩

theorem bilinLane_of_not_writes {c : Lane} (h : ¬ s.bilinWrites row col c) : bilinLane s row col c = none := by
  refine if_neg fun ⟨hr, hr', hc, hc', hcol, hf, hw⟩ => h ⟨⟨hr, by omega, hc, by omega⟩, hcol, hf, ?_⟩
  rwa [← windowWeight_eq]

theorem exec_bilin_of_legal (ha : s.accepting) (hi : s.legalImage) (hc : s.legalCfa) :
    exec .bilin s = .next (s.imageRewritten 0x10 (bilinLane s)) :=
  exec_of_checks_pass (by decide) Instr.noConfusion rfl ha (mosaicFault_of_legal (s := s.begin 0x10) hi hc) rfl
    (State.rewriteImage_phase _ _)

/-- Settles O41: the lane's new value is the mean over its window, which is a sample. -/
theorem bilinAveragesNeighbours : Obligations.BilinAveragesNeighbours := by
  intro s ha hi hc
  refine ⟨_, exec_bilin_of_legal ha hi hc, imageCommandDone_imageRewritten 0x10 _ ha, fun row col c hr hcol => ⟨fun h => ?_, fun h => ?_⟩⟩
  · rw [State.imageRewritten_sample 0x10 _ hr hcol, bilinLane_of_writes h, Option.getD_some, BitVec.toNat_ofNat,
      Nat.mod_eq_of_lt (windowMean_lt s row col c), windowSum_eq, windowWeight_eq]
  · rw [State.imageRewritten_sample 0x10 _ hr hcol, bilinLane_of_not_writes h, Option.getD_none]

end Sys2Proof.Machine
end

section
/-! PROOFS of the family 41_demosaic, continued: VNGREF (41_demosaic R144 to R150, R153). The machine computes in natural numbers at offset coordinates, the
statement in integers at signed ones; off the 2-pixel border no coordinate is negative (41_demosaic R154), so the two computations agree piece by piece. -/

namespace Sys2Proof.Machine

variable {s : State} {row col i : Nat} {g : List Nat}

/-! ## Reads at signed coordinates -/

theorem fcAt_natCast (s : State) (row col : Nat) : fcAt s row col = s.fc row col := rfl

theorem seedAt_natCast (s : State) (row col : Nat) (k : Lane) : seedAt s row col k = s.pix row col k := rfl

/-- A term's offset from a coordinate off the border does not leave the natural numbers (41_demosaic R154). -/
theorem moved_cast {x : Nat} (hx : 2 ≤ x) (o : Fin 5) : (x : Int) + ((o.val : Int) - 2) = (moved x o : Nat) := by
  unfold moved
  omega

theorem gap_cast (a b : Nat) : ((gap a b : Nat) : Int) = |(a : Int) - b| := by
  obtain h | h := le_total a b
  · rw [abs_of_nonpos (by omega), gap, max_eq_right h, min_eq_left h]
    omega
  · rw [abs_of_nonneg (by omega), gap, max_eq_left h, min_eq_right h]
    omega

/-! ## Gradients -/

/-- `diag`: how far apart in both coordinates the ends of a dropped term are (41_demosaic R146). -/
def droppedReach (s : State) (row col : Nat) (k : Lane) : Nat := if s.fc row (col + 1) = k ∧ s.fc (row + 1) col = k then 2 else 1

/-- A term is skipped where its ends are of two channels, and where they are `droppedReach` apart in both coordinates (41_demosaic R146). -/
theorem termDelta_eq (s : State) (row col : Nat) (t : VngTerm) {k : Lane} (hk : s.fc (moved row t.y1) (moved col t.x1) = k) :
    termDelta s row col t =
      if s.fc (moved row t.y2) (moved col t.x2) ≠ k then none
      else if gap t.y1.val t.y2.val = droppedReach s row col k ∧ gap t.x1.val t.x2.val = droppedReach s row col k then none
      else some (gap (s.pix (moved row t.y1) (moved col t.x1) k) (s.pix (moved row t.y2) (moved col t.x2) k) <<< t.w.val) := by
  subst hk
  rfl

/-- What a term adds to gradient `i` is what the machine adds in the term's directions (41_demosaic R146). -/
theorem termGradient_eq (hr : 2 ≤ row) (hc : 2 ≤ col) (t : VngTerm) (i : Nat) :
    termGradient s row col t i = if t.dirs.getLsbD i then (((termDelta s row col t).getD 0 : Nat) : Int) else 0 := by
  have hrow : fcAt s row (col + 1) = s.fc row (col + 1) := rfl
  have hcol : fcAt s (row + 1) col = s.fc (row + 1) col := rfl
  have hy : |(t.y1.val : Int) - 2 - ((t.y2.val : Int) - 2)| = (gap t.y1.val t.y2.val : Nat) := by rw [gap_cast]; congr 1; omega
  have hx : |(t.x1.val : Int) - 2 - ((t.x2.val : Int) - 2)| = (gap t.x1.val t.x2.val : Nat) := by rw [gap_cast]; congr 1; omega
  have hint : ∀ k : Lane, (if s.fc row (col + 1) = k ∧ s.fc (row + 1) col = k then (2 : Int) else 1) = (droppedReach s row col k : Nat) :=
    fun k => (Nat.cast_ite _ 2 1).symm
  rw [termDelta_eq s row col t rfl]
  unfold termGradient
  simp only [moved_cast hr, moved_cast hc, fcAt_natCast, seedAt_natCast, hrow, hcol, hy, hx, hint, Nat.cast_inj, ← gap_cast]
  by_cases hi : t.dirs.getLsbD i
  · simp only [if_pos hi]
    split_ifs
    · rfl
    · rfl
    · rw [Option.getD_some, Nat.shiftLeft_eq, Nat.cast_mul, Nat.cast_pow, Nat.cast_ofNat]
  · simp only [if_neg hi, ite_self]

/-- A gradient of the used terms is the sum over all terms, the skipped ones adding 0. -/
theorem gradientOf_usedTerms (s : State) (row col i : Nat) :
    gradientOf (usedTerms s row col) i =
      (s.params.vngTerms.map (fun t => if t.dirs.getLsbD i then (termDelta s row col t).getD 0 else 0)).sum := by
  unfold usedTerms
  induction s.params.vngTerms with
  | nil => rfl
  | cons t ts ih =>
    rw [List.map_cons, List.sum_cons, ← ih, List.filterMap_cons]
    cases hd : termDelta s row col t with
    | none => simp
    | some d => by_cases hi : t.dirs.getLsbD i <;> simp [gradientOf, hi]

theorem gradientAt_eq (hr : 2 ≤ row) (hc : 2 ≤ col) (i : Nat) :
    gradientAt s row col i = (gradientOf (usedTerms s row col) i : Nat) := by
  rw [gradientOf_usedTerms, gradientAt, Nat.cast_list_sum, List.map_map]
  refine congrArg List.sum (List.map_congr_left fun t _ => ?_)
  rw [termGradient_eq hr hc, Function.comp_apply, Nat.cast_ite, Nat.cast_zero]

theorem mem_gradients {x : Nat} : x ∈ gradients s row col ↔ ∃ i, i < 8 ∧ gradientOf (usedTerms s row col) i = x := by
  simp [gradients]

theorem gradients_getD (hi : i < 8) : (gradients s row col).getD i 0 = gradientOf (usedTerms s row col) i := by
  simp [gradients, hi]

/-! ## The threshold -/

theorem leastOf_eq {m : Nat} (hm : m ∈ g) (hle : ∀ x ∈ g, m ≤ x) : leastOf g = m := by
  cases g with
  | nil => exact absurd hm List.not_mem_nil
  | cons x xs =>
    have hmin : (x :: xs).min? = some m := List.min?_eq_some_iff.2 ⟨hm, hle⟩
    rw [List.min?_cons'] at hmin
    rw [leastOf, List.headD_cons, List.foldl_cons, min_self]
    exact Option.some.inj hmin

theorem greatestOf_eq {m : Nat} (hm : m ∈ g) (hle : ∀ x ∈ g, x ≤ m) : greatestOf g = m := by
  cases g with
  | nil => exact absurd hm List.not_mem_nil
  | cons x xs =>
    have hmax : (x :: xs).max? = some m := List.max?_eq_some_iff.2 ⟨hm, hle⟩
    rw [List.max?_cons'] at hmax
    rw [greatestOf, List.foldl_cons, Nat.zero_max]
    exact Option.some.inj hmax

/-- `gmin` of the statement is the machine's (41_demosaic R144). -/
theorem leastOf_gradients (hr : 2 ≤ row) (hc : 2 ≤ col) {lo : Int} (hlo : ∃ i, i < 8 ∧ gradientAt s row col i = lo)
    (hle : ∀ i, i < 8 → lo ≤ gradientAt s row col i) : ((leastOf (gradients s row col) : Nat) : Int) = lo := by
  obtain ⟨i, hi, rfl⟩ := hlo
  rw [gradientAt_eq hr hc, Nat.cast_inj]
  refine leastOf_eq (mem_gradients.2 ⟨i, hi, rfl⟩) fun x hx => ?_
  obtain ⟨j, hj, rfl⟩ := mem_gradients.1 hx
  simpa only [gradientAt_eq hr hc, Nat.cast_le] using hle j hj

/-- `gmax` of the statement is the machine's (41_demosaic R144). -/
theorem greatestOf_gradients (hr : 2 ≤ row) (hc : 2 ≤ col) {hi : Int} (hhi : ∃ i, i < 8 ∧ gradientAt s row col i = hi)
    (hle : ∀ i, i < 8 → gradientAt s row col i ≤ hi) : ((greatestOf (gradients s row col) : Nat) : Int) = hi := by
  obtain ⟨i, hi, rfl⟩ := hhi
  rw [gradientAt_eq hr hc, Nat.cast_inj]
  refine greatestOf_eq (mem_gradients.2 ⟨i, hi, rfl⟩) fun x hx => ?_
  obtain ⟨j, hj, rfl⟩ := mem_gradients.1 hx
  simpa only [gradientAt_eq hr hc, Nat.cast_le] using hle j hj

/-- The selected directions are those whose gradient is not above `lo + (hi - lo) / 2` (41_demosaic R147). -/
theorem selected_gradients (hr : 2 ≤ row) (hc : 2 ≤ col) {lo hi : Int} (hlo : ((leastOf (gradients s row col) : Nat) : Int) = lo)
    (hhi : ((greatestOf (gradients s row col) : Nat) : Int) = hi) (hle : lo ≤ hi) :
    selected (gradients s row col) = (List.range 8).filter (fun i => decide (gradientAt s row col i ≤ lo + (hi - lo) / 2)) := by
  have hth : ((threshold (gradients s row col) : Nat) : Int) = lo + (hi - lo) / 2 := by
    unfold threshold
    omega
  refine List.filter_congr fun i hi => ?_
  rw [gradients_getD (List.mem_range.1 hi), gradientAt_eq hr hc, ← hth]
  exact decide_eq_decide.2 Nat.cast_le.symm

/-! ## Refined lanes -/

/-- The machine holds each direction's unit offset with 1 added (41_demosaic R145). -/
theorem directions_compass : ∀ i, i < 8 →
    ((directions.getD i (1, 1)).1 : Int) = (compass.getD i (0, 0)).1 + 1 ∧ ((directions.getD i (1, 1)).2 : Int) = (compass.getD i (0, 0)).2 + 1 := by
  decide

/-- A direction's contribution is the machine's (41_demosaic R148). -/
theorem contributionAt_eq (hr : 2 ≤ row) (hc : 2 ≤ col) (hi : i < 8) (c : Lane) :
    contributionAt s row col i c = (contribution s row col i c : Nat) := by
  obtain ⟨hy, hx⟩ := directions_compass i hi
  have hadjRow : (row : Int) + (compass.getD i (0, 0)).1 = (row + (directions.getD i (1, 1)).1 - 1 : Nat) := by omega
  have hadjCol : (col : Int) + (compass.getD i (0, 0)).2 = (col + (directions.getD i (1, 1)).2 - 1 : Nat) := by omega
  have hfarRow : (row : Int) + 2 * (compass.getD i (0, 0)).1 = (row + 2 * (directions.getD i (1, 1)).1 - 2 : Nat) := by omega
  have hfarCol : (col : Int) + 2 * (compass.getD i (0, 0)).2 = (col + 2 * (directions.getD i (1, 1)).2 - 2 : Nat) := by omega
  unfold contributionAt contribution
  simp only [hadjRow, hadjCol, hfarRow, hfarCol, fcAt_natCast, seedAt_natCast, Nat.shiftRight_eq_div_pow]
  split_ifs
  · push_cast
    rfl
  · rfl

/-- A contribution is no larger than the largest sample (41_demosaic R150). -/
theorem contribution_le (s : State) (row col i : Nat) (c : Lane) : contribution s row col i c ≤ 65535 := by
  unfold contribution
  dsimp only
  split_ifs
  · have h1 := s.pix_le row col (s.fc row col)
    have h2 := s.pix_le (row + 2 * (directions.getD i (1, 1)).1 - 2) (col + 2 * (directions.getD i (1, 1)).2 - 2) (s.fc row col)
    rw [Nat.shiftRight_eq_div_pow]
    omega
  · exact s.pix_le _ _ c

/-- The native average is a sample (41_demosaic R150). -/
theorem nativeAverage_lt (s : State) (row col : Nat) (dirs : List Nat) (c : Lane) :
    contributionSum s row col dirs c / dirs.length < 2 ^ 16 := by
  have hsum : contributionSum s row col dirs c ≤ dirs.length * 65535 := by
    simpa [contributionSum] using List.sum_le_card_nsmul (dirs.map (fun i => contribution s row col i c)) 65535
      (by simpa using fun i _ => contribution_le s row col i c)
  exact Nat.lt_succ_of_le (Nat.div_le_of_le_mul hsum)

theorem contributionSum_cast (hr : 2 ≤ row) (hc : 2 ≤ col) {dirs : List Nat} (hd : ∀ i ∈ dirs, i < 8) (c : Lane) :
    (dirs.map (fun i => contributionAt s row col i c)).sum = (contributionSum s row col dirs c : Nat) := by
  rw [contributionSum, Nat.cast_list_sum, List.map_map]
  exact congrArg List.sum (List.map_congr_left fun i hi => contributionAt_eq hr hc (hd i hi) c)

theorem State.clip_cast (s : State) (v : Int) : (((s.clip v).toNat : Nat) : Int) = max 0 (min v s.clipMax.toNat) := by
  have hmax := s.clipMax.isLt
  have hlt : clampTo s.clipMax.toNat v < 2 ^ 16 := by unfold clampTo; omega
  rw [State.clip, BitVec.toNat_ofNat, Nat.mod_eq_of_lt hlt]
  unfold clampTo
  omega

/-- The refined lane is the statement's (41_demosaic R150). -/
theorem refinedLane_cast (hr : 2 ≤ row) (hc : 2 ≤ col) {dirs : List Nat} (hd : ∀ i ∈ dirs, i < 8) (c : Lane) :
    (((refinedLane s row col dirs c).toNat : Nat) : Int) = refinedAt s row col dirs c := by
  unfold refinedLane refinedAt
  simp only [fcAt_natCast, seedAt_natCast, contributionSum_cast hr hc hd]
  split_ifs
  · rw [BitVec.toNat_ofNat, Nat.mod_eq_of_lt (nativeAverage_lt s row col dirs _)]
    exact Int.natCast_div _ _
  · exact s.clip_cast _

/-! ## VNGREF -/

theorem vngLane_of_inside {c : Lane} (h : s.inside 2 row col) (hc : c.val < s.colors.toNat) :
    vngLane s row col c = if greatestOf (gradients s row col) = 0 then none
      else some (refinedLane s row col (selected (gradients s row col)) c) := by
  obtain ⟨hr, hr', hcol, hcol'⟩ := h
  exact if_pos ⟨hr, by omega, hcol, by omega, hc⟩

theorem vngLane_of_not_inside {c : Lane} (h : ¬ (s.inside 2 row col ∧ c.val < s.colors.toNat)) : vngLane s row col c = none :=
  if_neg fun ⟨hr, hr', hcol, hcol', hc⟩ => h ⟨⟨hr, by omega, hcol, by omega⟩, hc⟩

theorem exec_vngref_of_legal (ha : s.accepting) (hi : s.legalImage) (hc : s.legalCfa) (hq : s.quick = false) (hclip : s.clipMax ≠ 0) :
    exec .vngref s = .next (s.imageRewritten 0x11 (vngLane s)) := by
  have hslow : ¬ (s.begin 0x11).quick = true := by rw [State.begin_quick, hq]; decide
  have hfault : vngFault (s.begin 0x11) = none :=
    (vngFault_of_legal (s := s.begin 0x11) hi hc).trans ((if_neg hslow).trans ((clipFault_eq_none_iff s).2 hclip))
  exact exec_of_checks_pass (by decide) Instr.noConfusion rfl ha hfault (if_neg hslow) (State.rewriteImage_phase _ _)

/-- Settles O42: gradients, threshold, selection and refined lanes of the machine are the statement's. -/
theorem vngrefRefinesPixels : Obligations.VngrefRefinesPixels := by
  intro s ha hi hc hq hclip
  refine ⟨_, exec_vngref_of_legal ha hi hc hq hclip, imageCommandDone_imageRewritten 0x11 _ ha, fun row col c hrow hcol => ?_⟩
  rw [State.imageRewritten_sample 0x11 _ hrow hcol]
  refine ⟨fun h => by rw [vngLane_of_not_inside h, Option.getD_none], fun hin hcl lo hi hlo hlole hhi hhile => ?_⟩
  have ⟨hr2, _, hc2, _⟩ := hin
  have hleast := leastOf_gradients hr2 hc2 hlo hlole
  have hgreatest := greatestOf_gradients hr2 hc2 hhi hhile
  have hle : lo ≤ hi := by
    obtain ⟨i, hi8, rfl⟩ := hlo
    exact hhile i hi8
  rw [vngLane_of_inside hin hcl]
  refine ⟨fun h0 => ?_, fun h0 => ?_⟩
  · rw [if_pos (by omega), Option.getD_none]
  · rw [if_neg (by omega), Option.getD_some, selected_gradients hr2 hc2 hleast hgreatest hle]
    exact refinedLane_cast hr2 hc2 (fun i hi8 => List.mem_range.1 (List.mem_filter.1 hi8).1) c

end Sys2Proof.Machine
end

section
/-! PROOFS of the family 41_demosaic, continued: a flat field (41_demosaic R155). BILIN writes the mean of samples that are all `v`; VNGREF then reads native lanes only
to find every gradient 0, and leaves every pixel as seeded. -/

namespace Sys2Proof.Machine

variable {s t : State} {row col v : Nat}

/-- Every native sample of the image is `v`. -/
def State.flatAt (s : State) (v : Nat) : Prop :=
  ∀ row col, row < s.height.toNat → col < s.width.toNat → s.pix row col (s.fc row col) = v

/-! ## What an image command keeps -/

theorem OnlyImagesChange.fc (h : OnlyImagesChange s t) (row col : Nat) : t.fc row col = s.fc row col :=
  (congrArg (fun u : State => u.fc row col) h :)

theorem OnlyImagesChange.width (h : OnlyImagesChange s t) : t.width = s.width := (congrArg State.width h :)

theorem OnlyImagesChange.height (h : OnlyImagesChange s t) : t.height = s.height := (congrArg State.height h :)

theorem OnlyImagesChange.clipMax (h : OnlyImagesChange s t) : t.clipMax = s.clipMax := (congrArg State.clipMax h :)

theorem OnlyImagesChange.legalImage (h : OnlyImagesChange s t) : t.legalImage ↔ s.legalImage :=
  iff_of_eq (congrArg State.legalImage h :)

theorem OnlyImagesChange.legalCfa (h : OnlyImagesChange s t) : t.legalCfa ↔ s.legalCfa :=
  iff_of_eq (congrArg State.legalCfa h :)

/-- A lane is read at the same address as long as WIDTH is kept. -/
theorem OnlyImagesChange.pix (h : OnlyImagesChange s t) (row col : Nat) (c : Lane) :
    t.pix row col c = (t.sample (s.pixAddr row col c)).toNat := by
  rw [State.pix, State.pixAddr, State.pixAddr, h.width]

theorem Completed.accepting {w : BitVec 8} (h : Completed w t) : t.accepting := by
  obtain ⟨-, -, hbusy, -, hfault⟩ := h
  exact ⟨hbusy, hfault⟩

/-! ## BILIN on a flat field -/

theorem mem_windowOf {c : Lane} {n : Nat × Nat × Nat} (h : n ∈ windowOf s row col c) :
    ∃ dy dx, dy ≤ 2 ∧ dx ≤ 2 ∧ n.1 = row + dy - 1 ∧ n.2.1 = col + dx - 1 ∧ s.fc n.1 n.2.1 = c := by
  have hoffset : ∀ o ∈ windowOffsets, o.1 ≤ 2 ∧ o.2 ≤ 2 := by decide
  obtain ⟨o, ho, rfl⟩ := List.mem_map.1 h
  obtain ⟨hmem, hc⟩ := List.mem_filter.1 ho
  obtain ⟨hy, hx⟩ := hoffset o hmem
  exact ⟨o.1, o.2, hy, hx, rfl, rfl, beq_iff_eq.1 hc⟩

/-- Off the border every neighbour is a pixel of the image, so the window's sum is `v` times its weights (41_demosaic R155). -/
theorem windowSum_of_flat (h : s.flatAt v) (hin : s.inside 1 row col) (c : Lane) :
    windowSum s row col c = v * windowWeight s row col c := by
  obtain ⟨hr, hr', hc, hc'⟩ := hin
  rw [windowSum, windowWeight, ← List.sum_map_mul_left]
  refine congrArg List.sum (List.map_congr_left fun n hn => ?_)
  obtain ⟨dy, dx, hy, hx, hrow, hcol, rfl⟩ := mem_windowOf hn
  rw [h n.1 n.2.1 (by omega) (by omega), Nat.shiftLeft_eq, Nat.one_shiftLeft]

/-- What BILIN leaves of a flat field: `v` in every native lane and in every lane it writes (41_demosaic R155). -/
theorem bilin_of_flat (ha : s.accepting) (hi : s.legalImage) (hc : s.legalCfa) (h : s.flatAt v) :
    ∃ t, exec .bilin s = .next t ∧ t.accepting ∧ OnlyImagesChange s t ∧ t.flatAt v ∧
      ∀ row col (c : Lane), s.inside 1 row col → c.val < s.colors.toNat → neighbourSum s row col c (fun _ _ => 1) ≠ 0 →
        t.pix row col c = v := by
  obtain ⟨t, hexec, ⟨hdone, -, -, honly, -, -⟩, hlanes⟩ := bilinAveragesNeighbours s ha hi hc
  have hnative : ∀ row col, row < s.height.toNat → col < s.width.toNat → t.pix row col (s.fc row col) = v := fun row col hr hcol => by
    rw [honly.pix, (hlanes row col _ hr hcol).2 (fun hw => hw.2.2.1 rfl)]
    exact h row col hr hcol
  refine ⟨t, hexec, hdone.accepting, honly, fun row col hr hcol => ?_, fun row col c hin hcl hw => ?_⟩
  · rw [honly.height] at hr
    rw [honly.width] at hcol
    rw [honly.fc]
    exact hnative row col hr hcol
  · have ⟨_, hr, _, hcol⟩ := hin
    by_cases hf : c = s.fc row col
    · rw [hf]
      exact hnative row col (by omega) (by omega)
    · rw [honly.pix, (hlanes row col c (by omega) (by omega)).1 ⟨hin, hcl, hf, hw⟩, ← windowSum_eq, ← windowWeight_eq,
        windowSum_of_flat h hin]
      rw [← windowWeight_eq] at hw
      exact Nat.mul_div_cancel _ (Nat.pos_of_ne_zero hw)

/-! ## VNGREF on a flat field -/

/-- A term compares two native samples, so in a flat field it adds nothing (41_demosaic R155). -/
theorem termDelta_of_flat (h : s.flatAt v) (hin : s.inside 2 row col) (t : VngTerm) : (termDelta s row col t).getD 0 = 0 := by
  obtain ⟨hr, hr', hc, hc'⟩ := hin
  have hread : ∀ y x : Fin 5, s.pix (moved row y) (moved col x) (s.fc (moved row y) (moved col x)) = v :=
    fun y x => h _ _ (by unfold moved; omega) (by unfold moved; omega)
  rw [termDelta_eq s row col t rfl]
  split_ifs with hk
  · rfl
  · rfl
  · rw [hread, ← not_not.1 hk, hread]
    simp [gap]

theorem greatestOf_gradients_of_flat (h : s.flatAt v) (hin : s.inside 2 row col) : greatestOf (gradients s row col) = 0 := by
  have hzero : ∀ i, gradientOf (usedTerms s row col) i = 0 := fun i => by
    simp [gradientOf_usedTerms, termDelta_of_flat h hin]
  refine greatestOf_eq (mem_gradients.2 ⟨0, by decide, hzero 0⟩) fun x hx => ?_
  obtain ⟨i, -, rfl⟩ := mem_gradients.1 hx
  exact (hzero i).le

theorem vngLane_of_flat (h : s.flatAt v) (row col : Nat) (c : Lane) : vngLane s row col c = none := by
  by_cases hin : s.inside 2 row col ∧ c.val < s.colors.toNat
  · rw [vngLane_of_inside hin.1 hin.2, if_pos (greatestOf_gradients_of_flat h hin.1)]
  · exact vngLane_of_not_inside hin

/-- VNGREF leaves a flat field as it was, in quick mode and otherwise (41_demosaic R147, R151, R155). -/
theorem vngref_of_flat (ha : s.accepting) (hi : s.legalImage) (hc : s.legalCfa) (hclip : s.clipMax ≠ 0) (h : s.flatAt v) :
    ∃ u, exec .vngref s = .next u ∧ u.faulted = false ∧
      ∀ row col (c : Lane), row < s.height.toNat → col < s.width.toNat → u.pix row col c = s.pix row col c := by
  by_cases hq : s.quick = true
  · obtain ⟨u, hexec, hdone, -, -, hu⟩ := disabledCommandsChangeNothing.1 s ha hi hc hq
    exact ⟨u, hexec, hdone.accepting.2, fun row col c _ _ => (congrArg (fun t : State => t.pix row col c) hu :)⟩
  · have hdone := imageCommandDone_imageRewritten 0x11 (vngLane s) ha
    obtain ⟨hcompleted, -, -, honly, -, -⟩ := hdone
    refine ⟨_, exec_vngref_of_legal ha hi hc (by simpa using hq) hclip, hcompleted.accepting.2, fun row col c hr hcol => ?_⟩
    rw [honly.pix, State.imageRewritten_sample 0x11 _ hr hcol, vngLane_of_flat h, Option.getD_none]
    rfl

/-- Settles O44: BILIN fills the missing lanes with `v`, and VNGREF changes nothing. -/
theorem flatFieldStaysFlat : Obligations.FlatFieldStaysFlat := by
  intro s v ha hi hc hclip h
  obtain ⟨t, hbilin, hta, honly, hflat, hfilled⟩ := bilin_of_flat ha hi hc h
  obtain ⟨u, hvngref, hok, hsame⟩ :=
    vngref_of_flat hta (honly.legalImage.2 hi) (honly.legalCfa.2 hc) (by rwa [honly.clipMax]) hflat
  rw [honly.height, honly.width] at hsame
  refine ⟨t, u, hbilin, hvngref, hok, fun row col hr hcol => ?_, fun row col c hin hcl hw => ?_⟩
  · rw [hsame row col _ hr hcol, ← honly.fc]
    exact hflat row col (by rwa [honly.height]) (by rwa [honly.width])
  · have ⟨_, hr, _, hcol⟩ := hin
    rw [hsame row col c (by omega) (by omega)]
    exact hfilled row col c hin hcl hw

end Sys2Proof.Machine
end

section
/-! PROOFS of the family 42_exposure: EXPAPPLY (42_exposure R170) and CMATRIX (R172). Both rewrite the image pixel by pixel by a rule that reads the image before the
command, so each statement is its rule's value, read as an integer. -/

namespace Sys2Proof.Machine

variable {s : State}

/-! ## Commands that correct the image pixel by pixel -/

theorem correctFault_eq_none (hi : s.legalImage) (hclip : s.clipMax ≠ 0) : correctFault s = none :=
  (correctFault_of_legal hi).trans ((clipFault_eq_none_iff s).2 hclip)

/-- The state in which a command that rewrites the image by a rule on linear pixel indices, and nothing else, ends. -/
def State.imageCorrected (s : State) (w : BitVec 8) (rule : Nat → Lane → Option Sample) : State := ((s.begin w).rewriteImage rule).complete

theorem State.imageCorrected_sample (s : State) (w : BitVec 8) (rule : Nat → Lane → Option Sample) {p : Nat} (hp : p < s.pixels) (k : Lane) :
    (s.imageCorrected w rule).sample (4 * p + k.val) = (rule p k).getD (s.sample (4 * p + k.val)) := by
  rw [State.imageCorrected, State.complete_sample, ← State.begin_sample s w]
  exact (s.begin w).sample_rewriteImage_pixel rule p k hp

/-- A lane whose rule clips a value holds that value, clamped to 0 .. CLIP_MAX. -/
theorem State.imageCorrected_sample_of_clip {w : BitVec 8} {rule : Nat → Lane → Option Sample} {p : Nat} (hp : p < s.pixels) {k : Lane} {v : Int}
    (hrule : rule p k = some (s.clip v)) :
    (((s.imageCorrected w rule).sample (4 * p + k.val)).toNat : Int) = max 0 (min v s.clipMax.toNat) := by
  rw [s.imageCorrected_sample w rule hp k, hrule, Option.getD_some, s.clip_cast]

theorem State.imageCorrected_sample_of_none {w : BitVec 8} {rule : Nat → Lane → Option Sample} {p : Nat} (hp : p < s.pixels) {k : Lane}
    (hrule : rule p k = none) : (s.imageCorrected w rule).sample (4 * p + k.val) = s.sample (4 * p + k.val) := by
  rw [s.imageCorrected_sample w rule hp k, hrule, Option.getD_none]

/-! ## EXPAPPLY -/

theorem exec_expapply_of_legal (ha : s.accepting) (hi : s.legalImage) (hclip : s.clipMax ≠ 0) :
    exec .expapply s = .next (s.imageCorrected 0x21 (expapplyLane s)) :=
  exec_of_checks_pass (by decide) Instr.noConfusion rfl ha (correctFault_eq_none (s := s.begin 0x21) hi hclip) rfl
    (State.rewriteImage_phase _ _)

theorem expapplyLane_of_used {c : Lane} (hc : c.val < s.colors.toNat) (p : Nat) :
    expapplyLane s p c = some (s.clip (((s.sample (4 * p + c.val)).toNat - s.black.toNat : Int) * (s.premul.get c).toNat / 65536)) :=
  if_pos hc

theorem expapplyLane_of_unused {c : Lane} (hc : s.colors.toNat ≤ c.val) (p : Nat) : expapplyLane s p c = none := if_neg (by omega)

/-- Settles O47: the used lanes hold the clipped product, and the rule gives the others no value. -/
theorem expapplyScalesAndClamps : Obligations.ExpapplyScalesAndClamps := by
  intro s ha hi hclip
  refine ⟨_, exec_expapply_of_legal ha hi hclip, imageCommandDone_rewriteImage 0x21 _ ha, fun row col c hr hcol => ?_⟩
  have hp : row * s.width.toNat + col < s.pixels := (s.linear_index hr hcol).1
  exact ⟨fun hc => State.imageCorrected_sample_of_clip hp (expapplyLane_of_used hc _),
    fun hc => State.imageCorrected_sample_of_none hp (expapplyLane_of_unused hc _)⟩

/-! ## CMATRIX -/

theorem exec_cmatrix_of_legal (ha : s.accepting) (hi : s.legalImage) (hclip : s.clipMax ≠ 0) :
    exec .cmatrix s = .next (s.imageCorrected 0x22 (cmatrixLane s)) :=
  exec_of_checks_pass (by decide) Instr.noConfusion rfl ha (correctFault_eq_none (s := s.begin 0x22) hi hclip) rfl
    (State.rewriteImage_phase _ _)

theorem Cmat.coeff_eq_row (m : Cmat) (k : Fin 3) (j : Lane) : m.coeff k j = ((m.row k).get j).toInt := by
  fin_cases k <;> rfl

/-- A sum over the first `n` channels is one over all four in which the others count 0. -/
theorem sum_range_channels {n : Nat} (hn : n ≤ 4) (f : Nat → Int) :
    ((List.range n).map f).sum = ∑ j : Lane, if j.val < n then f j.val else 0 := by
  have hrange : Finset.range n = (Finset.range 4).filter (· < n) := by
    ext j
    simp only [Finset.mem_range, Finset.mem_filter]
    omega
  calc ((List.range n).map f).sum = ∑ j ∈ Finset.range n, f j := rfl
    _ = ∑ j ∈ Finset.range 4, if j < n then f j else 0 := by rw [hrange, Finset.sum_filter]
    _ = ∑ j : Lane, if j.val < n then f j.val else 0 := Finset.sum_range _

theorem matrixProduct_eq_dotProduct (hi : s.legalImage) (p : Nat) (k : Fin 3) : matrixProduct s p k = s.dotProduct (s.cmat.row k) p := by
  obtain ⟨-, -, hcolors, -⟩ := hi
  rw [matrixProduct, sum_range_channels (by omega)]
  refine Finset.sum_congr rfl fun j _ => ?_
  rw [laneOf_val, Cmat.coeff_eq_row]

/-- A lane of a pixel that is a colour of the corrected image gets the dot product with its row of the matrix. -/
theorem cmatrixLane_castSucc (hi : s.legalImage) (p : Nat) (k : Fin 3) :
    cmatrixLane s p k.castSucc = some (s.clip (s.dotProduct (s.cmat.row k) p / 65536)) := by
  rw [← matrixProduct_eq_dotProduct hi]
  fin_cases k <;> rfl

/-- Settles O48: the dot products are the statement's, and the rule gives lane 3 no value. -/
theorem cmatrixAppliesMatrix : Obligations.CmatrixAppliesMatrix := by
  intro s ha hi hclip
  exact ⟨_, exec_cmatrix_of_legal ha hi hclip, imageCommandDone_rewriteImage 0x22 _ ha, fun p hp =>
    ⟨fun k => State.imageCorrected_sample_of_clip hp (cmatrixLane_castSucc hi p k),
      State.imageCorrected_sample_of_none hp (k := 3) rfl⟩⟩

end Sys2Proof.Machine
end

section
/-! PROOFS of the family 42_exposure, continued: the registers EXPSETUP computes (42_exposure R161, R163, R166 to R168). Multipliers are fractions, and the least of
them is any that is at most each other one: two such fractions are equal, so they normalise alike. -/

namespace Sys2Proof.Machine

variable {s : State} {k : Nat}

/-! ## The shift -/

/-- `k` is the shift of a ceiling (42_exposure R166): the smallest that brings it to 0x8000 or above; it keeps the ceiling in 16 bits. -/
structure IsShift (ceil0 k : Nat) : Prop where
  le : k ≤ 15
  reaches : 0x8000 ≤ ceil0 * 2 ^ k
  fits : ceil0 * 2 ^ k ≤ 0xFFFF
  least : ∀ j, j < k → ceil0 * 2 ^ j < 0x8000

theorem shiftFor_isShift {ceil0 : Nat} (h1 : 1 ≤ ceil0) (h16 : ceil0 ≤ 0xFFFF) : IsShift ceil0 (shiftFor ceil0) := by
  have hfound : ∃ k, (List.range 16).find? (fun k => decide (Config.shiftTarget ≤ ceil0 <<< k)) = some k := by
    rw [← Option.isSome_iff_exists, List.find?_isSome]
    exact ⟨15, by decide, decide_eq_true (by rw [Nat.shiftLeft_eq, Config.shiftTarget]; omega)⟩
  obtain ⟨k, hk⟩ := hfound
  have hshift : shiftFor ceil0 = k := by rw [shiftFor, hk, Option.getD_some]
  simp only [List.find?_range_eq_some, List.mem_range, Config.shiftTarget, Nat.shiftLeft_eq, decide_eq_true_eq, Bool.not_eq_true',
    decide_eq_false_iff_not, not_le] at hk
  obtain ⟨hreaches, hlt, hleast⟩ := hk
  rw [hshift]
  refine ⟨by omega, hreaches, ?_, hleast⟩
  cases k with
  | zero => omega
  | succ j =>
    have hbelow := hleast j j.lt_succ_self
    rw [pow_succ, ← Nat.mul_assoc]
    omega

/-- Past the checks of EXPSETUP the ceiling has a shift (42_exposure R162, R166). -/
theorem shiftFor_ceiling (h : s.black.toNat < s.maximum.toNat) : IsShift (s.maximum.toNat - s.black.toNat) (shiftFor s.ceiling) :=
  shiftFor_isShift (by omega) (by have := s.maximum.isLt; omega)

/-- The clip ceiling (42_exposure R168). -/
theorem setupRegisters_clipMax (s : State) : (setupRegisters s).clipMax =
    if s.noClip then 0xFFFF else BitVec.ofNat 16 ((s.maximum.toNat - s.black.toNat) * 2 ^ shiftFor s.ceiling) := by
  rw [← Nat.shiftLeft_eq]
  rfl

/-! ## The least multiplier -/

/-- The order of two fractions with positive denominators, by cross-multiplication. -/
def FractionLe (x y : Nat × Nat) : Prop := x.1 * y.2 ≤ y.1 * x.2

theorem FractionLe.trans {x y z : Nat × Nat} (hy : 0 < y.2) (hxy : FractionLe x y) (hyz : FractionLe y z) : FractionLe x z := by
  refine Nat.le_of_mul_le_mul_right ?_ hy
  calc x.1 * z.2 * y.2 = x.1 * y.2 * z.2 := by ring
    _ ≤ y.1 * x.2 * z.2 := Nat.mul_le_mul_right _ hxy
    _ = y.1 * z.2 * x.2 := by ring
    _ ≤ z.1 * y.2 * x.2 := Nat.mul_le_mul_right _ hyz
    _ = z.1 * x.2 * y.2 := by ring

/-- The smaller of two fractions is one of them and at most either. -/
theorem smallerFraction_spec (x y : Nat × Nat) :
    (smallerFraction x y = x ∨ smallerFraction x y = y) ∧ FractionLe (smallerFraction x y) x ∧ FractionLe (smallerFraction x y) y := by
  unfold smallerFraction FractionLe
  split_ifs with h
  · exact ⟨.inr rfl, h.le, le_rfl⟩
  · exact ⟨.inl rfl, le_rfl, not_lt.1 h⟩

/-- The smallest fraction of a list is one of it and at most each. -/
theorem foldl_smallerFraction_spec {xs : List (Nat × Nat)} {x : Nat × Nat} (hpos : ∀ y ∈ x :: xs, 0 < y.2) :
    xs.foldl smallerFraction x ∈ x :: xs ∧ ∀ y ∈ x :: xs, FractionLe (xs.foldl smallerFraction x) y := by
  induction xs generalizing x with
  | nil => exact ⟨List.mem_singleton_self x, fun y hy => by rw [List.mem_singleton.1 hy]; exact le_rfl⟩
  | cons z zs ih =>
    obtain ⟨hone, hx, hz⟩ := smallerFraction_spec x z
    have hone_mem : smallerFraction x z ∈ x :: z :: zs := by
      obtain h | h := hone <;> simp [h]
    obtain ⟨hmem, hle⟩ := ih (x := smallerFraction x z)
      (List.forall_mem_cons.2 ⟨hpos _ hone_mem, fun y hy => hpos y (List.mem_cons_of_mem _ (List.mem_cons_of_mem _ hy))⟩)
    obtain ⟨hhead, htail⟩ := List.forall_mem_cons.1 hle
    have hthrough : ∀ y, FractionLe (smallerFraction x z) y → FractionLe (zs.foldl smallerFraction (smallerFraction x z)) y :=
      fun y => hhead.trans (hpos _ hone_mem)
    refine ⟨?_, List.forall_mem_cons.2 ⟨hthrough x hx, List.forall_mem_cons.2 ⟨hthrough z hz, htail⟩⟩⟩
    obtain h | h := List.mem_cons.1 hmem
    · exact h ▸ hone_mem
    · exact List.mem_cons_of_mem _ (List.mem_cons_of_mem _ h)

theorem multiplier_of_unused {c : Lane} (hc : s.colors.toNat ≤ c.val) : multiplier s c = none := if_pos hc

theorem used_of_multiplier {c : Lane} {x : Nat × Nat} (h : multiplier s c = some x) : c.val < s.colors.toNat := by
  by_contra hc
  rw [multiplier_of_unused (not_lt.1 hc)] at h
  cases h

/-- `y` is the multiplier of a channel, and at most each multiplier. -/
structure IsLeastMultiplier (s : State) (y : Nat × Nat) : Prop where
  channel : ∃ c, multiplier s c = some y
  positive : ∀ c x, multiplier s c = some x → 0 < x.2
  le : ∀ c x, multiplier s c = some x → FractionLe y x

/-- The machine finds a least multiplier where there is one. -/
theorem leastMultiplier_spec {y : Nat × Nat} (h : IsLeastMultiplier s y) : ∃ l, leastMultiplier s = some l ∧ IsLeastMultiplier s l := by
  have hlist : ∀ x, x ∈ ([0, 1, 2, 3] : List Lane).filterMap (multiplier s) ↔ ∃ c, multiplier s c = some x := fun x => by
    rw [List.mem_filterMap]
    exact exists_congr fun c => and_iff_right (by revert c; decide)
  unfold leastMultiplier
  cases hm : ([0, 1, 2, 3] : List Lane).filterMap (multiplier s) with
  | nil => exact absurd ((hlist y).2 h.channel) (by rw [hm]; exact List.not_mem_nil)
  | cons x xs =>
    rw [hm] at hlist
    obtain ⟨hmem, hle⟩ := foldl_smallerFraction_spec (xs := xs) (x := x) fun z hz => by
      obtain ⟨c, hc⟩ := (hlist z).1 hz
      exact h.positive c z hc
    exact ⟨_, rfl, (hlist _).1 hmem, h.positive, fun c z hc => hle z ((hlist z).2 ⟨c, hc⟩)⟩

/-! ## PREMUL -/

/-- Equal least fractions normalise a fraction to the same number. -/
theorem normalised_eq {x y l : Nat × Nat} (hy : 0 < y.2) (hl : 0 < l.2) (hyl : FractionLe y l) (hly : FractionLe l y) (e : Nat) :
    x.1 * l.2 * e / (x.2 * l.1) = x.1 * y.2 * e / (x.2 * y.1) := by
  have heq : l.1 * y.2 = y.1 * l.2 := le_antisymm hly hyl
  calc x.1 * l.2 * e / (x.2 * l.1) = x.1 * l.2 * e * y.2 / (x.2 * l.1 * y.2) := (Nat.mul_div_mul_right _ _ hy).symm
    _ = x.1 * y.2 * e * l.2 / (x.2 * y.1 * l.2) := by
      rw [Nat.mul_assoc x.2, heq]
      ring_nf
    _ = x.1 * y.2 * e / (x.2 * y.1) := Nat.mul_div_mul_right _ _ hl

/-- A channel with a multiplier is normalised by the least one (42_exposure R167). -/
theorem premulFor_of_least {c : Lane} {x y : Nat × Nat} (hx : multiplier s c = some x) (hy : IsLeastMultiplier s y) :
    premulFor s k c = BitVec.ofNat 32 (min (x.1 * y.2 * 2 ^ (16 + k) / (x.2 * y.1)) (2 ^ 32 - 1)) := by
  obtain ⟨l, hfind, hl⟩ := leastMultiplier_spec hy
  obtain ⟨cy, hcy⟩ := hy.channel
  obtain ⟨cl, hcl⟩ := hl.channel
  rw [premulFor, if_neg (not_le.2 (used_of_multiplier hx)), hx, hfind]
  simp only [Nat.shiftLeft_eq]
  rw [normalised_eq (hy.positive cy y hcy) (hy.positive cl l hcl) (hy.le cl l hcl) (hl.le cy y hcy)]

theorem premulFor_of_unused {c : Lane} (hc : s.colors.toNat ≤ c.val) : premulFor s k c = 0 := if_pos hc

/-- A channel without a multiplier gets the neutral one (42_exposure R165). -/
theorem premulFor_of_none {c : Lane} (hc : c.val < s.colors.toNat) (h : multiplier s c = none) :
    premulFor s k c = BitVec.ofNat 32 (2 ^ (16 + k)) := by
  rw [premulFor, if_neg (not_le.2 hc), h, Nat.one_shiftLeft]

/-! ## Camera multipliers -/

theorem multiplier_camera (hg : s.grayWorld = false) {c : Lane} (hc : c.val < s.colors.toNat) :
    multiplier s c = some ((s.camMul.get c).toNat, 65536) := by
  rw [multiplier, if_neg (not_le.2 hc), hg]
  rfl

theorem multiplier_camera_eq (hg : s.grayWorld = false) {c : Lane} {x : Nat × Nat} (h : multiplier s c = some x) :
    x = ((s.camMul.get c).toNat, 65536) :=
  Option.some.inj (h.symm.trans (multiplier_camera hg (used_of_multiplier h)))

theorem isLeastMultiplier_camera {least : Nat} (hg : s.grayWorld = false) (hex : ∃ c : Lane, c.val < s.colors.toNat ∧ (s.camMul.get c).toNat = least)
    (hle : ∀ c : Lane, c.val < s.colors.toNat → least ≤ (s.camMul.get c).toNat) : IsLeastMultiplier s (least, 65536) where
  channel := by
    obtain ⟨c, hc, rfl⟩ := hex
    exact ⟨c, multiplier_camera hg hc⟩
  positive c x h := by
    rw [multiplier_camera_eq hg h]
    exact Nat.succ_pos _
  le c x h := by
    rw [multiplier_camera_eq hg h]
    exact Nat.mul_le_mul_right _ (hle c (used_of_multiplier h))

theorem premulFor_camera {least : Nat} (hg : s.grayWorld = false) (h : IsLeastMultiplier s (least, 65536)) (c : Lane) :
    premulFor s k c = if c.val < s.colors.toNat then
      BitVec.ofNat 32 (min ((s.camMul.get c).toNat * 2 ^ (16 + k) / least) (2 ^ 32 - 1)) else 0 := by
  split_ifs with hc
  · have hcancel : (s.camMul.get c).toNat * 65536 * 2 ^ (16 + k) / (65536 * least) = (s.camMul.get c).toNat * 2 ^ (16 + k) / least := by
      rw [Nat.mul_comm _ 65536, Nat.mul_assoc, Nat.mul_div_mul_left _ _ (by decide)]
    rw [premulFor_of_least (multiplier_camera hg hc) h, hcancel]
  · exact premulFor_of_unused (not_lt.1 hc)

/-- The checks of EXPSETUP; zero multipliers are looked for without gray-world statistics only (42_exposure R162, R163). -/
theorem expsetupFault_eq_none (hi : s.legalImage) (h : s.black.toNat < s.maximum.toNat)
    (hz : s.grayWorld = true ∨ ∀ c : Lane, c.val < s.colors.toNat → s.camMul.get c ≠ 0) : expsetupFault s = none := by
  rw [expsetupFault, (imageRegsFault_eq_none_iff s).2 hi, Option.none_or, if_neg (not_le.2 h)]
  split_ifs with hg
  · rfl
  · obtain ⟨-, -, hcolors, -⟩ := hi
    rw [Option.map_eq_none_iff, zeroMultiplier, List.find?_eq_none]
    intro j hj
    rw [List.mem_range] at hj
    have hnonzero := hz.resolve_left hg ⟨j, by omega⟩ hj
    rw [show laneOf j = ⟨j, by omega⟩ from laneOf_val ⟨j, by omega⟩]
    simpa using hnonzero

theorem exec_expsetup_camera (ha : s.accepting) (hi : s.legalImage) (h : s.black.toNat < s.maximum.toNat) (hg : s.grayWorld = false)
    (hz : ∀ c : Lane, c.val < s.colors.toNat → s.camMul.get c ≠ 0) :
    exec .expsetup s = .next (setupRegisters (s.begin 0x20)).complete := by
  have hmode : ¬ (s.begin 0x20).grayWorld = true := by rw [State.begin_grayWorld, hg]; decide
  exact exec_of_checks_pass (by decide) Instr.noConfusion rfl ha (expsetupFault_eq_none (s := s.begin 0x20) hi h (.inr hz))
    (congrArg setupRegisters (if_neg hmode)) rfl

/-- Settles O45: the least multiplier of the statement is one of the machine's, and the shift is `shiftFor`'s. -/
theorem expsetupCameraMultipliers : Obligations.ExpsetupCameraMultipliers := by
  intro s least ha hi h hg hz hex hle
  obtain ⟨hk, hreaches, hfits, hleast⟩ := shiftFor_ceiling h
  obtain ⟨hdone, hwarned, hready, -⟩ := completed_begin_complete 0x20 ha
  refine ⟨_, shiftFor s.ceiling, exec_expsetup_camera ha hi h hg hz, hdone, hwarned, hready, hk, hreaches, hfits, hleast, ?_⟩
  rw [← funext (premulFor_camera (k := shiftFor s.ceiling) hg (isLeastMultiplier_camera hg hex hle)), ← setupRegisters_clipMax]
  rfl

end Sys2Proof.Machine
end

section
/-! PROOFS of the family 42_exposure, continued: EXPSETUP with gray-world statistics (42_exposure R164 to R168; 60_exceptions R210). The scan is the statement's two
sums; the warnings are one `warn` for each channel of the list of those with a zero sum, so WARN_FLAGS, WARN_COUNT and STATUS.WARN are read off that list. -/

namespace Sys2Proof.Machine

variable {s : State} {c : Lane}

/-! ## The scan -/

theorem grayValue_eq (ceil0 black v : Nat) :
    grayValue ceil0 black v = if v ≠ 0 ∧ (v : Int) - black ≤ (ceil0 : Int) - 25 then some (v - black) else none := by
  unfold grayValue Config.headroom
  by_cases h0 : v = 0
  · rw [if_pos h0, if_neg (fun h => h.1 h0)]
  · rw [if_neg h0, ← ite_not]
    exact if_congr (not_lt.trans (and_iff_right h0).symm) rfl rfl

/-- What a pixel adds to the sum and to the count (42_exposure R164). -/
theorem grayScan_eq (h : s.black.toNat < s.maximum.toNat) (c : Lane) (n : Nat) : grayScan s c n =
    (((List.range n).map (fun p => if s.grayCounted p c then ((s.sample (4 * p + c.val)).toNat - s.black.toNat) else 0)).sum,
      ((List.range n).map (fun p => if s.grayCounted p c then 1 else 0)).sum) := by
  have hceiling : ((s.ceiling : Nat) : Int) = (s.maximum.toNat : Int) - s.black.toNat := by unfold State.ceiling; omega
  induction n with
  | zero => rfl
  | succ n ih =>
    rw [grayScan, ih, grayValue_eq, hceiling, List.range_succ, List.map_append, List.map_append, List.sum_append, List.sum_append]
    by_cases hcount : s.grayCounted n c
    · rw [if_pos hcount]
      simp [hcount]
    · rw [if_neg hcount]
      simp [hcount]

theorem grayTotals_eq (h : s.black.toNat < s.maximum.toNat) (c : Lane) :
    grayTotals s c = (if c.val < s.colors.toNat then s.graySum c else 0, if c.val < s.colors.toNat then s.grayCount c else 0) := by
  rw [grayTotals, grayScan_eq h]
  split_ifs <;> rfl

/-- A sum over the pixels whose terms are bounded. -/
theorem sum_pixels_le {f : Nat → Nat} {b : Nat} (h : ∀ p, f p ≤ b) : ((List.range s.pixels).map f).sum ≤ s.pixels * b := by
  have hsum := List.sum_le_card_nsmul ((List.range s.pixels).map f) b (List.forall_mem_map.2 fun p _ => h p)
  rwa [List.length_map, List.length_range, smul_eq_mul] at hsum

theorem State.pixels_le (s : State) : s.pixels ≤ 65535 * 65535 :=
  Nat.mul_le_mul (Nat.le_of_lt_succ s.width.isLt) (Nat.le_of_lt_succ s.height.isLt)

/-- GW_CNT holds any count (10_state R42). -/
theorem grayCount_lt (s : State) (c : Lane) : s.grayCount c < 2 ^ 32 := by
  have hpixels := s.pixels_le
  have hcount : s.grayCount c ≤ s.pixels * 1 := sum_pixels_le fun p => by split <;> omega
  omega

/-- GW_SUM holds any sum (10_state R42). -/
theorem graySum_lt (s : State) (c : Lane) : s.graySum c < 2 ^ 48 := by
  have hpixels := s.pixels_le
  have hsum : s.graySum c ≤ s.pixels * 65535 := sum_pixels_le fun p => by
    have := (s.sample (4 * p + c.val)).isLt
    split <;> omega
  omega

/-! ## The warnings -/

/-- `warn(c)` for every channel of a list, in order. -/
def warnAll (cs : List Lane) (s : State) : State := cs.foldl (fun u c => warn c u) s

/-- GW_SUM of a channel is zero (42_exposure R165). -/
abbrev State.zeroSum (s : State) (c : Lane) : Prop := c.val < s.colors.toNat ∧ s.gwSum.get c = 0

theorem warnAll_cons (c : Lane) (cs : List Lane) (s : State) : warnAll (c :: cs) s = warnAll cs (warn c s) := rfl

theorem warnZeroSums_eq_warnAll (s : State) (cs : List Lane) : warnZeroSums s cs = warnAll (cs.filter (fun c => decide (s.zeroSum c))) s := by
  induction cs generalizing s with
  | nil => rfl
  | cons c cs ih =>
    rw [warnZeroSums, ih]
    by_cases h : s.zeroSum c
    · rw [if_pos h, List.filter_cons, if_pos (decide_eq_true h)]
      rfl
    · rw [if_neg h, List.filter_cons, if_neg (mt of_decide_eq_true h)]

/-- Warnings change nothing but what shows them. -/
theorem warnAll_frame (cs : List Lane) (s : State) : warnAll cs s =
    { s with status := (warnAll cs s).status, warnFlags := (warnAll cs s).warnFlags, warnCount := (warnAll cs s).warnCount } := by
  induction cs generalizing s with
  | nil => rfl
  | cons c cs ih => exact (ih (warn c s)).trans rfl

theorem warnAll_control (cs : List Lane) (s : State) : (warnAll cs s).control = s.control := by
  induction cs generalizing s with
  | nil => rfl
  | cons c cs ih => exact (ih (warn c s)).trans (ImageEffect.warn s c).control

theorem warnAll_warnFlags (cs : List Lane) (s : State) (c : Lane) :
    (warnAll cs s).warnFlags.getLsbD c.val = (s.warnFlags.getLsbD c.val || decide (c ∈ cs)) := by
  induction cs generalizing s with
  | nil => simp [warnAll]
  | cons d cs ih =>
    rw [warnAll_cons, ih, warn_warnFlags, getLsbD_setBit]
    by_cases hcd : d = c
    · simp [hcd, c.isLt]
    · simp [Fin.val_inj, hcd, Ne.symm hcd]

theorem warnAll_warnCount (cs : List Lane) (s : State) :
    (warnAll cs s).warnCount.toNat = min (s.warnCount.toNat + cs.length) (2 ^ 32 - 1) := by
  induction cs generalizing s with
  | nil =>
    have := s.warnCount.isLt
    rw [warnAll, List.foldl_nil, List.length_nil]
    omega
  | cons d cs ih =>
    rw [warnAll_cons, ih, warn_warnCount, BitVec.toNat_ofNat, List.length_cons]
    omega

theorem warnAll_warned (cs : List Lane) (s : State) : (warnAll cs s).warned = true ↔ s.warned = true ∨ ∃ c, c ∈ cs := by
  induction cs generalizing s with
  | nil => simp [warnAll]
  | cons d cs ih =>
    rw [warnAll_cons, ih, warn_warned]
    simp

/-! ## GW_SUM, GW_CNT and the multipliers -/

/-- The state with the statistics of its image in GW_SUM and GW_CNT (42_exposure R164). -/
def State.withStatistics (s : State) : State :=
  { s with
    gwSum := Quad.ofFn (fun c => BitVec.ofNat 48 (if c.val < s.colors.toNat then s.graySum c else 0))
    gwCnt := Quad.ofFn (fun c => BitVec.ofNat 32 (if c.val < s.colors.toNat then s.grayCount c else 0)) }

/-- The channels in which the scan finds a zero sum (42_exposure R165). -/
def State.zeroChannels (s : State) : List Lane :=
  ([0, 1, 2, 3] : List Lane).filter (fun c => decide (c.val < s.colors.toNat ∧ s.graySum c = 0))

theorem State.mem_zeroChannels : c ∈ s.zeroChannels ↔ c.val < s.colors.toNat ∧ s.graySum c = 0 := by
  rw [State.zeroChannels, List.mem_filter, decide_eq_true_eq]
  exact and_iff_right (by revert c; decide)

theorem withStatistics_gwSum (s : State) (c : Lane) :
    (s.withStatistics.gwSum.get c).toNat = if c.val < s.colors.toNat then s.graySum c else 0 := by
  rw [State.withStatistics, Quad.get_ofFn, BitVec.toNat_ofNat, Nat.mod_eq_of_lt]
  split_ifs
  · exact graySum_lt s c
  · decide

theorem withStatistics_gwCnt (s : State) (c : Lane) :
    (s.withStatistics.gwCnt.get c).toNat = if c.val < s.colors.toNat then s.grayCount c else 0 := by
  rw [State.withStatistics, Quad.get_ofFn, BitVec.toNat_ofNat, Nat.mod_eq_of_lt]
  split_ifs
  · exact grayCount_lt s c
  · decide

theorem withStatistics_gwSum_eq_zero (hc : c.val < s.colors.toNat) : s.withStatistics.gwSum.get c = 0 ↔ s.graySum c = 0 := by
  rw [← BitVec.toNat_inj, withStatistics_gwSum, if_pos hc]
  rfl

theorem zeroSum_withStatistics (s : State) (c : Lane) : s.withStatistics.zeroSum c ↔ c.val < s.colors.toNat ∧ s.graySum c = 0 :=
  and_congr_right withStatistics_gwSum_eq_zero

/-- The scan writes the statistics and then warns of each zero sum (42_exposure R164, R165). -/
theorem grayWorldScan_eq (h : s.black.toNat < s.maximum.toNat) : grayWorldScan s = warnAll s.zeroChannels s.withStatistics := by
  have hstatistics : grayWorldScan s = warnZeroSums s.withStatistics [0, 1, 2, 3] := by
    simp only [grayWorldScan, Quad.get_ofFn, grayTotals_eq h]
    rfl
  rw [hstatistics, warnZeroSums_eq_warnAll, State.zeroChannels]
  simp only [zeroSum_withStatistics]

theorem multiplier_gray (hg : s.grayWorld = true) (hc : c.val < s.colors.toNat) :
    multiplier s.withStatistics c = if s.graySum c = 0 then none else some (s.grayCount c, s.graySum c) := by
  refine (if_neg (not_le.2 hc)).trans ((if_pos hg).trans ?_)
  rw [withStatistics_gwSum, withStatistics_gwCnt, if_pos hc, if_pos hc]
  exact if_congr (withStatistics_gwSum_eq_zero hc) rfl rfl

theorem multiplier_gray_eq_some (hg : s.grayWorld = true) {x : Nat × Nat} :
    multiplier s.withStatistics c = some x ↔ c.val < s.colors.toNat ∧ s.graySum c ≠ 0 ∧ x = (s.grayCount c, s.graySum c) := by
  by_cases hc : c.val < s.colors.toNat
  · rw [multiplier_gray hg hc]
    by_cases hsum : s.graySum c = 0
    · simp [hsum]
    · simp [hc, hsum, eq_comm]
  · exact iff_of_false (fun hx => hc (used_of_multiplier (s := s.withStatistics) hx)) (fun hx => hc hx.1)

/-- A least ratio of count to sum, in the statement's words, is a least multiplier. -/
theorem isLeastMultiplier_gray {m : Lane} (hg : s.grayWorld = true) (hm : m.val < s.colors.toNat)
    (hsum : s.graySum m ≠ 0)
    (hle : ∀ j : Lane, j.val < s.colors.toNat → s.graySum j ≠ 0 → s.grayCount m * s.graySum j ≤ s.grayCount j * s.graySum m) :
    IsLeastMultiplier s.withStatistics (s.grayCount m, s.graySum m) where
  channel := ⟨m, (multiplier_gray_eq_some hg).2 ⟨hm, hsum, rfl⟩⟩
  positive c x hx := by
    obtain ⟨-, hsum, rfl⟩ := (multiplier_gray_eq_some hg).1 hx
    exact Nat.pos_of_ne_zero hsum
  le c x hx := by
    obtain ⟨hc, hsum, rfl⟩ := (multiplier_gray_eq_some hg).1 hx
    exact hle c hc hsum

/-! ## EXPSETUP -/

/-- The state in which EXPSETUP with gray-world statistics ends. -/
def State.grayExposed (s : State) : State := (setupRegisters (warnAll s.zeroChannels (s.begin 0x20).withStatistics)).complete

theorem exec_expsetup_gray (ha : s.accepting) (hi : s.legalImage) (h : s.black.toNat < s.maximum.toNat) (hg : s.grayWorld = true) :
    exec .expsetup s = .next s.grayExposed := by
  have hmode : (s.begin 0x20).grayWorld = true := by rw [State.begin_grayWorld, hg]
  have hscan : grayWorldScan (s.begin 0x20) = warnAll s.zeroChannels (s.begin 0x20).withStatistics := grayWorldScan_eq (s := s.begin 0x20) h
  have hphase : (warnAll s.zeroChannels (s.begin 0x20).withStatistics).phase = .idle := by
    rw [warnAll_frame]
    rfl
  exact exec_of_checks_pass (by decide) Instr.noConfusion rfl ha (expsetupFault_eq_none (s := s.begin 0x20) hi h (.inl hmode))
    (congrArg setupRegisters ((if_pos hmode).trans hscan)) hphase

/-- All that EXPSETUP leaves but STATUS and the warnings, whose fields have lemmas of their own. -/
theorem State.grayExposed_eq (s : State) : s.grayExposed =
    { s with
      cmd := 0x20
      status := s.grayExposed.status
      phase := .idle
      warnFlags := s.grayExposed.warnFlags
      warnCount := s.grayExposed.warnCount
      shift := BitVec.ofNat 4 (shiftFor s.ceiling)
      premul := Quad.ofFn (premulFor s.withStatistics (shiftFor s.ceiling))
      clipMax := (setupRegisters s).clipMax
      gwSum := s.withStatistics.gwSum
      gwCnt := s.withStatistics.gwCnt } := by
  unfold State.grayExposed
  rw [warnAll_frame]
  rfl

theorem completed_grayExposed (ha : s.accepting) : Completed 0x20 s.grayExposed ∧ s.grayExposed.ljReady = s.ljReady := by
  have hcontrol := warnAll_control s.zeroChannels (s.begin 0x20).withStatistics
  simp only [State.control, State.reports, Prod.mk.injEq] at hcontrol
  obtain ⟨⟨-, -, hfaulted, -⟩, hready, -⟩ := hcontrol
  have hframe := s.grayExposed_eq
  refine ⟨⟨(congrArg State.cmd hframe :), (congrArg State.phase hframe :), State.complete_busy _, State.complete_done _, ?_⟩, ?_⟩
  · exact (State.complete_faulted _).trans (hfaulted.trans ((State.begin_faulted s 0x20).trans ha.2))
  · exact (State.complete_ljReady _).trans (hready.trans (State.begin_ljReady s 0x20))

theorem grayExposed_warnFlags (s : State) (c : Lane) : s.grayExposed.warnFlags.getLsbD c.val =
    (s.warnFlags.getLsbD c.val || decide (c.val < s.colors.toNat ∧ s.graySum c = 0)) := by
  simp only [← State.mem_zeroChannels]
  exact warnAll_warnFlags s.zeroChannels (s.begin 0x20).withStatistics c

theorem grayExposed_warnCount (s : State) :
    s.grayExposed.warnCount.toNat = min (s.warnCount.toNat + s.zeroChannels.length) (2 ^ 32 - 1) :=
  warnAll_warnCount s.zeroChannels (s.begin 0x20).withStatistics

theorem grayExposed_warned (s : State) :
    s.grayExposed.warned = true ↔ s.warned = true ∨ ∃ c : Lane, c.val < s.colors.toNat ∧ s.graySum c = 0 := by
  simp only [← State.mem_zeroChannels]
  rw [State.grayExposed, State.complete_warned, ← State.begin_warned s 0x20]
  exact warnAll_warned s.zeroChannels (s.begin 0x20).withStatistics

theorem grayExposed_premul (s : State) (c : Lane) :
    s.grayExposed.premul.get c = premulFor s.withStatistics (shiftFor s.ceiling) c := by
  rw [s.grayExposed_eq]
  exact Quad.get_ofFn _ c

theorem grayExposed_premul_of_zero (hk : shiftFor s.ceiling ≤ 15) (hg : s.grayWorld = true) (hc : c.val < s.colors.toNat)
    (hsum : s.graySum c = 0) : (s.grayExposed.premul.get c).toNat = 2 ^ (16 + shiftFor s.ceiling) := by
  have hnone : multiplier s.withStatistics c = none := (multiplier_gray hg hc).trans (if_pos hsum)
  have hfits : 2 ^ (16 + shiftFor s.ceiling) < 2 ^ 32 := Nat.pow_lt_pow_right (by decide) (by omega)
  rw [grayExposed_premul, premulFor_of_none (s := s.withStatistics) hc hnone, BitVec.toNat_ofNat, Nat.mod_eq_of_lt hfits]

theorem grayExposed_premul_of_least {y : Nat × Nat} (hg : s.grayWorld = true) (hc : c.val < s.colors.toNat) (hsum : s.graySum c ≠ 0)
    (hy : IsLeastMultiplier s.withStatistics y) : (s.grayExposed.premul.get c).toNat =
      min (s.grayCount c * y.2 * 2 ^ (16 + shiftFor s.ceiling) / (s.graySum c * y.1)) (2 ^ 32 - 1) := by
  rw [grayExposed_premul, premulFor_of_least ((multiplier_gray_eq_some hg).2 ⟨hc, hsum, rfl⟩) hy, BitVec.toNat_ofNat]
  exact Nat.mod_eq_of_lt (by omega)

/-- Settles O46: the statistics, the warnings, the shift and the multipliers of `grayExposed` one by one. -/
theorem expsetupGrayWorld : Obligations.ExpsetupGrayWorld := by
  intro s ha hi h hg
  obtain ⟨hk, hreaches, -, hleast⟩ := shiftFor_ceiling h
  obtain ⟨hdone, hready⟩ := completed_grayExposed ha
  have hframe := s.grayExposed_eq
  have hsums : s.grayExposed.gwSum = s.withStatistics.gwSum := (congrArg State.gwSum hframe :)
  have hcounts : s.grayExposed.gwCnt = s.withStatistics.gwCnt := (congrArg State.gwCnt hframe :)
  have hclip : s.grayExposed.clipMax = (setupRegisters s).clipMax := (congrArg State.clipMax hframe :)
  refine ⟨s.grayExposed, shiftFor s.ceiling, exec_expsetup_gray ha hi h hg, hdone, hready, ?_, fun c => ?_, grayExposed_warnFlags s,
    grayExposed_warnCount s, grayExposed_warned s, hk, (congrArg State.shift hframe :), hreaches, hleast,
    hclip.trans (setupRegisters_clipMax s), fun c hc => ?_, fun c hc hsum => ?_, fun c m hc hsum hm hmsum hle => ?_⟩
  · rw [hframe]
  · rw [hsums, hcounts]
    exact ⟨withStatistics_gwSum s c, withStatistics_gwCnt s c⟩
  · rw [grayExposed_premul]
    exact premulFor_of_unused hc
  · exact grayExposed_premul_of_zero hk hg hc hsum
  · exact grayExposed_premul_of_least hg hc hsum (isLeastMultiplier_gray hg hm hmsum hle)

end Sys2Proof.Machine
end

section
/-! PROOFS of the family 43_geometry: PERMUTE (43_geometry R187 to R191). A new index splits into a row and a column, which trade places in a transpose and are then
mirrored; `permuteSource_transposed` and `permuteSource_straight` say so, and both statements are read off them. -/

namespace Sys2Proof.Machine

variable {s : State} {row col w h d : Nat}

/-! ## Linear indices -/

/-- Row and column of a pixel of an image of any size, and its linear index. -/
theorem linearIndex (hr : row < h) (hc : col < w) :
    row * w + col < w * h ∧ (row * w + col) / w = row ∧ (row * w + col) % w = col := by
  have hw : 0 < w := by omega
  refine ⟨?_, ?_, ?_⟩
  · calc row * w + col < (row + 1) * w := by rw [Nat.succ_mul]; omega
      _ ≤ h * w := Nat.mul_le_mul_right w hr
      _ = w * h := Nat.mul_comm h w
  · rw [Nat.mul_comm, Nat.mul_add_div hw, Nat.div_eq_of_lt hc, Nat.add_zero]
  · rw [Nat.mul_comm, Nat.mul_add_mod, Nat.mod_eq_of_lt hc]

/-- A coordinate below `n`, counted from the other end where `flip` says so (30_encoding R84). -/
def mirrored (flip : Bool) (n x : Nat) : Nat := if flip then n - 1 - x else x

theorem mirrored_lt {n x : Nat} (flip : Bool) (hx : x < n) : mirrored flip n x < n := by
  unfold mirrored
  split <;> omega

theorem mirrored_mirrored {n x : Nat} (flip : Bool) (hx : x < n) : mirrored flip n (mirrored flip n x) = x := by
  unfold mirrored
  split <;> omega

/-- Without a transpose the new image is `w` wide, and its rows are the old rows (43_geometry R187). -/
theorem permuteSource_straight (rowFlip colFlip : Bool) (hr : row < h) (hc : col < w) :
    permuteSource false rowFlip colFlip w h (row * w + col) = mirrored rowFlip h row * w + mirrored colFlip w col := by
  obtain ⟨-, hdiv, hmod⟩ := linearIndex hr hc
  simp only [permuteSource, Bool.false_eq_true, if_false, hdiv, hmod, mirrored]

/-- In a transpose the new image is `h` wide, and its rows are the old columns (43_geometry R187). -/
theorem permuteSource_transposed (rowFlip colFlip : Bool) (hr : row < w) (hc : col < h) :
    permuteSource true rowFlip colFlip w h (row * h + col) = mirrored rowFlip h col * w + mirrored colFlip w row := by
  obtain ⟨-, hdiv, hmod⟩ := linearIndex hr hc
  simp only [permuteSource, if_true, hdiv, hmod, mirrored]

/-! ## The source index is a bijection -/

theorem permuteSource_lt (transpose rowFlip colFlip : Bool) (hd : d < w * h) : permuteSource transpose rowFlip colFlip w h d < w * h := by
  cases transpose with
  | false =>
    have hcol : d % w < w := Nat.mod_lt d (Nat.pos_of_lt_mul_right hd)
    have hrow : d / w < h := Nat.div_lt_of_lt_mul hd
    rw [← Nat.div_add_mod' d w, permuteSource_straight rowFlip colFlip hrow hcol]
    exact (linearIndex (mirrored_lt _ hrow) (mirrored_lt _ hcol)).1
  | true =>
    have hcol : d % h < h := Nat.mod_lt d (Nat.pos_of_lt_mul_left hd)
    have hrow : d / h < w := Nat.div_lt_of_lt_mul (Nat.mul_comm w h ▸ hd)
    rw [← Nat.div_add_mod' d h, permuteSource_transposed rowFlip colFlip hrow hcol]
    exact (linearIndex (mirrored_lt _ hcol) (mirrored_lt _ hrow)).1

/-- The pixel at old row and column `p / w`, `p % w` goes to the mirrored place, so every old index is a source. -/
theorem permuteSource_surjective (transpose rowFlip colFlip : Bool) {p : Nat} (hp : p < w * h) :
    ∃ d, d < w * h ∧ permuteSource transpose rowFlip colFlip w h d = p := by
  have hcol : p % w < w := Nat.mod_lt p (Nat.pos_of_lt_mul_right hp)
  have hrow : p / w < h := Nat.div_lt_of_lt_mul hp
  have hrow' := mirrored_lt rowFlip hrow
  have hcol' := mirrored_lt colFlip hcol
  cases transpose with
  | false =>
    refine ⟨_, (linearIndex hrow' hcol').1, ?_⟩
    rw [permuteSource_straight rowFlip colFlip hrow' hcol', mirrored_mirrored _ hrow, mirrored_mirrored _ hcol, Nat.div_add_mod']
  | true =>
    refine ⟨_, Nat.mul_comm h w ▸ (linearIndex hcol' hrow').1, ?_⟩
    rw [permuteSource_transposed rowFlip colFlip hcol' hrow', mirrored_mirrored _ hrow, mirrored_mirrored _ hcol, Nat.div_add_mod']

/-- A map of the indices onto themselves is one to one, there being finitely many. -/
theorem permuteSource_injective (transpose rowFlip colFlip : Bool) {e : Nat} (hd : d < w * h) (he : e < w * h)
    (h' : permuteSource transpose rowFlip colFlip w h d = permuteSource transpose rowFlip colFlip w h e) : d = e := by
  have hmaps : Set.MapsTo (permuteSource transpose rowFlip colFlip w h) (Finset.range (w * h)) (Finset.range (w * h)) := fun x hx =>
    Finset.mem_coe.2 (Finset.mem_range.2 (permuteSource_lt transpose rowFlip colFlip (Finset.mem_range.1 (Finset.mem_coe.1 hx))))
  have honto : Set.SurjOn (permuteSource transpose rowFlip colFlip w h) (Finset.range (w * h)) (Finset.range (w * h)) := fun p hp => by
    obtain ⟨x, hx, hxp⟩ := permuteSource_surjective transpose rowFlip colFlip (Finset.mem_range.1 (Finset.mem_coe.1 hp))
    exact ⟨x, Finset.mem_coe.2 (Finset.mem_range.2 hx), hxp⟩
  exact Finset.injOn_of_surjOn_of_card_le _ hmaps honto le_rfl (by simpa using hd) (by simpa using he) h'

/-- Settles O51: the source index stays in range and meets every index. -/
theorem permuteSourceIsBijection : Obligations.PermuteSourceIsBijection := fun transpose rowFlip colFlip _ _ =>
  ⟨fun _ hd => permuteSource_lt transpose rowFlip colFlip hd,
    fun _ _ hd he h => permuteSource_injective transpose rowFlip colFlip hd he h,
    fun _ hp => permuteSource_surjective transpose rowFlip colFlip hp⟩

/-! ## The orientation codes -/

theorem State.transposes_eq (s : State) : s.transposes = decide (4 ≤ s.orient.toNat) := by
  have hcodes : ∀ o : BitVec 3, o.getLsbD 2 = decide (4 ≤ o.toNat) := by decide
  exact hcodes s.orient

/-- The table of the eight codes is what the three bits of ORIENT say (30_encoding R84). -/
theorem orientSource_eq (s : State) (h w row col : Nat) : orientSource s.orient.toNat h w row col =
    if s.transposes then (mirrored s.flipsRows h col, mirrored s.flipsColumns w row)
    else (mirrored s.flipsRows h row, mirrored s.flipsColumns w col) := by
  have hbits : ∀ o : BitVec 3, o.toNat = 4 * (o.getLsbD 2).toNat + 2 * (o.getLsbD 1).toNat + (o.getLsbD 0).toNat := by decide
  have hcode : s.orient.toNat = 4 * s.transposes.toNat + 2 * s.flipsRows.toNat + s.flipsColumns.toNat := hbits s.orient
  rw [hcode]
  cases s.transposes <;> cases s.flipsRows <;> cases s.flipsColumns <;> rfl

/-! ## PERMUTE -/

/-- `Finalise()` on all registers at once (43_geometry R190). -/
theorem finalise_eq (s : State) : finalise s = { s with
    width := if 4 ≤ s.orient.toNat then s.height else s.width
    height := if 4 ≤ s.orient.toNat then s.width else s.height
    xmag := if 4 ≤ s.orient.toNat then s.ymag else s.xmag
    ymag := if 4 ≤ s.orient.toNat then s.xmag else s.ymag
    orient := 0 } := by
  rw [finalise, State.transposes_eq]
  by_cases h : 4 ≤ s.orient.toNat
  · simp only [decide_eq_true h, if_pos h, if_true]
  · simp only [decide_eq_false h, if_neg h, Bool.false_eq_true, if_false]

/-- Which bank is selected, and what it holds, is not `Finalise()`'s to change (43_geometry R190). -/
theorem finalise_sampleIn (s : State) (b : Bank) (a : Nat) : (finalise s).sampleIn b a = s.sampleIn b a := by
  rw [finalise_eq]
  cases b <;> rfl

theorem finalise_sample (s : State) (a : Nat) : (finalise s).sample a = s.sample a := by
  have hbank : (finalise s).activeBank = s.activeBank := by rw [finalise_eq]; rfl
  rw [State.sample, hbank, finalise_sampleIn]
  rfl

theorem finalise_complete (s : State) : (finalise s).complete = finalise s.complete := by
  rw [finalise_eq, finalise_eq]
  rfl

theorem exec_permute_of_legal (ha : s.accepting) (hi : s.legalImage) :
    exec .permute s = .next (finalise (s.imageCorrected 0x31 (permuteLane s))) := by
  have hphase : (finalise ((s.begin 0x31).rewriteImage (permuteLane (s.begin 0x31)))).phase = .idle := by rw [finalise_eq]; simp
  rw [State.imageCorrected, ← finalise_complete]
  exact exec_of_checks_pass (by decide) Instr.noConfusion rfl ha ((imageRegsFault_eq_none_iff (s.begin 0x31)).2 hi) rfl hphase

/-- The old place of a new pixel is in the old image, and its linear index is the source index (43_geometry R187). -/
theorem source_of_newPlace (s : State) (hr : row < (finalise s).height.toNat) (hc : col < (finalise s).width.toNat) :
    let old := orientSource s.orient.toNat s.height.toNat s.width.toNat row col
    old.1 < s.height.toNat ∧ old.2 < s.width.toNat ∧ row * (finalise s).width.toNat + col < s.pixels ∧
      s.source (row * (finalise s).width.toNat + col) = old.1 * s.width.toNat + old.2 := by
  rw [finalise] at hr hc ⊢
  rw [orientSource_eq, State.source, State.pixels]
  by_cases h : s.transposes = true
  · rw [if_pos h] at hr hc ⊢
    rw [if_pos h, h]
    exact ⟨mirrored_lt _ hc, mirrored_lt _ hr, Nat.mul_comm s.width.toNat _ ▸ (linearIndex hr hc).1,
      permuteSource_transposed _ _ hr hc⟩
  · rw [if_neg h] at hr hc ⊢
    rw [if_neg h, Bool.eq_false_of_not_eq_true h]
    exact ⟨mirrored_lt _ hr, mirrored_lt _ hc, (linearIndex hr hc).1, permuteSource_straight _ _ hr hc⟩

/-- Settles O50: the image is rewritten by the source index, and then the registers are. -/
theorem permuteMovesPixels : Obligations.PermuteMovesPixels := by
  intro s ha hi
  have hdone : ImageCommandDone 0x31 s (s.imageCorrected 0x31 (permuteLane s)) := imageCommandDone_rewriteImage 0x31 _ ha
  have hexec := exec_permute_of_legal ha hi
  have hlanes : ∀ p, p < s.pixels → ∀ k : Lane, (s.imageCorrected 0x31 (permuteLane s)).sample (4 * p + k.val) =
      s.sample (4 * s.source p + k.val) := fun p hp k => by rw [s.imageCorrected_sample 0x31 _ hp, permuteLane, Option.getD_some]
  generalize s.imageCorrected 0x31 (permuteLane s) = u at hdone hexec hlanes
  obtain ⟨hcompleted, hwarned, hready, honly, hother, hbeyond⟩ := hdone
  have hheight : (finalise u).height = (finalise s).height := by rw [honly, finalise_eq, finalise_eq]
  have hwidth : (finalise u).width = (finalise s).width := by rw [honly, finalise_eq, finalise_eq]
  have hended : Completed 0x31 (finalise u) ∧ (finalise u).warned = s.warned ∧ (finalise u).ljReady = s.ljReady := by
    rw [finalise_eq]
    exact ⟨hcompleted, hwarned, hready⟩
  obtain ⟨hcompleted', hwarned', hready'⟩ := hended
  refine ⟨_, hexec, hcompleted', hwarned', hready', ?_, fun a => ?_, fun a ha => ?_, fun row col k hr hc => ?_⟩
  · rw [honly, finalise_eq]
  · rw [finalise_sampleIn]
    exact hother a
  · rw [finalise_sample]
    exact hbeyond a ha
  · rw [hheight] at hr
    rw [hwidth] at hc
    obtain ⟨hrow, hcol, hp, hsource⟩ := source_of_newPlace s hr hc
    refine ⟨hrow, hcol, ?_⟩
    rw [finalise_sample, State.pixAddr, hwidth, hlanes _ hp, hsource, State.pixAddr]

end Sys2Proof.Machine
end

section
/-! PROOFS of the family 43_geometry, continued: DIAGRS (43_geometry R181 to R186). The machine computes the source position in natural numbers and the statement in
integers; below `wide` columns the row is never negative, so the two agree (`sourceRow_cast`). -/

namespace Sys2Proof.Machine

variable {s : State} {row col : Nat}

/-! ## The checks -/

theorem State.diagWide_eq (s : State) : s.diagWide = s.diagMag.toNat * 65536 / 46341 := by
  rw [State.diagWide, Nat.shiftLeft_eq]
  rfl

theorem State.diagHigh_eq (s : State) : s.diagHigh = (s.height.toNat - s.diagMag.toNat) * 65536 / 46341 := by
  rw [State.diagHigh, Nat.shiftLeft_eq]
  rfl

/-- DIAG_MAG lies inside the image, and both new dimensions are legal (43_geometry R182, R183). -/
def State.legalDiag (s : State) : Prop :=
  s.diagMag ≠ 0 ∧ s.diagMag.toNat < s.height.toNat ∧ 1 ≤ s.diagWide ∧ s.diagWide ≤ 65535 ∧ 1 ≤ s.diagHigh ∧ s.diagHigh ≤ 65535

theorem diagSizeFault_of_illegal (h : ¬ s.legalDiag) : diagSizeFault s = some ⟨.eMeta, s.diagMag.toNat⟩ := by
  unfold diagSizeFault
  by_cases hmag : s.diagMag = 0 ∨ s.height ≤ s.diagMag
  · exact if_pos hmag
  · rw [if_neg hmag, if_pos]
    by_contra hsize
    rw [not_or, BitVec.le_def] at hmag
    exact h ⟨hmag.1, by omega, by omega, by omega, by omega, by omega⟩

theorem diagSizeFault_of_legal (h : s.legalDiag) :
    diagSizeFault s = if s.params.imgCap < s.diagWide * s.diagHigh then some ⟨.eResource, (s.diagWide * s.diagHigh : Nat)⟩ else none := by
  obtain ⟨hne, hlt, hwide, hwide', hhigh, hhigh'⟩ := h
  rw [diagSizeFault, if_neg (by rw [not_or, BitVec.le_def]; exact ⟨hne, by omega⟩), if_neg (by omega)]

theorem diagrsFault_of_enabled (hi : s.legalImage) (hd : s.diagEnabled = true) : diagrsFault s = diagSizeFault s := by
  rw [diagrsFault, (imageRegsFault_eq_none_iff s).2 hi, Option.none_or, if_pos hd]

/-- Settles O20: the image registers are legal, so the first of DIAGRS's own checks that fails is the fault. -/
theorem diagrsChecks : Obligations.DiagrsChecks := by
  intro s wide high ha hi hd hw hh
  rw [← s.diagWide_eq] at hw
  rw [← s.diagHigh_eq] at hh
  subst hw hh
  have hcheck : diagrsFault (s.begin 0x30) = diagSizeFault s := diagrsFault_of_enabled (s := s.begin 0x30) hi hd
  refine ⟨fun hbad => ?_, fun hne hlt hwide hwide' hhigh hhigh' hcap => ?_⟩
  · have hillegal : ¬ s.legalDiag := fun ⟨hne, hlt, hwide, hwide', hhigh, hhigh'⟩ => hbad.elim hne (by omega)
    exact commandFaults_of_checked (f := ⟨.eMeta, s.diagMag.toNat⟩) (by decide) Instr.noConfusion rfl ha
      (hcheck.trans (diagSizeFault_of_illegal hillegal))
  · have hlegal : s.legalDiag := ⟨hne, hlt, hwide, hwide', hhigh, hhigh'⟩
    exact commandFaults_of_checked (f := ⟨.eResource, (s.diagWide * s.diagHigh : Nat)⟩) (by decide) Instr.noConfusion rfl ha
      (hcheck.trans ((diagSizeFault_of_legal hlegal).trans (if_pos hcap)))

/-! ## The source position -/

/-- Inside the new image one step more than `col` of them fits DIAG_MAG, so the source row is at least a step (43_geometry R183, R184). -/
theorem steps_le_diagMag (hc : col < s.diagWide) : (col + 1) * 46341 ≤ s.diagMag.toNat * 65536 := by
  have hle : col + 1 ≤ s.diagMag.toNat * 65536 / 46341 := s.diagWide_eq ▸ hc
  exact (Nat.le_div_iff_mul_le (by decide)).1 hle

theorem sourceRow_cast (row : Nat) (hc : col < s.diagWide) : (s.diagSource row col).1 = s.sourceRow row col := by
  have hle := steps_le_diagMag hc
  rw [State.diagSource, State.sourceRow, Nat.shiftLeft_eq, show Config.diagStep = 46341 from rfl]
  omega

theorem sourceCol_cast (s : State) (row col : Nat) : (s.diagSource row col).2 = sourceCol row col := by
  rw [State.diagSource, sourceCol, show Config.diagStep = 46341 from rfl]
  omega

theorem diagSource_row_ge (row : Nat) (hc : col < s.diagWide) : 46341 ≤ (s.diagSource row col).1 := by
  have hle := steps_le_diagMag hc
  rw [State.diagSource]
  omega

/-! ## Bilinear interpolation -/

/-- A weighted mean of two values is at most their bound. -/
theorem interpolated_le {a b m n f : Nat} (ha : a ≤ m) (hb : b ≤ m) (hf : f ≤ n) : a * (n - f) + b * f ≤ m * n :=
  calc a * (n - f) + b * f ≤ m * (n - f) + m * f := Nat.add_le_add (Nat.mul_le_mul_right _ ha) (Nat.mul_le_mul_right _ hb)
    _ = m * n := by rw [← Nat.mul_add, Nat.sub_add_cancel hf]

theorem bilerp_eq (s : State) (k : Lane) (r c : Nat) : bilerp s k (r >>> 16) (c >>> 16) (r % 65536) (c % 65536) = s.bilinearAt k r c := by
  simp only [bilerp, State.bilinearAt, Nat.shiftRight_eq_div_pow, Nat.reducePow]

/-- An interpolated value is a sample (43_geometry R184). -/
theorem bilinearAt_lt (s : State) (k : Lane) (r c : Nat) : s.bilinearAt k r c < 2 ^ 16 := by
  have hr : r % 65536 ≤ 65536 := (Nat.mod_lt r (by decide)).le
  have hc : c % 65536 ≤ 65536 := (Nat.mod_lt c (by decide)).le
  have hrow : ∀ u, s.pix u (c / 65536) k * (65536 - c % 65536) + s.pix u (c / 65536 + 1) k * (c % 65536) ≤ 65535 * 65536 :=
    fun u => interpolated_le (s.pix_le _ _ k) (s.pix_le _ _ k) hc
  have hboth := interpolated_le (hrow (r / 65536)) (hrow (r / 65536 + 1)) hr
  exact Nat.div_lt_of_lt_mul (lt_of_le_of_lt hboth (by decide))

/-- The pixel's source rectangle and its lane lie in the image (43_geometry R185). -/
def State.diagInside (s : State) (r c : Nat) (k : Lane) : Prop :=
  r / 65536 + 2 ≤ s.height.toNat ∧ c / 65536 + 2 ≤ s.width.toNat ∧ k.val < s.colors.toNat

theorem diagSample_of_inside {k : Lane} (h : s.diagInside (s.sourceRow row col) (sourceCol row col) k) :
    (diagSample s row col k).toNat = s.bilinearAt k (s.sourceRow row col) (sourceCol row col) := by
  obtain ⟨hr, hc, hk⟩ := h
  rw [diagSample, if_neg, bilerp_eq, BitVec.toNat_ofNat, Nat.mod_eq_of_lt (bilinearAt_lt s k _ _)]
  simp only [Nat.shiftRight_eq_div_pow, Nat.reducePow]
  omega

theorem diagSample_of_not_inside {k : Lane} (h : ¬ s.diagInside (s.sourceRow row col) (sourceCol row col) k) : diagSample s row col k = 0 := by
  refine if_pos ?_
  unfold State.diagInside at h
  simp only [Nat.shiftRight_eq_div_pow, Nat.reducePow]
  omega

/-! ## The new image -/

theorem resample_eq (s : State) : resample s = { s with
    img0 := (resample s).img0, img1 := (resample s).img1, imgSel := s.imgSel + 1, ctrl := setBit s.ctrl 4 false
    width := BitVec.ofNat 16 s.diagWide, height := BitVec.ofNat 16 s.diagHigh, diagMag := 0 } := by
  unfold resample State.rewriteBank
  cases s.activeBank.other <;> rfl

/-- IMG_SEL toggles (43_geometry R186). -/
theorem resample_activeBank (s : State) : (resample s).activeBank = s.activeBank.other := by
  have htoggle : ∀ b : BitVec 1, (if b + 1 = 0 then Bank.bank0 else .bank1) = (if b = 0 then Bank.bank0 else .bank1).other := by decide
  exact htoggle s.imgSel

theorem resample_sampleIn (s : State) (b : Bank) (a : Nat) : (resample s).sampleIn b a =
    if b = s.activeBank.other ∧ a < 4 * (s.diagWide * s.diagHigh) then
      diagSample s (a / 4 / s.diagWide) (a / 4 % s.diagWide) (laneOf (a % 4))
    else s.sampleIn b a := by
  have hfilled : (resample s).sampleIn b a = (s.rewriteBank s.activeBank.other 0 (4 * (s.diagWide * s.diagHigh))
      (fun a => some (diagSample s (a / 4 / s.diagWide) (a / 4 % s.diagWide) (laneOf (a % 4))))).sampleIn b a := by
    cases b <;> rfl
  rw [hfilled, State.sampleIn_rewriteBank]
  simp

/-- The old image stays in its bank (43_geometry R186). -/
theorem resample_oldBank (s : State) (a : Nat) : (resample s).sampleIn s.activeBank a = s.sampleIn s.activeBank a := by
  rw [resample_sampleIn, if_neg fun h => Bank.other_ne _ h.1.symm]

theorem resample_beyond (s : State) {a : Nat} (h : 4 * (s.diagWide * s.diagHigh) ≤ a) :
    (resample s).sample a = s.sampleIn s.activeBank.other a := by
  rw [State.sample, resample_activeBank, resample_sampleIn, if_neg fun h' => absurd h'.2 (not_lt.2 h)]

/-- A lane of a pixel of the new image. -/
theorem resample_pix (hw : s.diagWide ≤ 65535) (hr : row < s.diagHigh) (hc : col < s.diagWide) (k : Lane) :
    (resample s).pix row col k = (diagSample s row col k).toNat := by
  have hwidth : (resample s).width.toNat = s.diagWide := by
    rw [resample_eq]
    exact Nat.mod_eq_of_lt (Nat.lt_succ_of_le hw)
  obtain ⟨hp, hdiv, hmod⟩ := linearIndex hr hc
  have hk := k.isLt
  have hpixel : (4 * (row * s.diagWide + col) + k.val) / 4 = row * s.diagWide + col := by omega
  have hlane : (4 * (row * s.diagWide + col) + k.val) % 4 = k.val := by omega
  rw [State.pix, State.pixAddr, hwidth, State.sample, resample_activeBank, resample_sampleIn, if_pos ⟨rfl, by omega⟩, hpixel, hlane, hdiv,
    hmod, laneOf_val]

/-! ## DIAGRS -/

/-- The state in which a resampling DIAGRS ends. -/
def State.resampled (s : State) : State := (resample (s.begin 0x30)).complete

theorem exec_diagrs_of_legal (ha : s.accepting) (hi : s.legalImage) (hd : s.diagEnabled = true) (hl : s.legalDiag)
    (hcap : s.diagWide * s.diagHigh ≤ s.params.imgCap) : exec .diagrs s = .next s.resampled := by
  have hfault : diagrsFault (s.begin 0x30) = none :=
    (diagrsFault_of_enabled (s := s.begin 0x30) hi hd).trans ((diagSizeFault_of_legal hl).trans (if_neg (not_lt.2 hcap)))
  exact exec_of_checks_pass (by decide) Instr.noConfusion rfl ha hfault (if_pos hd) (by rw [resample_eq]; rfl)

/-- Everything but the two banks, IMG_SEL and CTRL (43_geometry R186). -/
theorem State.resampled_eq (s : State) : s.resampled = { s with
    cmd := s.resampled.cmd, status := s.resampled.status, phase := s.resampled.phase, img0 := s.resampled.img0, img1 := s.resampled.img1
    imgSel := s.resampled.imgSel, ctrl := s.resampled.ctrl
    width := BitVec.ofNat 16 s.diagWide, height := BitVec.ofNat 16 s.diagHigh, diagMag := 0 } := by
  rw [State.resampled, resample_eq]
  rfl

/-- The resampling leaves STATUS as `begin` set it, so the command ends as one without effect does. -/
theorem completed_resampled (ha : s.accepting) :
    Completed 0x30 s.resampled ∧ s.resampled.warned = s.warned ∧ s.resampled.ljReady = s.ljReady := by
  obtain ⟨hdone, hwarned, hready, -⟩ := completed_begin_complete 0x30 ha
  rw [State.resampled, resample_eq]
  exact ⟨hdone, hwarned, hready⟩

/-- DIAG_EN is consumed and the other control bits are kept (43_geometry R186). -/
theorem State.resampled_ctrl (s : State) (i : Nat) :
    s.resampled.ctrl.getLsbD i = if 4 = i then false else s.ctrl.getLsbD i := by
  have hctrl : s.resampled.ctrl = setBit s.ctrl 4 false := rfl
  rw [hctrl, getLsbD_setBit]
  simp

theorem State.resampled_sampleIn (s : State) (b : Bank) (a : Nat) : s.resampled.sampleIn b a = (resample s).sampleIn b a := by
  rw [State.resampled, State.complete_sampleIn, resample_sampleIn, resample_sampleIn, State.begin_sampleIn]
  rfl

theorem State.resampled_sample (s : State) (a : Nat) : s.resampled.sample a = (resample s).sample a := State.resampled_sampleIn s _ a

theorem State.resampled_pix (s : State) (row col : Nat) (k : Lane) : s.resampled.pix row col k = (resample s).pix row col k :=
  congrArg BitVec.toNat (s.resampled_sample _)

/-- Settles O49: the other bank holds the resampled pixels, whose source positions are the statement's. -/
theorem diagrsResamples : Obligations.DiagrsResamples := by
  intro s wide high ha hi hd hw hh hne hlt hwide hwide' hhigh hhigh' hcap
  rw [← s.diagWide_eq] at hw
  rw [← s.diagHigh_eq] at hh
  subst hw hh
  have hexec := exec_diagrs_of_legal ha hi hd ⟨hne, hlt, hwide, hwide', hhigh, hhigh'⟩ hcap
  obtain ⟨hdone, hwarned, hready⟩ := completed_resampled ha
  refine ⟨_, hexec, hdone, hwarned, hready, s.resampled_eq, resample_activeBank (s.begin 0x30), s.resampled_ctrl 4, s.resampled_ctrl 0,
    s.resampled_ctrl 1, s.resampled_ctrl 2, s.resampled_ctrl 3, fun a => ?_, fun a h => ?_, fun row col k hr hc => ?_⟩
  · rw [State.resampled_sampleIn, resample_oldBank]
  · rw [State.resampled_sample, resample_beyond s h]
  · refine ⟨diagSource_row_ge row hc, ?_⟩
    rw [State.resampled_pix, resample_pix hwide' hr hc, sourceRow_cast row hc, sourceCol_cast, Int.toNat_natCast, Int.toNat_natCast]
    refine ⟨fun hout => ?_, fun hrow hcol hlane => diagSample_of_inside ⟨hrow, hcol, hlane⟩⟩
    rw [diagSample_of_not_inside (fun ⟨hrow, hcol, hlane⟩ => by omega)]
    rfl

end Sys2Proof.Machine
end

section
/-! PROOFS of the family 60_exceptions: what FAULT stops, what INIT restores, and the two checks that commands begin with (60_exceptions R202, R203, R206, R208). -/

namespace Sys2Proof.Machine

variable {s : State} {w : BitVec 8} {i : Instr}

/-! ## While a fault is latched -/

/-- Every command but INIT is refused while a fault is latched (60_exceptions R206). -/
theorem exec_command_of_faulted (hw : (w, i) ∈ commandWords) (hi : i ≠ .init) (hf : s.faulted = true) : exec i s = .next s := by
  rw [exec_command hw hi, command_of_faulted w _ hf]

/-- INIT's is the only word that names INIT (30_encoding R80). -/
theorem commandWord_init_iff (w : BitVec 8) : (w, Instr.init) ∈ commandWords ↔ w = 0xFF := by
  simp [commandWords]

/-- A host write to CMD of any word but INIT's is ignored while a fault is latched, whether the word is defined or not (60_exceptions R206). -/
theorem step_word_of_faulted {v : BitVec 32} {rest : List HostOp} (hp : s.params.wf = true) (hi : s.phase = .idle)
    (hin : s.inputs = .writeReg 0 v :: rest) (hf : s.faulted = true) (hv : v.setWidth 8 ≠ (0xFF : BitVec 8)) :
    step s = .next { s with inputs := rest } := by
  by_cases hdefined : ∃ i, (v.setWidth 8, i) ∈ commandWords
  · obtain ⟨i, hw⟩ := hdefined
    have hinit : i ≠ .init := fun h => hv ((commandWord_init_iff _).1 (h ▸ hw))
    rw [step_defined_word hp hi hin hw]
    exact exec_command_of_faulted (s := { s with inputs := rest }) hw hinit hf
  · rw [step_undefined_word hp hi hin (fun i hw => hdefined ⟨i, hw⟩)]
    exact congrArg _ (command_of_faulted (s := { s with inputs := rest }) _ _ hf)

/-- Settles O10: a word asks for FAULT before anything else, and only INIT and the host's other accesses do not. -/
theorem refusedWhileFaulted : Obligations.RefusedWhileFaulted := by
  refine ⟨fun s w i hw hi _ hf => exec_command_of_faulted hw hi hf, fun s v rest hp hi _ hf hin => ⟨?_, fun hv => ?_⟩,
    fun s op rest hp hi _ _ hin hop => step_host_act hp hi hin hop⟩
  · exact step_word_of_faulted hp hi hin hf
  · exact step_defined_word hp hi hin ((commandWord_init_iff _).2 hv)

/-! ## INIT -/

/-- While idle INIT takes effect with or without a latched fault (60_exceptions R208). -/
theorem exec_init_of_idle (hb : s.busy = false) : exec .init s = .next s.initialise := by
  rw [exec, execInit, hb]
  rfl

/-- The registers tell neither the memories nor what is not the machine's, so after INIT they read as after reset. -/
theorem readRegister_initialise (s : State) (n : Nat) : readRegister s.initialise n = 0 := by
  have hsame : readRegister s.initialise n = readRegister State.reset n := by
    unfold readRegister
    rfl
  rw [hsame, readRegister_reset]

theorem State.initialise_strByte (s : State) (a : Nat) : s.initialise.strByte a = s.strByte a := rfl

theorem State.initialise_sampleIn (s : State) (b : Bank) (a : Nat) : s.initialise.sampleIn b a = s.sampleIn b a := by
  cases b <;> rfl

/-- Settles O12: INIT's end state is the reset state with the memories and what is not the machine's put back. -/
theorem initRestoresResetValues : Obligations.InitRestoresResetValues := fun s hb =>
  ⟨s.initialise, exec_init_of_idle hb, readRegister_initialise s, rfl, fun c => Quad.get_all none c, rfl, s.initialise_strByte,
    s.initialise_sampleIn, rfl, rfl, rfl, rfl, rfl⟩

/-! ## The image registers -/

theorem imageRegsFault_of_zero (h : s.width = 0 ∨ s.height = 0) : imageRegsFault s = some ⟨.eMeta, 0⟩ := if_pos h

theorem legalColors_iff (c : BitVec 3) : legalColors c.toNat = true ↔ c = 1 ∨ c = 3 ∨ c = 4 := by
  revert c
  decide

theorem imageRegsFault_of_colors (hw : s.width ≠ 0) (hh : s.height ≠ 0) (hc : ¬ (s.colors = 1 ∨ s.colors = 3 ∨ s.colors = 4)) :
    imageRegsFault s = some ⟨.eMeta, s.colors.toNat⟩ := by
  have hillegal : legalColors s.colors.toNat = false := Bool.eq_false_of_not_eq_true fun h => hc ((legalColors_iff _).1 h)
  rw [imageRegsFault, if_neg (not_or.2 ⟨hw, hh⟩), if_pos hillegal]

theorem imageRegsFault_of_pixels (hw : s.width ≠ 0) (hh : s.height ≠ 0) (hc : s.colors = 1 ∨ s.colors = 3 ∨ s.colors = 4)
    (hcap : s.params.imgCap < s.width.toNat * s.height.toNat) :
    imageRegsFault s = some ⟨.eResource, (s.width.toNat * s.height.toNat : Nat)⟩ := by
  have hlegal : ¬ legalColors s.colors.toNat = false := Bool.not_eq_false _ ▸ (legalColors_iff _).2 hc
  rw [imageRegsFault, if_neg (not_or.2 ⟨hw, hh⟩), if_neg hlegal]
  exact if_pos hcap

/-- A fault of the image registers ends every command but INIT, and LJROW where LJ_READY lets it come so far (60_exceptions R202). -/
theorem commandFaults_of_imageRegsFault {f : Raised} (hw : (w, i) ∈ commandWords) (hi : i ≠ .init) (ha : s.accepting)
    (hr : i = .ljrow → s.ljReady = true) (hf : imageRegsFault s = some f) : CommandFaults i w f.cause.code.toNat f.info s := by
  have hready : i = .ljrow → (s.begin w).ljReady = true := fun h => (State.begin_ljReady s w).trans (hr h)
  have hfault : imageRegsFault (s.begin w) = some f := (imageRegsFault_begin s w).trans hf
  exact commandFaults_of_check ha (exec_command hw hi s) (commandBody_imageRegsFault hw hi hfault hready)

/-- Settles O16: the first line of `CheckImageRegs` that fails is the fault of the command. -/
theorem imageRegisterChecks : Obligations.ImageRegisterChecks := by
  intro s w i hw hi ha hr
  refine ⟨fun hzero => ?_, fun hwidth hheight h1 h3 h4 => ?_, fun hwidth hheight hcolors hcap => ?_⟩
  · exact commandFaults_of_imageRegsFault hw hi ha hr (imageRegsFault_of_zero hzero)
  · have hcolors : ¬ (s.colors = 1 ∨ s.colors = 3 ∨ s.colors = 4) := not_or.2 ⟨h1, not_or.2 ⟨h3, h4⟩⟩
    exact commandFaults_of_imageRegsFault hw hi ha hr (imageRegsFault_of_colors hwidth hheight hcolors)
  · exact commandFaults_of_imageRegsFault hw hi ha hr (imageRegsFault_of_pixels hwidth hheight hcolors hcap)

/-! ## The CFA word -/

theorem cfaField_eq_cfaNumber (s : State) (j : Nat) : (cfaField s.cfa j).val = s.cfaNumber j := cfaField_val s.cfa j

/-- The lowest field of the CFA word that names no channel (60_exceptions R203). -/
theorem cfaFault_of_field {k : Nat} (hk : k < 16) (hbad : s.colors.toNat ≤ s.cfaNumber k)
    (hbelow : ∀ j, j < k → s.cfaNumber j < s.colors.toNat) : cfaFault s = some ⟨.eCfa, k⟩ := by
  have hlowest : (List.range 16).find? (fun j => decide (s.colors.toNat ≤ (cfaField s.cfa j).val)) = some k := by
    simp only [cfaField_eq_cfaNumber]
    rw [List.find?_range_eq_some]
    exact ⟨by simpa using hbad, List.mem_range.2 hk, fun j hj => by simpa using hbelow j hj⟩
  rw [cfaFault, hlowest]
  rfl

/-- Settles O17: the image registers pass, so the lowest bad field is the fault of the command. -/
theorem cfaFieldCheck : Obligations.CfaFieldCheck := by
  intro s w i k hw hi ha hr himg hk hbad hbelow
  have hinit : i ≠ .init := by rintro rfl; simp at hi
  have hready : i = .ljrow → (s.begin w).ljReady = true := fun h => (State.begin_ljReady s w).trans (hr h)
  have himage : imageRegsFault (s.begin w) = none := (imageRegsFault_eq_none_iff s).2 himg
  have hfault : cfaFault (s.begin w) = some ⟨.eCfa, k⟩ := (cfaFault_begin s w).trans (cfaFault_of_field hk hbad hbelow)
  exact commandFaults_of_check ha (exec_command hw hinit s) (commandBody_cfaFault hi himage hfault hready)

end Sys2Proof.Machine
end
